-- ==== Sys2Proof/Word.lean ====
section
/-! DEFINITION. The word types of the Kepron KL32 and the index types of its fixed banks. -/

namespace Sys2Proof

/-- A byte on an agent link (10, section 10.7). -/
abbrev Byte := BitVec 8

/-- A management register: "Management registers are 32 bits wide" (00, section 0.6). -/
abbrev Word := BitVec 32

/-- A resource key (00, section 0.6). -/
abbrev Key := BitVec 64

/-- A fencing token (02, R47). -/
abbrev Token := BitVec 64

/-- An agent number, 0..31 (00, section 0.6; 06, R107). -/
abbrev Agent := Fin 32

/-- One of an agent's 16 tags (06, R113). -/
abbrev Tag := Fin 16

/-- An agent port, A0..A3 (00, Table 0-1). -/
abbrev Port := Fin 4

/-- A slot on the node bridge of a port (05, Table 5-1). -/
abbrev Slot := Fin 8

/-- A sparse table: entries by number, strictly rising; an entry at its free value is not listed. -/
abbrev Table (α : Type) := List (Nat × α)

end Sys2Proof
end

