-- ==== Sys2Proof/Syntax.lean ====
section
/-! DEFINITION. The commands of the KL32: one constructor per row of spec/opcode_table.json, in its order. -/

namespace Sys2Proof

/-- The three counted pools (08, Table 8-1), in the order of their codes 0, 1, 2. -/
inductive Pool where
  | lockTable
  | leasePool
  | waitPool
deriving DecidableEq, Repr

/-- One step of one block. An engine take carries no operand: the arbiter's choice, the FIFO head, the offered
item, the mailbox and the sweep list say what is taken (09, R152). A received frame carries all its bytes,
from the kind byte to the frame check (10, R182); a register write carries the 32 data bits (11, R203). -/
inductive Instr where
  | deviceReset
  | tick
  | markDue
  | join
  | acquire
  | release
  | renew
  | keepalive
  | upgrade
  | downgrade
  | cancel
  | query
  | malformed
  | withdraw
  | leaseExpiry
  | waitTimeout
  | upgradeTimeout
  | fenceStep
  | quiesceStep
  | abortStep
  | emptyTake
  | tagComplete (p : Port)
  | commandPlaced (value : Word)
  | setDomain
  | getDomain
  | setAgent
  | getAgent
  | seed
  | start
  | quiesce
  | abort
  | fence
  | admitAgent
  | forceRelease
  | inspectLock
  | inspectLease
  | setPressure
  | unknownCommand
  | countArrival (pool : Pool)
  | tickPeriodWrite (value : Word)
  | linkCtrlWrite (value : Word)
  | eventsClear (value : Word)
  | frameErrorClear (value : Word)
  | nowLoRead
  | poolMarkRead (pool : Pool)
  | registerWrite (addr : BitVec 7) (value : Word)
  | signalArrives (p : Port)
  | signalLost (p : Port)
  | sendTrain (p : Port)
  | trainReceived (p : Port) (frame : List Byte)
  | trainAckReceived (p : Port) (frame : List Byte)
  | creditReceived (p : Port) (frame : List Byte)
  | messageReceived (p : Port) (frame : List Byte)
  | frameCheckFailed (p : Port) (frame : List Byte)
  | transmitFrame (p : Port)
  | transmissionComplete (p : Port)
  | unknownKindFrameReceived (p : Port) (frame : List Byte)
deriving DecidableEq, Repr

end Sys2Proof
end

