-- ==== Sys2Proof/Config.lean ====
section
/-! DEFINITION. What the part fixes: capacities, codes and reset values named by the manual; and the two values it
leaves open, uninterpreted constants. -/

namespace Sys2Proof.Config

/-- Lock table capacity (01, R1). -/
def lockCapacity : Nat := 4096

/-- Lease pool capacity (02, R27). -/
def leaseCapacity : Nat := 8192

/-- Wait pool capacity (03, R50). -/
def waitCapacity : Nat := 2048

/-- The end value of the token counter, 2^64 − 1 (02, R48). -/
def tokenEnd : Token := 0xFFFFFFFFFFFFFFFF#64

/-- An agent's quota after device reset (04, R73). -/
def resetQuota : Nat := 256

/-- The largest quota (04, R73). -/
def maxQuota : Nat := 1024

/-- The largest count of a LOST notice (02, R44). -/
def maxLossCount : Nat := 1024

/-- The tick period after device reset, in microseconds (07, R130). -/
def resetTickPeriod : BitVec 16 := 1000#16

/-- The shortest tick period, in microseconds (07, R130). -/
def minTickPeriod : Nat := 100

/-- The wait ticks, and the wait cap, that mean an unbounded wait (03, Table 3-2). -/
def unboundedTicks : Nat := 65535

/-- The credits of one direction of the ingress account (10, R163, R169). -/
def ingressTotal : Nat := 16

/-- The largest egress credit count (10, R175). -/
def maxEgress : Nat := 255

/-- The length of a request message (10, Table 10-3). -/
def requestLength : Nat := 24

/-- The ID register (11, Table 11-4). -/
def idWord : Word := 0x4B503201#32

/-- The positions of EVENTS that a flag occupies (11, Table 11-4): 5..0, 15..8 and 18..16. -/
def eventMask : Word := 0x0007FF3F#32

/-- FREE VALUE: how many acts a port's transmitter makes inside a work item, just before the item hands the port one more
entry, where the item has handed it an entry or a credit before and the order tells; at each such moment a number of its own. R157 lets a port
begin an entry handed to it earlier in the same item and does not say whether it does (09, R157; log entry 3). -/
opaque actsInside : Nat → Nat

/-- FREE VALUE: how many older published counts of a pool a newer one has superseded when the monitor evaluates it, where
several are outstanding; at each such evaluation a number of its own, taken within what is outstanding. R143 does not say
when a published count arrives (08, R143; log entry 27). -/
opaque countsSuperseded : Nat → Nat

end Sys2Proof.Config
end

