-- ==== Sys2Proof/Machine/State.lean ====
section
/-! DEFINITION. Everything the manual gives the part to hold, as plain data, and the part right after device
reset. INVENTORY.md, "State", lists every field with its rule and reset value. -/

namespace Sys2Proof.Machine

/-- SHARED or EXCLUSIVE (00, section 0.6). -/
inductive Mode where
  | shared
  | exclusive
deriving DecidableEq, Repr

/-- Agent states (06, Table 6-2). -/
inductive AgentState where
  | disabled
  | active
  | fencing
  | fenced
deriving DecidableEq, Repr

/-- Tag states (06, Table 6-5). -/
inductive TagState where
  | free
  | waiting
  | upgrading
  | replying
deriving DecidableEq, Repr

/-- Part states (11, Table 11-1). -/
inductive PartState where
  | halted
  | running
  | quiescing
  | aborting
deriving DecidableEq, Repr

/-- Link states (10, Table 10-1). -/
inductive LinkState where
  | down
  | training
  | up
deriving DecidableEq, Repr

/-- Pool levels (08, R145). -/
inductive Level where
  | normal
  | high
  | shed
deriving DecidableEq, Repr

/-- Reply status codes, in the order of their codes 0..27 (05, Table 5-4). -/
inductive Status where
  | granted
  | done
  | conflict
  | timedOut
  | cancelled
  | tooLate
  | notWaiting
  | alreadyHeld
  | alreadyWaiting
  | deadlock
  | noLease
  | notHolder
  | notShared
  | notExclusive
  | noDomain
  | denied
  | quota
  | full
  | shed
  | queueLimit
  | fenced
  | staleEpoch
  | notAdmitted
  | halted
  | quiesced
  | tagBusy
  | malformed
  | lost
deriving DecidableEq, Repr

/-- Reasons of a loss (02, Table 2-3). -/
inductive LossReason where
  | expired
  | forced
  | aborted
deriving DecidableEq, Repr

/-- Mailbox states (11, R191). -/
inductive MailState where
  | idle
  | pending
  | running
  | done
deriving DecidableEq, Repr

/-- Command results, in the order of their codes 0..7 (11, R204). -/
inductive CmdResult where
  | ok
  | busy
  | notHalted
  | notReady
  | invalid
  | already
  | notFound
  | notAdmitted
deriving DecidableEq, Repr

/-- A lease handle: entry number and generation (02, R29). -/
structure Handle where
  num : Nat
  gen : Byte
deriving DecidableEq, Repr

/-- An IN_USE lease entry (02, Table 2-1). Its handle is its number with the entry's generation. -/
structure Lease where
  agent : Agent
  record : Nat
  mode : Mode
  token : Token
  duration : Nat
  ownDeadline : Nat
deriving DecidableEq, Repr

/-- A lease entry that is not FREE (02, R27). -/
inductive LeaseSlot where
  | reserved (agent : Agent) (wait : Nat)
  | inUse (lease : Lease)
deriving DecidableEq, Repr

/-- An IN_USE wait entry (03, Table 3-1). -/
structure WaitEntry where
  record : Nat
  agent : Agent
  tag : Tag
  mode : Mode
  leaseTicks : Nat
  deadline : Option Nat
  reserved : Nat
deriving DecidableEq, Repr

/-- An occupied upgrade slot (01, R18). -/
structure Upgrade where
  lease : Handle
  tag : Tag
  deadline : Option Nat
deriving DecidableEq, Repr

/-- A lock record (01, Table 1-5). -/
@[ext]
structure LockRecord where
  key : Key
  domain : Fin 16
  mode : Mode
  holders : List Handle
  queue : List Nat
  slot : Option Upgrade
  lastToken : Token
deriving DecidableEq, Repr

/-- A domain entry as stored (04, Table 4-1); modes and policy are the codes of Table 11-5. -/
structure Domain where
  valid : Bool
  upgradeAllowed : Bool
  modes : BitVec 2
  policy : BitVec 2
  base : Key
  mask : Key
  agents : Word
  leaseDefault : BitVec 16
  leaseMax : BitVec 16
  waitCap : BitVec 16
  queueLimit : Byte
deriving DecidableEq, Repr

/-- An agent record (06, Table 6-1); its wait count is computed from the wait pool. -/
@[ext]
structure AgentRec where
  state : AgentState
  epoch : BitVec 16
  quota : Nat
  keepalive : Nat
  leases : List Handle
  tags : Vector TagState 16
deriving DecidableEq, Repr

/-- A sweep job (06, R124); the Bool says whether the mailbox's command is attached to it. -/
inductive Job where
  | fence (agent : Agent) (attached : Bool)
  | quiesce (next : Nat) (attached : Bool)
  | abort (next : Nat) (attached : Bool)
deriving DecidableEq, Repr

/-- A timed entry: kind and number (07, Table 7-1). -/
inductive TimedEntry where
  | upgrade (record : Nat)
  | wait (entry : Nat)
  | lease (number : Nat)
deriving DecidableEq, Repr

/-- A member the arbiter can choose (09, Table 9-2). -/
inductive Member where
  | port (p : Port)
  | withdraw
  | timer
  | mgmt
  | sweep
deriving DecidableEq, Repr

/-- A request message, field by field (10, Table 10-5). -/
structure Request where
  kind : Byte
  slot : Slot
  tag : Tag
  epoch : BitVec 16
  key : Key
  mode : Byte
  target : Byte
  waitTicks : BitVec 16
  leaseTicks : BitVec 16
  leaseNum : BitVec 16
  gen : Byte
deriving DecidableEq, Repr

/-- The info area of a reply (10, Table 10-7). -/
inductive ReplyInfo where
  | none
  | join (epoch quota leases : BitVec 16)
  | keepalive (leases : BitVec 16)
  | query (mode holders waiters upgrade : Byte)
deriving DecidableEq, Repr

/-- What a reply carries besides slot, tag, status and echoed kind (05, Table 5-3): zero where not filled. -/
structure Content where
  num : BitVec 16 := 0
  gen : Byte := 0
  mode : Byte := 0
  token : Token := 0
  ticks : BitVec 16 := 0
  info : ReplyInfo := .none
deriving DecidableEq, Repr

/-- Who a reply queue entry belongs to: an agent's tag, or a withheld credit (10, R173). -/
inductive Owner where
  | tag (agent : Agent) (tag : Tag)
  | credit
deriving DecidableEq, Repr

/-- A reply queue entry (10, R173). -/
structure Reply where
  owner : Owner
  slot : Slot
  tag : Tag
  status : Status
  kind : Byte
  content : Content
deriving DecidableEq, Repr

/-- A notice (02, Table 2-3). -/
inductive Notice where
  | lost (slot : Slot) (count : Nat) (lease : Handle) (reason : LossReason)
  | fence (slot : Slot) (epoch : BitVec 16)
deriving DecidableEq, Repr

/-- The queue served next when both egress queues hold entries (10, Table 10-1). -/
inductive EgressTurn where
  | reply
  | notice
deriving DecidableEq, Repr

/-- A frame the transmitter is sending (10, Table 10-3). -/
inductive TxFrame where
  | train
  | trainAck
  | credit (count : Nat)
  | reply (r : Reply)
  | notice (n : Notice)
deriving DecidableEq, Repr

/-- One agent port (10, Table 10-1), with its two inputs, the frame being sent and the TRAIN interval flag. -/
@[ext]
structure PortState where
  link : LinkState
  heldDown : Bool
  withdrawPending : Bool
  fifo : List Request
  ingressCredits : Nat
  unsentReturns : Nat
  withheld : Nat
  egressCredits : Nat
  replyQ : List Reply
  noticeQ : List Notice
  egressTurn : EgressTurn
  ackOwed : Bool
  reports : List (Agent × Tag)
  frameError : Bool
  enable : Bool
  signal : Bool
  tx : Option TxFrame
  trainDue : Bool
deriving DecidableEq, Repr

/-- One counted pool's side of the monitor, with the published counts that it has not evaluated, oldest first
(08, R143 to R145), and its POOL_MARK latch (11, R201). -/
@[ext]
structure PoolState where
  level : Level
  low : Nat
  high : Nat
  shed : Nat
  evaluated : Nat
  published : List Nat
  shedLatch : Nat
deriving DecidableEq, Repr

/-- The monitor's three pools (08, Table 8-1). -/
structure PoolStates where
  lockTable : PoolState
  leasePool : PoolState
  waitPool : PoolState
deriving DecidableEq, Repr

/-- The command mailbox (11, R191). -/
@[ext]
structure Mailbox where
  state : MailState
  code : Byte
  auto : Bool
  abortEnded : Bool
  latched : Vector Word 8
  result : CmdResult
deriving DecidableEq, Repr

/-- The whole part, and the queue of commands that are waiting. Two fields are the model's own: `handed`, the
ports that the work item under way has handed an entry or a credit, and `freeDraws`, how many free values have been drawn
(09, R157, log entry 3; 08, R143, log entry 27). -/
@[ext]
structure State where
  now : Nat
  tickPeriod : BitVec 16
  tickPos : Nat
  marks : List TimedEntry
  offered : Option TimedEntry
  records : Table LockRecord
  leases : Table LeaseSlot
  gens : Table Byte
  waits : Table WaitEntry
  domains : Vector Domain 16
  agents : Vector AgentRec 32
  token : Token
  seeded : Bool
  part : PartState
  sweep : List Job
  outer : Fin 5
  inner : Fin 4
  chosen : Option Member
  pools : PoolStates
  ports : Vector PortState 4
  mbox : Mailbox
  args : Vector Word 8
  res : Vector Word 8
  events : Word
  eventEnable : Word
  nowLatch : BitVec 16
  spiData : Word
  handed : List Port
  freeDraws : Nat
  pending : List Instr
deriving DecidableEq, Repr

/-- The part has no fault that stops it: its error conditions are state (INVENTORY.md, "Faults"). No
constructor, so no command faults. -/
inductive Fault where
deriving DecidableEq, Repr

/-- Why a command has no meaning. -/
inductive Refusal where
  /-- Raised by exec for a command whose meaning is not written; safe (the machine stops). No arm raises it. -/
  | notModelled (mnemonic : String)
deriving DecidableEq, Repr

/-- A domain entry after device reset: valid clear and every other field zero (04, R67). -/
def resetDomain : Domain :=
  { valid := false, upgradeAllowed := false, modes := 0, policy := 0, base := 0, mask := 0, agents := 0,
    leaseDefault := 0, leaseMax := 0, waitCap := 0, queueLimit := 0 }

/-- An agent record after device reset (06, R107). -/
def resetAgent : AgentRec :=
  { state := .disabled, epoch := 0, quota := Config.resetQuota, keepalive := 0, leases := [],
    tags := Vector.replicate 16 .free }

/-- A port after device reset (10, Table 10-1), with the signal input given. -/
def resetPort (signal : Bool) : PortState :=
  { link := .down, heldDown := false, withdrawPending := false, fifo := [], ingressCredits := 0,
    unsentReturns := 0, withheld := 0, egressCredits := 0, replyQ := [], noticeQ := [], egressTurn := .reply,
    ackOwed := false, reports := [], frameError := false, enable := false, signal := signal, tx := none,
    trainDue := false }

/-- A pool's monitor state after device reset, with the default marks of its pool (08, Table 8-1). -/
def resetPool (low high shed : Nat) : PoolState :=
  { level := .normal, low := low, high := high, shed := shed, evaluated := 0, published := [], shedLatch := 0 }

/-- The mailbox after device reset (11, R191). -/
def resetMailbox : Mailbox :=
  { state := .idle, code := 0, auto := false, abortEnded := false, latched := Vector.replicate 8 0, result := .ok }

/-- The part right after device reset. DESIGN CHOICE: `signal` and `spiData` have no reset value in the manual
(log entries 13 and 14), and `handed` and `freeDraws` are the model's own (log entry 3). -/
def State.reset : State :=
  { now := 0, tickPeriod := Config.resetTickPeriod, tickPos := 0, marks := [], offered := none,
    records := [], leases := [], gens := [], waits := [],
    domains := Vector.replicate 16 resetDomain, agents := Vector.replicate 32 resetAgent,
    token := 0, seeded := false, part := .halted, sweep := [],
    outer := 0, inner := 0, chosen := none,
    pools := { lockTable := resetPool 3072 3584 3968, leasePool := resetPool 6144 7168 7936,
               waitPool := resetPool 1536 1792 1984 },
    ports := Vector.replicate 4 (resetPort false),
    mbox := resetMailbox, args := Vector.replicate 8 0, res := Vector.replicate 8 0,
    events := 0, eventEnable := 0, nowLatch := 0, spiData := 0, handed := [],
    freeDraws := 0, pending := [] }

end Sys2Proof.Machine
end

