-- ==== Sys2Proof/Machine/Operands.lean ====
section
/-! DEFINITION. The forms in which values arrive and leave: agent numbering, bit fields of a management word, and
the byte order of multi-byte fields on the link. -/

namespace Sys2Proof.Machine

/-- "The agent number is the port number × 8 plus the slot" (06, R107; 05, R86). -/
def agentOf (p : Port) (s : Slot) : Agent := ⟨p.val * 8 + s.val, by omega⟩

/-- The port that serves an agent (00, section 0.6). -/
def portOf (a : Agent) : Port := ⟨a.val / 8, by omega⟩

/-- The slot of an agent on its port (00, section 0.6). -/
def slotOf (a : Agent) : Slot := ⟨a.val % 8, by omega⟩

/-- The agents of a port, slot by slot. -/
def agentsOf (p : Port) : List Agent :=
  [agentOf p 0, agentOf p 1, agentOf p 2, agentOf p 3, agentOf p 4, agentOf p 5, agentOf p 6, agentOf p 7]

/-- The 16 tags in increasing number (03, R62). -/
def allTags : List Tag := [0, 1, 2, 3, 4, 5, 6, 7, 8, 9, 10, 11, 12, 13, 14, 15]

/-- The four ports in increasing number. -/
def allPorts : List Port := [0, 1, 2, 3]

/-- The 32 agents in increasing number. -/
def allAgents : List Agent := allPorts.flatMap agentsOf

/-- The value of `len` bits of a management word from bit `lo` (11, Tables 11-4 and 11-5). -/
def bitField (w : Word) (lo len : Nat) : Nat := (w.extractLsb' lo len).toNat

/-- A value placed at bit `lo` of a management word, its other bits zero. -/
def atBit (lo : Nat) (v : Nat) : Word := BitVec.ofNat 32 v <<< lo

/-- A flag placed at bit `lo` of a management word. -/
def flagAt (lo : Nat) (b : Bool) : Word := if b then atBit lo 1 else 0#32

/-- The 64-bit value of a high and a low word (11, Table 11-5: "high, low"). -/
def joinWords (high low : Word) : BitVec 64 := high ++ low

/-- Bits 63..32 of a 64-bit value. -/
def highWord (v : BitVec 64) : Word := v.extractLsb' 32 32

/-- Bits 31..0 of a 64-bit value. -/
def lowWord (v : BitVec 64) : Word := v.extractLsb' 0 32

/-- Eight words: the ones given, and zero for the rest (11, R191). -/
def eightWords (l : List Word) : Vector Word 8 := Vector.ofFn fun i => l.getD i.val 0#32

/-- "Every multi-byte field is sent most significant byte first, in the lowest-numbered byte" (10, R182). -/
def bytes16 (v : BitVec 16) : List Byte := [v.extractLsb' 8 8, v.extractLsb' 0 8]

/-- A 32-bit field, most significant byte first (10, R182). -/
def bytes32 (v : BitVec 32) : List Byte :=
  [v.extractLsb' 24 8, v.extractLsb' 16 8, v.extractLsb' 8 8, v.extractLsb' 0 8]

/-- A 64-bit field, most significant byte first (10, R182). -/
def bytes64 (v : BitVec 64) : List Byte := bytes32 (highWord v) ++ bytes32 (lowWord v)

/-- The byte at a position of a message; a position past its end reads as zero. -/
def byteAt (l : List Byte) (i : Nat) : Byte := l.getD i 0#8

/-- The 16-bit field at bytes i, i+1 (10, R182). -/
def field16 (l : List Byte) (i : Nat) : BitVec 16 := byteAt l i ++ byteAt l (i + 1)

/-- The 32-bit field at bytes i..i+3 (10, R182). -/
def field32 (l : List Byte) (i : Nat) : BitVec 32 := field16 l i ++ field16 l (i + 2)

/-- The 64-bit field at bytes i..i+7 (10, R182). -/
def field64 (l : List Byte) (i : Nat) : BitVec 64 := field32 l i ++ field32 l (i + 4)

/-- The slot in bits 2..0 of a message's byte 1 (10, Table 10-5). -/
def slotBits (b : Byte) : Slot := ⟨b.toNat % 8, by omega⟩

/-- The tag in bits 7..4 of a message's byte 1 (10, Table 10-5). -/
def tagBits (b : Byte) : Tag := ⟨b.toNat / 16, by omega⟩

/-- Byte 1 of a message, with bit 3 zero (10, Tables 10-5 and 10-6). -/
def slotTagByte (s : Slot) (t : Tag) : Byte := BitVec.ofNat 8 (t.val * 16 + s.val)

/-- Mode codes of a request, a reply and a result: 1 S, 2 X (05, Table 5-1). -/
def modeCode : Mode → Nat
  | .shared => 1
  | .exclusive => 2

/-- The mode a request's mode byte asks for, when it is in range (04, Table 4-3). -/
def modeOfByte (b : Byte) : Option Mode :=
  if b = 1#8 then some .shared else if b = 2#8 then some .exclusive else none

/-- Part state codes (11, Table 11-1). -/
def partCode : PartState → Nat
  | .halted => 0
  | .running => 1
  | .quiescing => 2
  | .aborting => 3

/-- Agent state codes (11, Table 11-5, SET_AGENT). -/
def agentStateCode : AgentState → Nat
  | .disabled => 0
  | .active => 1
  | .fencing => 2
  | .fenced => 3

/-- Level codes (08, R150). -/
def levelCode : Level → Nat
  | .normal => 0
  | .high => 1
  | .shed => 2

/-- Link state codes of LINK_STATUS (11, Table 11-4). -/
def linkCode : LinkState → Nat
  | .down => 0
  | .training => 1
  | .up => 2

/-- Mailbox state codes of CMD_STATUS (11, Table 11-4). -/
def mailCode : MailState → Nat
  | .idle => 0
  | .pending => 1
  | .running => 2
  | .done => 3

/-- Command result codes (11, R204). -/
def resultCode : CmdResult → Nat
  | .ok => 0
  | .busy => 1
  | .notHalted => 2
  | .notReady => 3
  | .invalid => 4
  | .already => 5
  | .notFound => 6
  | .notAdmitted => 7

/-- Loss reason codes of a LOST notice (10, Table 10-8). -/
def reasonCode : LossReason → Byte
  | .expired => 1#8
  | .forced => 2#8
  | .aborted => 3#8

/-- Reply status codes (05, Table 5-4). -/
def statusCode : Status → Byte
  | .granted => 0#8
  | .done => 1#8
  | .conflict => 2#8
  | .timedOut => 3#8
  | .cancelled => 4#8
  | .tooLate => 5#8
  | .notWaiting => 6#8
  | .alreadyHeld => 7#8
  | .alreadyWaiting => 8#8
  | .deadlock => 9#8
  | .noLease => 10#8
  | .notHolder => 11#8
  | .notShared => 12#8
  | .notExclusive => 13#8
  | .noDomain => 14#8
  | .denied => 15#8
  | .quota => 16#8
  | .full => 17#8
  | .shed => 18#8
  | .queueLimit => 19#8
  | .fenced => 20#8
  | .staleEpoch => 21#8
  | .notAdmitted => 22#8
  | .halted => 23#8
  | .quiesced => 24#8
  | .tagBusy => 25#8
  | .malformed => 26#8
  | .lost => 27#8

/-- Capacity of a counted pool (08, Table 8-1). -/
def poolCapacity : Pool → Nat
  | .lockTable => Config.lockCapacity
  | .leasePool => Config.leaseCapacity
  | .waitPool => Config.waitCapacity

/-- The pool a pool code names (08, Table 8-1). -/
def poolOfCode : Nat → Option Pool
  | 0 => some .lockTable
  | 1 => some .leasePool
  | 2 => some .waitPool
  | _ => none

/-- The agent an 8-bit argument field names, if it is at most 31 (06, R110). -/
def agentOfNat (n : Nat) : Option Agent := if h : n < 32 then some ⟨n, h⟩ else none

/-- The domain index an 8-bit argument field names, if it is at most 15 (04, R67). -/
def domainOfNat (n : Nat) : Option (Fin 16) := if h : n < 16 then some ⟨n, h⟩ else none

end Sys2Proof.Machine
end

