-- ==== Sys2Proof/Machine/Flags.lean ====
section
/-! DEFINITION. The event flags and the interrupt output (11, section 11.4), and the level a count gives a pool
(08, Tables 8-3 and 8-4). -/

namespace Sys2Proof.Machine

/-- The 17 events (11, Table 11-3). -/
inductive Event where
  | cmdDone
  | cmdOverrun
  | cmdSuperseded
  | partState
  | autoFence
  | tokenEnd
  | linkChange (p : Port)
  | linkFault (p : Port)
  | pressure (pool : Pool)
deriving DecidableEq, Repr

/-- The position of an event in EVENTS and EVENT_ENABLE (11, Table 11-4). -/
def eventBit : Event → Nat
  | .cmdDone => 0
  | .cmdOverrun => 1
  | .cmdSuperseded => 2
  | .partState => 3
  | .autoFence => 4
  | .tokenEnd => 5
  | .linkChange p => 8 + p.val
  | .linkFault p => 12 + p.val
  | .pressure .lockTable => 16
  | .pressure .leasePool => 17
  | .pressure .waitPool => 18

/-- Set an event's sticky flag (11, R198). -/
def postEvent (e : Event) (s : State) : State := { s with events := s.events ||| atBit (eventBit e) 1 }

/-- Whether an event's flag is set. -/
def eventSet (s : State) (e : Event) : Bool := s.events.getLsbD (eventBit e)

/-- MGMT_IRQ_N is driven low while an enabled flag is set (11, R199). -/
def irqLow (s : State) : Bool := decide (s.events &&& s.eventEnable ≠ 0#32)

/-- The level after an arriving count (08, Table 8-3). -/
def levelOnArrival (p : PoolState) (count : Nat) : Level :=
  if count ≤ p.low then .normal
  else if p.shed ≤ count then .shed
  else match p.level with
    | .shed => .shed
    | .high => .high
    | .normal => if p.high ≤ count then .high else .normal

/-- The level after SET_PRESSURE, from the marks just written (08, Table 8-4). -/
def levelOnMarks (p : PoolState) (count : Nat) : Level :=
  if p.shed ≤ count then .shed
  else if p.high ≤ count then .high
  else if count ≤ p.low then .normal
  else p.level

end Sys2Proof.Machine
end

