-- ==== Sys2Proof/Machine/Table.lean ====
section
/-! DEFINITION. The operations over a sparse table: read, write, free, and the lowest free number. -/

namespace Sys2Proof.Machine

/-- The entry at a number, if it is listed. -/
def tableGet {α : Type} : Table α → Nat → Option α
  | [], _ => none
  | (k, v) :: rest, n => if k = n then some v else tableGet rest n

/-- Write an entry, keeping the numbers rising. -/
def tableSet {α : Type} : Table α → Nat → α → Table α
  | [], n, v => [(n, v)]
  | (k, w) :: rest, n, v =>
    if n < k then (n, v) :: (k, w) :: rest
    else if n = k then (n, v) :: rest
    else (k, w) :: tableSet rest n v

/-- Free an entry. -/
def tableErase {α : Type} : Table α → Nat → Table α
  | [], _ => []
  | (k, w) :: rest, n => if k = n then tableErase rest n else (k, w) :: tableErase rest n

/-- The numbers rise strictly and every one is below the capacity. -/
def tableWf {α : Type} (capacity : Nat) : Table α → Bool
  | [] => true
  | [(k, _)] => decide (k < capacity)
  | (k, _) :: (l, w) :: rest => decide (k < l) && tableWf capacity ((l, w) :: rest)

/-- The lowest number from `n` on, within `fuel` numbers, that is not listed. -/
def lowestFreeFrom {α : Type} (t : Table α) : Nat → Nat → Option Nat
  | 0, _ => none
  | fuel + 1, n => if (tableGet t n).isNone then some n else lowestFreeFrom t fuel (n + 1)

/-- The lowest free number below the capacity (01, R3; 02, R28; 03, R50). -/
def lowestFree {α : Type} (t : Table α) (capacity : Nat) : Option Nat :=
  lowestFreeFrom t capacity 0

end Sys2Proof.Machine
end

