-- ==== Sys2Proof/Machine/Transmit.lean ====
section
/-! DEFINITION. A port's transmitter: which frame it begins, and what a frame's end changes (10, R171 to R177). -/

namespace Sys2Proof.Machine

/-- The other egress queue. -/
def otherTurn : EgressTurn → EgressTurn
  | .reply => .notice
  | .notice => .reply

/-- The queue whose head a message frame is taken from (10, R176). -/
def egressSource (q : PortState) : Option EgressTurn :=
  match q.replyQ, q.noticeQ with
  | [], [] => none
  | _ :: _, [] => some .reply
  | [], _ :: _ => some .notice
  | _ :: _, _ :: _ => some q.egressTurn

/-- A message frame begins: its entry leaves its queue and uses an egress credit. DEDUCED: the turn then names the
queue other than the one the frame came from (10, R176, R177; log entry 11). -/
def beginMessage (q : PortState) : PortState :=
  match egressSource q with
  | none => q
  | some .reply =>
    { q with tx := q.replyQ.head?.map TxFrame.reply, replyQ := q.replyQ.tail,
             egressCredits := q.egressCredits - 1, egressTurn := otherTurn .reply }
  | some .notice =>
    { q with tx := q.noticeQ.head?.map TxFrame.notice, noticeQ := q.noticeQ.tail,
             egressCredits := q.egressCredits - 1, egressTurn := otherTurn .notice }

/-- The next frame of a free transmitter (10, R172, R176). DESIGN CHOICE: a TRAIN_ACK owed is cleared as its TRAIN_ACK begins,
where Table 10-1 says "cleared when a TRAIN_ACK is sent" and names neither its start nor its end: a TRAIN received while
the TRAIN_ACK is being sent draws another (10, R162; log entry 24). -/
def beginFrame (q : PortState) : PortState :=
  match q.link with
  | .down => q
  | .training =>
    if q.ackOwed then { q with tx := some .trainAck, ackOwed := false }
    else if q.trainDue then { q with tx := some .train, trainDue := false }
    else q
  | .up =>
    if q.ackOwed then { q with tx := some .trainAck, ackOwed := false }
    else if 1 ≤ q.unsentReturns then { q with tx := some (.credit q.unsentReturns), unsentReturns := 0 }
    else if 1 ≤ q.egressCredits then beginMessage q
    else q

/-- A transmitter that is free begins its next frame; a busy one sends on (10, R176). -/
def transmit (q : PortState) : PortState := if q.tx = none then beginFrame q else q

/-- A frame has been sent to its end: a tag-owned reply is reported, a withheld credit returned (10, R171, R177). -/
def completeFrame (q : PortState) : PortState :=
  match q.tx with
  | some (.reply r) =>
    (match r.owner with
      | .tag a t => { q with tx := none, reports := q.reports ++ [(a, t)] }
      | .credit => { q with tx := none, withheld := q.withheld - 1, ingressCredits := q.ingressCredits + 1,
                            unsentReturns := q.unsentReturns + 1 })
  | some .train | some .trainAck | some (.credit _) | some (.notice _) => { q with tx := none }
  | none => q

/-- One act of a transmitter: a busy one ends its frame, a free one begins the next (10, R176, R177). -/
def transmitterStep (q : PortState) : PortState := if q.tx = none then beginFrame q else completeFrame q

/-- A number of a transmitter's acts, one after another. -/
def transmitterSteps : Nat → PortState → PortState
  | 0, q => q
  | n + 1, q => transmitterSteps n (transmitterStep q)

end Sys2Proof.Machine
end

