-- ==== Sys2Proof/Machine/Ops.lean ====
section
/-! DEFINITION. The accessors of the banks, and the shared operations of the ports (replies, notices, credits), the
mailbox and the sweep list. -/

namespace Sys2Proof.Machine

/-- An agent's record (06, R107). -/
def State.agent (s : State) (a : Agent) : AgentRec := s.agents.get a

/-- Change one agent's record. -/
def updAgent (a : Agent) (f : AgentRec → AgentRec) (s : State) : State :=
  { s with agents := s.agents.set a.val (f (s.agents.get a)) a.isLt }

/-- A port's state (10, R160). -/
def State.port (s : State) (p : Port) : PortState := s.ports.get p

/-- Change one port's state. -/
def updPort (p : Port) (f : PortState → PortState) (s : State) : State :=
  { s with ports := s.ports.set p.val (f (s.ports.get p)) p.isLt }

/-- A domain entry (04, R67). -/
def State.domain (s : State) (d : Fin 16) : Domain := s.domains.get d

/-- A counted pool's monitor state (08, R145). -/
def State.pool (s : State) : Pool → PoolState
  | .lockTable => s.pools.lockTable
  | .leasePool => s.pools.leasePool
  | .waitPool => s.pools.waitPool

/-- Change one counted pool's monitor state. -/
def updPool (k : Pool) (f : PoolState → PoolState) (s : State) : State :=
  match k with
  | .lockTable => { s with pools := { s.pools with lockTable := f s.pools.lockTable } }
  | .leasePool => { s with pools := { s.pools with leasePool := f s.pools.leasePool } }
  | .waitPool => { s with pools := { s.pools with waitPool := f s.pools.waitPool } }

/-- A tag's state (06, R113). -/
def State.tag (s : State) (a : Agent) (t : Tag) : TagState := (s.agent a).tags.get t

/-- Set a tag's state (06, Table 6-6). -/
def setTag (a : Agent) (t : Tag) (x : TagState) (s : State) : State :=
  updAgent a (fun r => { r with tags := r.tags.set t.val x t.isLt }) s

/-- Set an agent's state (06, Table 6-3). -/
def setAgentState (a : Agent) (x : AgentState) (s : State) : State := updAgent a (fun r => { r with state := x }) s

/-- Append a granted lease's handle to its agent's lease list (02, R37). -/
def listLease (a : Agent) (h : Handle) (s : State) : State :=
  updAgent a (fun r => { r with leases := r.leases ++ [h] }) s

/-- Remove an ended lease's handle from its agent's lease list (02, R37). -/
def unlistLease (a : Agent) (h : Handle) (s : State) : State :=
  updAgent a (fun r => { r with leases := r.leases.erase h }) s

/-- An agent's wait count: the number of its wait entries (03, R51). -/
def waitCount (s : State) (a : Agent) : Nat := s.waits.countP fun e => e.2.agent = a

/-- An agent's quota count (04, R74). -/
def quotaCount (s : State) (a : Agent) : Nat := (s.agent a).leases.length + waitCount s a

/-- The engine's count of a counted pool (08, R142). -/
def poolCount (s : State) : Pool → Nat
  | .lockTable => s.records.length
  | .leasePool => s.leases.length
  | .waitPool => s.waits.length

/-- The present generation of a lease entry (02, R27). -/
def genOf (s : State) (k : Nat) : Byte := (tableGet s.gens k).getD 0#8

/-- The handle of a lease entry as it stands (02, R29). -/
def handleOf (s : State) (k : Nat) : Handle := ⟨k, genOf s k⟩

/-- An entry's generation advances by one, from 255 to 0 (02, R29); generation 0 is not listed. -/
def advanceGen (k : Nat) (s : State) : State :=
  let g := genOf s k + 1#8
  { s with gens := if g = 0#8 then tableErase s.gens k else tableSet s.gens k g }

/-- A lease entry becomes FREE and its generation advances (02, R29). -/
def freeLeaseEntry (k : Nat) (s : State) : State :=
  advanceGen k { s with leases := tableErase s.leases k }

/-- The IN_USE lease of an entry, if it is IN_USE. -/
def leaseAt (s : State) (k : Nat) : Option Lease :=
  match tableGet s.leases k with
  | some (.inUse l) => some l
  | _ => none

/-- Change an IN_USE lease's fields. -/
def updLease (k : Nat) (f : Lease → Lease) (s : State) : State :=
  match leaseAt s k with
  | some l => { s with leases := tableSet s.leases k (.inUse (f l)) }
  | none => s

/-- Change a record's fields. -/
def updRecord (n : Nat) (f : LockRecord → LockRecord) (s : State) : State :=
  match tableGet s.records n with
  | some r => { s with records := tableSet s.records n (f r) }
  | none => s

/-- The record that holds a key, with its number (01, R1). -/
def recordOfKey (s : State) (key : Key) : Option (Nat × LockRecord) := s.records.find? fun e => e.2.key = key

/-- A live handle's lease: the entry is IN_USE and its generation equals the handle's (02, R29). -/
def liveLease (s : State) (num : Nat) (gen : Byte) : Option Lease :=
  if genOf s num = gen then leaseAt s num else none

/-- The work item under way has handed the port an entry, or returned it a credit. -/
def noteHanded (p : Port) (s : State) : State := { s with handed := p :: s.handed }

/-- The order tells: what the port sends before it is handed an entry of the queue `x` could differ from what it sends
after. Without a notice a reply leaves behind the replies in any case, and a notice handed to empty queues is the next
message in any case (`reply_after_acts`, `notice_after_acts`; 10, R176). -/
def orderTells (x : EgressTurn) (q : PortState) : Bool :=
  match x with
  | .reply => !q.noticeQ.isEmpty
  | .notice => !(q.replyQ.isEmpty && q.noticeQ.isEmpty)

/-- The port goes on by itself inside the work item under way, which has handed it something already: a free number of its
transmitter's acts, where their order with the entry handed next tells. "A port transmits on its own account and may begin
sending an entry handed to it earlier in the item while the item continues" (09, R157; log entry 3). -/
def portGoesOn (x : EgressTurn) (p : Port) (s : State) : State :=
  if p ∈ s.handed ∧ orderTells x (s.port p) = true then
    updPort p (transmitterSteps (Config.actsInside s.freeDraws)) { s with freeDraws := s.freeDraws + 1 }
  else s

/-- The engine hands a port one more entry of the queue `x`, or one more change of an entry: applied in UP and TRAINING, to
what the port then holds, and discarded in DOWN (09, R157; 10, R173, R174). -/
def handPort (x : EgressTurn) (p : Port) (f : PortState → PortState) (s : State) : State :=
  if (s.port p).link = .down then s else noteHanded p (updPort p f (portGoesOn x p s))

/-- The engine hands a reply to the port that serves the agent: appended in UP and TRAINING, discarded in DOWN
(10, R173). -/
def placeReply (a : Agent) (r : Reply) (s : State) : State :=
  handPort .reply (portOf a) (fun q => { q with replyQ := q.replyQ ++ [r] }) s

/-- Answer a tag: the tag moves to REPLYING and its one reply is placed (06, Table 6-6; 05, R88). -/
def answerTag (a : Agent) (t : Tag) (kind : Byte) (st : Status) (c : Content) (s : State) : State :=
  placeReply a ⟨.tag a t, slotOf a, t, st, kind, c⟩ (setTag a t .replying s)

/-- A reply that belongs to no tag: its owner is the withheld credit (10, R171, R173). -/
def answerNoTag (a : Agent) (t : Tag) (kind : Byte) (st : Status) (s : State) : State :=
  placeReply a ⟨.credit, slotOf a, t, st, kind, {}⟩ s

/-- The slot a notice is for (02, Table 2-3). -/
def noticeSlot : Notice → Slot
  | .lost s _ _ _ => s
  | .fence s _ => s

/-- A loss against the notices queued (02, R44). -/
def noticeLoss (sl : Slot) (h : Handle) (reason : LossReason) : List Notice → List Notice
  | [] => [.lost sl 1 h reason]
  | n :: rest =>
    if noticeSlot n = sl then
      (match n with
        | .lost _ c _ _ => .lost sl (min (c + 1) Config.maxLossCount) h reason
        | .fence sl' e => .fence sl' e) :: rest
    else n :: noticeLoss sl h reason rest

/-- Entering FENCING against the notices queued (02, R45). -/
def noticeFence (sl : Slot) (epoch : BitVec 16) : List Notice → List Notice
  | [] => [.fence sl epoch]
  | n :: rest => if noticeSlot n = sl then .fence sl epoch :: rest else n :: noticeFence sl epoch rest

/-- The engine hands a notice change to the agent's port: applied in UP and TRAINING to what its queue then holds,
discarded in DOWN (10, R174; 02, R46). -/
def placeNotice (a : Agent) (f : List Notice → List Notice) (s : State) : State :=
  handPort .notice (portOf a) (fun q => { q with noticeQ := f q.noticeQ }) s

/-- A mailbox command code (11, Table 11-2). -/
def abortCode : Byte := 0x08#8

/-- A command completes: DONE, the result, the result words, CMD_DONE (11, R191). "A refusal writes zero in every
result word": DEDUCED that a refusal is every result but OK (log entry 10). -/
def completeCmd (res : CmdResult) (words : List Word) (s : State) : State :=
  postEvent .cmdDone
    { s with mbox := { s.mbox with state := .done, result := res },
             res := eightWords (if res = .ok then words else []) }

/-- The command a MGMT item takes completes in its take, unless an automatic ABORT has superseded it in the same
item, when its result is not delivered (11, R189, R191). -/
def completeTaken (code : Byte) (res : CmdResult) (words : List Word) (s : State) : State :=
  if s.mbox.state = .pending ∧ s.mbox.code = code then completeCmd res words s else s

/-- Whether a taken command still stands in the mailbox, not superseded in its own item (11, R189). -/
def stillCarried (code : Byte) (s : State) : Bool := decide (s.mbox.state = .pending ∧ s.mbox.code = code)

/-- The taken command attaches to a sweep job: the mailbox goes to RUNNING (11, R191). -/
def mailboxRunning (s : State) : State := { s with mbox := { s.mbox with state := .running } }

/-- A job with its attachment cleared (11, R193). -/
def detach : Job → Job
  | .fence a _ => .fence a false
  | .quiesce n _ => .quiesce n false
  | .abort n _ => .abort n false

/-- A command in flight is abandoned for an ABORT: its job, if any, loses its attachment and CMD_SUPERSEDED is set
(11, R193). -/
def supersede (auto : Bool) (latched : Vector Word 8) (s : State) : State :=
  postEvent .cmdSuperseded
    { s with mbox := { s.mbox with state := .pending, code := abortCode, auto := auto, abortEnded := false,
                                   latched := latched },
             sweep := s.sweep.map detach }

/-- The automatic ABORT arrives at the mailbox (11, R189). DESIGN CHOICE: it leaves the latched arguments as they are
(log entry 16). -/
def placeAutoAbort (s : State) : State :=
  match s.mbox.state with
  | .idle | .done =>
    { s with mbox := { s.mbox with state := .pending, code := abortCode, auto := true, abortEnded := false } }
  | .pending | .running => if s.mbox.code = abortCode then s else supersede true s.mbox.latched s

/-- The part becomes ABORTING: PART_STATE is set, every job is removed and the abort job appended (06, R126;
11, R188, R189). -/
def startAbort (attached : Bool) (s : State) : State :=
  postEvent .partState { s with part := .aborting, sweep := [.abort 0 attached] }

/-- The counter has reached its end value: TOKEN_END, SEEDED cleared, and in RUNNING and QUIESCING the automatic
abort (02, R48; 11, R189). -/
def tokenEndReached (s : State) : State :=
  let s := postEvent .tokenEnd { s with seeded := false }
  match s.part with
  | .running | .quiescing => placeAutoAbort (startAbort false s)
  | .halted | .aborting => s

/-- A grant, or an evaluation with its grants, followed by the token end if one of them reached the end value
(02, R48). -/
def withTokenEnd (f : State → State) (s : State) : State :=
  let t := f s
  if s.token ≠ Config.tokenEnd ∧ t.token = Config.tokenEnd then tokenEndReached t else t

/-- The part is RUNNING or QUIESCING (07, R133; 09, Table 9-2). -/
def serving (s : State) : Bool := decide (s.part = .running ∨ s.part = .quiescing)

/-- The part becomes HALTED: PART_STATE is set and a standing offer is discarded (11, R183; 07, R140). -/
def enterHalted (s : State) : State := postEvent .partState { s with part := .halted, offered := none }

end Sys2Proof.Machine
end

