-- ==== Sys2Proof/Machine/Clock.lean ====
section
/-! DEFINITION. The lease clock: deadlines, due marks, due order, the offered item (chapter 7), and the commands
TICK and MARK_DUE. -/

namespace Sys2Proof.Machine

/-- A lease's effective deadline (02, R34). -/
def effectiveDeadline (s : State) (l : Lease) : Nat :=
  max l.ownDeadline ((s.agent l.agent).keepalive + l.duration)

/-- The deadline the clock compares for a timed entry; none where it watches nothing (07, Table 7-1). -/
def deadlineOf (s : State) : TimedEntry → Option Nat
  | .upgrade n => (tableGet s.records n).bind fun r => r.slot.bind fun u => u.deadline
  | .wait w => (tableGet s.waits w).bind fun e => e.deadline
  | .lease k => (leaseAt s k).map (effectiveDeadline s)

/-- NOW has reached the entry's deadline (02, R34; 07, R131, R134). -/
def isDue (s : State) (e : TimedEntry) : Bool :=
  match deadlineOf s e with
  | some d => decide (d ≤ s.now)
  | none => false

/-- An entry's mark is removed (07, R131). -/
def unmark (e : TimedEntry) (s : State) : State := { s with marks := s.marks.filter fun m => m ≠ e }

/-- An entry gains a mark, if it has none (07, R131). -/
def mark (e : TimedEntry) (s : State) : State := if e ∈ s.marks then s else { s with marks := s.marks ++ [e] }

/-- The comparison the clock makes when a work item sets or moves a deadline (07, R131; 02, R36). -/
def recompare (e : TimedEntry) (s : State) : State := if isDue s e then mark e s else unmark e s

/-- The comparison for every lease in an agent's lease list (02, R36). -/
def recompareLeases (a : Agent) (s : State) : State :=
  (s.agent a).leases.foldl (fun s h => recompare (.lease h.num) s) s

/-- Every entry that carries a deadline to watch (07, Table 7-1). -/
def timedEntries (s : State) : List TimedEntry :=
  s.records.map (fun e => .upgrade e.1) ++ s.waits.map (fun e => .wait e.1) ++ s.leases.map (fun e => .lease e.1)

/-- Every watched entry whose deadline has been reached and that has no mark gains one (07, R131). -/
def markAllDue (s : State) : State :=
  { s with marks := s.marks ++ (timedEntries s).filter fun e => isDue s e && !decide (e ∈ s.marks) }

/-- The order of kinds among equal deadlines, and the number (07, R132). -/
def kindAndNumber : TimedEntry → Nat × Nat
  | .upgrade n => (0, n)
  | .wait n => (1, n)
  | .lease n => (2, n)

/-- Due order: deadline, then kind, then number (07, R132). -/
def dueBefore (s : State) (a b : TimedEntry) : Bool :=
  let da := (deadlineOf s a).getD 0
  let db := (deadlineOf s b).getD 0
  let ka := kindAndNumber a
  let kb := kindAndNumber b
  decide (da < db ∨ (da = db ∧ (ka.1 < kb.1 ∨ (ka.1 = kb.1 ∧ ka.2 < kb.2))))

/-- The head in due order of a list of marked entries (07, R132). -/
def dueHead (s : State) : List TimedEntry → Option TimedEntry
  | [] => none
  | e :: rest =>
    match dueHead s rest with
    | none => some e
    | some m => if dueBefore s m e then some m else some e

/-- With no item offered and the part RUNNING or QUIESCING, the head of the due set becomes the offered item
(07, R133). -/
def offerTimer (s : State) : State :=
  if s.offered = none ∧ serving s = true then { s with offered := dueHead s s.marks } else s

/-- The engine takes the offered item: the offer is cleared and, in the same step, the new head of the due set is
offered (07, R133). DEDUCED: the item being taken is no longer in the due set (07, section 7.7; log entry 8). -/
def takeOffer (e : TimedEntry) (s : State) : State :=
  { s with offered := dueHead s (s.marks.filter fun m => m ≠ e) }

/-- TICK: a tick interval ends and NOW rises by one (07, R129). The comparison at the tick is MARK_DUE (log entry 4). -/
def execTick (s : State) : Host.Outcome State Fault Refusal :=
  .next { s with now := s.now + 1, tickPos := 0 }

/-- MARK_DUE: the comparison at a tick, and the offer that follows it (07, R131, R133). -/
def execMarkDue (s : State) : Host.Outcome State Fault Refusal := .next (offerTimer (markAllDue s))

end Sys2Proof.Machine
end

