-- ==== Sys2Proof/Machine/Grant.lean ====
section
/-! DEFINITION. Grants, grant evaluation, and how waits, upgrades and leases leave a record (chapters 1 to 3). -/

namespace Sys2Proof.Machine

/-- Request kind codes echoed by later answers (05, Table 5-2, R88). -/
def acquireKind : Byte := 2#8

/-- Request kind codes echoed by later answers (05, Table 5-2, R88). -/
def upgradeKind : Byte := 6#8

/-- Compatibility of a requested mode with a record's holders (01, R7). -/
def compatible (m : Mode) (r : LockRecord) : Bool :=
  r.holders.isEmpty || (decide (m = .shared) && decide (r.mode = .shared))

/-- The duration a grant derives (02, R32). -/
def leaseDuration (d : Domain) (ticks : Nat) : Nat :=
  if ticks = 0 then d.leaseDefault.toNat else min ticks d.leaseMax.toNat

/-- The duration a renewal sets (02, R33). -/
def renewDuration (d : Domain) (current ticks : Nat) : Nat :=
  if ticks = 0 then current else min ticks d.leaseMax.toNat

/-- The deadline of a wait of nonzero wait ticks: absent when unbounded (03, Table 3-2). -/
def waitDeadline (d : Domain) (now ticks : Nat) : Option Nat :=
  if ticks = Config.unboundedTicks ∧ d.waitCap.toNat = Config.unboundedTicks then none
  else some (now + min ticks d.waitCap.toNat)

/-- Reply content that carries a lease's handle, mode and token (05, Table 5-3). -/
def leaseContent (h : Handle) (m : Mode) (token : Token) : Content :=
  { num := BitVec.ofNat 16 h.num, gen := h.gen, mode := BitVec.ofNat 8 (modeCode m), token := token }

/-- Reply content of GRANTED: handle, mode, token and granted ticks (05, Table 5-3). -/
def grantContent (h : Handle) (l : Lease) : Content :=
  { leaseContent h l.mode l.token with ticks := BitVec.ofNat 16 l.duration }

/-- Reply content of an upgrade answered from the slot: the upgrading lease's handle (05, Table 5-3). -/
def handleContent (h : Handle) : Content := { num := BitVec.ofNat 16 h.num, gen := h.gen }

/-- A lease entry becomes an IN_USE lease with the token the grant draws; it joins the record's holders and the
agent's lease list, and the token becomes the record's last token (01, R9, R10, R16, R25; 02, R32). -/
def grantLease (n k : Nat) (a : Agent) (m : Mode) (leaseTicks : Nat) (s : State) : State :=
  match tableGet s.records n with
  | none => s
  | some r =>
    let token := s.token + 1#64
    let dur := leaseDuration (s.domain r.domain) leaseTicks
    let r' := { r with mode := if r.holders.isEmpty then m else r.mode, holders := r.holders ++ [handleOf s k],
                       lastToken := token }
    recompare (.lease k)
      (listLease a (handleOf s k)
        { s with token := token, records := tableSet s.records n r',
                 leases := tableSet s.leases k (.inUse ⟨a, n, m, token, dur, s.now + dur⟩) })

/-- The GRANTED reply to a lease just granted (05, Table 5-3). -/
def answerGranted (a : Agent) (t : Tag) (kind : Byte) (k : Nat) (s : State) : State :=
  match leaseAt s k with
  | some l => answerTag a t kind .granted (grantContent (handleOf s k) l) s
  | none => s

/-- A wait entry leaves its queue and becomes FREE, its mark removed (03, R50, R56). -/
def dequeueWait (w : Nat) (e : WaitEntry) (s : State) : State :=
  unmark (.wait w)
    (updRecord e.record (fun r => { r with queue := r.queue.erase w }) { s with waits := tableErase s.waits w })

/-- Removal of a wait entry other than by grant: the tag is answered, or set FREE where no answer is given
(03, R56). -/
def removeWait (w : Nat) (ans : Option Status) (s : State) : State :=
  match tableGet s.waits w with
  | none => s
  | some e =>
    let s := freeLeaseEntry e.reserved (dequeueWait w e s)
    match ans with
    | some st => answerTag e.agent e.tag acquireKind st {} s
    | none => setTag e.agent e.tag .free s

/-- The agent of the lease that occupies an upgrade slot (01, R18). -/
def upgradeAgent (s : State) (u : Upgrade) : Option Agent := (leaseAt s u.lease.num).map fun l => l.agent

/-- An upgrade leaves its record's slot without a grant; its mark is removed and its tag is answered, or set FREE
under WITHDRAW (01, R22). -/
def dropUpgrade (n : Nat) (ans : Option Status) (s : State) : State :=
  match (tableGet s.records n).bind fun r => r.slot with
  | none => s
  | some u =>
    let s' := unmark (.upgrade n) (updRecord n (fun r => { r with slot := none }) s)
    match upgradeAgent s u, ans with
    | some a, some st => answerTag a u.tag upgradeKind st (handleContent u.lease) s'
    | some a, none => setTag a u.tag .free s'
    | none, _ => s'

/-- A lease becomes X with a new token and its record EXCLUSIVE (01, R15, R20, R25). -/
def upgradeLease (n k : Nat) (s : State) : State :=
  let token := s.token + 1#64
  updLease k (fun l => { l with mode := .exclusive, token := token })
    (updRecord n (fun r => { r with mode := .exclusive, lastToken := token }) { s with token := token })

/-- Step 1 of grant evaluation grants the upgrade whose lease is the sole holder (01, R15). -/
def grantUpgrade (n : Nat) (u : Upgrade) (s : State) : State :=
  let s' := upgradeLease n u.lease.num (unmark (.upgrade n) (updRecord n (fun r => { r with slot := none }) s))
  match leaseAt s' u.lease.num with
  | some l => answerTag l.agent u.tag upgradeKind .granted (grantContent u.lease l) s'
  | none => s'

/-- The grant of a queue head: its reserved entry becomes its lease (01, R16). -/
def grantWait (n w : Nat) (e : WaitEntry) (s : State) : State :=
  answerGranted e.agent e.tag acquireKind e.reserved
    (grantLease n e.reserved e.agent e.mode e.leaseTicks (dequeueWait w e s))

/-- Step 3 of grant evaluation: heads are granted while compatible; with the counter at its end value each is
removed instead, answered HALTED (01, R16, R26). -/
def grantHeads (n : Nat) : List Nat → State → State
  | [], s => s
  | w :: rest, s =>
    match tableGet s.records n, tableGet s.waits w with
    | some r, some e =>
      if compatible e.mode r then
        grantHeads n rest
          (if s.token = Config.tokenEnd then removeWait w (some .halted) s else grantWait n w e s)
      else s
    | _, _ => s

/-- Step 4 of grant evaluation: a record with no holders is retired (01, R17). -/
def retireRecord (n : Nat) (s : State) : State :=
  match tableGet s.records n with
  | some r => if r.holders.isEmpty then { s with records := tableErase s.records n } else s
  | none => s

/-- Steps 3 and 4 of grant evaluation (01, R16, R17). -/
def evaluateQueue (n : Nat) (s : State) : State :=
  match tableGet s.records n with
  | some r => retireRecord n (grantHeads n r.queue s)
  | none => s

/-- Grant evaluation of a record (01, R13 to R17, R26). -/
def evaluateRecord (n : Nat) (s : State) : State :=
  match tableGet s.records n with
  | none => s
  | some r =>
    match r.slot with
    | none => evaluateQueue n s
    | some u =>
      if r.holders = [u.lease] then
        if s.token = Config.tokenEnd then evaluateQueue n (dropUpgrade n (some .halted) s)
        else grantUpgrade n u s
      else s

/-- Grant evaluation, and the token end after it if one of its grants reached the end value (02, R48). -/
def evaluate (n : Nat) (s : State) : State := withTokenEnd (evaluateRecord n) s

/-- The end of a lease, common to release and loss: it leaves the holders and the lease list, its mark is removed
and its entry becomes FREE (02, R38, R40). -/
def endLease (k : Nat) (s : State) : State :=
  match leaseAt s k with
  | none => s
  | some l =>
    let h := handleOf s k
    freeLeaseEntry k
      (unmark (.lease k)
        (unlistLease l.agent h (updRecord l.record (fun r => { r with holders := r.holders.erase h }) s)))

/-- A loss: the lease ends, and an ACTIVE agent's notice is placed or updated with the handle it had (02, R40). -/
def loseLease (k : Nat) (reason : LossReason) (s : State) : State :=
  match leaseAt s k with
  | none => s
  | some l =>
    let t := endLease k s
    if (s.agent l.agent).state = .active then
      placeNotice l.agent (noticeLoss (slotOf l.agent) (handleOf s k) reason) t
    else t

/-- The lease occupies its record's upgrade slot (01, R18). -/
def inSlot (s : State) (k : Nat) (l : Lease) : Bool :=
  match (tableGet s.records l.record).bind fun r => r.slot with
  | some u => decide (u.lease = handleOf s k)
  | none => false

/-- The wait entry of an agent's WAITING tag (06, R114). -/
def waitOfTag (s : State) (a : Agent) (t : Tag) : Option (Nat × WaitEntry) :=
  s.waits.find? fun e => e.2.agent = a && e.2.tag = t

/-- The number of the record whose slot an agent's UPGRADING tag occupies (06, R114). -/
def upgradeOfTag (s : State) (a : Agent) (t : Tag) : Option Nat :=
  (s.records.find? fun e =>
    match e.2.slot with
    | some u => decide (u.tag = t ∧ upgradeAgent s u = some a)
    | none => false).map fun e => e.1

/-- One tag at the entry to FENCING: its wait or upgrade is removed and answered FENCED, and its record evaluated
(03, R62; 06, R117 step 2). -/
def fenceTag (a : Agent) (s : State) (t : Tag) : State :=
  match s.tag a t with
  | .waiting =>
    match waitOfTag s a t with
    | some (w, e) => evaluate e.record (removeWait w (some .fenced) s)
    | none => s
  | .upgrading =>
    match upgradeOfTag s a t with
    | some n => evaluate n (dropUpgrade n (some .fenced) s)
    | none => s
  | .free | .replying => s

/-- Step 4 of entering FENCING (06, R117). -/
def fenceJob (a : Agent) (s : State) : State :=
  if (s.agent a).leases = [] then setAgentState a .fenced s
  else if s.part = .aborting then s
  else { s with sweep := s.sweep ++ [.fence a false] }

/-- An ACTIVE agent enters FENCING (06, R117); step 5, AUTO_FENCE, is the automatic fence's own. -/
def enterFencing (a : Agent) (s : State) : State :=
  let s := allTags.foldl (fenceTag a) (setAgentState a .fencing s)
  fenceJob a (placeNotice a (noticeFence (slotOf a) (s.agent a).epoch) s)

end Sys2Proof.Machine
end

