-- ==== Sys2Proof/Machine/Intake.lean ====
section
/-! DEFINITION. The intake arbiter (chapter 9): eligibility, the two-level rotation, the take of an item and what
ends every item, and the command EMPTY_TAKE. -/

namespace Sys2Proof.Machine

/-- A member has a work item to offer (09, Table 9-2). -/
def eligible (s : State) : Member → Bool
  | .port p => !(s.port p).fifo.isEmpty
  | .withdraw => allPorts.any fun p => (s.port p).withdrawPending
  | .timer => s.offered.isSome && serving s
  | .mgmt => decide (s.mbox.state = .pending)
  | .sweep => !s.sweep.isEmpty

/-- The inner positions, in the cyclic order WITHDRAW, TIMER, MGMT, SWEEP (09, R154). -/
def innerMember (i : Fin 4) : Member :=
  if i = 0 then .withdraw else if i = 1 then .timer else if i = 2 then .mgmt else .sweep

/-- The inner search: the first eligible inner position from the inner pointer on (09, R154). -/
def innerSearch (ok : Member → Bool) (i : Fin 4) : Option (Fin 4) :=
  [i, i + 1, i + 2, i + 3].find? fun j => ok (innerMember j)

/-- An outer position is eligible: positions 0 to 3 are A0 to A3, position 4 is INTERNAL (09, R153, R154). -/
def outerEligible (ok : Member → Bool) (j : Fin 5) : Bool :=
  if h : j.val < 4 then ok (.port ⟨j.val, h⟩) else ok .withdraw || ok .timer || ok .mgmt || ok .sweep

/-- The outer search: the first eligible outer position from the outer pointer on (09, R154). -/
def outerSearch (ok : Member → Bool) (o : Fin 5) : Option (Fin 5) :=
  [o, o + 1, o + 2, o + 3, o + 4].find? (outerEligible ok)

/-- A choice: the chosen member stands and the pointers it was made through move (09, R154). -/
def choose (ok : Member → Bool) (s : State) : State :=
  match outerSearch ok s.outer with
  | none => { s with chosen := none }
  | some j =>
    if h : j.val < 4 then { s with chosen := some (.port ⟨j.val, h⟩), outer := j + 1 }
    else
      match innerSearch ok s.inner with
      | some i => { s with chosen := some (innerMember i), outer := 0, inner := i + 1 }
      | none => { s with chosen := none }

/-- The state in which a choice stands if any member is eligible: an idle engine makes its choice and takes the
item at once (09, R155; log entry 6). -/
def withChoice (s : State) : State := if s.chosen = none then choose (eligible s) s else s

/-- The member whose item the engine takes next (09, R155). -/
def nextTake (s : State) : Option Member := (withChoice s).chosen

/-- The take of an item: the item leaves its member, and the next choice is made from the members eligible then,
before the item changes anything (09, R155). DEDUCED: the item being taken is no longer its member's to offer
(09, R156; log entry 7). -/
def beginTake (remove : State → State) (s : State) : State :=
  let t := remove (withChoice s)
  choose (eligible t) t

/-- The take of the PENDING command: the mailbox offers nothing more (09, R156). -/
def beginCommand (s : State) : State :=
  let t := withChoice s
  choose (fun m => decide (m ≠ .mgmt) && eligible t m) t

/-- The request the engine takes next, with its port (09, R152). -/
def takenRequest (s : State) : Option (Port × Request) :=
  match nextTake s with
  | some (.port p) => (s.port p).fifo.head?.map fun r => (p, r)
  | _ => none

/-- The entry the engine's next TIMER item names (09, R152, R156). -/
def takenTimer (s : State) : Option TimedEntry :=
  if nextTake s = some .timer ∧ serving s = true then s.offered else none

/-- The job whose step the engine's next SWEEP item takes (09, R152). -/
def takenJob (s : State) : Option Job := if nextTake s = some .sweep then s.sweep.head? else none

/-- The port whose withdrawal the engine takes next: the lowest-numbered pending one (09, R152). -/
def takenWithdrawal (s : State) : Option Port :=
  if nextTake s = some .withdraw then allPorts.find? fun p => (s.port p).withdrawPending else none

/-- The code of the command the engine's next MGMT item takes (09, R152). -/
def takenCommand (s : State) : Option Byte :=
  if nextTake s = some .mgmt ∧ s.mbox.state = .pending then some s.mbox.code else none

/-- The fence job of an agent (06, R124). -/
def isFenceJobOf (a : Agent) : Job → Bool
  | .fence b _ => decide (b = a)
  | .quiesce _ _ | .abort _ _ => false

/-- A fence job ends in the work item that leaves its agent's lease list empty: the job is removed, the agent becomes
FENCED, and an attached FENCE completes OK (06, R121). -/
def endFenceJob (before : State) (s : State) : Job → State
  | .fence a attached =>
    if (before.agent a).leases ≠ [] ∧ (s.agent a).leases = [] then
      let t := setAgentState a .fenced { s with sweep := s.sweep.filter fun j => !isFenceJobOf a j }
      if attached then completeCmd .ok [BitVec.setWidth 32 (t.agent a).epoch] t else t
    else s
  | .quiesce _ _ | .abort _ _ => s

/-- Every fence job that the item ends (06, R121). DESIGN CHOICE: after the item's evaluations (log entry 9). -/
def endFenceJobs (before : State) (s : State) : State := s.sweep.foldl (endFenceJob before) s

/-- The quiesce job (06, R124). -/
def isQuiesceJob : Job → Bool
  | .quiesce _ _ => true
  | .fence _ _ | .abort _ _ => false

/-- QUIESCING, its job ended, and the lease pool count 0 (11, R187). -/
def quiesceOver (s : State) : Bool :=
  decide (s.part = .quiescing) && !s.sweep.any isQuiesceJob && decide (poolCount s .leasePool = 0)

/-- The first work item that leaves a quiesced part without a lease halts it (11, R187). DESIGN CHOICE: a part found
QUIESCING with no lease and no quiesce job, which no run reaches, stays QUIESCING (log entry 17). -/
def quiesceHalt (before : State) (s : State) : State :=
  if quiesceOver s && !quiesceOver before then enterHalted s else s

/-- A count the item has changed is published, behind those the monitor has not evaluated: it supersedes an older one as
it arrives, not as it is published (08, R143; log entry 27). -/
def publishPool (before : State) (k : Pool) (s : State) : State :=
  if poolCount s k = poolCount before k then s else updPool k (fun p => { p with published := p.published ++ [poolCount s k] }) s

/-- Each count the item has changed is published once, at its end (08, R143; log entry 15). -/
def publishCounts (before : State) (s : State) : State :=
  publishPool before .waitPool (publishPool before .leasePool (publishPool before .lockTable s))

/-- What ends every work item: fence jobs, the quiesce halt as the last act of the engine, the clock's offer, and
the publication of the counts (06, R121; 11, R187; 07, R133; 08, R143). -/
def finishItem (before : State) (s : State) : State :=
  publishCounts before (offerTimer (quiesceHalt before (endFenceJobs before s)))

/-- The ports that the item under way has handed something are these. -/
def withHanded (l : List Port) (s : State) : State := { s with handed := l }

/-- A work item: its take, its own work, and what ends it (09, R157). It starts with nothing handed over. -/
def runItem (start work : State → State) (s : State) : State :=
  withHanded s.handed (finishItem s (work (withHanded [] (start s))))

/-- EMPTY_TAKE: the chosen member has nothing left; its turn is used and the next choice is made (09, R156). -/
def execEmptyTake (s : State) : Host.Outcome State Fault Refusal :=
  match s.chosen with
  | some m => if eligible s m then .next s else .next (beginTake id s)
  | none => .next s

end Sys2Proof.Machine
end

