-- ==== Sys2Proof/Machine/Mgmt.lean ====
section
/-! DEFINITION. The management commands the engine takes from the mailbox (chapter 11, section 11.3). -/

namespace Sys2Proof.Machine

/-- A latched argument word of the command in the mailbox (11, R191). -/
def argWord (s : State) (i : Fin 8) : Word := s.mbox.latched.get i

/-- The 64-bit value of two argument words, high then low (11, Table 11-5). -/
def argPair (s : State) (i j : Fin 8) : BitVec 64 := joinWords (argWord s i) (argWord s j)

/-- The agent that ARG0 bits 7..0 name (11, Table 11-5). -/
def argAgent (s : State) : Option Agent := agentOfNat (bitField (argWord s 0) 0 8)

/-- The engine takes the PENDING command whose code is given; where its next take is no such command nothing changes
(09, R152; log entry 1). -/
def takeCommand (isCode : Byte → Bool) (work : Byte → State → State) (s : State) :
    Host.Outcome State Fault Refusal :=
  match takenCommand s with
  | some c => if isCode c then .next (runItem beginCommand (work c) s) else .next s
  | none => .next s

/-- The domain entry that the argument words of SET_DOMAIN spell (11, Table 11-5). -/
def argDomain (s : State) : Domain :=
  let w := argWord s 0
  { valid := w.getLsbD 8, upgradeAllowed := w.getLsbD 9, modes := w.extractLsb' 12 2, policy := w.extractLsb' 14 2,
    base := argPair s 1 2, mask := argPair s 3 4, agents := argWord s 5,
    leaseDefault := (argWord s 6).extractLsb' 16 16, leaseMax := (argWord s 6).extractLsb' 0 16,
    waitCap := (argWord s 7).extractLsb' 16 16, queueLimit := (argWord s 7).extractLsb' 0 8 }

/-- The values a valid domain entry may hold (04, R68). -/
def domainValuesOk (d : Domain) : Bool :=
  decide (1 ≤ d.leaseDefault.toNat) && decide (1 ≤ d.leaseMax.toNat)
    && decide (d.leaseDefault.toNat ≤ d.leaseMax.toNat) && decide (1 ≤ d.waitCap.toNat)
    && decide (1 ≤ d.queueLimit.toNat ∧ d.queueLimit.toNat ≤ 64)
    && decide (d.modes = 1#2 ∨ d.modes = 2#2) && decide (d.policy = 1#2 ∨ d.policy = 2#2)

/-- SET_DOMAIN's work (04, R67, R68). -/
def setDomainWork (c : Byte) (s : State) : State :=
  if s.part ≠ .halted then completeTaken c .notHalted [] s
  else match domainOfNat (bitField (argWord s 0) 0 8) with
    | none => completeTaken c .invalid [] s
    | some i =>
      let d := argDomain s
      if d.valid = true ∧ domainValuesOk d = false then completeTaken c .invalid [] s
      else completeTaken c .ok [] { s with domains := s.domains.set i.val d i.isLt }

/-- The words that report a domain entry, laid out as SET_DOMAIN's arguments (11, Table 11-5). -/
def domainWords (i : Fin 16) (d : Domain) : List Word :=
  [atBit 0 i.val ||| flagAt 8 d.valid ||| flagAt 9 d.upgradeAllowed ||| atBit 12 d.modes.toNat
     ||| atBit 14 d.policy.toNat,
   highWord d.base, lowWord d.base, highWord d.mask, lowWord d.mask, d.agents,
   d.leaseDefault ++ d.leaseMax, atBit 16 d.waitCap.toNat ||| atBit 0 d.queueLimit.toNat]

/-- GET_DOMAIN's work (04, R67). -/
def getDomainWork (c : Byte) (s : State) : State :=
  match domainOfNat (bitField (argWord s 0) 0 8) with
  | none => completeTaken c .invalid [] s
  | some i => completeTaken c .ok (domainWords i (s.domain i)) s

/-- An epoch rises by one, from 65535 to 1 (06, R109). -/
def nextEpoch (e : BitVec 16) : BitVec 16 := if e = 0xFFFF#16 then 1#16 else e + 1#16

/-- An agent comes into service: ACTIVE, a new epoch, keepalive tick NOW, and its leases compared again (06, R111,
R123; 02, R35, R36). -/
def activate (a : Agent) (s : State) : State :=
  recompareLeases a
    (updAgent a (fun g => { g with state := .active, epoch := nextEpoch g.epoch, keepalive := s.now }) s)

/-- RES0 and RES1 of SET_AGENT and GET_AGENT: state, epoch, quota (11, Table 11-5). -/
def agentWords (g : AgentRec) : List Word :=
  [atBit 0 (agentStateCode g.state) ||| atBit 16 g.epoch.toNat, BitVec.ofNat 32 g.quota]

/-- Write an agent's quota (04, R73). -/
def setQuota (a : Agent) (q : Nat) (s : State) : State := updAgent a (fun g => { g with quota := q }) s

/-- SET_AGENT completes OK with the agent's record as it then stands (06, R110). -/
def agentDone (c : Byte) (a : Agent) (s : State) : State := completeTaken c .ok (agentWords (s.agent a)) s

/-- SET_AGENT in HALTED: action 0 NONE, 1 ENABLE, 2 DISABLE (06, Table 6-4). -/
def setAgentHalted (c : Byte) (a : Agent) (action quota : Nat) (s : State) : State :=
  if quota = 0 ∨ Config.maxQuota < quota then completeTaken c .invalid [] s
  else if action = 0 then agentDone c a (setQuota a quota s)
  else if action = 1 then
    match (s.agent a).state with
    | .disabled => agentDone c a (activate a (setQuota a quota s))
    | .active => completeTaken c .already [] s
    | .fencing | .fenced => completeTaken c .invalid [] s
  else
    match (s.agent a).state with
    | .active | .fencing | .fenced => agentDone c a (setAgentState a .disabled (setQuota a quota s))
    | .disabled => completeTaken c .already [] s

/-- SET_AGENT's work (06, R110 to R112). -/
def setAgentWork (c : Byte) (s : State) : State :=
  let action := bitField (argWord s 0) 8 2
  match argAgent s with
  | none => completeTaken c .invalid [] s
  | some a =>
    if action = 3 then completeTaken c .invalid [] s
    else if s.part = .halted then setAgentHalted c a action (bitField (argWord s 1) 0 16) s
    else if action = 1 ∧ (s.agent a).state = .disabled then agentDone c a (activate a s)
    else completeTaken c .notHalted [] s

/-- The set of an agent's tags that are not FREE, bit n for tag n (06, R127). -/
def busyTags (s : State) (a : Agent) : Word :=
  allTags.foldl (fun w t => w ||| flagAt t.val (decide (s.tag a t ≠ .free))) 0#32

/-- A fence job for the agent is in the sweep list (06, R127). -/
def fenceJobPresent (s : State) (a : Agent) : Bool := s.sweep.any (isFenceJobOf a)

/-- GET_AGENT's work (06, R127). -/
def getAgentWork (c : Byte) (s : State) : State :=
  match argAgent s with
  | none => completeTaken c .invalid [] s
  | some a =>
    let g := s.agent a
    let k := BitVec.ofNat 64 g.keepalive
    completeTaken c .ok
      (agentWords g ++
        [highWord k &&& 0xFFFF#32, lowWord k, atBit 0 g.leases.length ||| atBit 16 (waitCount s a),
         busyTags s a ||| flagAt 16 (fenceJobPresent s a)]) s

/-- SEED's work (11, R194). -/
def seedWork (c : Byte) (s : State) : State :=
  let v := argPair s 0 1
  if s.part ≠ .halted then completeTaken c .notHalted [] s
  else if v.toNat < s.token.toNat ∨ v = Config.tokenEnd then completeTaken c .invalid [] s
  else completeTaken c .ok [highWord v, lowWord v] { s with token := v, seeded := true }

/-- START's work (11, R184). -/
def startWork (c : Byte) (s : State) : State :=
  match s.part with
  | .halted =>
    if s.seeded = true ∧ s.domains.toList.any (fun d => d.valid) = true then
      completeTaken c .ok [BitVec.ofNat 32 (partCode .running)] (postEvent .partState { s with part := .running })
    else completeTaken c .notReady [] s
  | .running => completeTaken c .already [] s
  | .quiescing | .aborting => completeTaken c .notHalted [] s

/-- QUIESCE's work; with no lease the part passes on to HALTED at the end of this item (11, R185, R187). -/
def quiesceWork (c : Byte) (s : State) : State :=
  match s.part with
  | .running =>
    let t := postEvent .partState { s with part := .quiescing }
    if poolCount s .leasePool = 0 then completeTaken c .ok [BitVec.ofNat 32 (partCode .halted), 0#32] t
    else mailboxRunning { t with sweep := t.sweep ++ [.quiesce 0 true] }
  | .quiescing | .halted | .aborting => completeTaken c .already [] s

/-- A job with the mailbox's command attached, if it is an abort job (11, R188). -/
def attachAbort : Job → Job
  | .abort n _ => .abort n true
  | .fence a att => .fence a att
  | .quiesce n att => .quiesce n att

/-- ABORT's work (11, R188). -/
def abortWork (c : Byte) (s : State) : State :=
  match s.part with
  | .running | .quiescing => mailboxRunning (startAbort true s)
  | .aborting => mailboxRunning { s with sweep := s.sweep.map attachAbort }
  | .halted =>
    if s.mbox.abortEnded then completeTaken c .ok [BitVec.ofNat 32 (partCode .halted)] s
    else completeTaken c .already [] s

/-- A job with the mailbox's command attached, if it is the agent's fence job (06, R119). -/
def attachFence (a : Agent) : Job → Job
  | .fence b att => if b = a then .fence b true else .fence b att
  | .quiesce n att => .quiesce n att
  | .abort n att => .abort n att

/-- A FENCE whose agent's job is in the list attaches to it, unless an automatic ABORT superseded it in this item
(06, R119; 11, R189). -/
def attachToFenceJob (c : Byte) (a : Agent) (s : State) : State :=
  if stillCarried c s then mailboxRunning { s with sweep := s.sweep.map (attachFence a) } else s

/-- RES0 of FENCE and ADMIT: the agent's epoch (11, Table 11-5). -/
def epochWord (s : State) (a : Agent) : List Word := [atBit 0 (s.agent a).epoch.toNat]

/-- FENCE's work (06, R119). -/
def fenceWork (c : Byte) (s : State) : State :=
  match argAgent s with
  | none => completeTaken c .invalid [] s
  | some a =>
    match (s.agent a).state with
    | .active =>
      let t := enterFencing a s
      if (t.agent a).state = .fenced then completeTaken c .ok (epochWord t a) t else attachToFenceJob c a t
    | .fencing => attachToFenceJob c a s
    | .fenced => completeTaken c .already [] s
    | .disabled => completeTaken c .notAdmitted [] s

/-- ADMIT's work (06, R123). -/
def admitWork (c : Byte) (s : State) : State :=
  match argAgent s with
  | none => completeTaken c .invalid [] s
  | some a =>
    match (s.agent a).state with
    | .fenced =>
      let t := activate a s
      completeTaken c .ok (epochWord t a) t
    | .fencing => completeTaken c .busy [] s
    | .active => completeTaken c .already [] s
    | .disabled => completeTaken c .notAdmitted [] s

/-- Steps 1 and 2 of FORCE_RELEASE: the upgrade is answered LOST, every holder is lost FORCED in holders-list order
(11, R195; 02, R42). -/
def forceLoss (n : Nat) (r : LockRecord) (s : State) : State :=
  r.holders.foldl (fun s h => loseLease h.num .forced s) (dropUpgrade n (some .lost) s)

/-- The number of a record's holders, 0 when there is no such record. -/
def holderCount (s : State) (n : Nat) : Nat := ((tableGet s.records n).map fun r => r.holders.length).getD 0

/-- FORCE_RELEASE's work; the grants made are the holders the evaluation of the holderless record leaves
(11, R195). -/
def forceReleaseWork (c : Byte) (s : State) : State :=
  match recordOfKey s (argPair s 0 1) with
  | none => completeTaken c .notFound [] s
  | some (n, r) =>
    let t := evaluate n (forceLoss n r s)
    completeTaken c .ok
      [atBit 0 r.holders.length ||| flagAt 8 r.slot.isSome,
       atBit 0 (holderCount t n) ||| flagAt 8 (tableGet t.records n).isNone] t

/-- The set of agents that own a record's holders, bit n for agent n (11, R196). -/
def holderAgents (s : State) (r : LockRecord) : Word :=
  r.holders.foldl (fun w h => match leaseAt s h.num with
    | some l => w ||| atBit l.agent.val 1
    | none => w) 0#32

/-- RES2 of INSPECT_LOCK: the upgrade, if present (11, Table 11-5). -/
def upgradeWord (r : LockRecord) : Word :=
  match r.slot with
  | some u => atBit 31 1 ||| atBit 24 u.tag.val ||| atBit 16 u.lease.gen.toNat ||| atBit 0 u.lease.num
  | none => 0#32

/-- The words that report a record (11, R196, Table 11-5). -/
def lockWords (s : State) (n : Nat) (r : LockRecord) : List Word :=
  [atBit 0 (modeCode r.mode) ||| atBit 8 r.holders.length ||| atBit 16 r.queue.length, holderAgents s r, upgradeWord r,
   highWord r.lastToken, lowWord r.lastToken, atBit 0 n ||| atBit 16 r.domain.val]

/-- INSPECT_LOCK's work (11, R196). -/
def inspectLockWork (c : Byte) (s : State) : State :=
  match recordOfKey s (argPair s 0 1) with
  | none => completeTaken c .notFound [] s
  | some (n, r) => completeTaken c .ok (lockWords s n r) s

/-- The words that report a lease entry (11, R197, Table 11-5). -/
def leaseWords (s : State) (k : Nat) : List Word :=
  let g := atBit 8 (genOf s k).toNat
  match tableGet s.leases k with
  | none => [g]
  | some (.reserved a _) => [atBit 0 1 ||| g ||| atBit 16 a.val]
  | some (.inUse l) =>
    let key := ((tableGet s.records l.record).map fun r => r.key).getD 0#64
    let d := BitVec.ofNat 64 (effectiveDeadline s l)
    [atBit 0 2 ||| g ||| atBit 16 l.agent.val ||| atBit 24 (modeCode l.mode), highWord key, lowWord key,
     highWord l.token, lowWord l.token, highWord d &&& 0xFFFF#32, lowWord d, BitVec.ofNat 32 l.duration]

/-- INSPECT_LEASE's work (11, R197). -/
def inspectLeaseWork (c : Byte) (s : State) : State :=
  let k := bitField (argWord s 0) 0 16
  if k < Config.leaseCapacity then completeTaken c .ok (leaseWords s k) s else completeTaken c .invalid [] s

/-- Marks that satisfy every condition for their pool (08, Table 8-2). -/
def marksOk (k : Pool) (low high shed : Nat) : Bool :=
  decide (low < high ∧ high ≤ shed ∧ shed ≤ poolCapacity k)

/-- A pool with new marks and its level recomputed from the engine's present count, the latest published (08, R149).
DEDUCED: it covers every count published before and not evaluated, since those of one pool arrive in order and a newer one
supersedes the older (08, R143; log entry 27). -/
def withMarks (low high shed count : Nat) (p : PoolState) : PoolState :=
  let q := { p with low := low, high := high, shed := shed }
  { q with level := levelOnMarks q count, evaluated := count, published := [] }

/-- A pool's level changes: its PRESSURE event is set (08, R147). -/
def setPool (k : Pool) (p : PoolState) (s : State) : State :=
  let t := updPool k (fun _ => p) s
  if p.level = (s.pool k).level then t else postEvent (.pressure k) t

/-- SET_PRESSURE's work (08, R149). -/
def setPressureWork (c : Byte) (s : State) : State :=
  let low := bitField (argWord s 1) 0 16
  let high := bitField (argWord s 2) 0 16
  let shed := bitField (argWord s 3) 0 16
  match poolOfCode (bitField (argWord s 0) 0 8) with
  | none => completeTaken c .invalid [] s
  | some k =>
    if marksOk k low high shed then
      let t := setPool k (withMarks low high shed (poolCount s k) (s.pool k)) s
      completeTaken c .ok
        [BitVec.ofNat 32 (levelCode (t.pool k).level), BitVec.ofNat 32 (t.pool k).evaluated] t
    else completeTaken c .invalid [] s

/-- The codes that name a command are 01h to 0Eh (11, Table 11-2). -/
def codeNamed (c : Byte) : Bool := decide (1 ≤ c.toNat ∧ c.toNat ≤ 14)

/-- SET_DOMAIN (04, R68). -/
def execSetDomain (s : State) : Host.Outcome State Fault Refusal := takeCommand (fun c => c = 0x01#8) setDomainWork s

/-- GET_DOMAIN (04, R67). -/
def execGetDomain (s : State) : Host.Outcome State Fault Refusal := takeCommand (fun c => c = 0x02#8) getDomainWork s

/-- SET_AGENT (06, R110). -/
def execSetAgent (s : State) : Host.Outcome State Fault Refusal := takeCommand (fun c => c = 0x03#8) setAgentWork s

/-- GET_AGENT (06, R127). -/
def execGetAgent (s : State) : Host.Outcome State Fault Refusal := takeCommand (fun c => c = 0x04#8) getAgentWork s

/-- SEED (11, R194). -/
def execSeed (s : State) : Host.Outcome State Fault Refusal := takeCommand (fun c => c = 0x05#8) seedWork s

/-- START (11, R184). -/
def execStart (s : State) : Host.Outcome State Fault Refusal := takeCommand (fun c => c = 0x06#8) startWork s

/-- QUIESCE (11, R185). -/
def execQuiesce (s : State) : Host.Outcome State Fault Refusal := takeCommand (fun c => c = 0x07#8) quiesceWork s

/-- ABORT (11, R188). -/
def execAbort (s : State) : Host.Outcome State Fault Refusal := takeCommand (fun c => c = abortCode) abortWork s

/-- FENCE (06, R119). -/
def execFence (s : State) : Host.Outcome State Fault Refusal := takeCommand (fun c => c = 0x09#8) fenceWork s

/-- ADMIT (06, R123). -/
def execAdmitAgent (s : State) : Host.Outcome State Fault Refusal := takeCommand (fun c => c = 0x0A#8) admitWork s

/-- FORCE_RELEASE (11, R195). -/
def execForceRelease (s : State) : Host.Outcome State Fault Refusal :=
  takeCommand (fun c => c = 0x0B#8) forceReleaseWork s

/-- INSPECT_LOCK (11, R196). -/
def execInspectLock (s : State) : Host.Outcome State Fault Refusal :=
  takeCommand (fun c => c = 0x0C#8) inspectLockWork s

/-- INSPECT_LEASE (11, R197). -/
def execInspectLease (s : State) : Host.Outcome State Fault Refusal :=
  takeCommand (fun c => c = 0x0D#8) inspectLeaseWork s

/-- SET_PRESSURE (08, R149). -/
def execSetPressure (s : State) : Host.Outcome State Fault Refusal :=
  takeCommand (fun c => c = 0x0E#8) setPressureWork s

/-- UNKNOWN_COMMAND: a code that names no command completes INVALID and changes nothing (11, R192). -/
def execUnknownCommand (s : State) : Host.Outcome State Fault Refusal :=
  takeCommand (fun c => !codeNamed c) (fun c s => completeTaken c .invalid [] s) s

end Sys2Proof.Machine
end

