-- ==== Sys2Proof/Machine/Monitor.lean ====
section
/-! DEFINITION. The pressure monitor's evaluation of an arriving count (08, R143, R146, R147). -/

namespace Sys2Proof.Machine

/-- A pool after the monitor has evaluated a count, with the counts published after it still to come (08, R146). -/
def evaluateCount (count : Nat) (later : List Nat) (p : PoolState) : PoolState :=
  { p with level := levelOnArrival p count, evaluated := count, published := later }

/-- The monitor evaluates the published count of a pool that so many older ones stand before; those it has superseded, by
arriving before their evaluation (08, R143). -/
def evaluateAfter (k : Pool) (older : Nat) (s : State) : State :=
  match (s.pool k).published.drop older with
  | count :: later => setPool k (evaluateCount count later (s.pool k)) s
  | [] => s

/-- COUNT_ARRIVAL: the monitor evaluates a published count of the pool; with none outstanding nothing changes (08, R143,
R146; log entry 1). DESIGN CHOICE: with several outstanding, how many older ones the one it evaluates has superseded is a
free value, since R143 does not say when a published count arrives (log entry 27). -/
def execCountArrival (k : Pool) (s : State) : Host.Outcome State Fault Refusal :=
  let n := (s.pool k).published.length
  .next (if n ≤ 1 then evaluateAfter k 0 s
    else evaluateAfter k (Config.countsSuperseded s.freeDraws % n) { s with freeDraws := s.freeDraws + 1 })

end Sys2Proof.Machine
end

