-- ==== Sys2Proof/Machine/Frame.lean ====
section
/-! DEFINITION. Frames of the agent link: the frame check, the envelope, and the request, reply and notice
layouts (10, R168 and section 10.7). -/

namespace Sys2Proof.Machine

/-- One bit into the check register: polynomial 04C11DB7h, most significant bit first (10, R168). -/
def crcBit (c : BitVec 32) (b : Bool) : BitVec 32 :=
  if c.msb ^^ b then (c <<< 1) ^^^ 0x04C11DB7#32 else c <<< 1

/-- The bits of a byte, most significant first (10, R168). -/
def bitsOfByte (x : Byte) : List Bool :=
  [x.getLsbD 7, x.getLsbD 6, x.getLsbD 5, x.getLsbD 4, x.getLsbD 3, x.getLsbD 2, x.getLsbD 1, x.getLsbD 0]

/-- One byte into the check register (10, R168). -/
def crcByte (c : BitVec 32) (x : Byte) : BitVec 32 := (bitsOfByte x).foldl crcBit c

/-- The frame check over the kind byte and the payload: preset FFFFFFFFh, final value inverted (10, R168). -/
def frameCheck (l : List Byte) : BitVec 32 := ~~~(l.foldl crcByte 0xFFFFFFFF#32)

/-- A frame on the link: kind byte, payload, four check bytes (10, Table 10-4). -/
def frameBytes (kind : Byte) (payload : List Byte) : List Byte :=
  (kind :: payload) ++ bytes32 (frameCheck (kind :: payload))

/-- The kind byte and payload of a frame: all but its last four bytes. -/
def frameBody (f : List Byte) : List Byte := f.take (f.length - 4)

/-- The frame's check passes. DEDUCED: a frame too short for a kind byte and a check fails it (log entry 18). -/
def frameOk (f : List Byte) : Bool :=
  decide (5 ≤ f.length) && decide (f.drop (f.length - 4) = bytes32 (frameCheck (frameBody f)))

/-- The kind code of a frame (10, Table 10-3). -/
def frameKind (f : List Byte) : Byte := byteAt f 0

/-- The payload of a frame. -/
def framePayload (f : List Byte) : List Byte := (frameBody f).drop 1

/-- The length of a frame that carries a request message: kind, 24 bytes, check (10, Table 10-4). -/
def requestFrameLength : Nat := Config.requestLength + 5

/-- The fields of a request message; bit 3 of byte 1 and the pad bytes are not examined (10, Table 10-5). -/
def requestOfBytes (m : List Byte) : Request :=
  { kind := byteAt m 0, slot := slotBits (byteAt m 1), tag := tagBits (byteAt m 1), epoch := field16 m 2,
    key := field64 m 4, mode := byteAt m 12, target := byteAt m 13, waitTicks := field16 m 14,
    leaseTicks := field16 m 16, leaseNum := field16 m 18, gen := byteAt m 20 }

/-- A request message of these fields, as a node bridge sends it: pad bytes zero (10, Table 10-5). -/
def requestBytes (r : Request) : List Byte :=
  [r.kind, slotTagByte r.slot r.tag] ++ bytes16 r.epoch ++ bytes64 r.key ++ [r.mode, r.target]
    ++ bytes16 r.waitTicks ++ bytes16 r.leaseTicks ++ bytes16 r.leaseNum ++ [r.gen, 0#8, 0#8, 0#8]

/-- The info bytes 18..25 of a reply (10, Table 10-7). -/
def infoBytes : ReplyInfo → List Byte
  | .none => [0#8, 0#8, 0#8, 0#8, 0#8, 0#8, 0#8, 0#8]
  | .join e q n => bytes16 e ++ bytes16 q ++ bytes16 n ++ [0#8, 0#8]
  | .keepalive n => bytes16 n ++ [0#8, 0#8, 0#8, 0#8, 0#8, 0#8]
  | .query m h w u => [m, h, w, u, 0#8, 0#8, 0#8, 0#8]

/-- A reply message (10, Table 10-6). -/
def replyBytes (r : Reply) : List Byte :=
  [0x81#8, slotTagByte r.slot r.tag, statusCode r.status, r.kind] ++ bytes16 r.content.num
    ++ [r.content.gen, r.content.mode] ++ bytes64 r.content.token ++ bytes16 r.content.ticks
    ++ infoBytes r.content.info ++ [0#8, 0#8, 0#8, 0#8, 0#8, 0#8]

/-- A notice message (10, Table 10-8). -/
def noticeBytes : Notice → List Byte
  | .lost s c h reason =>
    [0x82#8, BitVec.ofNat 8 s.val, reasonCode reason] ++ bytes16 (BitVec.ofNat 16 c)
      ++ bytes16 (BitVec.ofNat 16 h.num) ++ [h.gen] ++ [0#8, 0#8, 0#8, 0#8, 0#8, 0#8, 0#8, 0#8]
  | .fence s e =>
    [0x83#8, BitVec.ofNat 8 s.val, 0#8, 0#8, 0#8, 0#8, 0#8, 0#8] ++ bytes16 e
      ++ [0#8, 0#8, 0#8, 0#8, 0#8, 0#8]

/-- The bytes the transmitter puts on the lane for a frame (10, Tables 10-3 and 10-4). -/
def txBytes : TxFrame → List Byte
  | .train => frameBytes 1#8 []
  | .trainAck => frameBytes 2#8 []
  | .credit n => frameBytes 3#8 [BitVec.ofNat 8 n]
  | .reply r => frameBytes 4#8 (replyBytes r)
  | .notice n => frameBytes 4#8 (noticeBytes n)

end Sys2Proof.Machine
end

