-- ==== Sys2Proof/Machine/Link.lean ====
section
/-! DEFINITION. The agent ports' links: training, going DOWN, frames received, and the commands of the links
(chapter 10). -/

namespace Sys2Proof.Machine

/-- The port enters TRAINING: LINK_CHANGE, and a TRAIN frame at once (10, R161). -/
def enterTraining (p : Port) (s : State) : State :=
  postEvent (.linkChange p) (updPort p (fun q => { q with link := .training, tx := some .train }) s)

/-- A DOWN port that is enabled, sees a signal and is not held down enters TRAINING (10, R161). -/
def tryTrain (p : Port) (s : State) : State :=
  let q := s.port p
  if q.link = .down ∧ q.enable = true ∧ q.signal = true ∧ q.heldDown = false then enterTraining p s else s

/-- The state of a port that has gone DOWN from UP (10, R165). -/
def downFromUp (q : PortState) : PortState :=
  { q with link := .down, heldDown := true, withdrawPending := true, fifo := [], replyQ := [], noticeQ := [],
           reports := [], ingressCredits := 0, unsentReturns := 0, withheld := 0, egressCredits := 0,
           ackOwed := false, egressTurn := .reply, tx := none, trainDue := false }

/-- The state of a port that has gone DOWN from TRAINING (10, R166). DEDUCED: the frame being sent is cut off, since in
DOWN the transmitter sends nothing (10, R161; log entry 12). -/
def downFromTraining (q : PortState) : PortState :=
  { q with link := .down, replyQ := [], noticeQ := [], ackOwed := false, tx := none, trainDue := false }

/-- A port goes DOWN for loss of signal, a cleared enable or a TRAIN received: LINK_CHANGE (10, R164, R166). -/
def goDown (p : Port) (s : State) : State :=
  match (s.port p).link with
  | .up => postEvent (.linkChange p) (updPort p downFromUp s)
  | .training => postEvent (.linkChange p) (updPort p downFromTraining s)
  | .down => s

/-- A protocol violation takes an UP port DOWN with LINK_FAULT (10, R164). -/
def linkFault (p : Port) (s : State) : State := postEvent (.linkFault p) (goDown p s)

/-- A TRAIN_ACK in TRAINING puts the port UP with 16 ingress credits to return (10, R163). DESIGN CHOICE: a frame being
sent at that moment, a TRAIN or a TRAIN_ACK, is sent to its end before the transmitter begins the CREDIT, where the rule
says no more than that the port stops sending TRAIN frames (log entry 26). -/
def goUp (p : Port) (s : State) : State :=
  postEvent (.linkChange p)
    (updPort p (fun q => { q with link := .up, ingressCredits := Config.ingressTotal,
                                  unsentReturns := Config.ingressTotal, trainDue := false }) s)

/-- A frame that fails its check: discarded, FRAME_ERROR set, and in UP a frame of request length may return the
one credit it is taken to have used (10, R162, R170). DEDUCED: with unsent returns above the ingress credit count, where
the table of R170 has no row, such a frame has no credit effect, as with the two equal (log entry 19). -/
def onCheckFailed (p : Port) (f : List Byte) (s : State) : State :=
  updPort p (fun q =>
    if q.link = .up ∧ f.length = requestFrameLength ∧ q.unsentReturns < q.ingressCredits then
      { q with frameError := true, unsentReturns := q.unsentReturns + 1 }
    else { q with frameError := true }) s

/-- A TRAIN frame that passes its check (10, R162, R164). -/
def onTrain (p : Port) (f : List Byte) (s : State) : State :=
  match (s.port p).link with
  | .down => s
  | .training => if framePayload f = [] then updPort p (fun q => { q with ackOwed := true }) s else s
  | .up => if framePayload f = [] then goDown p s else linkFault p s

/-- A TRAIN_ACK frame that passes its check (10, R162 to R164). -/
def onTrainAck (p : Port) (f : List Byte) (s : State) : State :=
  match (s.port p).link with
  | .down => s
  | .training => if framePayload f = [] then goUp p s else s
  | .up => if framePayload f = [] then s else linkFault p s

/-- A CREDIT frame that passes its check (10, R162, R168, R175). -/
def onCredit (p : Port) (f : List Byte) (s : State) : State :=
  match (s.port p).link with
  | .down | .training => s
  | .up =>
    match framePayload f with
    | [c] =>
      if 1 ≤ c.toNat ∧ c.toNat ≤ 16 ∧ (s.port p).egressCredits + c.toNat ≤ Config.maxEgress then
        updPort p (fun q => { q with egressCredits := q.egressCredits + c.toNat }) s
      else linkFault p s
    | _ => linkFault p s

/-- A MESSAGE frame that passes its check (10, R162, R168, R169). -/
def onMessage (p : Port) (f : List Byte) (s : State) : State :=
  match (s.port p).link with
  | .down | .training => s
  | .up =>
    if (framePayload f).length = Config.requestLength ∧ 1 ≤ (s.port p).ingressCredits then
      updPort p (fun q => { q with ingressCredits := q.ingressCredits - 1,
                                   fifo := q.fifo ++ [requestOfBytes (framePayload f)] }) s
    else linkFault p s

/-- A frame of unknown kind that passes its check (10, R162, R168). -/
def onUnknownKind (p : Port) (s : State) : State :=
  match (s.port p).link with
  | .down | .training => s
  | .up => linkFault p s

/-- The receiver examines a frame by its check first, and then by its kind code; in DOWN it ignores every frame
(10, R161, R168). -/
def receiveFrame (p : Port) (f : List Byte) (s : State) : State :=
  if (s.port p).link = .down then s
  else if frameOk f = false then onCheckFailed p f s
  else if frameKind f = 1#8 then onTrain p f s
  else if frameKind f = 2#8 then onTrainAck p f s
  else if frameKind f = 3#8 then onCredit p f s
  else if frameKind f = 4#8 then onMessage p f s
  else onUnknownKind p s

/-- SIGNAL_ARRIVES: the receiver detects the far-end signal; a port ready for it trains (10, R161). -/
def execSignalArrives (p : Port) (s : State) : Host.Outcome State Fault Refusal :=
  .next (tryTrain p (updPort p (fun q => { q with signal := true }) s))

/-- SIGNAL_LOST: an UP or TRAINING port goes DOWN (10, R164, R166). -/
def execSignalLost (p : Port) (s : State) : Host.Outcome State Fault Refusal :=
  .next (goDown p (updPort p (fun q => { q with signal := false }) s))

/-- SEND_TRAIN: the 100 µs interval of a TRAINING port comes round; its TRAIN is sent when the transmitter is free and
no TRAIN_ACK is owed (10, R161, R176). -/
def execSendTrain (p : Port) (s : State) : Host.Outcome State Fault Refusal :=
  if (s.port p).link = .training then
    .next (updPort p (fun q =>
      if q.tx = none ∧ q.ackOwed = false then { q with tx := some .train, trainDue := false }
      else { q with trainDue := true }) s)
  else .next s

/-- TRAIN_RECEIVED (10, R162, R164). -/
def execTrainReceived (p : Port) (f : List Byte) (s : State) : Host.Outcome State Fault Refusal :=
  .next (receiveFrame p f s)

/-- TRAIN_ACK_RECEIVED (10, R163). -/
def execTrainAckReceived (p : Port) (f : List Byte) (s : State) : Host.Outcome State Fault Refusal :=
  .next (receiveFrame p f s)

/-- CREDIT_RECEIVED (10, R168, R175). -/
def execCreditReceived (p : Port) (f : List Byte) (s : State) : Host.Outcome State Fault Refusal :=
  .next (receiveFrame p f s)

/-- MESSAGE_RECEIVED (10, R169). -/
def execMessageReceived (p : Port) (f : List Byte) (s : State) : Host.Outcome State Fault Refusal :=
  .next (receiveFrame p f s)

/-- FRAME_CHECK_FAILED (10, R170). -/
def execFrameCheckFailed (p : Port) (f : List Byte) (s : State) : Host.Outcome State Fault Refusal :=
  .next (receiveFrame p f s)

/-- UNKNOWN_KIND_FRAME_RECEIVED (10, R162, R168). -/
def execUnknownKindFrameReceived (p : Port) (f : List Byte) (s : State) : Host.Outcome State Fault Refusal :=
  .next (receiveFrame p f s)

/-- TRANSMIT_FRAME: a free transmitter begins the next frame (10, R176). -/
def execTransmitFrame (p : Port) (s : State) : Host.Outcome State Fault Refusal := .next (updPort p transmit s)

/-- TRANSMISSION_COMPLETE: the frame being sent is at its end (10, R177). -/
def execTransmissionComplete (p : Port) (s : State) : Host.Outcome State Fault Refusal :=
  .next (updPort p completeFrame s)

/-- TAG_COMPLETE: the engine takes a port's oldest tag-complete report; a REPLYING tag becomes FREE (06, R115;
10, R178). -/
def execTagComplete (p : Port) (s : State) : Host.Outcome State Fault Refusal :=
  match (s.port p).reports with
  | [] => .next s
  | (a, t) :: rest =>
    let s' := updPort p (fun q => { q with reports := rest }) s
    .next (if s.tag a t = .replying then setTag a t .free s' else s')

end Sys2Proof.Machine
end

