-- ==== Sys2Proof/Machine/Registers.lean ====
section
/-! DEFINITION. The management port's register window, the CMD write, and SPI transactions (11, sections 11.2, 11.5
to 11.7), and device reset. -/

namespace Sys2Proof.Machine

/-- A command is placed in an IDLE or DONE mailbox: the arguments are latched, both marks clear (11, R192). -/
def placeCommand (code : Byte) (s : State) : State :=
  { s with mbox := { s.mbox with state := .pending, code := code, auto := false, abortEnded := false,
                                 latched := s.args } }

/-- A write to CMD (11, R192, R193). -/
def writeCmd (v : Word) (s : State) : State :=
  let code : Byte := v.extractLsb' 0 8
  if code = 0#8 then s
  else match s.mbox.state with
    | .idle | .done => placeCommand code s
    | .pending | .running =>
      if s.mbox.code ≠ abortCode ∧ code = abortCode then supersede false s.args s else postEvent .cmdOverrun s

/-- A write to TICK_PERIOD: accepted in HALTED from 100 on, and the interval restarts (07, R130). -/
def writeTickPeriod (v : Word) (s : State) : State :=
  if s.part = .halted ∧ Config.minTickPeriod ≤ bitField v 0 16 then
    { s with tickPeriod := v.extractLsb' 0 16, tickPos := 0 }
  else s

/-- One port's enable is written: a set one lets a DOWN port train, a cleared one takes the port DOWN
(10, R161, R164, R166; 11, R200). -/
def writeEnable (v : Word) (s : State) (p : Port) : State :=
  let t := updPort p (fun q => { q with enable := v.getLsbD p.val }) s
  if v.getLsbD p.val then tryTrain p t else goDown p t

/-- A write to LINK_CTRL: bit n is the enable of An (11, R200, Table 11-4). -/
def writeLinkCtrl (v : Word) (s : State) : State := allPorts.foldl (writeEnable v) s

/-- A write to EVENTS: a one clears the flag in its position (11, R198). -/
def writeEvents (v : Word) (s : State) : State := { s with events := s.events &&& ~~~v }

/-- A one written to a port's FRAME_ERROR position, bit 3 of byte n for An, clears that flag (10, R170;
11, Table 11-4). -/
def clearFrameError (v : Word) (s : State) (p : Port) : State :=
  if v.getLsbD (8 * p.val + 3) then updPort p (fun q => { q with frameError := false }) s else s

/-- A write to LINK_STATUS (11, R200). -/
def writeLinkStatus (v : Word) (s : State) : State := allPorts.foldl (clearFrameError v) s

/-- The ARG register at an address, if it is one (11, Table 11-4). -/
def argIndex (addr : BitVec 7) : Option (Fin 8) :=
  if h : 8 ≤ addr.toNat ∧ addr.toNat < 16 then some ⟨addr.toNat - 8, by omega⟩ else none

/-- A write to a register without behaviour of its own: ARG words and EVENT_ENABLE take their writable fields; every
other write is ignored (11, R199, R200). -/
def writePlain (addr : BitVec 7) (v : Word) (s : State) : State :=
  match argIndex addr with
  | some i => { s with args := s.args.set i.val v i.isLt }
  | none => if addr = 0x19#7 then { s with eventEnable := v &&& Config.eventMask } else s

/-- A completed write transaction at any word address (11, R200, R203). -/
def writeRegister (addr : BitVec 7) (v : Word) (s : State) : State :=
  if addr = 0x02#7 then writeCmd v s
  else if addr = 0x18#7 then writeEvents v s
  else if addr = 0x1C#7 then writeTickPeriod v s
  else if addr = 0x1D#7 then writeLinkCtrl v s
  else if addr = 0x1E#7 then writeLinkStatus v s
  else writePlain addr v s

/-- A port's byte of LINK_STATUS (11, Table 11-4). -/
def linkStatusByte (q : PortState) : Nat :=
  linkCode q.link + (if q.heldDown then 4 else 0) + (if q.frameError then 8 else 0)

/-- LINK_STATUS: byte n for port An (11, Table 11-4). -/
def linkStatusWord (s : State) : Word :=
  allPorts.foldl (fun w p => w ||| atBit (8 * p.val) (linkStatusByte (s.port p))) 0#32

/-- LINK_CTRL: bit n is the enable of An (11, Table 11-4). -/
def linkCtrlWord (s : State) : Word := allPorts.foldl (fun w p => w ||| flagAt p.val (s.port p).enable) 0#32

/-- CMD_STATUS (11, Table 11-4). -/
def cmdStatusWord (m : Mailbox) : Word :=
  atBit 0 (mailCode m.state) ||| atBit 8 (resultCode m.result) ||| atBit 16 m.code.toNat ||| flagAt 24 m.auto

/-- POOL_LEVEL of a pool (08, R150; 11, Table 11-4). -/
def poolLevelWord (p : PoolState) : Word := atBit 0 (levelCode p.level) ||| atBit 16 p.evaluated

/-- The first POOL_MARK word of a pool: low and high (11, R201, Table 11-4). -/
def poolMarkWord (p : PoolState) : Word := atBit 0 p.low ||| atBit 16 p.high

/-- Bits 31..0 of NOW (11, R201). -/
def nowLow (s : State) : Word := BitVec.ofNat 32 s.now

/-- Bits 47..32 of NOW (11, R201). -/
def nowHigh (s : State) : BitVec 16 := BitVec.ofNat 16 (s.now / 4294967296)

/-- The content of a register as a read captures it; an address that names no register reads as zero (11, R200,
Table 11-4). -/
def readRegister (s : State) (addr : BitVec 7) : Word :=
  match addr.toNat with
  | 0x00 => Config.idWord
  | 0x01 => BitVec.ofNat 32 (partCode s.part)
  | 0x02 => BitVec.setWidth 32 s.mbox.code
  | 0x03 => cmdStatusWord s.mbox
  | 0x08 => s.args.get 0
  | 0x09 => s.args.get 1
  | 0x0A => s.args.get 2
  | 0x0B => s.args.get 3
  | 0x0C => s.args.get 4
  | 0x0D => s.args.get 5
  | 0x0E => s.args.get 6
  | 0x0F => s.args.get 7
  | 0x10 => s.res.get 0
  | 0x11 => s.res.get 1
  | 0x12 => s.res.get 2
  | 0x13 => s.res.get 3
  | 0x14 => s.res.get 4
  | 0x15 => s.res.get 5
  | 0x16 => s.res.get 6
  | 0x17 => s.res.get 7
  | 0x18 => s.events
  | 0x19 => s.eventEnable
  | 0x1A => nowLow s
  | 0x1B => BitVec.setWidth 32 s.nowLatch
  | 0x1C => BitVec.setWidth 32 s.tickPeriod
  | 0x1D => linkCtrlWord s
  | 0x1E => linkStatusWord s
  | 0x20 => poolLevelWord s.pools.lockTable
  | 0x21 => poolLevelWord s.pools.leasePool
  | 0x22 => poolLevelWord s.pools.waitPool
  | 0x24 => poolMarkWord s.pools.lockTable
  | 0x25 => BitVec.ofNat 32 s.pools.lockTable.shedLatch
  | 0x26 => poolMarkWord s.pools.leasePool
  | 0x27 => BitVec.ofNat 32 s.pools.leasePool.shedLatch
  | 0x28 => poolMarkWord s.pools.waitPool
  | 0x29 => BitVec.ofNat 32 s.pools.waitPool.shedLatch
  | _ => 0#32

/-- The address of a pool's first POOL_MARK word (11, Table 11-4). -/
def poolMarkAddr : Pool → BitVec 7
  | .lockTable => 0x24#7
  | .leasePool => 0x26#7
  | .waitPool => 0x28#7

/-- What a transaction does, by its MOSI bits (11, R202, R203). -/
inductive SpiEvent where
  | nothing
  | read (addr : BitVec 7)
  | write (addr : BitVec 7) (data : Word)
deriving DecidableEq, Repr

/-- The number that bits spell, most significant first (11, R202). -/
def bitsToNat (l : List Bool) : Nat := l.foldl (fun n b => 2 * n + b.toNat) 0

/-- A transaction's event: a read is captured once its command byte is complete; a write takes effect when all 32
data bits have come; later bits are ignored (11, R202, R203). -/
def spiEvent : List Bool → SpiEvent
  | w :: rest =>
    if rest.length < 7 then .nothing
    else
      let addr := BitVec.ofNat 7 (bitsToNat (rest.take 7))
      if w then
        if 39 ≤ rest.length then .write addr (BitVec.ofNat 32 (bitsToNat ((rest.drop 7).take 32))) else .nothing
      else .read addr
  | [] => .nothing

/-- The command a completed transaction is; a read without a latch changes no state and is none (11, R200, R201). -/
def spiCommand : SpiEvent → Option Instr
  | .nothing => none
  | .read addr =>
    if addr = 0x1A#7 then some .nowLoRead
    else if addr = 0x24#7 then some (.poolMarkRead .lockTable)
    else if addr = 0x26#7 then some (.poolMarkRead .leasePool)
    else if addr = 0x28#7 then some (.poolMarkRead .waitPool)
    else none
  | .write addr v =>
    if addr = 0x02#7 then some (.commandPlaced v)
    else if addr = 0x18#7 then some (.eventsClear v)
    else if addr = 0x1C#7 then some (.tickPeriodWrite v)
    else if addr = 0x1D#7 then some (.linkCtrlWrite v)
    else if addr = 0x1E#7 then some (.frameErrorClear v)
    else some (.registerWrite addr v)

/-- MISO during byte `i` of a transaction, byte 0 the command byte: a read drives its content in bytes 1 to 4, most
significant first, and MISO is low in the command byte and after the fourth data byte (11, R202). DESIGN CHOICE: it is low
in the four data bytes of a write, of which R202 says nothing (log entry 25). -/
def misoByte (isRead : Bool) (content : Word) (i : Nat) : Byte :=
  if isRead then byteAt (0#8 :: bytes32 content) i else 0#8

/-- What happens at the port's pins: CS_N falls, a rising edge of SCK samples MOSI, CS_N rises; and a device reset
(11, R202). -/
inductive SpiPin where
  | select
  | clock (mosi : Bool)
  | deselect
  | deviceReset
deriving DecidableEq, Repr

/-- A write's event at the rise of CS_N; a read has had its own at the end of its command byte (11, R203). -/
def eventAtRise : SpiEvent → SpiEvent
  | .write addr v => .write addr v
  | .read _ | .nothing => .nothing

/-- One pin event, from the bits of the transaction in progress, none while the port waits for the next fall of CS_N:
a device reset abandons the transaction (11, R202, R203). -/
def spiPin (progress : Option (List Bool)) : SpiPin → Option (List Bool) × SpiEvent
  | .select => (some [], .nothing)
  | .clock b =>
    (match progress with
      | some bits => (some (bits ++ [b]), if bits.length = 7 then spiEvent (bits ++ [b]) else .nothing)
      | none => (none, .nothing))
  | .deselect => (none, eventAtRise (spiEvent (progress.getD [])))
  | .deviceReset => (none, .nothing)

/-- The commands that a run of pin events gives (11, R202, R203). -/
def spiRun : Option (List Bool) → List SpiPin → List SpiEvent
  | _, [] => []
  | progress, x :: rest =>
    let (next, e) := spiPin progress x
    if e = .nothing then spiRun next rest else e :: spiRun next rest

/-- The level of MISO in the bit that follows the bits received, none where it is in high impedance: while CS_N is high
(11, R202). DESIGN CHOICE: it is low while CS_N stays low after a device reset has abandoned the transaction
(log entry 25). -/
def misoLevel (csLow : Bool) (progress : Option (List Bool)) (content : Word) : Option Bool :=
  if csLow then
    match progress with
    | some bits =>
      some ((misoByte (decide (bits.head? = some false)) content (bits.length / 8)).getLsbD (7 - bits.length % 8))
    | none => some false
  else none

/-- COMMAND_PLACED: a write to CMD (11, R192). -/
def execCommandPlaced (v : Word) (s : State) : Host.Outcome State Fault Refusal := .next (writeCmd v s)

/-- TICK_PERIOD_WRITE (07, R130). -/
def execTickPeriodWrite (v : Word) (s : State) : Host.Outcome State Fault Refusal := .next (writeTickPeriod v s)

/-- LINK_CTRL_WRITE (11, R200). -/
def execLinkCtrlWrite (v : Word) (s : State) : Host.Outcome State Fault Refusal := .next (writeLinkCtrl v s)

/-- EVENTS_CLEAR (11, R198). -/
def execEventsClear (v : Word) (s : State) : Host.Outcome State Fault Refusal := .next (writeEvents v s)

/-- FRAME_ERROR_CLEAR: a write to LINK_STATUS (10, R170; 11, R200). -/
def execFrameErrorClear (v : Word) (s : State) : Host.Outcome State Fault Refusal := .next (writeLinkStatus v s)

/-- NOW_LO_READ: the low word is captured and the high word latched (11, R201, R203). -/
def execNowLoRead (s : State) : Host.Outcome State Fault Refusal :=
  .next { s with spiData := readRegister s 0x1A#7, nowLatch := nowHigh s }

/-- POOL_MARK_READ: low and high are captured and the shed mark latched (11, R201, R203). -/
def execPoolMarkRead (k : Pool) (s : State) : Host.Outcome State Fault Refusal :=
  .next (updPool k (fun p => { p with shedLatch := p.shed }) { s with spiData := readRegister s (poolMarkAddr k) })

/-- REGISTER_WRITE (11, R200). An address with behaviour of its own, which is no address of this row, has that
behaviour. -/
def execRegisterWrite (addr : BitVec 7) (v : Word) (s : State) : Host.Outcome State Fault Refusal :=
  .next (writeRegister addr v s)

/-- DEVICE_RESET: every block takes its reset values (09, R157). The commands still waiting are the world's, and the
signal at a receiver is an input that the reset does not change (10, R160; log entry 13). The count of free values drawn
goes on, so that no two draws are one (log entry 3). -/
def execDeviceReset (s : State) : Host.Outcome State Fault Refusal :=
  .next { State.reset with ports := s.ports.map fun q => resetPort q.signal, freeDraws := s.freeDraws,
                           pending := s.pending }

end Sys2Proof.Machine
end

