-- ==== Sys2Proof/Machine/Admission.lean ====
section
/-! DEFINITION. The take of a request: its credit, the admission stages 1 to 7, and the domain lookup
(chapter 4; 10, R171). -/

namespace Sys2Proof.Machine

/-- The request kinds (05, Table 5-2). -/
inductive Kind where
  | join
  | acquire
  | release
  | renew
  | keepalive
  | upgrade
  | downgrade
  | cancel
  | query
deriving DecidableEq, Repr

/-- The code of a request kind (05, Table 5-2). -/
def kindCode : Kind → Byte
  | .join => 1#8
  | .acquire => 2#8
  | .release => 3#8
  | .renew => 4#8
  | .keepalive => 5#8
  | .upgrade => 6#8
  | .downgrade => 7#8
  | .cancel => 8#8
  | .query => 9#8

/-- The kind a kind code names, if it is in 1..9 (04, R76). -/
def kindOf (b : Byte) : Option Kind :=
  match b.toNat with
  | 1 => some .join
  | 2 => some .acquire
  | 3 => some .release
  | 4 => some .renew
  | 5 => some .keepalive
  | 6 => some .upgrade
  | 7 => some .downgrade
  | 8 => some .cancel
  | 9 => some .query
  | _ => none

/-- The examined fields of a request are in range (04, Table 4-3). -/
def fieldsInRange (r : Request) : Kind → Bool
  | .join | .keepalive | .query => true
  | .acquire => (modeOfByte r.mode).isSome
  | .release | .renew | .upgrade | .downgrade => decide (r.leaseNum.toNat < Config.leaseCapacity)
  | .cancel => decide (r.target.toNat < 16 ∧ r.target.toNat ≠ r.tag.val)

/-- Stage 1: the kind, when it is known and its examined fields are in range (04, R76). -/
def stage1 (r : Request) : Option Kind :=
  match kindOf r.kind with
  | some k => if fieldsInRange r k then some k else none
  | none => none

/-- A key with every bit outside the mask zero equals the base so masked (04, R69). -/
def domainMatches (d : Domain) (key : Key) : Bool := d.valid && decide (key &&& d.mask = d.base &&& d.mask)

/-- The domain indices in increasing order (04, R69). -/
def allDomains : List (Fin 16) := [0, 1, 2, 3, 4, 5, 6, 7, 8, 9, 10, 11, 12, 13, 14, 15]

/-- The domain lookup: the first entry that matches (04, R69). -/
def lookupDomain (s : State) (key : Key) : Option (Fin 16) :=
  allDomains.find? fun i => domainMatches (s.domain i) key

/-- The domain allows exclusive use alone (04, R72; code 1, 11, Table 11-5). -/
def xOnly (d : Domain) : Bool := decide (d.modes = 1#2)

/-- Stage 5: the part state's refusal of a kind, if it refuses it (04, R80). -/
def stage5 (p : PartState) (k : Kind) : Option Status :=
  match k, p with
  | .join, _ => none
  | _, .running => none
  | .acquire, .quiescing | .upgrade, .quiescing => some .quiesced
  | _, .quiescing => none
  | _, .aborting | _, .halted => some .halted

/-- Stages 6 and 7 for a key: a domain, the agent set, and for a mode the mode test (04, R71, R72, R81). -/
def stage67 (s : State) (a : Agent) (key : Key) (mode : Option Mode) : Option Status :=
  match lookupDomain s key with
  | none => some .noDomain
  | some i =>
    if (s.domain i).agents.getLsbD a.val = false then some .denied
    else if mode = some .shared ∧ xOnly (s.domain i) = true then some .denied
    else none

/-- The domain and permission stages of a kind: they apply to ACQUIRE and QUERY (04, R81). -/
def keyStages (s : State) (a : Agent) (k : Kind) (r : Request) : Option Status :=
  match k with
  | .acquire => stage67 s a r.key (modeOfByte r.mode)
  | .query => stage67 s a r.key none
  | .join | .release | .renew | .keepalive | .upgrade | .downgrade | .cancel => none

/-- Stages 3 to 7: the status of the first stage that fails (04, Table 4-2, R78 to R81). -/
def stageFailure (s : State) (a : Agent) (k : Kind) (r : Request) : Option Status :=
  match (s.agent a).state with
  | .disabled => some .notAdmitted
  | .fencing | .fenced => some .fenced
  | .active =>
    if k ≠ .join ∧ r.epoch ≠ (s.agent a).epoch then some .staleEpoch
    else match stage5 s.part k with
      | some st => some st
      | none => keyStages s a k r

/-- The message leaves the FIFO; its credit is withheld where its reply will belong to no tag, and returned
otherwise (10, R171). -/
def popRequest (p : Port) (withhold : Bool) (s : State) : State :=
  updPort p (fun q =>
    if withhold then { q with fifo := q.fifo.tail, withheld := q.withheld + 1 }
    else { q with fifo := q.fifo.tail, ingressCredits := q.ingressCredits + 1,
                  unsentReturns := q.unsentReturns + 1 }) s

/-- The agent that sent a request (05, R86). -/
def senderOf (p : Port) (r : Request) : Agent := agentOf p r.slot

/-- The request's tag is not FREE: stage 2 would refuse it, and its reply belongs to no tag (04, R76, R77). -/
def tagIsBusy (s : State) (p : Port) (r : Request) : Bool := decide (s.tag (senderOf p r) r.tag ≠ .free)

/-- The take of a request: the message leaves its FIFO with its credit, and the next choice is made
(09, R155; 10, R171). -/
def beginRequest (p : Port) (r : Request) (s : State) : State :=
  beginTake (popRequest p (tagIsBusy s p r)) s

/-- An immediate reply on the request's tag (05, R86, R88). -/
def reply (a : Agent) (r : Request) (st : Status) (c : Content) (s : State) : State :=
  answerTag a r.tag r.kind st c s

/-- The work of a request item: the admission stages in order, and then the kind's own behaviour at stage 8
(04, R75 to R81). Where the tag is FREE the take has returned a credit, and the port may send its CREDIT before the item
hands it a reply (10, R171, R172; 09, R157; log entry 3). -/
def requestWork (p : Port) (r : Request) (behave : Agent → Request → State → State) (s : State) : State :=
  let a := senderOf p r
  match stage1 r with
  | none =>
    if tagIsBusy s p r then answerNoTag a r.tag r.kind .malformed s else reply a r .malformed {} (noteHanded p s)
  | some k =>
    if tagIsBusy s p r then answerNoTag a r.tag r.kind .tagBusy s
    else match stageFailure s a k r with
      | some st => reply a r st {} (noteHanded p s)
      | none => behave a r (noteHanded p s)

/-- The engine takes a request of the given kind; where its next take is no such request the event does not occur
and nothing changes (09, R152; log entry 1). -/
def takeRequest (isKind : Byte → Bool) (behave : Agent → Request → State → State) (s : State) :
    Host.Outcome State Fault Refusal :=
  match takenRequest s with
  | some (p, r) =>
    if isKind r.kind then .next (runItem (beginRequest p r) (requestWork p r behave) s) else .next s
  | none => .next s

end Sys2Proof.Machine
end

