-- ==== Sys2Proof/Machine/Requests.lean ====
section
/-! DEFINITION. The nine requests from stage 8 on, and MALFORMED (chapters 1 and 5). -/

namespace Sys2Proof.Machine

/-- JOIN at stage 8: DONE with epoch, quota and lease count (05, R89). -/
def joinBehaviour (a : Agent) (r : Request) (s : State) : State :=
  let g := s.agent a
  reply a r .done
    { info := .join g.epoch (BitVec.ofNat 16 g.quota) (BitVec.ofNat 16 g.leases.length) } s

/-- The outcomes of the immediate decision (01, R8). -/
inductive Decision where
  | create
  | alreadyHeld (k : Nat)
  | alreadyWaiting
  | joinHolders (n : Nat)
  | conflict
  | queueLimit
  | enqueue (n : Nat)
deriving DecidableEq, Repr

/-- The agent's lease on a record, if it holds one (01, R6). -/
def heldLease (s : State) (a : Agent) (r : LockRecord) : Option Nat :=
  (r.holders.find? fun h => (leaseAt s h.num).any fun l => l.agent = a).map fun h => h.num

/-- The agent has a wait entry on a record (01, R6). -/
def waitsOn (s : State) (a : Agent) (r : LockRecord) : Bool :=
  r.queue.any fun w => (tableGet s.waits w).any fun e => e.agent = a

/-- The immediate decision for an ACQUIRE of a mode and wait ticks (01, R8). -/
def immediateDecision (s : State) (a : Agent) (key : Key) (m : Mode) (waitTicks : Nat) : Decision :=
  match recordOfKey s key with
  | none => .create
  | some (n, r) =>
    match heldLease s a r with
    | some k => .alreadyHeld k
    | none =>
      if waitsOn s a r then .alreadyWaiting
      else if r.slot = none ∧ r.queue = [] ∧ compatible m r = true then .joinHolders n
      else if waitTicks = 0 then .conflict
      else if (s.domain r.domain).queueLimit.toNat ≤ r.queue.length then .queueLimit
      else .enqueue n

/-- The pools an outcome consults, in the order of the pressure checks (04, R82, R83). -/
def neededPools : Decision → List Pool
  | .create => [.leasePool, .lockTable]
  | .joinHolders _ => [.leasePool]
  | .enqueue _ => [.leasePool, .waitPool]
  | .alreadyHeld _ | .alreadyWaiting | .conflict | .queueLimit => []

/-- The quota, pressure and capacity checks of an outcome that takes resources (04, R74, R82, R83). -/
def resourceFailure (s : State) (a : Agent) (d : Decision) : Option Status :=
  if (s.agent a).quota ≤ quotaCount s a then some .quota
  else if (neededPools d).any fun k => (s.pool k).level = .shed then some .shed
  else if (neededPools d).any fun k => poolCapacity k ≤ poolCount s k then some .full
  else none

/-- A grant a request makes at once, with the token end it may reach; a counter already at its end value makes no
grant, and the request is answered HALTED (01, R25, R26; 02, R48). -/
def grantNow (a : Agent) (r : Request) (f : State → State) (s : State) : State :=
  if s.token = Config.tokenEnd then reply a r .halted {} s else withTokenEnd f s

/-- A record created by an ACQUIRE, before its first holder (01, R3). -/
def newRecord (key : Key) (d : Fin 16) (m : Mode) (n : Nat) (s : State) : State :=
  { s with records := tableSet s.records n
             { key := key, domain := d, mode := m, holders := [], queue := [], slot := none, lastToken := 0 } }

/-- A lease entry granted to the request at once, with its GRANTED reply (01, R9, R10). -/
def grantRequest (a : Agent) (r : Request) (m : Mode) (n k : Nat) (s : State) : State :=
  answerGranted a r.tag r.kind k (grantLease n k a m r.leaseTicks.toNat s)

/-- Outcome 1: the lowest free record and lease numbers; FULL when either is missing (01, R3, R9; 04, R83). -/
def grantCreating (a : Agent) (r : Request) (m : Mode) (s : State) : State :=
  match lookupDomain s r.key, lowestFree s.records Config.lockCapacity, lowestFree s.leases Config.leaseCapacity with
  | some d, some n, some k => grantNow a r (fun s => grantRequest a r m n k (newRecord r.key d m n s)) s
  | _, _, _ => reply a r .full {} s

/-- Outcome 4: the lowest FREE lease entry joins the holders (01, R10). -/
def grantJoining (a : Agent) (r : Request) (m : Mode) (n : Nat) (s : State) : State :=
  match lowestFree s.leases Config.leaseCapacity with
  | some k => grantNow a r (grantRequest a r m n k) s
  | none => reply a r .full {} s

/-- Outcome 7: a wait entry at the tail with a reserved lease entry; the tag waits (01, R11; 03, R54, R55). -/
def enqueue (a : Agent) (r : Request) (m : Mode) (n : Nat) (s : State) : State :=
  match tableGet s.records n, lowestFree s.waits Config.waitCapacity, lowestFree s.leases Config.leaseCapacity with
  | some rec, some w, some k =>
    recompare (.wait w)
      (setTag a r.tag .waiting
        { s with
          records := tableSet s.records n { rec with queue := rec.queue ++ [w] },
          waits := tableSet s.waits w
            { record := n, agent := a, tag := r.tag, mode := m, leaseTicks := r.leaseTicks.toNat,
              deadline := waitDeadline (s.domain rec.domain) s.now r.waitTicks.toNat, reserved := k },
          leases := tableSet s.leases k (.reserved a w) })
  | _, _, _ => reply a r .full {} s

/-- An outcome of the immediate decision carried out (01, R9 to R12). -/
def carryOut (a : Agent) (r : Request) (m : Mode) (d : Decision) (s : State) : State :=
  match d with
  | .create => grantCreating a r m s
  | .joinHolders n => grantJoining a r m n s
  | .enqueue n => enqueue a r m n s
  | .alreadyHeld k =>
    (match leaseAt s k with
      | some l => reply a r .alreadyHeld (leaseContent (handleOf s k) l.mode l.token) s
      | none => reply a r .alreadyHeld {} s)
  | .alreadyWaiting => reply a r .alreadyWaiting {} s
  | .conflict => reply a r .conflict {} s
  | .queueLimit => reply a r .queueLimit {} s

/-- The outcome takes resources (01, R8). -/
def takesResources : Decision → Bool
  | .create | .joinHolders _ | .enqueue _ => true
  | .alreadyHeld _ | .alreadyWaiting | .conflict | .queueLimit => false

/-- ACQUIRE at stage 8: the immediate decision, then the resource checks, then the outcome (05, R90). -/
def acquireBehaviour (a : Agent) (r : Request) (s : State) : State :=
  match modeOfByte r.mode with
  | none => reply a r .malformed {} s
  | some m =>
    let d := immediateDecision s a r.key m r.waitTicks.toNat
    if takesResources d then
      match resourceFailure s a d with
      | some st => reply a r st {} s
      | none => carryOut a r m d s
    else carryOut a r m d s

/-- The handle a request names (05, R85). -/
def namedLease (r : Request) : Nat := r.leaseNum.toNat

/-- The handle test of RELEASE, RENEW, UPGRADE and DOWNGRADE, and then the request's own behaviour on the lease
(05, R92). -/
def withLease (behave : Agent → Request → Lease → State → State) (a : Agent) (r : Request) (s : State) : State :=
  match liveLease s (namedLease r) r.gen with
  | none => reply a r .noLease {} s
  | some l => if l.agent = a then behave a r l s else reply a r .notHolder {} s

/-- RELEASE of a live lease of the sender: an upgrade in the slot is answered CANCELLED, the lease ends, DONE is
placed, and evaluation runs (02, R38; 01, R23; 05, R93). -/
def releaseLease (a : Agent) (r : Request) (l : Lease) (s : State) : State :=
  let k := namedLease r
  let s' := if inSlot s k l then dropUpgrade l.record (some .cancelled) s else s
  evaluate l.record (reply a r .done (leaseContent ⟨k, r.gen⟩ l.mode l.token) (endLease k s'))

/-- RENEW of a live lease of the sender (02, R33, R36; 05, R94). -/
def renewLease (a : Agent) (r : Request) (l : Lease) (s : State) : State :=
  let k := namedLease r
  let policy := (tableGet s.records l.record).map fun rec => s.domain rec.domain
  match policy with
  | none => reply a r .done (grantContent ⟨k, r.gen⟩ l) s
  | some d =>
    let dur := renewDuration d l.duration r.leaseTicks.toNat
    reply a r .done { leaseContent ⟨k, r.gen⟩ l.mode l.token with ticks := BitVec.ofNat 16 dur }
      (recompare (.lease k) (updLease k (fun l => { l with duration := dur, ownDeadline := s.now + dur }) s))

/-- KEEPALIVE at stage 8: the keepalive tick is NOW, every lease in the list is compared again, DONE with the lease
count (02, R35, R36; 05, R95). -/
def keepaliveBehaviour (a : Agent) (r : Request) (s : State) : State :=
  reply a r .done { info := .keepalive (BitVec.ofNat 16 (s.agent a).leases.length) }
    (recompareLeases a (updAgent a (fun g => { g with keepalive := s.now }) s))

/-- Orders 5 to 9 of an UPGRADE's decision, on the lease's record (01, R19 to R21; 05, R96). -/
def upgradeOnRecord (a : Agent) (r : Request) (l : Lease) (rec : LockRecord) (s : State) : State :=
  let k := namedLease r
  let h : Handle := ⟨k, r.gen⟩
  match rec.slot with
  | some u => if u.lease = h then reply a r .alreadyWaiting {} s else reply a r .deadlock {} s
  | none =>
    if rec.holders = [h] then
      grantNow a r (fun s => answerGranted a r.tag r.kind k (upgradeLease l.record k s)) s
    else if r.waitTicks = 0#16 then reply a r .conflict {} s
    else
      recompare (.upgrade l.record)
        (setTag a r.tag .upgrading
          (updRecord l.record (fun x =>
            { x with slot := some { lease := h, tag := r.tag,
                                    deadline := waitDeadline (s.domain rec.domain) s.now r.waitTicks.toNat } }) s))

/-- UPGRADE of a live lease of the sender: orders 3 and 4 of R19, then the record's (01, R19; 05, R96). -/
def upgradeLive (a : Agent) (r : Request) (l : Lease) (s : State) : State :=
  if l.mode = .exclusive then reply a r .notShared {} s
  else match tableGet s.records l.record with
    | none => reply a r .denied {} s
    | some rec =>
      if (s.domain rec.domain).upgradeAllowed = false then reply a r .denied {} s
      else upgradeOnRecord a r l rec s

/-- DOWNGRADE of a live lease of the sender (01, R24; 04, R72; 05, R98). -/
def downgradeLease (a : Agent) (r : Request) (l : Lease) (s : State) : State :=
  let k := namedLease r
  if l.mode = .shared then reply a r .notExclusive {} s
  else match tableGet s.records l.record with
    | none => reply a r .denied {} s
    | some rec =>
      if xOnly (s.domain rec.domain) then reply a r .denied {} s
      else
        evaluate l.record
          (reply a r .done (leaseContent ⟨k, r.gen⟩ .shared l.token)
            (updRecord l.record (fun x => { x with mode := .shared })
              (updLease k (fun x => { x with mode := .shared }) s)))

/-- The target tag of a CANCEL; stage 1 has put it in range (04, Table 4-3). -/
def targetTag (r : Request) : Tag := ⟨r.target.toNat % 16, by omega⟩

/-- CANCEL at stage 8: the target's wait or upgrade is removed and answered CANCELLED, the CANCEL is DONE, and
evaluation runs; or TOO_LATE, or NOT_WAITING (03, R59, R60; 05, R99). -/
def cancelBehaviour (a : Agent) (r : Request) (s : State) : State :=
  match s.tag a (targetTag r) with
  | .waiting =>
    (match waitOfTag s a (targetTag r) with
      | some (w, e) => evaluate e.record (reply a r .done {} (removeWait w (some .cancelled) s))
      | none => reply a r .done {} s)
  | .upgrading =>
    (match upgradeOfTag s a (targetTag r) with
      | some n => evaluate n (reply a r .done {} (dropUpgrade n (some .cancelled) s))
      | none => reply a r .done {} s)
  | .replying => reply a r .tooLate {} s
  | .free => reply a r .notWaiting {} s

/-- The content of a QUERY's DONE reply (05, R100). -/
def queryContent (s : State) (key : Key) : Content :=
  match recordOfKey s key with
  | none => { info := .query 0 0 0 0 }
  | some (_, rec) =>
    { token := rec.lastToken,
      info := .query (BitVec.ofNat 8 (modeCode rec.mode)) (BitVec.ofNat 8 rec.holders.length)
        (BitVec.ofNat 8 rec.queue.length) (if rec.slot.isSome then 1#8 else 0#8) }

/-- QUERY at stage 8 (05, R100). -/
def queryBehaviour (a : Agent) (r : Request) (s : State) : State := reply a r .done (queryContent s r.key) s

/-- JOIN (05, R89). -/
def execJoin (s : State) : Host.Outcome State Fault Refusal :=
  takeRequest (fun b => b = kindCode .join) joinBehaviour s

/-- ACQUIRE (05, R90). -/
def execAcquire (s : State) : Host.Outcome State Fault Refusal :=
  takeRequest (fun b => b = kindCode .acquire) acquireBehaviour s

/-- RELEASE (05, R93). -/
def execRelease (s : State) : Host.Outcome State Fault Refusal :=
  takeRequest (fun b => b = kindCode .release) (withLease releaseLease) s

/-- RENEW (05, R94). -/
def execRenew (s : State) : Host.Outcome State Fault Refusal :=
  takeRequest (fun b => b = kindCode .renew) (withLease renewLease) s

/-- KEEPALIVE (05, R95). -/
def execKeepalive (s : State) : Host.Outcome State Fault Refusal :=
  takeRequest (fun b => b = kindCode .keepalive) keepaliveBehaviour s

/-- UPGRADE (05, R96; 01, R19). -/
def execUpgrade (s : State) : Host.Outcome State Fault Refusal :=
  takeRequest (fun b => b = kindCode .upgrade) (withLease upgradeLive) s

/-- DOWNGRADE (05, R98). -/
def execDowngrade (s : State) : Host.Outcome State Fault Refusal :=
  takeRequest (fun b => b = kindCode .downgrade) (withLease downgradeLease) s

/-- CANCEL (05, R99). -/
def execCancel (s : State) : Host.Outcome State Fault Refusal :=
  takeRequest (fun b => b = kindCode .cancel) cancelBehaviour s

/-- QUERY (05, R100). -/
def execQuery (s : State) : Host.Outcome State Fault Refusal :=
  takeRequest (fun b => b = kindCode .query) queryBehaviour s

/-- MALFORMED: a request whose kind code lies outside 1..9; stage 1 answers it (04, R76). -/
def execMalformed (s : State) : Host.Outcome State Fault Refusal :=
  takeRequest (fun b => (kindOf b).isNone) (fun _ _ s => s) s

end Sys2Proof.Machine
end

