-- ==== Sys2Proof/Machine/Sweep.lean ====
section
/-! DEFINITION. The steps of the sweep list's jobs (06, R120; 11, R186, R190). -/

namespace Sys2Proof.Machine

/-- A step of a fence job: the agent's oldest lease is released, with no reply and no notice, and its record
evaluated (06, R120; 02, R39). The job's end is `endFenceJobs`, in the same item. -/
def fenceStep (a : Agent) (s : State) : State :=
  match (s.agent a).leases with
  | [] => s
  | h :: _ =>
    match leaseAt s h.num with
    | some l => evaluate l.record (endLease h.num s)
    | none => unlistLease a h s

/-- The lowest-numbered record in existence at or above a number (11, R186, R190). -/
def recordFrom (s : State) (n : Nat) : Option (Nat × LockRecord) := s.records.find? fun e => n ≤ e.1

/-- Every wait entry of a record is removed, head to tail, and answered or its tag set FREE (03, R63 to R65). -/
def clearQueue (ans : Option Status) (queue : List Nat) (s : State) : State :=
  queue.foldl (fun s w => removeWait w ans s) s

/-- A quiesce visit: the upgrade and every wait are answered QUIESCED, then one evaluation (03, R64). -/
def quiesceVisit (n : Nat) (r : LockRecord) (s : State) : State :=
  evaluate n (clearQueue (some .quiesced) r.queue (dropUpgrade n (some .quiesced) s))

/-- The quiesce job ends: it leaves the list and an attached QUIESCE completes OK with the part state the item
leaves and the lease pool count (11, R186). -/
def endQuiesceJob (attached : Bool) (s : State) : State :=
  let s := { s with sweep := s.sweep.filter fun j => !isQuiesceJob j }
  if attached then
    completeCmd .ok
      [BitVec.ofNat 32 (partCode (if poolCount s .leasePool = 0 then .halted else .quiescing)),
       BitVec.ofNat 32 (poolCount s .leasePool)] s
  else s

/-- The quiesce job's next record number (11, R186). -/
def setQuiesceNext (n : Nat) (s : State) : State :=
  { s with sweep := s.sweep.map fun j => match j with
      | .quiesce _ att => .quiesce n att
      | .fence a att => .fence a att
      | .abort m att => .abort m att }

/-- A quiesce step's end: the job goes on while a record with a higher number exists. A visit whose evaluation made
the part ABORTING has lost its job (11, R186, R189). -/
def quiesceAdvance (next : Nat) (attached : Bool) (s : State) : State :=
  if !s.sweep.any isQuiesceJob then s
  else if (recordFrom s next).isSome then setQuiesceNext next s
  else endQuiesceJob attached s

/-- A step of the quiesce job (11, R186). -/
def quiesceStep (next : Nat) (attached : Bool) (s : State) : State :=
  match recordFrom s next with
  | some (n, r) => quiesceAdvance (n + 1) attached (quiesceVisit n r s)
  | none => endQuiesceJob attached s

/-- A record dropped by the abort sweep: its requests answered HALTED, its holders lost ABORTED in holders-list
order, the record freed, no evaluation (03, R65; 02, R42; 11, R190). -/
def abortDrop (n : Nat) (r : LockRecord) (s : State) : State :=
  let s1 := clearQueue (some .halted) r.queue (dropUpgrade n (some .halted) s)
  let s2 := r.holders.foldl (fun s h => loseLease h.num .aborted s) s1
  { s2 with records := tableErase s2.records n }

/-- Every agent in FENCING becomes FENCED (06, R126). -/
def fenceAllFencing (s : State) : State :=
  { s with agents := s.agents.map fun g => if g.state = .fencing then { g with state := .fenced } else g }

/-- The last acts of the abort sweep, in order (11, R190). -/
def endAbort (attached : Bool) (s : State) : State :=
  let s := enterHalted (fenceAllFencing { s with sweep := [] })
  if attached then completeCmd .ok [BitVec.ofNat 32 (partCode .halted)] s
  else if s.mbox.state = .pending ∧ s.mbox.code = abortCode then
    { s with mbox := { s.mbox with abortEnded := true } }
  else s

/-- A step of the abort job (11, R190). -/
def abortStep (next : Nat) (attached : Bool) (s : State) : State :=
  match recordFrom s next with
  | some (n, r) =>
    let t := abortDrop n r s
    if (recordFrom t (n + 1)).isSome then { t with sweep := .abort (n + 1) attached :: t.sweep.tail }
    else endAbort attached t
  | none => endAbort attached s

/-- FENCE_STEP: a SWEEP item with a fence job at the head (06, R120); no such item, nothing changes (log entry 1). -/
def execFenceStep (s : State) : Host.Outcome State Fault Refusal :=
  match takenJob s with
  | some (.fence a _) => .next (runItem (beginTake id) (fenceStep a) s)
  | some (.quiesce _ _) | some (.abort _ _) | none => .next s

/-- QUIESCE_STEP: a SWEEP item with the quiesce job at the head (11, R186). -/
def execQuiesceStep (s : State) : Host.Outcome State Fault Refusal :=
  match takenJob s with
  | some (.quiesce n att) => .next (runItem (beginTake id) (quiesceStep n att) s)
  | some (.fence _ _) | some (.abort _ _) | none => .next s

/-- ABORT_STEP: a SWEEP item with the abort job at the head (11, R190). -/
def execAbortStep (s : State) : Host.Outcome State Fault Refusal :=
  match takenJob s with
  | some (.abort n att) => .next (runItem (beginTake id) (abortStep n att) s)
  | some (.fence _ _) | some (.quiesce _ _) | none => .next s

end Sys2Proof.Machine
end

