-- ==== Sys2Proof/Machine/Timer.lean ====
section
/-! DEFINITION. What a TIMER item does (chapter 7, sections 7.3 and 7.3.1). -/

namespace Sys2Proof.Machine

/-- The domain of a record has expiry policy FENCE (04, Table 4-1; code 2, 11, Table 11-5). -/
def fencePolicy (s : State) (n : Nat) : Bool :=
  match tableGet s.records n with
  | some r => decide ((s.domain r.domain).policy = 2#2)
  | none => false

/-- An automatic fence: an ACTIVE agent enters FENCING and AUTO_FENCE is raised (06, R117, R118). -/
def autoFence (a : Agent) (s : State) : State := postEvent .autoFence (enterFencing a s)

/-- Steps 1 to 4 of a confirmed lease expiry (07, R135). -/
def expireLease (k : Nat) (l : Lease) (s : State) : State :=
  let fences := decide (l.mode = .exclusive) && fencePolicy s l.record
  let s1 := if inSlot s k l then dropUpgrade l.record (some .lost) s else s
  let s2 := evaluate l.record (loseLease k .expired s1)
  if fences && decide ((s2.agent l.agent).state = .active) then autoFence l.agent s2 else s2

/-- A TIMER item that names a lease: re-checked, then processed or dropped (07, R134, R135). -/
def leaseItem (k : Nat) (s : State) : State :=
  match leaseAt s k with
  | some l => if effectiveDeadline s l ≤ s.now then expireLease k l s else s
  | none => s

/-- A deadline that is present and not later than NOW (07, Table 7-2). -/
def deadlineReached (s : State) (d : Option Nat) : Bool :=
  match d with
  | some t => decide (t ≤ s.now)
  | none => false

/-- A TIMER item that names a wait entry (03, R58; 07, R134). -/
def waitItem (w : Nat) (s : State) : State :=
  match tableGet s.waits w with
  | some e => if deadlineReached s e.deadline then evaluate e.record (removeWait w (some .timedOut) s) else s
  | none => s

/-- A TIMER item that names an upgrade slot (07, R134, R136). -/
def upgradeItem (n : Nat) (s : State) : State :=
  if deadlineReached s (deadlineOf s (.upgrade n)) then evaluate n (dropUpgrade n (some .timedOut) s) else s

/-- LEASE_EXPIRY: the engine takes a TIMER item that names a lease (07, R135); no such item, nothing changes
(log entry 1). -/
def execLeaseExpiry (s : State) : Host.Outcome State Fault Refusal :=
  match takenTimer s with
  | some (.lease k) => .next (runItem (beginTake (takeOffer (.lease k))) (leaseItem k) s)
  | some (.wait _) | some (.upgrade _) | none => .next s

/-- WAIT_TIMEOUT: the engine takes a TIMER item that names a wait entry (03, R58). -/
def execWaitTimeout (s : State) : Host.Outcome State Fault Refusal :=
  match takenTimer s with
  | some (.wait w) => .next (runItem (beginTake (takeOffer (.wait w))) (waitItem w) s)
  | some (.lease _) | some (.upgrade _) | none => .next s

/-- UPGRADE_TIMEOUT: the engine takes a TIMER item that names an upgrade slot (07, R136). -/
def execUpgradeTimeout (s : State) : Host.Outcome State Fault Refusal :=
  match takenTimer s with
  | some (.upgrade n) => .next (runItem (beginTake (takeOffer (.upgrade n))) (upgradeItem n) s)
  | some (.lease _) | some (.wait _) | none => .next s

end Sys2Proof.Machine
end

