-- ==== Sys2Proof/Machine/Withdraw.lean ====
section
/-! DEFINITION. The WITHDRAW work item of a port (03, R63; 06, R116; 10, R167). -/

namespace Sys2Proof.Machine

/-- The upgrade in a record's slot is of an agent of the port (03, R63). -/
def upgradeOfPort (p : Port) (s : State) (r : LockRecord) : Bool :=
  match r.slot with
  | some u => (upgradeAgent s u).any fun a => portOf a = p
  | none => false

/-- The wait entries of a record's queue that are of agents of the port, head to tail (03, R63). -/
def waitsOfPort (p : Port) (s : State) (r : LockRecord) : List Nat :=
  r.queue.filter fun w => (tableGet s.waits w).any fun e => portOf e.agent = p

/-- One affected record: the upgrade, then the waits, with no answers, then one evaluation (03, R63). -/
def withdrawRecord (p : Port) (s : State) (n : Nat) : State :=
  match tableGet s.records n with
  | none => s
  | some r =>
    let up := upgradeOfPort p s r
    let ws := waitsOfPort p s r
    if up = false ∧ ws = [] then s
    else
      let s1 := if up then dropUpgrade n none s else s
      evaluate n (ws.foldl (fun s w => removeWait w none s) s1)

/-- Every tag of the port's agents is FREE (06, R116). -/
def freeTags (s : State) (a : Agent) : State := updAgent a (fun g => { g with tags := Vector.replicate 16 .free }) s

/-- The withdrawal: the affected records in increasing number, the remaining tags, the port's hold, and training if
the port is ready for it (03, R63; 06, R116; 10, R161, R167). -/
def withdrawPort (p : Port) (s : State) : State :=
  let s1 := (s.records.map fun e => e.1).foldl (withdrawRecord p) s
  let s2 := (agentsOf p).foldl freeTags s1
  tryTrain p (updPort p (fun q => { q with heldDown := false, withdrawPending := false }) s2)

/-- The take of a withdrawal: it is no longer pending (09, R156). -/
def beginWithdraw (p : Port) (s : State) : State :=
  beginTake (updPort p fun q => { q with withdrawPending := false }) s

/-- WITHDRAW: the engine takes the lowest-numbered port's pending withdrawal (10, R167); no such item, nothing changes
(log entry 1). -/
def execWithdraw (s : State) : Host.Outcome State Fault Refusal :=
  match takenWithdrawal s with
  | some p => .next (runItem (beginWithdraw p) (withdrawPort p) s)
  | none => .next s

end Sys2Proof.Machine
end

