-- ==== Sys2Proof/Machine/Dispatch.lean ====
section
/-! DEFINITION. One arm per command, each one direct call of its meaning. -/

namespace Sys2Proof.Machine

def exec (i : Instr) (s : State) : Host.Outcome State Fault Refusal :=
  match i with
  | .deviceReset => Sys2Proof.Machine.execDeviceReset s
  | .tick => Sys2Proof.Machine.execTick s
  | .markDue => Sys2Proof.Machine.execMarkDue s
  | .join => Sys2Proof.Machine.execJoin s
  | .acquire => Sys2Proof.Machine.execAcquire s
  | .release => Sys2Proof.Machine.execRelease s
  | .renew => Sys2Proof.Machine.execRenew s
  | .keepalive => Sys2Proof.Machine.execKeepalive s
  | .upgrade => Sys2Proof.Machine.execUpgrade s
  | .downgrade => Sys2Proof.Machine.execDowngrade s
  | .cancel => Sys2Proof.Machine.execCancel s
  | .query => Sys2Proof.Machine.execQuery s
  | .malformed => Sys2Proof.Machine.execMalformed s
  | .withdraw => Sys2Proof.Machine.execWithdraw s
  | .leaseExpiry => Sys2Proof.Machine.execLeaseExpiry s
  | .waitTimeout => Sys2Proof.Machine.execWaitTimeout s
  | .upgradeTimeout => Sys2Proof.Machine.execUpgradeTimeout s
  | .fenceStep => Sys2Proof.Machine.execFenceStep s
  | .quiesceStep => Sys2Proof.Machine.execQuiesceStep s
  | .abortStep => Sys2Proof.Machine.execAbortStep s
  | .emptyTake => Sys2Proof.Machine.execEmptyTake s
  | .tagComplete p => Sys2Proof.Machine.execTagComplete p s
  | .commandPlaced v => Sys2Proof.Machine.execCommandPlaced v s
  | .setDomain => Sys2Proof.Machine.execSetDomain s
  | .getDomain => Sys2Proof.Machine.execGetDomain s
  | .setAgent => Sys2Proof.Machine.execSetAgent s
  | .getAgent => Sys2Proof.Machine.execGetAgent s
  | .seed => Sys2Proof.Machine.execSeed s
  | .start => Sys2Proof.Machine.execStart s
  | .quiesce => Sys2Proof.Machine.execQuiesce s
  | .abort => Sys2Proof.Machine.execAbort s
  | .fence => Sys2Proof.Machine.execFence s
  | .admitAgent => Sys2Proof.Machine.execAdmitAgent s
  | .forceRelease => Sys2Proof.Machine.execForceRelease s
  | .inspectLock => Sys2Proof.Machine.execInspectLock s
  | .inspectLease => Sys2Proof.Machine.execInspectLease s
  | .setPressure => Sys2Proof.Machine.execSetPressure s
  | .unknownCommand => Sys2Proof.Machine.execUnknownCommand s
  | .countArrival k => Sys2Proof.Machine.execCountArrival k s
  | .tickPeriodWrite v => Sys2Proof.Machine.execTickPeriodWrite v s
  | .linkCtrlWrite v => Sys2Proof.Machine.execLinkCtrlWrite v s
  | .eventsClear v => Sys2Proof.Machine.execEventsClear v s
  | .frameErrorClear v => Sys2Proof.Machine.execFrameErrorClear v s
  | .nowLoRead => Sys2Proof.Machine.execNowLoRead s
  | .poolMarkRead k => Sys2Proof.Machine.execPoolMarkRead k s
  | .registerWrite addr v => Sys2Proof.Machine.execRegisterWrite addr v s
  | .signalArrives p => Sys2Proof.Machine.execSignalArrives p s
  | .signalLost p => Sys2Proof.Machine.execSignalLost p s
  | .sendTrain p => Sys2Proof.Machine.execSendTrain p s
  | .trainReceived p f => Sys2Proof.Machine.execTrainReceived p f s
  | .trainAckReceived p f => Sys2Proof.Machine.execTrainAckReceived p f s
  | .creditReceived p f => Sys2Proof.Machine.execCreditReceived p f s
  | .messageReceived p f => Sys2Proof.Machine.execMessageReceived p f s
  | .frameCheckFailed p f => Sys2Proof.Machine.execFrameCheckFailed p f s
  | .transmitFrame p => Sys2Proof.Machine.execTransmitFrame p s
  | .transmissionComplete p => Sys2Proof.Machine.execTransmissionComplete p s
  | .unknownKindFrameReceived p f => Sys2Proof.Machine.execUnknownKindFrameReceived p f s

end Sys2Proof.Machine
end

