-- ==== Sys2Proof/WellFormed.lean ====
section
/-! DEFINITION. Which operands belong to a command's row. The index types leave no port, pool or address out of
range; what is left to check is the class of a received frame and the address of a plain register write. -/

namespace Sys2Proof

open Sys2Proof.Machine

/-- The addresses whose writes have a behaviour, and a row, of their own: CMD, EVENTS, TICK_PERIOD, LINK_CTRL,
LINK_STATUS (11, R200, Table 11-4). -/
def ownWriteAddresses : List (BitVec 7) := [0x02#7, 0x18#7, 0x1C#7, 0x1D#7, 0x1E#7]

/-- The frame passes its check and carries the kind code (10, R168). -/
def frameOfKind (kind : Byte) (f : List Byte) : Bool := frameOk f && decide (frameKind f = kind)

/-- The frame passes its check and its kind code is none of Table 10-3 (10, R168). -/
def frameOfUnknownKind (f : List Byte) : Bool :=
  frameOk f && !decide (frameKind f ∈ [1#8, 2#8, 3#8, 4#8])

/-- The operands of a command are of its row. -/
def Instr.wellFormed : Instr → Bool
  | .trainReceived _ f => frameOfKind 1#8 f
  | .trainAckReceived _ f => frameOfKind 2#8 f
  | .creditReceived _ f => frameOfKind 3#8 f
  | .messageReceived _ f => frameOfKind 4#8 f
  | .frameCheckFailed _ f => !frameOk f
  | .unknownKindFrameReceived _ f => frameOfUnknownKind f
  | .registerWrite addr _ => !decide (addr ∈ ownWriteAddresses)
  | .deviceReset | .tick | .markDue | .join | .acquire | .release | .renew | .keepalive | .upgrade | .downgrade
  | .cancel | .query | .malformed | .withdraw | .leaseExpiry | .waitTimeout | .upgradeTimeout | .fenceStep
  | .quiesceStep | .abortStep | .emptyTake | .tagComplete _ | .commandPlaced _ | .setDomain | .getDomain
  | .setAgent | .getAgent | .seed | .start | .quiesce | .abort | .fence | .admitAgent | .forceRelease
  | .inspectLock | .inspectLease | .setPressure | .unknownCommand | .countArrival _ | .tickPeriodWrite _
  | .linkCtrlWrite _ | .eventsClear _ | .frameErrorClear _ | .nowLoRead | .poolMarkRead _ | .signalArrives _
  | .signalLost _ | .sendTrain _ | .transmitFrame _ | .transmissionComplete _ => true

end Sys2Proof
end

