-- ==== Sys2Proof/Safety.lean ====
section
/-! DEFINITION. What counts as a safe state of the part, and the words in which claims describe a step. -/

namespace Sys2Proof.Machine

/-! ### Safe states -/

/-- The tables hold only numbers that exist, in their canonical form, and every wait's reserved entry number exists
(01, R1; 02, R27; 03, R50). -/
def tablesOk (s : State) : Bool :=
  tableWf Config.lockCapacity s.records && tableWf Config.leaseCapacity s.leases
    && tableWf Config.leaseCapacity s.gens && s.gens.all (fun e => decide (e.2 ≠ 0#8))
    && tableWf Config.waitCapacity s.waits && s.waits.all (fun e => decide (e.2.reserved < Config.leaseCapacity))

/-- A record in EXCLUSIVE mode has no second holder (01, R5). -/
def exclusiveAlone (s : State) : Bool :=
  s.records.all fun e => decide (e.2.mode = .exclusive → e.2.holders.length ≤ 1)

/-- The locks are exclusive, over tables in canonical form. -/
def LockLaw (s : State) : Prop := tablesOk s = true ∧ exclusiveAlone s = true

/-- The tokens of the leases in use (02, Table 2-1). -/
def heldTokens (s : State) : List Nat :=
  s.leases.filterMap fun e => match e.2 with
    | .inUse l => some l.token.toNat
    | .reserved _ _ => none

/-- No two leases carry one token, and no lease and no record carries one that the counter has not passed
(02, R47). -/
def TokenLaw (s : State) : Prop :=
  (heldTokens s).Pairwise (· ≠ ·) ∧ (∀ x ∈ heldTokens s, x ≤ s.token.toNat)
    ∧ ∀ e ∈ s.records, e.2.lastToken.toNat ≤ s.token.toNat

/-- The reply belongs to no tag: it holds a withheld credit (10, R173). -/
def isCreditReply (r : Reply) : Bool := decide (r.owner = .credit)

/-- The replies of a port that hold a withheld credit: those in its queue, and the one being sent (10, R171, R173). -/
def creditReplies (q : PortState) : Nat :=
  q.replyQ.countP isCreditReply + (match q.tx with
    | some (.reply r) => if isCreditReply r then 1 else 0
    | _ => 0)

/-- What a port's fields satisfy in every link state: the account of the 16 ingress credits (10, R169, R171), the
bounds of Table 10-1, and one notice per agent (02, R43; 10, R174). -/
def portOk (q : PortState) : Bool :=
  (match q.link with
    | .up => decide (q.ingressCredits + q.fifo.length + q.withheld = Config.ingressTotal)
        && !q.heldDown
    | .training => decide (q.fifo = [] ∧ q.ingressCredits = 0 ∧ q.unsentReturns = 0 ∧ q.withheld = 0
        ∧ q.egressCredits = 0) && !q.heldDown
    | .down => decide (q.fifo = [] ∧ q.ingressCredits = 0 ∧ q.unsentReturns = 0 ∧ q.withheld = 0
        ∧ q.egressCredits = 0 ∧ q.replyQ = [] ∧ q.noticeQ = [] ∧ q.tx = none))
    && decide (creditReplies q = q.withheld) && decide (q.egressCredits ≤ Config.maxEgress)
    && (!q.withdrawPending || q.heldDown) && decide ((q.noticeQ.map noticeSlot).Nodup)

/-- Every port keeps its account. -/
def PortLaw (s : State) : Prop := ∀ p : Port, portOk (s.port p) = true

/-- A pool's marks are in order and within its capacity (08, R144). -/
def poolOk (k : Pool) (p : PoolState) : Bool :=
  decide (p.low < p.high ∧ p.high ≤ p.shed ∧ p.shed ≤ poolCapacity k)

/-- The registers hold only values they may hold: EVENTS and EVENT_ENABLE (11, R199, Table 11-4), the tick period
(07, R130), the quotas (04, R73), the marks (08, R144); and nothing is offered in HALTED (07, R140). -/
def RegisterLaw (s : State) : Prop :=
  s.events &&& ~~~Config.eventMask = 0#32 ∧ s.eventEnable &&& ~~~Config.eventMask = 0#32
    ∧ Config.minTickPeriod ≤ s.tickPeriod.toNat ∧ (∀ a : Agent, 1 ≤ (s.agent a).quota ∧ (s.agent a).quota ≤ Config.maxQuota)
    ∧ (∀ k : Pool, poolOk k (s.pool k) = true) ∧ (s.part = .halted → s.offered = none)

/-! ### The words of claims -/

/-- The engine's next take is this request, and the request passes every admission stage (04, R75 to R81). -/
def Admitted (s : State) (p : Port) (r : Request) (k : Kind) : Prop :=
  takenRequest s = some (p, r) ∧ stage1 r = some k ∧ tagIsBusy s p r = false
    ∧ stageFailure s (senderOf p r) k r = none

/-- From `s` to `t`, one tag of one agent goes to a state, and nothing else of any agent changes. -/
def TagMoves (s t : State) (a : Agent) (g : Tag) (x : TagState) : Prop :=
  t.agent a = { s.agent a with tags := (s.agent a).tags.set g.val x g.isLt } ∧ ∀ b, b ≠ a → t.agent b = s.agent b

/-- From `s` to `t`, the port takes the replies given into its reply queue as it stands, unless it is DOWN; nothing else
of any port changes (10, R173). -/
def RepliesQueued (s t : State) (p : Port) (l : List Reply) : Prop :=
  t.port p = (if (s.port p).link = .down then s.port p
    else { s.port p with replyQ := (s.port p).replyQ ++ l }) ∧ ∀ q, q ≠ p → t.port q = s.port q

/-- From `s` to `t`, the entries given are compared again, so that each is marked exactly if it is due, and every other
mark is as it was (07, R131). -/
def MarksCompared (s t : State) (l : List TimedEntry) : Prop :=
  (∀ e ∈ l, e ∈ t.marks ↔ isDue t e = true) ∧ ∀ e, e ∉ l → (e ∈ t.marks ↔ e ∈ s.marks)

/-- Each pool's count is published, behind the counts not yet evaluated, if the item has changed it, and nothing else of the monitor changes (08, R143). -/
def CountsPublished (s t : State) : Prop :=
  ∀ k, t.pool k = if poolCount t k = poolCount s k then s.pool k
    else { s.pool k with published := (s.pool k).published ++ [poolCount t k] }

/-- From `s` to `t`, the command in the mailbox completes: DONE, its result, its result words, CMD_DONE
(11, R191, R198). -/
def Completes (s t : State) (r : CmdResult) (words : List Word) : Prop :=
  t.mbox = { s.mbox with state := .done, result := r } ∧ t.res = eightWords words ∧ t.events = s.events ||| 1#32

/-- A tag-owned reply to a request (10, R173; 05, R88). -/
def replyTo (a : Agent) (r : Request) (st : Status) (c : Content) : Reply :=
  { owner := .tag a r.tag, slot := slotOf a, tag := r.tag, status := st, kind := r.kind, content := c }

/-- The reply to a tag whose request was taken earlier, echoing its kind (05, R88). -/
def answerTo (a : Agent) (g : Tag) (kind : Byte) (st : Status) (c : Content) : Reply :=
  { owner := .tag a g, slot := slotOf a, tag := g, status := st, kind := kind, content := c }

/-- A port takes the replies given into its reply queue, in their order. Before each it may make some acts of its
transmitter where it holds a notice, and before the first only where it may go on (09, R157; 10, R173; log entry 3). -/
def RepliesTaken (goesOn : Bool) (q : PortState) : List Reply → PortState → Prop
  | [], q' => q' = q
  | r :: rest, q' => ∃ n, (goesOn = false ∨ q.noticeQ = [] → n = 0)
      ∧ RepliesTaken true { transmitterSteps n q with replyQ := (transmitterSteps n q).replyQ ++ [r] } rest q'

/-- From `s` to `t`, inside an item that a request of the port `p` began: every port takes the replies to its agents,
in the order given, unless it is DOWN. A port that holds a notice may go on by itself before a reply that follows
another; the sender's, which the take has returned a credit, before its first as well (09, R157; 10, R171, R173; log
entry 3). -/
def RepliesHanded (s t : State) (p : Port) (l : List (Agent × Reply)) : Prop :=
  ∀ q, if (s.port q).link = .down then t.port q = s.port q
    else RepliesTaken (decide (q = p)) (s.port q) ((l.filter fun x => portOf x.1 = q).map fun x => x.2) (t.port q)

/-- A standing offer stands; one is made only while the part serves (07, R133). -/
def OfferStands (s t : State) : Prop :=
  (s.offered ≠ none → t.offered = s.offered) ∧ (serving t = false → t.offered = s.offered)

/-- The command whose row a request of a kind is (05, Table 5-2). -/
def rowOf : Kind → Instr
  | .join => .join
  | .acquire => .acquire
  | .release => .release
  | .renew => .renew
  | .keepalive => .keepalive
  | .upgrade => .upgrade
  | .downgrade => .downgrade
  | .cancel => .cancel
  | .query => .query

/-- A request that the engine answers at once and that changes nothing else: one tag to REPLYING, one reply, and the
take's own changes. The sender's port may go on by itself before the reply where it holds a notice (09, R157; log entry
3). -/
def AnsweredOnly (s : State) (p : Port) (r : Request) (st : Status) (c : Content) (t : State) : Prop :=
  let b := beginRequest p r s
  t = { b with agents := t.agents, ports := t.ports, offered := t.offered, freeDraws := t.freeDraws } ∧ OfferStands b t
    ∧ TagMoves b t (senderOf p r) r.tag .replying
    ∧ RepliesHanded b t p [(senderOf p r, replyTo (senderOf p r) r st c)]

/-- A request whose reply belongs to no tag: no tag moves, and the reply holds the withheld credit (10, R171, R173). -/
def RejectedWithoutTag (s : State) (p : Port) (r : Request) (st : Status) (t : State) : Prop :=
  let b := beginRequest p r s
  t = { b with ports := t.ports, offered := t.offered } ∧ OfferStands b t
    ∧ RepliesQueued b t p [⟨.credit, r.slot, r.tag, st, r.kind, {}⟩]

/-- The counter can make one more grant before its end value (02, R48). -/
def grantLeft (s : State) : Prop := s.token.toNat + 1 < Config.tokenEnd.toNat

/-- The choices an arbiter makes, one after another, from the members eligible at each (09, R155). -/
def choicesMade : List (Member → Bool) → State → List (Option Member)
  | [], _ => []
  | ok :: rest, s => (choose ok s).chosen :: choicesMade rest (choose ok s)

end Sys2Proof.Machine
end

