-- ==== Sys2Proof/Certificates/Slice0/Obligations.lean ====
section
/-! DEFINITION. The statements for the provers, from the numbered rules of spec/. -/

open Sys2Proof Sys2Proof.Machine

/-! ### Steps, reset, and all commands -/

/-- A step takes the command at the front of the queue and is that command's effect with the queue's rest. The model's
choice (log entry 2): with no command waiting the part idles. -/
def Obligations.StepRunsTheFrontCommand : Prop :=
  (∀ (s : State) (c : Instr) (rest : List Instr), s.pending = c :: rest → step s = exec c { s with pending := rest })
    ∧ ∀ s : State, s.pending = [] → step s = .next s

/-- Every command completes in every state, and leaves the queue to the step (log entry 1: no command faults and none
is refused). -/
def Obligations.EveryCommandCompletes : Prop :=
  ∀ (c : Instr) (s : State), ∃ t, exec c s = .next t ∧ t.pending = s.pending

/-- What device reset leaves, block by block, field by field. Of these values the model's own are: the signal inputs
(log entry 13), the captured word of a latching read (log entry 14), no published count outstanding (log entry 15), no
frame sent and no TRAIN due (log entry 12), and the queue of commands and the list of what an item has handed over, which
the manual does not have (log entries 2 and 3); the count of free values drawn is left unsaid. -/
def Obligations.ResetState : Prop :=
  let r := State.reset
  r.records = [] ∧ r.leases = [] ∧ r.waits = [] ∧ (∀ k, genOf r k = 0#8)
    ∧ (∀ d : Fin 16, r.domain d =
        { valid := false, upgradeAllowed := false, modes := 0, policy := 0, base := 0, mask := 0, agents := 0,
          leaseDefault := 0, leaseMax := 0, waitCap := 0, queueLimit := 0 })
    ∧ (∀ a : Agent, r.agent a =
        { state := .disabled, epoch := 0, quota := 256, keepalive := 0, leases := [], tags := Vector.replicate 16 .free })
    ∧ r.token = 0#64 ∧ r.seeded = false ∧ r.part = .halted ∧ r.sweep = []
    ∧ r.outer = 0 ∧ r.inner = 0 ∧ r.chosen = none
    ∧ r.now = 0 ∧ r.tickPeriod = 1000#16 ∧ r.tickPos = 0 ∧ r.marks = [] ∧ r.offered = none
    ∧ r.pool .lockTable = { level := .normal, low := 3072, high := 3584, shed := 3968, evaluated := 0, published := [],
                            shedLatch := 0 }
    ∧ r.pool .leasePool = { level := .normal, low := 6144, high := 7168, shed := 7936, evaluated := 0, published := [],
                            shedLatch := 0 }
    ∧ r.pool .waitPool = { level := .normal, low := 1536, high := 1792, shed := 1984, evaluated := 0, published := [],
                           shedLatch := 0 }
    ∧ (∀ p : Port, r.port p =
        { link := .down, heldDown := false, withdrawPending := false, fifo := [], ingressCredits := 0,
          unsentReturns := 0, withheld := 0, egressCredits := 0, replyQ := [], noticeQ := [], egressTurn := .reply,
          ackOwed := false, reports := [], frameError := false, enable := false, signal := false, tx := none,
          trainDue := false })
    ∧ r.mbox = { state := .idle, code := 0, auto := false, abortEnded := false, latched := Vector.replicate 8 0,
                 result := .ok }
    ∧ r.args = Vector.replicate 8 0 ∧ r.res = Vector.replicate 8 0 ∧ r.events = 0#32 ∧ r.eventEnable = 0#32
    ∧ r.nowLatch = 0#16 ∧ r.spiData = 0#32
    ∧ r.handed = [] ∧ r.pending = []

/-- DEVICE_RESET leaves the reset state. The model's choices: the signal at each receiver is an input that the reset
does not change, and the commands still waiting are the world's (log entry 13); the count of free values drawn goes on
(log entry 3). -/
def Obligations.DeviceResetRestoresReset : Prop :=
  ∀ s : State, ∃ t, exec .deviceReset s = .next t
    ∧ t = { State.reset with ports := t.ports, freeDraws := s.freeDraws, pending := s.pending }
    ∧ ∀ p : Port, t.port p = { State.reset.port p with signal := (s.port p).signal }

/-- The reset state meets every law of Safety.lean. -/
def Obligations.ResetMeetsTheLaws : Prop :=
  LockLaw State.reset ∧ TokenLaw State.reset ∧ PortLaw State.reset ∧ RegisterLaw State.reset

/-! ### Invariants of every step -/

/-- No EXCLUSIVE record ever has a second holder: every step keeps it, over tables that every step keeps in canonical
form. -/
def Obligations.EveryStepKeepsExclusion : Prop :=
  ∀ s t : State, LockLaw s → step s = .next t → LockLaw t

/-- Every step keeps the tokens: no two leases carry one, and none is beyond the counter; and the counter never goes
back, but for a device reset. -/
def Obligations.EveryStepKeepsTokensDistinct : Prop :=
  ∀ s t : State, LockLaw s → TokenLaw s → step s = .next t →
    TokenLaw t ∧ (s.pending.head? ≠ some .deviceReset → s.token.toNat ≤ t.token.toNat)

/-- Every step keeps every port's account of its 16 ingress credits, and one notice per agent. -/
def Obligations.EveryStepKeepsThePortAccounts : Prop :=
  ∀ s t : State, LockLaw s → PortLaw s → step s = .next t → PortLaw t

/-- Every step keeps the registers within the values they may hold, and no offer stands in HALTED. -/
def Obligations.EveryStepKeepsTheRegisters : Prop :=
  ∀ s t : State, LockLaw s → RegisterLaw s → step s = .next t → RegisterLaw t

/-! ### The lease clock -/

/-- TICK: NOW rises by one, and nothing else changes but the tick position. MARK_DUE: every watched entry whose
deadline NOW has reached is marked, no mark is lost, and while the part serves with nothing offered, the earliest
marked entry in due order becomes the offer. The model's choice (log entry 4): the comparison at a tick is a command
of its own, sent after the tick. -/
def Obligations.TicksMarkAndOfferTheEarliest : Prop :=
  ∀ s : State,
    (∃ t, exec .tick s = .next t ∧ t = { s with now := t.now, tickPos := t.tickPos } ∧ t.now = s.now + 1)
    ∧ ∃ t, exec .markDue s = .next t ∧ t = { s with marks := t.marks, offered := t.offered }
      ∧ (∀ e, e ∈ t.marks ↔ e ∈ s.marks ∨ (e ∈ timedEntries s ∧ isDue s e = true))
      ∧ (s.offered ≠ none ∨ serving s = false → t.offered = s.offered)
      ∧ (s.offered = none → serving s = true → (t.offered = none ↔ t.marks = [])
          ∧ ∀ e, t.offered = some e → e ∈ t.marks ∧ ∀ m ∈ t.marks, dueBefore s m e = false)

/-! ### Engine intake -/

/-- A choice names the first eligible member from the outer pointer on, and within INTERNAL from the inner pointer on;
each pointer a choice is made through moves past the position chosen; with no member eligible nothing is chosen and
neither pointer moves. Position 4 of the outer order is INTERNAL. -/
def Obligations.ChoiceMovesThePointers : Prop :=
  ∀ (ok : Member → Bool) (s : State),
    let t := choose ok s
    let skips := fun pos : Fin 5 => ∀ j : Fin 5, (j - s.outer).val < (pos - s.outer).val →
      (∀ p : Port, j.val = p.val → ok (.port p) = false) ∧ (j = 4 → ∀ i : Fin 4, ok (innerMember i) = false)
    t = { s with chosen := t.chosen, outer := t.outer, inner := t.inner }
      ∧ (t.chosen = none ↔ ∀ m, ok m = false)
      ∧ (t.chosen = none → t.outer = s.outer ∧ t.inner = s.inner)
      ∧ (∀ p : Port, t.chosen = some (.port p) →
          ok (.port p) = true ∧ skips p.castSucc ∧ t.outer = p.succ ∧ t.inner = s.inner)
      ∧ ∀ i : Fin 4, t.chosen = some (innerMember i) → ok (innerMember i) = true ∧ skips 4 ∧ t.outer = 0
          ∧ (∀ j : Fin 4, (j - s.inner).val < (i - s.inner).val → ok (innerMember j) = false) ∧ t.inner = i + 1

/-- A member that stays eligible is served within its bound: a port or INTERNAL among five choices, an inner member
among twenty. -/
def Obligations.RotationBoundsEveryWait : Prop :=
  ∀ (s : State) (oks : List (Member → Bool)),
    (∀ p : Port, oks.length = 5 → (∀ ok ∈ oks, ok (.port p) = true) → some (.port p) ∈ choicesMade oks s)
      ∧ (oks.length = 5 → (∀ ok ∈ oks, ∃ i : Fin 4, ok (innerMember i) = true) →
          ∃ i : Fin 4, some (innerMember i) ∈ choicesMade oks s)
      ∧ (∀ i : Fin 4, oks.length = 20 → (∀ ok ∈ oks, ok (innerMember i) = true) →
          some (innerMember i) ∈ choicesMade oks s)

/-- The take of an item: the item leaves its member, the next choice is made from the members eligible then, and nothing
else changes. Where no choice stands, one is made first (log entry 6). A request leaves its FIFO, and its credit is
returned, or withheld where its tag was not FREE; a command's mailbox offers nothing more; a sweep job stays listed; the
clock offers the earliest marked entry other than the one taken; a withdrawal is pending no more. EMPTY_TAKE: a chosen
member that has nothing to offer uses its turn, and the next choice is made; nothing else changes. The model's readings:
the item being taken is not eligible at the choice made at its own take (log entry 7), and not offered again at it (log
entry 8). -/
def Obligations.TakesUseTheTurn : Prop :=
  (∀ s : State,
    let w := withChoice s
    (s.chosen ≠ none → w = s) ∧ (s.chosen = none → w = choose (eligible s) s)
    ∧ (∀ (p : Port) (r : Request), takenRequest s = some (p, r) →
      let b := beginRequest p r s
      let u := { w with ports := b.ports }
      b = choose (eligible u) u
        ∧ b = { s with ports := b.ports, chosen := b.chosen, outer := b.outer, inner := b.inner }
        ∧ (s.port p).fifo.head? = some r
        ∧ b.port p = (if s.tag (senderOf p r) r.tag = .free then
            { s.port p with fifo := (s.port p).fifo.tail, ingressCredits := (s.port p).ingressCredits + 1,
                            unsentReturns := (s.port p).unsentReturns + 1 }
          else { s.port p with fifo := (s.port p).fifo.tail, withheld := (s.port p).withheld + 1 })
        ∧ ∀ q, q ≠ p → b.port q = s.port q)
    ∧ (let b := beginCommand s
       b = choose (fun m => decide (m ≠ .mgmt) && eligible w m) w
        ∧ b = { s with chosen := b.chosen, outer := b.outer, inner := b.inner })
    ∧ (let b := beginTake id s
       b = choose (eligible w) w ∧ b = { s with chosen := b.chosen, outer := b.outer, inner := b.inner })
    ∧ (∀ e : TimedEntry,
      let b := beginTake (takeOffer e) s
      let u := { w with offered := b.offered }
      b = choose (eligible u) u
        ∧ b = { s with offered := b.offered, chosen := b.chosen, outer := b.outer, inner := b.inner }
        ∧ (b.offered = none ↔ ∀ m ∈ s.marks, m = e)
        ∧ ∀ x, b.offered = some x → x ∈ s.marks ∧ x ≠ e ∧ ∀ m ∈ s.marks, m ≠ e → dueBefore s m x = false)
    ∧ ∀ p : Port,
      let b := beginWithdraw p s
      let u := { w with ports := b.ports }
      b = choose (eligible u) u
        ∧ b = { s with ports := b.ports, chosen := b.chosen, outer := b.outer, inner := b.inner }
        ∧ b.port p = { s.port p with withdrawPending := false } ∧ ∀ q, q ≠ p → b.port q = s.port q)
  ∧ ∀ (s : State) (m : Member), s.chosen = some m → eligible s m = false →
    ∃ t, exec .emptyTake s = .next t ∧ t = { s with chosen := t.chosen, outer := t.outer, inner := t.inner }
      ∧ t = choose (eligible s) s

/-! ### Admission -/

/-- The domain lookup returns the first valid entry whose masked base equals the masked key, and none if there is no
such entry, when stage 6 answers NO_DOMAIN. -/
def Obligations.DomainLookupIsFirstMatch : Prop :=
  ∀ (s : State) (key : Key),
    let hit := fun i : Fin 16 =>
      (s.domain i).valid = true ∧ key &&& (s.domain i).mask = (s.domain i).base &&& (s.domain i).mask
    (∀ i, lookupDomain s key = some i ↔ hit i ∧ ∀ j, j < i → ¬ hit j) ∧ (lookupDomain s key = none ↔ ∀ i, ¬ hit i)
      ∧ ((∀ i, ¬ hit i) → ∀ a m, stage67 s a key m = some .noDomain)

/-- Stages 3 to 7, in their order: a request of any kind that fails one is answered with that stage's status, and
changes nothing else. Before a reply a port that holds a notice may go on by itself (R157; when, in the model: log
entry 3). -/
def Obligations.AdmissionStagesRefuseInOrder : Prop :=
  ∀ (s : State) (p : Port) (r : Request) (k : Kind) (st : Status),
    takenRequest s = some (p, r) → stage1 r = some k → s.tag (senderOf p r) r.tag = .free →
    let a := senderOf p r
    let g := s.agent a
    let entered := g.state = .active ∧ (k = .join ∨ r.epoch = g.epoch)
    let looks := entered ∧ (k = .acquire ∧ s.part = .running ∨ k = .query ∧ (s.part = .running ∨ s.part = .quiescing))
    (g.state = .disabled ∧ st = .notAdmitted
      ∨ (g.state = .fencing ∨ g.state = .fenced) ∧ st = .fenced
      ∨ g.state = .active ∧ k ≠ .join ∧ r.epoch ≠ g.epoch ∧ st = .staleEpoch
      ∨ entered ∧ k ≠ .join ∧ (s.part = .halted ∨ s.part = .aborting) ∧ st = .halted
      ∨ entered ∧ (k = .acquire ∨ k = .upgrade) ∧ s.part = .quiescing ∧ st = .quiesced
      ∨ looks ∧ lookupDomain s r.key = none ∧ st = .noDomain
      ∨ looks ∧ (∃ d, lookupDomain s r.key = some d ∧ (s.domain d).agents.getLsbD a.val = false) ∧ st = .denied
      ∨ looks ∧ k = .acquire ∧ r.mode = 1#8
          ∧ (∃ d, lookupDomain s r.key = some d ∧ (s.domain d).modes = 1#2) ∧ st = .denied) →
    ∃ t, exec (rowOf k) s = .next t ∧ AnsweredOnly s p r st {} t

/-- Stages 1 and 2: MALFORMED is the answer to a request of an unknown kind or with an examined field out of range, and
TAG_BUSY to any other on a tag that is not FREE. On a tag that is not FREE the reply belongs to no tag, and no tag
moves. Before a reply a port that holds a notice may go on by itself (R157; when, in the model: log entry 3). -/
def Obligations.MalformedAndBusyRequests : Prop :=
  (∀ (s : State) (p : Port) (r : Request), takenRequest s = some (p, r) → kindOf r.kind = none →
    ∃ t, exec .malformed s = .next t
      ∧ (s.tag (senderOf p r) r.tag = .free → AnsweredOnly s p r .malformed {} t)
      ∧ (s.tag (senderOf p r) r.tag ≠ .free → RejectedWithoutTag s p r .malformed t))
  ∧ ∀ (s : State) (p : Port) (r : Request) (k : Kind), takenRequest s = some (p, r) → kindOf r.kind = some k →
    (fieldsInRange r k = false → s.tag (senderOf p r) r.tag = .free →
      ∃ t, exec (rowOf k) s = .next t ∧ AnsweredOnly s p r .malformed {} t)
    ∧ (s.tag (senderOf p r) r.tag ≠ .free →
      ∃ t, exec (rowOf k) s = .next t
        ∧ RejectedWithoutTag s p r (if fieldsInRange r k = true then .tagBusy else .malformed) t)

/-! ### Requests -/

/-- JOIN is answered DONE with the agent's epoch, quota and lease count. QUERY is answered DONE with the record's last
token, mode, holder and waiter counts and upgrade flag, or with zeros where the key has no record. Neither changes
anything else. Before a reply a port that holds a notice may go on by itself (R157; when, in the model: log entry 3).
-/
def Obligations.JoinAndQueryReport : Prop :=
  (∀ (s : State) (p : Port) (r : Request), Admitted s p r .join →
    let g := s.agent (senderOf p r)
    ∃ t, exec .join s = .next t
      ∧ AnsweredOnly s p r .done
          { info := .join g.epoch (BitVec.ofNat 16 g.quota) (BitVec.ofNat 16 g.leases.length) } t)
  ∧ ∀ (s : State) (p : Port) (r : Request), Admitted s p r .query →
    (recordOfKey s r.key = none →
      ∃ t, exec .query s = .next t ∧ AnsweredOnly s p r .done { info := .query 0 0 0 0 } t)
    ∧ ∀ n rec, recordOfKey s r.key = some (n, rec) →
      ∃ t, exec .query s = .next t
        ∧ AnsweredOnly s p r .done
            { token := rec.lastToken,
              info := .query (if rec.mode = .shared then 1#8 else 2#8) (BitVec.ofNat 8 rec.holders.length)
                (BitVec.ofNat 8 rec.queue.length) (if rec.slot = none then 0#8 else 1#8) } t

/-- KEEPALIVE sets the agent's keepalive tick to NOW, has each of its leases compared again, and is answered DONE with
the lease count. Before a reply a port that holds a notice may go on by itself (R157; when, in the model: log entry 3).
-/
def Obligations.KeepaliveMovesTheKeepaliveTick : Prop :=
  ∀ (s : State) (p : Port) (r : Request), Admitted s p r .keepalive →
    let a := senderOf p r
    let b := beginRequest p r s
    ∃ t, exec .keepalive s = .next t
      ∧ t = { b with agents := t.agents, ports := t.ports, marks := t.marks, offered := t.offered,
                     freeDraws := t.freeDraws } ∧ OfferStands b t
      ∧ t.agent a = { s.agent a with keepalive := s.now,
                                     tags := (s.agent a).tags.set r.tag.val .replying r.tag.isLt }
      ∧ (∀ x, x ≠ a → t.agent x = s.agent x)
      ∧ MarksCompared s t ((s.agent a).leases.map fun h => .lease h.num)
      ∧ RepliesHanded b t p
          [(a, replyTo a r .done { info := .keepalive (BitVec.ofNat 16 (s.agent a).leases.length) })]

/-- RENEW of a live lease of the sender sets its duration and own deadline by the record's domain, has it compared
again, and is answered DONE with handle, mode, token and the duration. Before a reply a port that holds a notice may go
on by itself (R157; when, in the model: log entry 3). -/
def Obligations.RenewMovesTheDeadline : Prop :=
  ∀ (s : State) (p : Port) (r : Request) (l : Lease) (rec : LockRecord), tablesOk s = true → Admitted s p r .renew →
    liveLease s r.leaseNum.toNat r.gen = some l → l.agent = senderOf p r → tableGet s.records l.record = some rec →
    let b := beginRequest p r s
    let k := r.leaseNum.toNat
    let dur := if r.leaseTicks = 0#16 then l.duration
      else min r.leaseTicks.toNat (s.domain rec.domain).leaseMax.toNat
    ∃ t, exec .renew s = .next t
      ∧ t = { b with agents := t.agents, ports := t.ports, leases := t.leases, marks := t.marks, offered := t.offered,
                     freeDraws := t.freeDraws }
      ∧ OfferStands b t
      ∧ leaseAt t k = some { l with duration := dur, ownDeadline := s.now + dur }
      ∧ (∀ j, j ≠ k → tableGet t.leases j = tableGet s.leases j)
      ∧ MarksCompared s t [.lease k] ∧ TagMoves b t (senderOf p r) r.tag .replying
      ∧ RepliesHanded b t p [(senderOf p r, replyTo (senderOf p r) r .done
          { num := r.leaseNum, gen := r.gen, mode := BitVec.ofNat 8 (modeCode l.mode), token := l.token,
            ticks := BitVec.ofNat 16 dur })]

/-- The handle test of RELEASE, RENEW, UPGRADE and DOWNGRADE: NO_LEASE where the handle names no live lease, NOT_HOLDER
where it is another agent's. Before a reply a port that holds a notice may go on by itself (R157; when, in the model:
log entry 3). -/
def Obligations.HandleTestRefusesOtherLeases : Prop :=
  ∀ (s : State) (p : Port) (r : Request) (k : Kind), k ∈ ([.release, .renew, .upgrade, .downgrade] : List Kind) →
    Admitted s p r k →
    (liveLease s r.leaseNum.toNat r.gen = none → ∃ t, exec (rowOf k) s = .next t ∧ AnsweredOnly s p r .noLease {} t)
    ∧ ∀ l, liveLease s r.leaseNum.toNat r.gen = some l → l.agent ≠ senderOf p r →
        ∃ t, exec (rowOf k) s = .next t ∧ AnsweredOnly s p r .notHolder {} t

/-- ACQUIRE's answers that take nothing: ALREADY_HELD with the lease held, ALREADY_WAITING, CONFLICT for a request that
will not wait, and QUEUE_LIMIT, in this order. Before a reply a port that holds a notice may go on by itself (R157;
when, in the model: log entry 3). -/
def Obligations.AcquireAnswersThatTakeNothing : Prop :=
  ∀ (s : State) (p : Port) (r : Request) (n : Nat) (rec : LockRecord) (m : Mode), Admitted s p r .acquire →
    modeOfByte r.mode = some m → recordOfKey s r.key = some (n, rec) →
    let a := senderOf p r
    let free := rec.slot = none ∧ rec.queue = [] ∧ compatible m rec = true
    (∀ k l, heldLease s a rec = some k → leaseAt s k = some l →
      ∃ t, exec .acquire s = .next t
        ∧ AnsweredOnly s p r .alreadyHeld
            { num := BitVec.ofNat 16 k, gen := genOf s k, mode := BitVec.ofNat 8 (modeCode l.mode), token := l.token } t)
    ∧ (heldLease s a rec = none → waitsOn s a rec = true →
      ∃ t, exec .acquire s = .next t ∧ AnsweredOnly s p r .alreadyWaiting {} t)
    ∧ (heldLease s a rec = none → waitsOn s a rec = false → ¬ free → r.waitTicks = 0#16 →
      ∃ t, exec .acquire s = .next t ∧ AnsweredOnly s p r .conflict {} t)
    ∧ (heldLease s a rec = none → waitsOn s a rec = false → ¬ free → r.waitTicks ≠ 0#16 →
      (s.domain rec.domain).queueLimit.toNat ≤ rec.queue.length →
      ∃ t, exec .acquire s = .next t ∧ AnsweredOnly s p r .queueLimit {} t)

/-- An ACQUIRE that would create a record, join the holders of one or wait in its queue is answered QUOTA, SHED or
FULL, in this order, where its agent's quota is used up, a pool it needs is at SHED, or such a pool has no free entry.
A created record needs the lease pool and the lock table, joining the lease pool, and waiting the lease pool and the
wait pool. Before a reply a port that holds a notice may go on by itself (R157; when, in the model: log entry 3). -/
def Obligations.AcquireRefusedForResources : Prop :=
  ∀ (s : State) (p : Port) (r : Request), Admitted s p r .acquire →
    let a := senderOf p r
    let spent := (s.agent a).quota ≤ quotaCount s a
    let refused := fun (shedding full : Prop) =>
      (spent → ∃ t, exec .acquire s = .next t ∧ AnsweredOnly s p r .quota {} t)
        ∧ (¬ spent → shedding → ∃ t, exec .acquire s = .next t ∧ AnsweredOnly s p r .shed {} t)
        ∧ (¬ spent → ¬ shedding → full → ∃ t, exec .acquire s = .next t ∧ AnsweredOnly s p r .full {} t)
    let leaseShed := (s.pool .leasePool).level = .shed
    (recordOfKey s r.key = none →
      refused (leaseShed ∨ (s.pool .lockTable).level = .shed) (8192 ≤ s.leases.length ∨ 4096 ≤ s.records.length))
    ∧ ∀ (n : Nat) (rec : LockRecord) (m : Mode), modeOfByte r.mode = some m → recordOfKey s r.key = some (n, rec) →
      heldLease s a rec = none → waitsOn s a rec = false →
      let joins := rec.slot = none ∧ rec.queue = [] ∧ compatible m rec = true
      (joins → refused leaseShed (8192 ≤ s.leases.length))
      ∧ (¬ joins → r.waitTicks ≠ 0#16 → rec.queue.length < (s.domain rec.domain).queueLimit.toNat →
        refused (leaseShed ∨ (s.pool .waitPool).level = .shed) (8192 ≤ s.leases.length ∨ 2048 ≤ s.waits.length))

/-- ACQUIRE of a key with no record: the record, with the sender as its holder, a lease with the next token and the
duration the domain gives, and GRANTED. Before a reply a port that holds a notice may go on by itself (R157; when, in
the model: log entry 3). -/
def Obligations.AcquireCreatesARecord : Prop :=
  ∀ (s : State) (p : Port) (r : Request) (m : Mode) (d : Fin 16) (n k : Nat), Admitted s p r .acquire →
    modeOfByte r.mode = some m → recordOfKey s r.key = none → lookupDomain s r.key = some d → grantLeft s →
    quotaCount s (senderOf p r) < (s.agent (senderOf p r)).quota →
    (s.pool .leasePool).level ≠ .shed → (s.pool .lockTable).level ≠ .shed →
    s.leases.length < 8192 → s.records.length < 4096 →
    lowestFree s.records 4096 = some n → lowestFree s.leases 8192 = some k →
    let a := senderOf p r
    let b := beginRequest p r s
    let h : Handle := ⟨k, genOf s k⟩
    let dur := if r.leaseTicks = 0#16 then (s.domain d).leaseDefault.toNat
      else min r.leaseTicks.toNat (s.domain d).leaseMax.toNat
    ∃ t, exec .acquire s = .next t
      ∧ t = { b with agents := t.agents, ports := t.ports, records := t.records, leases := t.leases, token := t.token,
                     marks := t.marks, pools := t.pools, offered := t.offered,
                     freeDraws := t.freeDraws } ∧ OfferStands b t
      ∧ t.token.toNat = s.token.toNat + 1
      ∧ tableGet t.records n = some { key := r.key, domain := d, mode := m, holders := [h], queue := [], slot := none,
                                      lastToken := t.token }
      ∧ (∀ j, j ≠ n → tableGet t.records j = tableGet s.records j)
      ∧ leaseAt t k = some ⟨a, n, m, t.token, dur, s.now + dur⟩
      ∧ (∀ j, j ≠ k → tableGet t.leases j = tableGet s.leases j)
      ∧ t.agent a = { s.agent a with leases := (s.agent a).leases ++ [h],
                                     tags := (s.agent a).tags.set r.tag.val .replying r.tag.isLt }
      ∧ (∀ x, x ≠ a → t.agent x = s.agent x)
      ∧ MarksCompared s t [.lease k] ∧ CountsPublished s t
      ∧ RepliesHanded b t p [(a, replyTo a r .granted
          { num := BitVec.ofNat 16 k, gen := genOf s k, mode := BitVec.ofNat 8 (modeCode m), token := t.token,
            ticks := BitVec.ofNat 16 dur })]

/-- ACQUIRE that the record's holders allow: a new holder at the end of the list, with the next token, and GRANTED.
Before a reply a port that holds a notice may go on by itself (R157; when, in the model: log entry 3). -/
def Obligations.AcquireJoinsTheHolders : Prop :=
  ∀ (s : State) (p : Port) (r : Request) (n k : Nat) (rec : LockRecord), tablesOk s = true → Admitted s p r .acquire →
    r.mode = 1#8 → recordOfKey s r.key = some (n, rec) → rec.mode = .shared → rec.holders ≠ [] → rec.queue = [] →
    rec.slot = none → heldLease s (senderOf p r) rec = none → grantLeft s →
    quotaCount s (senderOf p r) < (s.agent (senderOf p r)).quota →
    (s.pool .leasePool).level ≠ .shed → s.leases.length < 8192 → lowestFree s.leases 8192 = some k →
    let a := senderOf p r
    let b := beginRequest p r s
    let h : Handle := ⟨k, genOf s k⟩
    let dur := if r.leaseTicks = 0#16 then (s.domain rec.domain).leaseDefault.toNat
      else min r.leaseTicks.toNat (s.domain rec.domain).leaseMax.toNat
    ∃ t, exec .acquire s = .next t
      ∧ t = { b with agents := t.agents, ports := t.ports, records := t.records, leases := t.leases, token := t.token,
                     marks := t.marks, pools := t.pools, offered := t.offered,
                     freeDraws := t.freeDraws } ∧ OfferStands b t
      ∧ t.token.toNat = s.token.toNat + 1
      ∧ tableGet t.records n = some { rec with holders := rec.holders ++ [h], lastToken := t.token }
      ∧ (∀ j, j ≠ n → tableGet t.records j = tableGet s.records j)
      ∧ leaseAt t k = some ⟨a, n, .shared, t.token, dur, s.now + dur⟩
      ∧ (∀ j, j ≠ k → tableGet t.leases j = tableGet s.leases j)
      ∧ t.agent a = { s.agent a with leases := (s.agent a).leases ++ [h],
                                     tags := (s.agent a).tags.set r.tag.val .replying r.tag.isLt }
      ∧ (∀ x, x ≠ a → t.agent x = s.agent x)
      ∧ MarksCompared s t [.lease k] ∧ CountsPublished s t
      ∧ RepliesHanded b t p [(a, replyTo a r .granted
          { num := BitVec.ofNat 16 k, gen := genOf s k, mode := 1#8, token := t.token,
            ticks := BitVec.ofNat 16 dur })]

/-- ACQUIRE that waits: a wait entry at the tail of the queue with its deadline and a reserved lease entry; the tag
waits and no reply is placed. -/
def Obligations.AcquireWaitsInTheQueue : Prop :=
  ∀ (s : State) (p : Port) (r : Request) (m : Mode) (n w k : Nat) (rec : LockRecord), tablesOk s = true →
    Admitted s p r .acquire → modeOfByte r.mode = some m → recordOfKey s r.key = some (n, rec) →
    heldLease s (senderOf p r) rec = none → waitsOn s (senderOf p r) rec = false →
    ¬ (rec.slot = none ∧ rec.queue = [] ∧ compatible m rec = true) → r.waitTicks ≠ 0#16 →
    rec.queue.length < (s.domain rec.domain).queueLimit.toNat →
    quotaCount s (senderOf p r) < (s.agent (senderOf p r)).quota →
    (s.pool .leasePool).level ≠ .shed → (s.pool .waitPool).level ≠ .shed →
    s.leases.length < 8192 → s.waits.length < 2048 →
    lowestFree s.waits 2048 = some w → lowestFree s.leases 8192 = some k →
    let a := senderOf p r
    let b := beginRequest p r s
    let cap := (s.domain rec.domain).waitCap.toNat
    ∃ t, exec .acquire s = .next t
      ∧ t = { b with agents := t.agents, records := t.records, leases := t.leases, waits := t.waits,
                     marks := t.marks, pools := t.pools, offered := t.offered } ∧ OfferStands b t
      ∧ tableGet t.records n = some { rec with queue := rec.queue ++ [w] }
      ∧ (∀ j, j ≠ n → tableGet t.records j = tableGet s.records j)
      ∧ tableGet t.waits w = some
          { record := n, agent := a, tag := r.tag, mode := m, leaseTicks := r.leaseTicks.toNat, reserved := k,
            deadline := if r.waitTicks.toNat = 65535 ∧ cap = 65535 then none
              else some (s.now + min r.waitTicks.toNat cap) }
      ∧ (∀ j, j ≠ w → tableGet t.waits j = tableGet s.waits j)
      ∧ tableGet t.leases k = some (.reserved a w) ∧ (∀ j, j ≠ k → tableGet t.leases j = tableGet s.leases j)
      ∧ TagMoves b t a r.tag .waiting ∧ MarksCompared s t [.wait w] ∧ CountsPublished s t

/-- The token end. Met by an ACQUIRE that creates a record: at the end value no grant is made and the answer is HALTED;
the grant that draws the end value is made, SEEDED is cleared with TOKEN_END, the part becomes ABORTING with an abort
job in place of every job, and an automatic ABORT is placed, superseding a command in flight. Met inside a grant
evaluation, here a RELEASE's: the head that draws the end value is granted, the next head, compatible with it, is
removed and answered HALTED with its entries freed, and the abort follows; a grantable upgrade is answered HALTED,
leaves its slot, and its lease stays S. The model's choice (log entry 16): the automatic ABORT leaves the latched words
and clears the abort-ended mark. Before a reply a port that holds a notice may go on by itself (R157; when, in the
model: log entry 3). -/
def Obligations.TokenEndAbortsThePart : Prop :=
  (∀ (s : State) (p : Port) (r : Request) (m : Mode) (d : Fin 16) (n k : Nat), Admitted s p r .acquire →
    modeOfByte r.mode = some m → recordOfKey s r.key = none → lookupDomain s r.key = some d →
    quotaCount s (senderOf p r) < (s.agent (senderOf p r)).quota →
    (s.pool .leasePool).level ≠ .shed → (s.pool .lockTable).level ≠ .shed →
    s.leases.length < 8192 → s.records.length < 4096 →
    lowestFree s.records 4096 = some n → lowestFree s.leases 8192 = some k →
    let a := senderOf p r
    let b := beginRequest p r s
    let h : Handle := ⟨k, genOf s k⟩
    let dur := if r.leaseTicks = 0#16 then (s.domain d).leaseDefault.toNat
      else min r.leaseTicks.toNat (s.domain d).leaseMax.toNat
    let inFlight := (s.mbox.state = .pending ∨ s.mbox.state = .running) ∧ s.mbox.code ≠ 8#8
    (s.token = 0xFFFFFFFFFFFFFFFF#64 → ∃ t, exec .acquire s = .next t ∧ AnsweredOnly s p r .halted {} t)
    ∧ (s.token = 0xFFFFFFFFFFFFFFFE#64 → (inFlight ∨ s.mbox.state = .idle ∨ s.mbox.state = .done) →
      ∃ t, exec .acquire s = .next t
        ∧ t = { b with agents := t.agents, ports := t.ports, records := t.records, leases := t.leases,
                       token := 0xFFFFFFFFFFFFFFFF#64, seeded := false, marks := t.marks, pools := t.pools,
                       part := .aborting, sweep := [.abort 0 false], events := t.events,
                       mbox := { s.mbox with state := .pending, code := 8#8, auto := true, abortEnded := false },
                       freeDraws := t.freeDraws }
        ∧ t.events = (if inFlight then s.events ||| 0x2C#32 else s.events ||| 0x28#32)
        ∧ tableGet t.records n = some { key := r.key, domain := d, mode := m, holders := [h], queue := [], slot := none,
                                        lastToken := t.token }
        ∧ (∀ j, j ≠ n → tableGet t.records j = tableGet s.records j)
        ∧ leaseAt t k = some ⟨a, n, m, t.token, dur, s.now + dur⟩
        ∧ (∀ j, j ≠ k → tableGet t.leases j = tableGet s.leases j)
        ∧ t.agent a = { s.agent a with leases := (s.agent a).leases ++ [h],
                                       tags := (s.agent a).tags.set r.tag.val .replying r.tag.isLt }
        ∧ (∀ x, x ≠ a → t.agent x = s.agent x)
        ∧ MarksCompared s t [.lease k] ∧ CountsPublished s t
        ∧ RepliesHanded b t p [(a, replyTo a r .granted
            { num := BitVec.ofNat 16 k, gen := genOf s k, mode := BitVec.ofNat 8 (modeCode m), token := t.token,
              ticks := BitVec.ofNat 16 dur })]))
  ∧ (∀ (s : State) (p : Port) (r : Request) (l : Lease) (rec : LockRecord) (w1 w2 : Nat) (e1 e2 : WaitEntry),
    tablesOk s = true → Admitted s p r .release → s.part = .running → fenceJobPresent s (senderOf p r) = false →
    liveLease s r.leaseNum.toNat r.gen = some l → l.agent = senderOf p r → tableGet s.records l.record = some rec →
    rec.holders = [⟨r.leaseNum.toNat, r.gen⟩] → rec.queue = [w1, w2] → rec.slot = none → w1 ≠ w2 →
    tableGet s.waits w1 = some e1 → e1.record = l.record → e1.mode = .shared → e1.agent ≠ senderOf p r →
    tableGet s.leases e1.reserved = some (.reserved e1.agent w1) →
    tableGet s.waits w2 = some e2 → e2.record = l.record → e2.mode = .shared → e2.agent ≠ senderOf p r →
    tableGet s.leases e2.reserved = some (.reserved e2.agent w2) → e1.agent ≠ e2.agent →
    s.token = 0xFFFFFFFFFFFFFFFE#64 →
    let a := senderOf p r
    let b := beginRequest p r s
    let k := r.leaseNum.toNat
    let h : Handle := ⟨e1.reserved, genOf s e1.reserved⟩
    let dur := if e1.leaseTicks = 0 then (s.domain rec.domain).leaseDefault.toNat
      else min e1.leaseTicks (s.domain rec.domain).leaseMax.toNat
    let inFlight := (s.mbox.state = .pending ∨ s.mbox.state = .running) ∧ s.mbox.code ≠ 8#8
    inFlight ∨ s.mbox.state = .idle ∨ s.mbox.state = .done →
    ∃ t, exec .release s = .next t
      ∧ t = { b with agents := t.agents, ports := t.ports, records := t.records, leases := t.leases, gens := t.gens,
                     waits := t.waits, token := 0xFFFFFFFFFFFFFFFF#64, seeded := false, marks := t.marks,
                     pools := t.pools, part := .aborting, sweep := [.abort 0 false], events := t.events,
                     mbox := { s.mbox with state := .pending, code := 8#8, auto := true, abortEnded := false },
                     freeDraws := t.freeDraws }
      ∧ t.events = (if inFlight then s.events ||| 0x2C#32 else s.events ||| 0x28#32)
      ∧ tableGet t.records l.record = some { rec with mode := .shared, holders := [h], queue := [], lastToken := t.token }
      ∧ (∀ j, j ≠ l.record → tableGet t.records j = tableGet s.records j)
      ∧ tableGet t.leases k = none ∧ tableGet t.leases e2.reserved = none
      ∧ leaseAt t e1.reserved = some ⟨e1.agent, l.record, .shared, t.token, dur, s.now + dur⟩
      ∧ (∀ j, j ≠ k → j ≠ e1.reserved → j ≠ e2.reserved → tableGet t.leases j = tableGet s.leases j)
      ∧ genOf t k = genOf s k + 1#8 ∧ genOf t e2.reserved = genOf s e2.reserved + 1#8
      ∧ (∀ j, j ≠ k → j ≠ e2.reserved → genOf t j = genOf s j)
      ∧ tableGet t.waits w1 = none ∧ tableGet t.waits w2 = none
      ∧ (∀ j, j ≠ w1 → j ≠ w2 → tableGet t.waits j = tableGet s.waits j)
      ∧ t.agent a = { s.agent a with leases := (s.agent a).leases.erase ⟨k, r.gen⟩,
                                     tags := (s.agent a).tags.set r.tag.val .replying r.tag.isLt }
      ∧ t.agent e1.agent = { s.agent e1.agent with
          leases := (s.agent e1.agent).leases ++ [h],
          tags := (s.agent e1.agent).tags.set e1.tag.val .replying e1.tag.isLt }
      ∧ t.agent e2.agent = { s.agent e2.agent with
          tags := (s.agent e2.agent).tags.set e2.tag.val .replying e2.tag.isLt }
      ∧ (∀ x, x ≠ a → x ≠ e1.agent → x ≠ e2.agent → t.agent x = s.agent x)
      ∧ MarksCompared s t [.lease k, .wait w1, .lease e1.reserved, .wait w2] ∧ CountsPublished s t
      ∧ RepliesHanded b t p
          [(a, replyTo a r .done
             { num := r.leaseNum, gen := r.gen, mode := BitVec.ofNat 8 (modeCode l.mode), token := l.token }),
           (e1.agent, answerTo e1.agent e1.tag 2#8 .granted
             { num := BitVec.ofNat 16 e1.reserved, gen := genOf s e1.reserved, mode := 1#8, token := t.token,
               ticks := BitVec.ofNat 16 dur }),
           (e2.agent, answerTo e2.agent e2.tag 2#8 .halted {})])
  ∧ ∀ (s : State) (p : Port) (r : Request) (l lu : Lease) (rec : LockRecord) (u : Upgrade), tablesOk s = true →
    Admitted s p r .release → s.part = .running → fenceJobPresent s (senderOf p r) = false →
    liveLease s r.leaseNum.toNat r.gen = some l → l.agent = senderOf p r → tableGet s.records l.record = some rec →
    rec.slot = some u → rec.holders.erase ⟨r.leaseNum.toNat, r.gen⟩ = [u.lease] → u.lease.num ≠ r.leaseNum.toNat →
    leaseAt s u.lease.num = some lu → lu.agent ≠ senderOf p r → rec.queue = [] → s.token = 0xFFFFFFFFFFFFFFFF#64 →
    let a := senderOf p r
    let b := beginRequest p r s
    let k := r.leaseNum.toNat
    ∃ t, exec .release s = .next t
      ∧ t = { b with agents := t.agents, ports := t.ports, records := t.records, leases := t.leases, gens := t.gens,
                     marks := t.marks, pools := t.pools, offered := t.offered,
                     freeDraws := t.freeDraws } ∧ OfferStands b t
      ∧ tableGet t.records l.record = some { rec with slot := none, holders := [u.lease] }
      ∧ (∀ j, j ≠ l.record → tableGet t.records j = tableGet s.records j)
      ∧ tableGet t.leases k = none ∧ (∀ j, j ≠ k → tableGet t.leases j = tableGet s.leases j)
      ∧ genOf t k = genOf s k + 1#8 ∧ (∀ j, j ≠ k → genOf t j = genOf s j)
      ∧ t.agent a = { s.agent a with leases := (s.agent a).leases.erase ⟨k, r.gen⟩,
                                     tags := (s.agent a).tags.set r.tag.val .replying r.tag.isLt }
      ∧ t.agent lu.agent = { s.agent lu.agent with
          tags := (s.agent lu.agent).tags.set u.tag.val .replying u.tag.isLt }
      ∧ (∀ x, x ≠ a → x ≠ lu.agent → t.agent x = s.agent x)
      ∧ MarksCompared s t [.lease k, .upgrade l.record] ∧ CountsPublished s t
      ∧ RepliesHanded b t p
          [(a, replyTo a r .done
             { num := r.leaseNum, gen := r.gen, mode := BitVec.ofNat 8 (modeCode l.mode), token := l.token }),
           (lu.agent, answerTo lu.agent u.tag 6#8 .halted
             { num := BitVec.ofNat 16 u.lease.num, gen := u.lease.gen })]

/-- RELEASE by the only holder of a record with no waiter and no upgrade: the lease ends, its entry is free with the
next generation, the record is retired, and DONE. Before a reply a port that holds a notice may go on by itself (R157;
when, in the model: log entry 3). -/
def Obligations.ReleaseRetiresTheRecord : Prop :=
  ∀ (s : State) (p : Port) (r : Request) (l : Lease) (rec : LockRecord), tablesOk s = true → Admitted s p r .release →
    s.part = .running → fenceJobPresent s (senderOf p r) = false →
    liveLease s r.leaseNum.toNat r.gen = some l → l.agent = senderOf p r → tableGet s.records l.record = some rec →
    rec.holders = [⟨r.leaseNum.toNat, r.gen⟩] → rec.queue = [] → rec.slot = none →
    let a := senderOf p r
    let b := beginRequest p r s
    let k := r.leaseNum.toNat
    let h : Handle := ⟨k, r.gen⟩
    ∃ t, exec .release s = .next t
      ∧ t = { b with agents := t.agents, ports := t.ports, records := t.records, leases := t.leases, gens := t.gens,
                     marks := t.marks, pools := t.pools, offered := t.offered,
                     freeDraws := t.freeDraws } ∧ OfferStands b t
      ∧ tableGet t.records l.record = none
      ∧ (∀ j, j ≠ l.record → tableGet t.records j = tableGet s.records j)
      ∧ tableGet t.leases k = none ∧ (∀ j, j ≠ k → tableGet t.leases j = tableGet s.leases j)
      ∧ genOf t k = genOf s k + 1#8 ∧ (∀ j, j ≠ k → genOf t j = genOf s j)
      ∧ t.agent a = { s.agent a with leases := (s.agent a).leases.erase h,
                                     tags := (s.agent a).tags.set r.tag.val .replying r.tag.isLt }
      ∧ (∀ x, x ≠ a → t.agent x = s.agent x)
      ∧ MarksCompared s t [.lease k] ∧ CountsPublished s t
      ∧ RepliesHanded b t p [(a, replyTo a r .done
          { num := r.leaseNum, gen := r.gen, mode := BitVec.ofNat 8 (modeCode l.mode), token := l.token })]

/-- RELEASE of the last lease of a QUIESCING part: once the quiesce job has ended the part becomes HALTED, with
PART_STATE set and no offer standing; while the job is listed it stays QUIESCING. Before a reply a port that holds a
notice may go on by itself (R157; when, in the model: log entry 3). -/
def Obligations.LastReleaseHaltsAQuiescedPart : Prop :=
  ∀ (s : State) (p : Port) (r : Request) (l : Lease) (rec : LockRecord), tablesOk s = true → Admitted s p r .release →
    s.part = .quiescing → s.sweep.any (isFenceJobOf (senderOf p r)) = false →
    s.leases = [(r.leaseNum.toNat, .inUse l)] → genOf s r.leaseNum.toNat = r.gen → l.agent = senderOf p r →
    tableGet s.records l.record = some rec → rec.holders = [⟨r.leaseNum.toNat, r.gen⟩] → rec.queue = [] →
    rec.slot = none →
    let a := senderOf p r
    let b := beginRequest p r s
    let k := r.leaseNum.toNat
    let ended := s.sweep.any isQuiesceJob = false
    ∃ t, exec .release s = .next t
      ∧ t = { b with agents := t.agents, ports := t.ports, records := t.records, leases := [], gens := t.gens,
                     marks := t.marks, pools := t.pools, part := if ended then .halted else .quiescing,
                     events := if ended then s.events ||| 8#32 else s.events, offered := t.offered,
                     freeDraws := t.freeDraws }
      ∧ (ended → t.offered = none) ∧ (¬ ended → OfferStands b t)
      ∧ tableGet t.records l.record = none
      ∧ (∀ j, j ≠ l.record → tableGet t.records j = tableGet s.records j)
      ∧ genOf t k = r.gen + 1#8 ∧ (∀ j, j ≠ k → genOf t j = genOf s j)
      ∧ t.agent a = { s.agent a with leases := (s.agent a).leases.erase ⟨k, r.gen⟩,
                                     tags := (s.agent a).tags.set r.tag.val .replying r.tag.isLt }
      ∧ (∀ x, x ≠ a → t.agent x = s.agent x)
      ∧ MarksCompared s t [.lease k] ∧ CountsPublished s t
      ∧ RepliesHanded b t p [(a, replyTo a r .done
          { num := r.leaseNum, gen := r.gen, mode := BitVec.ofNat 8 (modeCode l.mode), token := l.token })]

/-- RELEASE and the grant evaluation after it. By the only holder of a record whose queue head wants X: the head's
reserved entry becomes its lease with the next token, no one behind it is granted, and both replies are placed, DONE
first. By the only holder of a record whose two first heads want S, with an X head or none behind them: both are
granted, in queue order, each with a token of its own, and the record is SHARED. By the only holder but the one whose
upgrade is in the slot: the upgrade is granted, with its deadlines kept, and no waiter is. Before a reply a port that
holds a notice may go on by itself (R157; when, in the model: log entry 3). -/
def Obligations.ReleaseHandsOverToTheQueueHead : Prop :=
  (∀ (s : State) (p : Port) (r : Request) (l : Lease) (rec : LockRecord) (w : Nat) (rest : List Nat) (e : WaitEntry),
    tablesOk s = true → Admitted s p r .release → s.part = .running → fenceJobPresent s (senderOf p r) = false →
    liveLease s r.leaseNum.toNat r.gen = some l → l.agent = senderOf p r → tableGet s.records l.record = some rec →
    rec.holders = [⟨r.leaseNum.toNat, r.gen⟩] → rec.queue = w :: rest → rec.slot = none →
    tableGet s.waits w = some e → e.record = l.record → e.mode = .exclusive → e.agent ≠ senderOf p r →
    tableGet s.leases e.reserved = some (.reserved e.agent w) → grantLeft s →
    let a := senderOf p r
    let b := beginRequest p r s
    let k := r.leaseNum.toNat
    let h : Handle := ⟨e.reserved, genOf s e.reserved⟩
    let dur := if e.leaseTicks = 0 then (s.domain rec.domain).leaseDefault.toNat
      else min e.leaseTicks (s.domain rec.domain).leaseMax.toNat
    let done := replyTo a r .done
      { num := r.leaseNum, gen := r.gen, mode := BitVec.ofNat 8 (modeCode l.mode), token := l.token }
    ∃ t, exec .release s = .next t
      ∧ t = { b with agents := t.agents, ports := t.ports, records := t.records, leases := t.leases, gens := t.gens,
                     waits := t.waits, token := t.token, marks := t.marks, pools := t.pools, offered := t.offered,
                     freeDraws := t.freeDraws }
      ∧ OfferStands b t ∧ t.token.toNat = s.token.toNat + 1
      ∧ tableGet t.records l.record = some { rec with mode := .exclusive, holders := [h], queue := rest,
                                                      lastToken := t.token }
      ∧ (∀ j, j ≠ l.record → tableGet t.records j = tableGet s.records j)
      ∧ tableGet t.leases k = none
      ∧ leaseAt t e.reserved = some ⟨e.agent, l.record, .exclusive, t.token, dur, s.now + dur⟩
      ∧ (∀ j, j ≠ k → j ≠ e.reserved → tableGet t.leases j = tableGet s.leases j)
      ∧ genOf t k = genOf s k + 1#8 ∧ (∀ j, j ≠ k → genOf t j = genOf s j)
      ∧ tableGet t.waits w = none ∧ (∀ j, j ≠ w → tableGet t.waits j = tableGet s.waits j)
      ∧ t.agent a = { s.agent a with leases := (s.agent a).leases.erase ⟨k, r.gen⟩,
                                     tags := (s.agent a).tags.set r.tag.val .replying r.tag.isLt }
      ∧ t.agent e.agent = { s.agent e.agent with leases := (s.agent e.agent).leases ++ [h],
                                                 tags := (s.agent e.agent).tags.set e.tag.val .replying e.tag.isLt }
      ∧ (∀ x, x ≠ a → x ≠ e.agent → t.agent x = s.agent x)
      ∧ MarksCompared s t [.lease k, .wait w, .lease e.reserved] ∧ CountsPublished s t
      ∧ RepliesHanded b t p
          [(a, done),
           (e.agent, answerTo e.agent e.tag 2#8 .granted
             { num := BitVec.ofNat 16 e.reserved, gen := genOf s e.reserved, mode := 2#8, token := t.token,
               ticks := BitVec.ofNat 16 dur })])
  ∧ (∀ (s : State) (p : Port) (r : Request) (l : Lease) (rec : LockRecord) (w1 w2 : Nat) (rest : List Nat)
    (e1 e2 : WaitEntry), tablesOk s = true → Admitted s p r .release → s.part = .running →
    fenceJobPresent s (senderOf p r) = false → liveLease s r.leaseNum.toNat r.gen = some l → l.agent = senderOf p r →
    tableGet s.records l.record = some rec → rec.holders = [⟨r.leaseNum.toNat, r.gen⟩] →
    rec.queue = w1 :: w2 :: rest → rec.slot = none → w1 ≠ w2 →
    tableGet s.waits w1 = some e1 → e1.record = l.record → e1.mode = .shared → e1.agent ≠ senderOf p r →
    tableGet s.leases e1.reserved = some (.reserved e1.agent w1) →
    tableGet s.waits w2 = some e2 → e2.record = l.record → e2.mode = .shared → e2.agent ≠ senderOf p r →
    tableGet s.leases e2.reserved = some (.reserved e2.agent w2) → e1.agent ≠ e2.agent →
    (∀ w3 e3, rest.head? = some w3 → tableGet s.waits w3 = some e3 → e3.mode = .exclusive) →
    s.token.toNat + 2 < 18446744073709551615 →
    let a := senderOf p r
    let b := beginRequest p r s
    let k := r.leaseNum.toNat
    let h1 : Handle := ⟨e1.reserved, genOf s e1.reserved⟩
    let h2 : Handle := ⟨e2.reserved, genOf s e2.reserved⟩
    let ticks := fun n : Nat => if n = 0 then (s.domain rec.domain).leaseDefault.toNat
      else min n (s.domain rec.domain).leaseMax.toNat
    let granted := fun (e : WaitEntry) (token : Token) => (e.agent, answerTo e.agent e.tag 2#8 .granted
      { num := BitVec.ofNat 16 e.reserved, gen := genOf s e.reserved, mode := 1#8, token := token,
        ticks := BitVec.ofNat 16 (ticks e.leaseTicks) })
    ∃ t, exec .release s = .next t
      ∧ t = { b with agents := t.agents, ports := t.ports, records := t.records, leases := t.leases, gens := t.gens,
                     waits := t.waits, token := t.token, marks := t.marks, pools := t.pools, offered := t.offered,
                     freeDraws := t.freeDraws }
      ∧ OfferStands b t ∧ t.token.toNat = s.token.toNat + 2
      ∧ tableGet t.records l.record = some { rec with mode := .shared, holders := [h1, h2], queue := rest,
                                                      lastToken := t.token }
      ∧ (∀ j, j ≠ l.record → tableGet t.records j = tableGet s.records j)
      ∧ tableGet t.leases k = none
      ∧ leaseAt t e1.reserved
          = some ⟨e1.agent, l.record, .shared, s.token + 1#64, ticks e1.leaseTicks, s.now + ticks e1.leaseTicks⟩
      ∧ leaseAt t e2.reserved
          = some ⟨e2.agent, l.record, .shared, s.token + 2#64, ticks e2.leaseTicks, s.now + ticks e2.leaseTicks⟩
      ∧ (∀ j, j ≠ k → j ≠ e1.reserved → j ≠ e2.reserved → tableGet t.leases j = tableGet s.leases j)
      ∧ genOf t k = genOf s k + 1#8 ∧ (∀ j, j ≠ k → genOf t j = genOf s j)
      ∧ tableGet t.waits w1 = none ∧ tableGet t.waits w2 = none
      ∧ (∀ j, j ≠ w1 → j ≠ w2 → tableGet t.waits j = tableGet s.waits j)
      ∧ t.agent a = { s.agent a with leases := (s.agent a).leases.erase ⟨k, r.gen⟩,
                                     tags := (s.agent a).tags.set r.tag.val .replying r.tag.isLt }
      ∧ t.agent e1.agent = { s.agent e1.agent with
          leases := (s.agent e1.agent).leases ++ [h1],
          tags := (s.agent e1.agent).tags.set e1.tag.val .replying e1.tag.isLt }
      ∧ t.agent e2.agent = { s.agent e2.agent with
          leases := (s.agent e2.agent).leases ++ [h2],
          tags := (s.agent e2.agent).tags.set e2.tag.val .replying e2.tag.isLt }
      ∧ (∀ x, x ≠ a → x ≠ e1.agent → x ≠ e2.agent → t.agent x = s.agent x)
      ∧ MarksCompared s t [.lease k, .wait w1, .lease e1.reserved, .wait w2, .lease e2.reserved] ∧ CountsPublished s t
      ∧ RepliesHanded b t p
          [(a, replyTo a r .done
             { num := r.leaseNum, gen := r.gen, mode := BitVec.ofNat 8 (modeCode l.mode), token := l.token }),
           granted e1 (s.token + 1#64), granted e2 (s.token + 2#64)])
  ∧ ∀ (s : State) (p : Port) (r : Request) (l lu : Lease) (rec : LockRecord) (u : Upgrade), tablesOk s = true →
    Admitted s p r .release → s.part = .running → fenceJobPresent s (senderOf p r) = false →
    liveLease s r.leaseNum.toNat r.gen = some l → l.agent = senderOf p r → tableGet s.records l.record = some rec →
    rec.slot = some u → rec.holders.erase ⟨r.leaseNum.toNat, r.gen⟩ = [u.lease] → u.lease.num ≠ r.leaseNum.toNat →
    leaseAt s u.lease.num = some lu → lu.agent ≠ senderOf p r → grantLeft s →
    let a := senderOf p r
    let b := beginRequest p r s
    let k := r.leaseNum.toNat
    ∃ t, exec .release s = .next t
      ∧ t = { b with agents := t.agents, ports := t.ports, records := t.records, leases := t.leases, gens := t.gens,
                     token := t.token, marks := t.marks, pools := t.pools, offered := t.offered,
                     freeDraws := t.freeDraws }
      ∧ OfferStands b t ∧ t.token.toNat = s.token.toNat + 1
      ∧ tableGet t.records l.record = some { rec with mode := .exclusive, holders := [u.lease], slot := none,
                                                      lastToken := t.token }
      ∧ (∀ j, j ≠ l.record → tableGet t.records j = tableGet s.records j)
      ∧ tableGet t.leases k = none
      ∧ leaseAt t u.lease.num = some { lu with mode := .exclusive, token := t.token }
      ∧ (∀ j, j ≠ k → j ≠ u.lease.num → tableGet t.leases j = tableGet s.leases j)
      ∧ genOf t k = genOf s k + 1#8 ∧ (∀ j, j ≠ k → genOf t j = genOf s j)
      ∧ t.agent a = { s.agent a with leases := (s.agent a).leases.erase ⟨k, r.gen⟩,
                                     tags := (s.agent a).tags.set r.tag.val .replying r.tag.isLt }
      ∧ t.agent lu.agent = { s.agent lu.agent with
          tags := (s.agent lu.agent).tags.set u.tag.val .replying u.tag.isLt }
      ∧ (∀ x, x ≠ a → x ≠ lu.agent → t.agent x = s.agent x)
      ∧ MarksCompared s t [.lease k, .upgrade l.record] ∧ CountsPublished s t
      ∧ RepliesHanded b t p
          [(a, replyTo a r .done
             { num := r.leaseNum, gen := r.gen, mode := BitVec.ofNat 8 (modeCode l.mode), token := l.token }),
           (lu.agent, answerTo lu.agent u.tag 6#8 .granted
             { num := BitVec.ofNat 16 u.lease.num, gen := u.lease.gen, mode := 2#8, token := t.token,
               ticks := BitVec.ofNat 16 lu.duration })]

/-- UPGRADE by the only holder: the lease and its record become exclusive with the next token, the deadlines stay, and
GRANTED. Before a reply a port that holds a notice may go on by itself (R157; when, in the model: log entry 3). -/
def Obligations.UpgradeGrantsTheOnlyHolder : Prop :=
  ∀ (s : State) (p : Port) (r : Request) (l : Lease) (rec : LockRecord), tablesOk s = true → Admitted s p r .upgrade →
    liveLease s r.leaseNum.toNat r.gen = some l → l.agent = senderOf p r → l.mode = .shared →
    tableGet s.records l.record = some rec → (s.domain rec.domain).upgradeAllowed = true →
    rec.slot = none → rec.holders = [⟨r.leaseNum.toNat, r.gen⟩] → grantLeft s →
    let a := senderOf p r
    let b := beginRequest p r s
    let k := r.leaseNum.toNat
    ∃ t, exec .upgrade s = .next t
      ∧ t = { b with agents := t.agents, ports := t.ports, records := t.records, leases := t.leases, token := t.token,
                     offered := t.offered, freeDraws := t.freeDraws } ∧ OfferStands b t
      ∧ t.token.toNat = s.token.toNat + 1
      ∧ tableGet t.records l.record = some { rec with mode := .exclusive, lastToken := t.token }
      ∧ (∀ j, j ≠ l.record → tableGet t.records j = tableGet s.records j)
      ∧ leaseAt t k = some { l with mode := .exclusive, token := t.token }
      ∧ (∀ j, j ≠ k → tableGet t.leases j = tableGet s.leases j)
      ∧ TagMoves b t a r.tag .replying
      ∧ RepliesHanded b t p [(a, replyTo a r .granted
          { num := r.leaseNum, gen := r.gen, mode := 2#8, token := t.token, ticks := BitVec.ofNat 16 l.duration })]

/-- UPGRADE beside other holders, with wait ticks: it enters the slot with its deadline and its tag is UPGRADING; with
wait ticks 0 it is answered CONFLICT. Before a reply a port that holds a notice may go on by itself (R157; when, in the
model: log entry 3). -/
def Obligations.UpgradeWaitsInTheSlot : Prop :=
  ∀ (s : State) (p : Port) (r : Request) (l : Lease) (rec : LockRecord), tablesOk s = true → Admitted s p r .upgrade →
    liveLease s r.leaseNum.toNat r.gen = some l → l.agent = senderOf p r → l.mode = .shared →
    tableGet s.records l.record = some rec → (s.domain rec.domain).upgradeAllowed = true →
    rec.slot = none → rec.holders ≠ [⟨r.leaseNum.toNat, r.gen⟩] →
    let a := senderOf p r
    let b := beginRequest p r s
    let cap := (s.domain rec.domain).waitCap.toNat
    let due := if r.waitTicks.toNat = 65535 ∧ cap = 65535 then none else some (s.now + min r.waitTicks.toNat cap)
    let u : Upgrade := { lease := ⟨r.leaseNum.toNat, r.gen⟩, tag := r.tag, deadline := due }
    (r.waitTicks = 0#16 → ∃ t, exec .upgrade s = .next t ∧ AnsweredOnly s p r .conflict {} t)
    ∧ (r.waitTicks ≠ 0#16 → ∃ t, exec .upgrade s = .next t
      ∧ t = { b with agents := t.agents, records := t.records, marks := t.marks, offered := t.offered }
      ∧ OfferStands b t
      ∧ tableGet t.records l.record = some { rec with slot := some u }
      ∧ (∀ j, j ≠ l.record → tableGet t.records j = tableGet s.records j)
      ∧ TagMoves b t a r.tag .upgrading ∧ MarksCompared s t [.upgrade l.record])

/-- An upgrade that leaves its slot without a grant, on a record with no waiter: CANCEL answers its tag CANCELLED and
then the CANCEL DONE, and its lease stays S; RELEASE of its own lease answers CANCELLED and then the RELEASE DONE, and
the lease ends while the other holders stay. Before a reply a port that holds a notice may go on by itself (R157; when,
in the model: log entry 3). -/
def Obligations.UpgradeLeavesTheSlot : Prop :=
  (∀ (s : State) (p : Port) (r : Request) (n : Nat) (rec : LockRecord) (u : Upgrade), tablesOk s = true →
    Admitted s p r .cancel → s.part = .running → s.tag (senderOf p r) (targetTag r) = .upgrading →
    upgradeOfTag s (senderOf p r) (targetTag r) = some n → tableGet s.records n = some rec → rec.slot = some u →
    rec.queue = [] → rec.holders ≠ [] →
    let a := senderOf p r
    let b := beginRequest p r s
    let g := targetTag r
    ∃ t, exec .cancel s = .next t
      ∧ t = { b with agents := t.agents, ports := t.ports, records := t.records, marks := t.marks,
                     offered := t.offered, freeDraws := t.freeDraws } ∧ OfferStands b t
      ∧ tableGet t.records n = some { rec with slot := none }
      ∧ (∀ j, j ≠ n → tableGet t.records j = tableGet s.records j)
      ∧ t.agent a = { s.agent a with
          tags := ((s.agent a).tags.set g.val .replying g.isLt).set r.tag.val .replying r.tag.isLt }
      ∧ (∀ x, x ≠ a → t.agent x = s.agent x) ∧ MarksCompared s t [.upgrade n]
      ∧ RepliesHanded b t p
          [(a, ⟨.tag a g, slotOf a, g, .cancelled, 6#8, { num := BitVec.ofNat 16 u.lease.num, gen := u.lease.gen }⟩),
           (a, replyTo a r .done {})])
  ∧ ∀ (s : State) (p : Port) (r : Request) (l : Lease) (rec : LockRecord) (u : Upgrade), tablesOk s = true →
    Admitted s p r .release → s.part = .running → fenceJobPresent s (senderOf p r) = false →
    liveLease s r.leaseNum.toNat r.gen = some l → l.agent = senderOf p r → tableGet s.records l.record = some rec →
    rec.slot = some u → u.lease = ⟨r.leaseNum.toNat, r.gen⟩ → rec.queue = [] → rec.holders.erase u.lease ≠ [] →
    let a := senderOf p r
    let b := beginRequest p r s
    let k := r.leaseNum.toNat
    ∃ t, exec .release s = .next t
      ∧ t = { b with agents := t.agents, ports := t.ports, records := t.records, leases := t.leases, gens := t.gens,
                     marks := t.marks, pools := t.pools, offered := t.offered,
                     freeDraws := t.freeDraws } ∧ OfferStands b t
      ∧ tableGet t.records l.record = some { rec with slot := none, holders := rec.holders.erase u.lease }
      ∧ (∀ j, j ≠ l.record → tableGet t.records j = tableGet s.records j)
      ∧ tableGet t.leases k = none ∧ (∀ j, j ≠ k → tableGet t.leases j = tableGet s.leases j)
      ∧ genOf t k = genOf s k + 1#8 ∧ (∀ j, j ≠ k → genOf t j = genOf s j)
      ∧ t.agent a = { s.agent a with
          leases := (s.agent a).leases.erase u.lease,
          tags := ((s.agent a).tags.set u.tag.val .replying u.tag.isLt).set r.tag.val .replying r.tag.isLt }
      ∧ (∀ x, x ≠ a → t.agent x = s.agent x)
      ∧ MarksCompared s t [.upgrade l.record, .lease k] ∧ CountsPublished s t
      ∧ RepliesHanded b t p
          [(a, ⟨.tag a u.tag, slotOf a, u.tag, .cancelled, 6#8, { num := BitVec.ofNat 16 u.lease.num, gen := u.lease.gen }⟩),
           (a, replyTo a r .done
             { num := r.leaseNum, gen := r.gen, mode := BitVec.ofNat 8 (modeCode l.mode), token := l.token })]

/-- UPGRADE's refusals, in their order: NOT_SHARED, DENIED where the domain allows no upgrade, ALREADY_WAITING where
this lease is in the slot, DEADLOCK where another is. Before a reply a port that holds a notice may go on by itself
(R157; when, in the model: log entry 3). -/
def Obligations.UpgradeRefusals : Prop :=
  ∀ (s : State) (p : Port) (r : Request) (l : Lease) (rec : LockRecord), Admitted s p r .upgrade →
    liveLease s r.leaseNum.toNat r.gen = some l → l.agent = senderOf p r → tableGet s.records l.record = some rec →
    let answered := fun st => ∃ t, exec .upgrade s = .next t ∧ AnsweredOnly s p r st {} t
    (l.mode = .exclusive → answered .notShared)
    ∧ (l.mode = .shared → (s.domain rec.domain).upgradeAllowed = false → answered .denied)
    ∧ ∀ u, l.mode = .shared → (s.domain rec.domain).upgradeAllowed = true → rec.slot = some u →
        (u.lease = ⟨r.leaseNum.toNat, r.gen⟩ → answered .alreadyWaiting)
        ∧ (u.lease ≠ ⟨r.leaseNum.toNat, r.gen⟩ → answered .deadlock)

/-- DOWNGRADE of an X lease: the lease and its record become SHARED with token and deadlines kept, and DONE. With no
one queued nothing else changes; a queue head that wants S, with an X head or none behind it, is granted with the next
token, after the DONE. NOT_EXCLUSIVE for an S lease, DENIED in a domain that allows X alone. Before a reply a port that
holds a notice may go on by itself (R157; when, in the model: log entry 3). -/
def Obligations.DowngradeSharesTheLock : Prop :=
  ∀ (s : State) (p : Port) (r : Request) (l : Lease) (rec : LockRecord), tablesOk s = true →
    Admitted s p r .downgrade → liveLease s r.leaseNum.toNat r.gen = some l → l.agent = senderOf p r →
    tableGet s.records l.record = some rec →
    let a := senderOf p r
    let b := beginRequest p r s
    let k := r.leaseNum.toNat
    (l.mode = .shared → ∃ t, exec .downgrade s = .next t ∧ AnsweredOnly s p r .notExclusive {} t)
    ∧ (l.mode = .exclusive → (s.domain rec.domain).modes = 1#2 →
        ∃ t, exec .downgrade s = .next t ∧ AnsweredOnly s p r .denied {} t)
    ∧ (l.mode = .exclusive → (s.domain rec.domain).modes ≠ 1#2 → rec.holders ≠ [] → rec.queue = [] → rec.slot = none →
        ∃ t, exec .downgrade s = .next t
          ∧ t = { b with agents := t.agents, ports := t.ports, records := t.records, leases := t.leases,
                         offered := t.offered, freeDraws := t.freeDraws } ∧ OfferStands b t
          ∧ tableGet t.records l.record = some { rec with mode := .shared }
          ∧ (∀ j, j ≠ l.record → tableGet t.records j = tableGet s.records j)
          ∧ leaseAt t k = some { l with mode := .shared }
          ∧ (∀ j, j ≠ k → tableGet t.leases j = tableGet s.leases j)
          ∧ TagMoves b t a r.tag .replying
          ∧ RepliesHanded b t p [(a, replyTo a r .done
              { num := r.leaseNum, gen := r.gen, mode := 1#8, token := l.token })])
    ∧ ∀ (w : Nat) (rest : List Nat) (e : WaitEntry), l.mode = .exclusive → (s.domain rec.domain).modes ≠ 1#2 →
        s.part = .running → rec.holders ≠ [] → rec.queue = w :: rest → rec.slot = none → tableGet s.waits w = some e →
        e.record = l.record → e.mode = .shared → e.agent ≠ senderOf p r →
        tableGet s.leases e.reserved = some (.reserved e.agent w) →
        (∀ w2 e2, rest.head? = some w2 → tableGet s.waits w2 = some e2 → e2.mode = .exclusive) → grantLeft s →
        let h : Handle := ⟨e.reserved, genOf s e.reserved⟩
        let dur := if e.leaseTicks = 0 then (s.domain rec.domain).leaseDefault.toNat
          else min e.leaseTicks (s.domain rec.domain).leaseMax.toNat
        ∃ t, exec .downgrade s = .next t
          ∧ t = { b with agents := t.agents, ports := t.ports, records := t.records, leases := t.leases,
                         waits := t.waits, token := t.token, marks := t.marks, pools := t.pools, offered := t.offered,
                         freeDraws := t.freeDraws }
          ∧ OfferStands b t ∧ t.token.toNat = s.token.toNat + 1
          ∧ tableGet t.records l.record = some { rec with mode := .shared, holders := rec.holders ++ [h], queue := rest,
                                                          lastToken := t.token }
          ∧ (∀ j, j ≠ l.record → tableGet t.records j = tableGet s.records j)
          ∧ leaseAt t k = some { l with mode := .shared }
          ∧ leaseAt t e.reserved = some ⟨e.agent, l.record, .shared, t.token, dur, s.now + dur⟩
          ∧ (∀ j, j ≠ k → j ≠ e.reserved → tableGet t.leases j = tableGet s.leases j)
          ∧ tableGet t.waits w = none ∧ (∀ j, j ≠ w → tableGet t.waits j = tableGet s.waits j)
          ∧ t.agent a = { s.agent a with tags := (s.agent a).tags.set r.tag.val .replying r.tag.isLt }
          ∧ t.agent e.agent = { s.agent e.agent with
              leases := (s.agent e.agent).leases ++ [h],
              tags := (s.agent e.agent).tags.set e.tag.val .replying e.tag.isLt }
          ∧ (∀ x, x ≠ a → x ≠ e.agent → t.agent x = s.agent x)
          ∧ MarksCompared s t [.wait w, .lease e.reserved] ∧ CountsPublished s t
          ∧ RepliesHanded b t p
              [(a, replyTo a r .done { num := r.leaseNum, gen := r.gen, mode := 1#8, token := l.token }),
               (e.agent, answerTo e.agent e.tag 2#8 .granted
                 { num := BitVec.ofNat 16 e.reserved, gen := genOf s e.reserved, mode := 1#8, token := t.token,
                   ticks := BitVec.ofNat 16 dur })]

/-- CANCEL of a waiting tag, with no one else queued: the wait leaves its queue, its entry and its reserved lease entry
become free, its tag is answered CANCELLED and the CANCEL DONE; TOO_LATE for a REPLYING tag, NOT_WAITING for a FREE
one. Before a reply a port that holds a notice may go on by itself (R157; when, in the model: log entry 3). -/
def Obligations.CancelRemovesTheWait : Prop :=
  ∀ (s : State) (p : Port) (r : Request), tablesOk s = true → Admitted s p r .cancel →
    let a := senderOf p r
    let b := beginRequest p r s
    let g := targetTag r
    (s.tag a g = .replying → ∃ t, exec .cancel s = .next t ∧ AnsweredOnly s p r .tooLate {} t)
    ∧ (s.tag a g = .free → ∃ t, exec .cancel s = .next t ∧ AnsweredOnly s p r .notWaiting {} t)
    ∧ ∀ w e rec, s.part = .running → s.tag a g = .waiting → waitOfTag s a g = some (w, e) →
        tableGet s.records e.record = some rec → rec.queue = [w] → rec.slot = none → rec.holders ≠ [] →
        ∃ t, exec .cancel s = .next t
          ∧ t = { b with agents := t.agents, ports := t.ports, records := t.records, leases := t.leases,
                         gens := t.gens, waits := t.waits, marks := t.marks, pools := t.pools, offered := t.offered,
                         freeDraws := t.freeDraws }
          ∧ OfferStands b t
          ∧ tableGet t.records e.record = some { rec with queue := [] }
          ∧ (∀ j, j ≠ e.record → tableGet t.records j = tableGet s.records j)
          ∧ tableGet t.waits w = none ∧ (∀ j, j ≠ w → tableGet t.waits j = tableGet s.waits j)
          ∧ tableGet t.leases e.reserved = none
          ∧ (∀ j, j ≠ e.reserved → tableGet t.leases j = tableGet s.leases j)
          ∧ genOf t e.reserved = genOf s e.reserved + 1#8 ∧ (∀ j, j ≠ e.reserved → genOf t j = genOf s j)
          ∧ t.agent a = { s.agent a with
              tags := ((s.agent a).tags.set g.val .replying g.isLt).set r.tag.val .replying r.tag.isLt }
          ∧ (∀ x, x ≠ a → t.agent x = s.agent x)
          ∧ (∀ x, x ≠ .wait w → (x ∈ t.marks ↔ x ∈ s.marks)) ∧ .wait w ∉ t.marks ∧ CountsPublished s t
          ∧ RepliesHanded b t p
              [(a, ⟨.tag a g, slotOf a, g, .cancelled, 2#8, {}⟩), (a, replyTo a r .done {})]

/-! ### Timer items -/

/-- LEASE_EXPIRY of a lease whose deadline NOW has reached, the only holder of a record with no waiter and no
upgrade, where no fence follows: the lease is lost, its entry is free with the next generation, the record is
retired, the agent's notice takes up the loss, and no reply is placed. The model's reading (log entry 8): the offer
made at the take does not name the entry being taken. -/
def Obligations.LeaseExpiryLosesTheLease : Prop :=
  ∀ (s : State) (k : Nat) (l : Lease) (rec : LockRecord), tablesOk s = true → takenTimer s = some (.lease k) →
    leaseAt s k = some l → effectiveDeadline s l ≤ s.now → s.part = .running → (s.agent l.agent).state = .active →
    fenceJobPresent s l.agent = false → tableGet s.records l.record = some rec → rec.holders = [handleOf s k] →
    rec.queue = [] → rec.slot = none → (l.mode = .shared ∨ (s.domain rec.domain).policy ≠ 2#2) →
    let b := beginTake (takeOffer (.lease k)) s
    let sl := slotOf l.agent
    let q := s.port (portOf l.agent)
    ∃ t, exec .leaseExpiry s = .next t
      ∧ t = { b with agents := t.agents, ports := t.ports, records := t.records, leases := t.leases, gens := t.gens,
                     marks := t.marks, pools := t.pools, offered := t.offered } ∧ OfferStands b t
      ∧ tableGet t.records l.record = none
      ∧ (∀ j, j ≠ l.record → tableGet t.records j = tableGet s.records j)
      ∧ tableGet t.leases k = none ∧ (∀ j, j ≠ k → tableGet t.leases j = tableGet s.leases j)
      ∧ genOf t k = genOf s k + 1#8 ∧ (∀ j, j ≠ k → genOf t j = genOf s j)
      ∧ t.agent l.agent = { s.agent l.agent with leases := (s.agent l.agent).leases.erase (handleOf s k) }
      ∧ (∀ x, x ≠ l.agent → t.agent x = s.agent x)
      ∧ MarksCompared s t [.lease k] ∧ CountsPublished s t
      ∧ t.port (portOf l.agent) = { q with noticeQ := (t.port (portOf l.agent)).noticeQ }
      ∧ (q.link = .down → t.port (portOf l.agent) = q)
      ∧ (q.link ≠ .down → sl ∉ q.noticeQ.map noticeSlot →
          (t.port (portOf l.agent)).noticeQ = q.noticeQ ++ [.lost sl 1 (handleOf s k) .expired])
      ∧ (∀ pre post c h0 r0, q.link ≠ .down → q.noticeQ = pre ++ .lost sl c h0 r0 :: post →
          sl ∉ pre.map noticeSlot →
          (t.port (portOf l.agent)).noticeQ = pre ++ .lost sl (min (c + 1) 1024) (handleOf s k) .expired :: post)
      ∧ ∀ x, x ≠ portOf l.agent → t.port x = s.port x

/-- LEASE_EXPIRY of an X lease in a domain of expiry policy FENCE fences its ACTIVE agent, here one with no wait and
no upgrade: FENCED if it holds no other lease, else FENCING with a fence job at the tail of the sweep list; AUTO_FENCE is
set. Its notice takes up the loss and then becomes a FENCE notice with its epoch, by the tables of R44 and R45, which the
last clauses spell out; between the two the port may have gone on by some number of its transmitter's own acts, so that
the LOST notice may have left. The model's readings: the offer made at the take does not name the entry being taken (log
entry 8), and the number of acts is a free value, the count of whose draws rises by one (log entry 3). -/
def Obligations.LeaseExpiryFencesTheAgent : Prop :=
  (∀ (s : State) (k : Nat) (l : Lease) (rec : LockRecord) (others : List Handle), tablesOk s = true →
    takenTimer s = some (.lease k) → leaseAt s k = some l → effectiveDeadline s l ≤ s.now → s.part = .running →
    (s.agent l.agent).state = .active → fenceJobPresent s l.agent = false →
    tableGet s.records l.record = some rec → rec.holders = [handleOf s k] → rec.queue = [] → rec.slot = none →
    l.mode = .exclusive → (s.domain rec.domain).policy = 2#2 → (s.agent l.agent).leases = handleOf s k :: others →
    (∀ g, s.tag l.agent g = .free ∨ s.tag l.agent g = .replying) →
    let b := beginTake (takeOffer (.lease k)) s
    let sl := slotOf l.agent
    let q := s.port (portOf l.agent)
    ∃ t, exec .leaseExpiry s = .next t
      ∧ t = { b with agents := t.agents, ports := t.ports, records := t.records, leases := t.leases, gens := t.gens,
                     marks := t.marks, pools := t.pools, offered := t.offered, sweep := t.sweep, events := t.events,
                     freeDraws := t.freeDraws }
      ∧ OfferStands b t ∧ tableGet t.records l.record = none ∧ tableGet t.leases k = none
      ∧ (∀ j, j ≠ l.record → tableGet t.records j = tableGet s.records j)
      ∧ (∀ j, j ≠ k → tableGet t.leases j = tableGet s.leases j)
      ∧ genOf t k = genOf s k + 1#8 ∧ (∀ j, j ≠ k → genOf t j = genOf s j)
      ∧ t.agent l.agent = { s.agent l.agent with leases := others,
                                                 state := if others = [] then .fenced else .fencing }
      ∧ (∀ x, x ≠ l.agent → t.agent x = s.agent x)
      ∧ t.sweep = (if others = [] then s.sweep else s.sweep ++ [.fence l.agent false])
      ∧ t.events = s.events ||| 0x10#32 ∧ MarksCompared s t [.lease k] ∧ CountsPublished s t
      ∧ (q.link = .down → t.port (portOf l.agent) = q ∧ t.freeDraws = s.freeDraws)
      ∧ (q.link ≠ .down → t.freeDraws = s.freeDraws + 1 ∧ ∃ n,
          let sent := transmitterSteps n { q with noticeQ := noticeLoss sl (handleOf s k) .expired q.noticeQ }
          t.port (portOf l.agent) = { sent with noticeQ := noticeFence sl (s.agent l.agent).epoch sent.noticeQ })
      ∧ ∀ x, x ≠ portOf l.agent → t.port x = s.port x)
  ∧ (∀ (sl : Slot) (h : Handle) (reason : LossReason) (epoch : BitVec 16) (l : List Notice),
    (sl ∉ l.map noticeSlot →
      noticeLoss sl h reason l = l ++ [.lost sl 1 h reason] ∧ noticeFence sl epoch l = l ++ [.fence sl epoch])
    ∧ (∀ pre post c h0 r0, l = pre ++ .lost sl c h0 r0 :: post → sl ∉ pre.map noticeSlot →
      noticeLoss sl h reason l = pre ++ .lost sl (min (c + 1) 1024) h reason :: post
        ∧ noticeFence sl epoch l = pre ++ .fence sl epoch :: post)
    ∧ ∀ pre post e0, l = pre ++ .fence sl e0 :: post → sl ∉ pre.map noticeSlot →
      noticeLoss sl h reason l = l ∧ noticeFence sl epoch l = pre ++ .fence sl epoch :: post)
  ∧ ∀ (s : State) (p : Port) (n : Nat), transmitterSteps 0 (s.port p) = s.port p
    ∧ ∃ t, exec (if (s.port p).tx = none then .transmitFrame p else .transmissionComplete p) s = .next t
      ∧ transmitterSteps (n + 1) (s.port p) = transmitterSteps n (t.port p)

/-- WAIT_TIMEOUT and UPGRADE_TIMEOUT of an entry whose deadline NOW has reached, on a record with holders and no one
else queued: the wait or upgrade leaves its record, its tag is answered TIMED_OUT, and nothing is granted. The
model's reading (log entry 8): the offer made at the take does not name the entry being taken. -/
def Obligations.TimeoutsAnswerTimedOut : Prop :=
  (∀ (s : State) (w d : Nat) (e : WaitEntry) (rec : LockRecord), tablesOk s = true → takenTimer s = some (.wait w) →
    s.part = .running → tableGet s.waits w = some e → e.deadline = some d → d ≤ s.now →
    tableGet s.records e.record = some rec → rec.queue = [w] → rec.slot = none → rec.holders ≠ [] →
    let b := beginTake (takeOffer (.wait w)) s
    ∃ t, exec .waitTimeout s = .next t
      ∧ t = { b with agents := t.agents, ports := t.ports, records := t.records, leases := t.leases, gens := t.gens,
                     waits := t.waits, marks := t.marks, pools := t.pools, offered := t.offered } ∧ OfferStands b t
      ∧ tableGet t.records e.record = some { rec with queue := [] }
      ∧ (∀ j, j ≠ e.record → tableGet t.records j = tableGet s.records j)
      ∧ tableGet t.waits w = none ∧ (∀ j, j ≠ w → tableGet t.waits j = tableGet s.waits j)
      ∧ tableGet t.leases e.reserved = none ∧ (∀ j, j ≠ e.reserved → tableGet t.leases j = tableGet s.leases j)
      ∧ genOf t e.reserved = genOf s e.reserved + 1#8 ∧ (∀ j, j ≠ e.reserved → genOf t j = genOf s j)
      ∧ TagMoves s t e.agent e.tag .replying
      ∧ .wait w ∉ t.marks ∧ (∀ x, x ≠ .wait w → (x ∈ t.marks ↔ x ∈ s.marks)) ∧ CountsPublished s t
      ∧ RepliesQueued s t (portOf e.agent) [⟨.tag e.agent e.tag, slotOf e.agent, e.tag, .timedOut, 2#8, {}⟩])
  ∧ ∀ (s : State) (n d : Nat) (rec : LockRecord) (u : Upgrade) (l : Lease), tablesOk s = true →
    takenTimer s = some (.upgrade n) → s.part = .running → tableGet s.records n = some rec → rec.slot = some u →
    u.deadline = some d → d ≤ s.now → leaseAt s u.lease.num = some l → rec.queue = [] → rec.holders ≠ [] →
    let b := beginTake (takeOffer (.upgrade n)) s
    ∃ t, exec .upgradeTimeout s = .next t
      ∧ t = { b with agents := t.agents, ports := t.ports, records := t.records, marks := t.marks,
                     offered := t.offered } ∧ OfferStands b t
      ∧ tableGet t.records n = some { rec with slot := none }
      ∧ (∀ j, j ≠ n → tableGet t.records j = tableGet s.records j)
      ∧ TagMoves s t l.agent u.tag .replying ∧ MarksCompared s t [.upgrade n]
      ∧ RepliesQueued s t (portOf l.agent)
          [⟨.tag l.agent u.tag, slotOf l.agent, u.tag, .timedOut, 6#8,
            { num := BitVec.ofNat 16 u.lease.num, gen := u.lease.gen }⟩]

/-- A TIMER item whose entry is gone, watches nothing, or has a deadline later than NOW is dropped: it uses its turn
and clears the offer, and nothing else changes. The model's reading (log entry 8): the offer made at the take does
not name the entry being taken. -/
def Obligations.MovedDeadlinesAreDropped : Prop :=
  ∀ (s : State) (e : TimedEntry), takenTimer s = some e → isDue s e = false →
    let b := beginTake (takeOffer e) s
    ∃ t, exec (match e with
        | .lease _ => .leaseExpiry
        | .wait _ => .waitTimeout
        | .upgrade _ => .upgradeTimeout) s = .next t
      ∧ t = { b with offered := t.offered } ∧ b.ports = s.ports ∧ b.marks = s.marks ∧ OfferStands b t

/-! ### Sweep items, withdrawals and reports -/

/-- FENCE_STEP releases the fenced agent's oldest lease, on a record with no waiter and no upgrade, with no reply and no
notice; the record keeps its other holders, and is retired where there is none; when the lease list is then empty the job
ends, the agent is FENCED, and an attached FENCE completes OK with the epoch; else the job stays for its next step. -/
def Obligations.FenceStepReleasesTheOldestLease : Prop :=
  ∀ (s : State) (a : Agent) (att : Bool) (jobs : List Job) (h : Handle) (others : List Handle) (l : Lease)
    (rec : LockRecord), tablesOk s = true → takenJob s = some (.fence a att) → s.sweep = .fence a att :: jobs →
    jobs.any (isFenceJobOf a) = false → s.part = .running → (s.agent a).leases = h :: others →
    leaseAt s h.num = some l → l.agent = a → handleOf s h.num = h → tableGet s.records l.record = some rec →
    rec.queue = [] → rec.slot = none →
    let b := beginTake id s
    ∃ t, exec .fenceStep s = .next t
      ∧ t = { b with agents := t.agents, records := t.records, leases := t.leases, gens := t.gens, marks := t.marks,
                     pools := t.pools, sweep := t.sweep, mbox := t.mbox, res := t.res, events := t.events,
                     offered := t.offered } ∧ t.ports = s.ports ∧ OfferStands b t
      ∧ tableGet t.records l.record = (if rec.holders.erase h = [] then none
          else some { rec with holders := rec.holders.erase h })
      ∧ (∀ j, j ≠ l.record → tableGet t.records j = tableGet s.records j)
      ∧ tableGet t.leases h.num = none ∧ (∀ j, j ≠ h.num → tableGet t.leases j = tableGet s.leases j)
      ∧ genOf t h.num = genOf s h.num + 1#8 ∧ (∀ j, j ≠ h.num → genOf t j = genOf s j)
      ∧ t.agent a = { s.agent a with leases := others,
                                     state := if others = [] then .fenced else (s.agent a).state }
      ∧ (∀ x, x ≠ a → t.agent x = s.agent x) ∧ MarksCompared s t [.lease h.num] ∧ CountsPublished s t
      ∧ t.sweep = (if others = [] then jobs else s.sweep)
      ∧ (others = [] ∧ att = true → Completes s t .ok [BitVec.setWidth 32 (s.agent a).epoch])
      ∧ (¬ (others = [] ∧ att = true) → t.mbox = s.mbox ∧ t.res = s.res ∧ t.events = s.events)

/-- QUIESCE_STEP visits the lowest-numbered record from the job's next record number on. On the only record, with one
waiter: the wait is answered QUIESCED and its entries are free, the record keeps its holders, the job ends, and an attached
QUIESCE completes OK with QUIESCING and the lease pool count. On a record with an upgrade and no waiter, where a record
with a higher number exists: the upgrade is answered QUIESCED and leaves the slot with its lease kept S, and the job goes
on from the next number, its command still attached. -/
def Obligations.QuiesceStepAnswersTheWaiters : Prop :=
  (∀ (s : State) (n m w : Nat) (att : Bool) (rec : LockRecord) (e : WaitEntry), tablesOk s = true →
    takenJob s = some (.quiesce n att) → s.part = .quiescing → s.records = [(m, rec)] → n ≤ m → rec.queue = [w] →
    rec.slot = none → rec.holders ≠ [] → tableGet s.waits w = some e → e.record = m →
    tableGet s.leases e.reserved = some (.reserved e.agent w) → 2 ≤ s.leases.length →
    let b := beginTake id s
    ∃ t, exec .quiesceStep s = .next t
      ∧ t = { b with agents := t.agents, ports := t.ports, records := t.records, leases := t.leases, gens := t.gens,
                     waits := t.waits, marks := t.marks, pools := t.pools, sweep := t.sweep, mbox := t.mbox,
                     res := t.res, events := t.events, offered := t.offered } ∧ OfferStands b t
      ∧ t.records = [(m, { rec with queue := [] })]
      ∧ tableGet t.waits w = none ∧ (∀ j, j ≠ w → tableGet t.waits j = tableGet s.waits j)
      ∧ tableGet t.leases e.reserved = none ∧ (∀ j, j ≠ e.reserved → tableGet t.leases j = tableGet s.leases j)
      ∧ genOf t e.reserved = genOf s e.reserved + 1#8 ∧ (∀ j, j ≠ e.reserved → genOf t j = genOf s j)
      ∧ TagMoves s t e.agent e.tag .replying
      ∧ .wait w ∉ t.marks ∧ (∀ x, x ≠ .wait w → (x ∈ t.marks ↔ x ∈ s.marks)) ∧ CountsPublished s t
      ∧ RepliesQueued s t (portOf e.agent) [⟨.tag e.agent e.tag, slotOf e.agent, e.tag, .quiesced, 2#8, {}⟩]
      ∧ t.sweep = s.sweep.filter (fun j => !isQuiesceJob j)
      ∧ (att = true → Completes s t .ok [2#32, BitVec.ofNat 32 (s.leases.length - 1)])
      ∧ (att = false → t.mbox = s.mbox ∧ t.res = s.res ∧ t.events = s.events))
  ∧ ∀ (s : State) (n m : Nat) (att : Bool) (jobs : List Job) (rec : LockRecord) (u : Upgrade) (l : Lease),
    tablesOk s = true → takenJob s = some (.quiesce n att) → s.sweep = .quiesce n att :: jobs →
    jobs.any isQuiesceJob = false → s.part = .quiescing → tableGet s.records m = some rec → n ≤ m →
    (∀ x ∈ s.records, n ≤ x.1 → m ≤ x.1) → (∃ x ∈ s.records, m < x.1) → rec.queue = [] → rec.slot = some u →
    rec.holders ≠ [] → leaseAt s u.lease.num = some l →
    let b := beginTake id s
    ∃ t, exec .quiesceStep s = .next t
      ∧ t = { b with agents := t.agents, ports := t.ports, records := t.records, marks := t.marks,
                     sweep := .quiesce (m + 1) att :: jobs, offered := t.offered } ∧ OfferStands b t
      ∧ tableGet t.records m = some { rec with slot := none }
      ∧ (∀ j, j ≠ m → tableGet t.records j = tableGet s.records j)
      ∧ TagMoves s t l.agent u.tag .replying ∧ MarksCompared s t [.upgrade m]
      ∧ RepliesQueued s t (portOf l.agent)
          [answerTo l.agent u.tag 6#8 .quiesced { num := BitVec.ofNat 16 u.lease.num, gen := u.lease.gen }]

/-- ABORT_STEP drops the lowest-numbered record from the job's next record number on. On the last record: its holder is
lost ABORTED, with a notice for an ACTIVE agent and no reply; the record is gone, the sweep list empty, every FENCING agent
FENCED, no offer stands, the part is HALTED, and an attached ABORT completes OK. On a record with one waiter, of another
port than its holder, where a record with a higher number exists: the wait is answered HALTED and its entries are free, the
holder is lost ABORTED, the record is gone, and the job goes on from the next number, the part still ABORTING. -/
def Obligations.AbortStepEndsInHalted : Prop :=
  (∀ (s : State) (n m : Nat) (att : Bool) (rec : LockRecord) (h : Handle) (l : Lease), tablesOk s = true →
    takenJob s = some (.abort n att) → s.part = .aborting → s.records = [(m, rec)] → n ≤ m → rec.queue = [] →
    rec.slot = none → rec.holders = [h] → leaseAt s h.num = some l → l.record = m → handleOf s h.num = h →
    let b := beginTake id s
    let sl := slotOf l.agent
    let q := s.port (portOf l.agent)
    let stopped := { s with events := s.events ||| 8#32 }
    ∃ t, exec .abortStep s = .next t
      ∧ t = { b with agents := t.agents, ports := t.ports, records := [], leases := t.leases, gens := t.gens,
                     marks := t.marks, pools := t.pools, sweep := [], part := .halted, offered := none,
                     mbox := t.mbox, res := t.res, events := t.events }
      ∧ tableGet t.leases h.num = none ∧ (∀ j, j ≠ h.num → tableGet t.leases j = tableGet s.leases j)
      ∧ genOf t h.num = genOf s h.num + 1#8 ∧ (∀ j, j ≠ h.num → genOf t j = genOf s j)
      ∧ (∀ x, t.agent x = { s.agent x with
          leases := if x = l.agent then (s.agent x).leases.erase h else (s.agent x).leases,
          state := if (s.agent x).state = .fencing then .fenced else (s.agent x).state })
      ∧ MarksCompared s t [.lease h.num] ∧ CountsPublished s t
      ∧ t.port (portOf l.agent) = { q with noticeQ := (t.port (portOf l.agent)).noticeQ }
      ∧ (q.link = .down ∨ (s.agent l.agent).state ≠ .active → t.port (portOf l.agent) = q)
      ∧ (q.link ≠ .down → (s.agent l.agent).state = .active → sl ∉ q.noticeQ.map noticeSlot →
          (t.port (portOf l.agent)).noticeQ = q.noticeQ ++ [.lost sl 1 h .aborted])
      ∧ (∀ x, x ≠ portOf l.agent → t.port x = s.port x)
      ∧ (att = true → Completes stopped t .ok [0#32])
      ∧ (att = false → t.res = s.res ∧ t.events = stopped.events ∧
          t.mbox = if s.mbox.state = .pending ∧ s.mbox.code = 8#8 then { s.mbox with abortEnded := true } else s.mbox))
  ∧ ∀ (s : State) (n m w : Nat) (att : Bool) (rec : LockRecord) (h : Handle) (l : Lease) (e : WaitEntry),
    tablesOk s = true → takenJob s = some (.abort n att) → s.sweep = [.abort n att] → s.part = .aborting →
    tableGet s.records m = some rec → n ≤ m → (∀ x ∈ s.records, n ≤ x.1 → m ≤ x.1) → (∃ x ∈ s.records, m < x.1) →
    rec.queue = [w] → rec.slot = none → rec.holders = [h] → leaseAt s h.num = some l → l.record = m →
    handleOf s h.num = h → tableGet s.waits w = some e → e.record = m →
    tableGet s.leases e.reserved = some (.reserved e.agent w) → portOf e.agent ≠ portOf l.agent →
    let b := beginTake id s
    let sl := slotOf l.agent
    let q := s.port (portOf l.agent)
    let x := s.port (portOf e.agent)
    ∃ t, exec .abortStep s = .next t
      ∧ t = { b with agents := t.agents, ports := t.ports, records := t.records, leases := t.leases, gens := t.gens,
                     waits := t.waits, marks := t.marks, pools := t.pools, sweep := [.abort (m + 1) att] }
      ∧ tableGet t.records m = none ∧ (∀ j, j ≠ m → tableGet t.records j = tableGet s.records j)
      ∧ tableGet t.leases h.num = none ∧ tableGet t.leases e.reserved = none
      ∧ (∀ j, j ≠ h.num → j ≠ e.reserved → tableGet t.leases j = tableGet s.leases j)
      ∧ genOf t h.num = genOf s h.num + 1#8 ∧ genOf t e.reserved = genOf s e.reserved + 1#8
      ∧ (∀ j, j ≠ h.num → j ≠ e.reserved → genOf t j = genOf s j)
      ∧ tableGet t.waits w = none ∧ (∀ j, j ≠ w → tableGet t.waits j = tableGet s.waits j)
      ∧ t.agent l.agent = { s.agent l.agent with leases := (s.agent l.agent).leases.erase h }
      ∧ t.agent e.agent = { s.agent e.agent with
          tags := (s.agent e.agent).tags.set e.tag.val .replying e.tag.isLt }
      ∧ (∀ y, y ≠ l.agent → y ≠ e.agent → t.agent y = s.agent y)
      ∧ MarksCompared s t [.lease h.num, .wait w] ∧ CountsPublished s t
      ∧ t.port (portOf e.agent) = (if x.link = .down then x
          else { x with replyQ := x.replyQ ++ [answerTo e.agent e.tag 2#8 .halted {}] })
      ∧ t.port (portOf l.agent) = { q with noticeQ := (t.port (portOf l.agent)).noticeQ }
      ∧ (q.link = .down ∨ (s.agent l.agent).state ≠ .active → t.port (portOf l.agent) = q)
      ∧ (q.link ≠ .down → (s.agent l.agent).state = .active → sl ∉ q.noticeQ.map noticeSlot →
          (t.port (portOf l.agent)).noticeQ = q.noticeQ ++ [.lost sl 1 h .aborted])
      ∧ ∀ y, y ≠ portOf l.agent → y ≠ portOf e.agent → t.port y = s.port y

/-- WITHDRAW of a DOWN port: every tag of its agents is FREE, their states, epochs, quotas, keepalive ticks and lease
lists stay, and their leases stay as they are; its hold is clear, and it trains at once, with LINK_CHANGE, if it is
enabled and sees a signal. Another port gains replies and nothing else changes in it; another agent gains leases, and
its tags move with its answers; a lease of another agent changes at most by an upgrade's grant. Unless a grant reaches
the token end, SEEDED, the jobs and the mailbox stay, and the part state too where the part is not QUIESCING. It
removes the wait of an agent of its port, here the only waiter of a record with holders: no reply is placed, the wait
entry and its reserved lease entry are free, and the record keeps its holders. It removes the upgrade of an agent of
its port in the same way, here on the only record, with no waiter: the lease stays S. Before a reply a port that holds
a notice may go on by itself (R157; when, in the model: log entry 3). -/
def Obligations.WithdrawFreesTagsAndWaits : Prop :=
  (∀ (s : State) (p : Port), takenWithdrawal s = some p → (s.port p).link = .down →
    let b := beginWithdraw p s
    let trains := (s.port p).enable = true ∧ (s.port p).signal = true
    ∃ t, exec .withdraw s = .next t
      ∧ t = { b with agents := t.agents, ports := t.ports, records := t.records, leases := t.leases, gens := t.gens,
                     waits := t.waits, token := t.token, seeded := t.seeded, marks := t.marks, pools := t.pools,
                     part := t.part, sweep := t.sweep, mbox := t.mbox, events := t.events, offered := t.offered,
                     freeDraws := t.freeDraws }
      ∧ (∀ sl : Slot, t.agent (agentOf p sl) = { s.agent (agentOf p sl) with tags := Vector.replicate 16 .free })
      ∧ (∀ (sl : Slot) (g : Tag), t.tag (agentOf p sl) g = .free)
      ∧ (∀ a : Agent, t.agent a = { s.agent a with leases := (t.agent a).leases, tags := (t.agent a).tags }
          ∧ ∃ gained, (t.agent a).leases = (s.agent a).leases ++ gained)
      ∧ (tablesOk s = true → ∀ k l, leaseAt s k = some l → (∀ w e, tableGet s.waits w = some e → e.reserved ≠ k) →
          ∃ m token, leaseAt t k = some { l with mode := m, token := token } ∧ genOf t k = genOf s k
            ∧ (portOf l.agent = p → m = l.mode ∧ token = l.token))
      ∧ t.port p = (if trains then
          { s.port p with heldDown := false, withdrawPending := false, link := .training, tx := some .train }
        else { s.port p with heldDown := false, withdrawPending := false })
      ∧ (∀ q, q ≠ p → if (s.port q).link = .down then t.port q = s.port q
          else ∃ gained, RepliesTaken false (s.port q) gained (t.port q))
      ∧ (t.events.getLsbD (8 + p.val) = (s.events.getLsbD (8 + p.val) || decide trains))
      ∧ (∀ i, i ≠ 2 → i ≠ 3 → i ≠ 5 → i ≠ 8 + p.val → t.events.getLsbD i = s.events.getLsbD i)
      ∧ (s.token = t.token ∨ t.token ≠ 0xFFFFFFFFFFFFFFFF#64 →
          t.seeded = s.seeded ∧ t.sweep = s.sweep ∧ t.mbox = s.mbox ∧ (s.part ≠ .quiescing → t.part = s.part)))
  ∧ (∀ (s : State) (p : Port) (n w : Nat) (rec : LockRecord) (e : WaitEntry), tablesOk s = true →
    takenWithdrawal s = some p → s.part = .running → s.records = [(n, rec)] → rec.queue = [w] → rec.slot = none →
    rec.holders ≠ [] → tableGet s.waits w = some e → e.record = n → portOf e.agent = p →
    ∃ t, exec .withdraw s = .next t ∧ t.records = [(n, { rec with queue := [] })]
      ∧ tableGet t.waits w = none ∧ (∀ j, j ≠ w → tableGet t.waits j = tableGet s.waits j)
      ∧ tableGet t.leases e.reserved = none ∧ (∀ j, j ≠ e.reserved → tableGet t.leases j = tableGet s.leases j)
      ∧ genOf t e.reserved = genOf s e.reserved + 1#8 ∧ (∀ j, j ≠ e.reserved → genOf t j = genOf s j)
      ∧ t.token = s.token ∧ t.part = s.part ∧ t.sweep = s.sweep ∧ t.mbox = s.mbox ∧ .wait w ∉ t.marks
      ∧ CountsPublished s t ∧ (∀ q, (t.port q).replyQ = (s.port q).replyQ)
      ∧ (∀ q, q ≠ p → t.port q = s.port q) ∧ t.tag e.agent e.tag = .free)
  ∧ ∀ (s : State) (p : Port) (n : Nat) (rec : LockRecord) (u : Upgrade) (l : Lease), tablesOk s = true →
    takenWithdrawal s = some p → s.part = .running → s.records = [(n, rec)] → rec.queue = [] → rec.slot = some u →
    rec.holders ≠ [] → leaseAt s u.lease.num = some l → portOf l.agent = p →
    ∃ t, exec .withdraw s = .next t ∧ t.records = [(n, { rec with slot := none })]
      ∧ t.leases = s.leases ∧ t.gens = s.gens ∧ t.waits = s.waits ∧ t.token = s.token ∧ t.part = s.part
      ∧ t.sweep = s.sweep ∧ t.mbox = s.mbox ∧ MarksCompared s t [.upgrade n] ∧ t.pools = s.pools
      ∧ (∀ q, (t.port q).replyQ = (s.port q).replyQ) ∧ (∀ q, q ≠ p → t.port q = s.port q)
      ∧ t.tag l.agent u.tag = .free

/-- TAG_COMPLETE takes a port's oldest report: a REPLYING tag becomes FREE, a tag in another state stays, and nothing
else changes. -/
def Obligations.TagCompleteFreesTheTag : Prop :=
  ∀ (s : State) (p : Port) (a : Agent) (g : Tag) (rest : List (Agent × Tag)), (s.port p).reports = (a, g) :: rest →
    ∃ t, exec (.tagComplete p) s = .next t ∧ t = { s with agents := t.agents, ports := t.ports }
      ∧ t.port p = { s.port p with reports := rest } ∧ (∀ q, q ≠ p → t.port q = s.port q)
      ∧ (s.tag a g = .replying → TagMoves s t a g .free) ∧ (s.tag a g ≠ .replying → t.agents = s.agents)

/-! ### The mailbox and the management commands -/

/-- COMMAND_PLACED: code 0 does nothing; an IDLE or DONE mailbox takes the command with the argument words; an ABORT
supersedes a command in flight that is no ABORT; any other write is an overrun. -/
def Obligations.CommandPlacedAtTheMailbox : Prop :=
  ∀ (s : State) (v : Word),
    let code : Byte := v.extractLsb' 0 8
    let busy := s.mbox.state = .pending ∨ s.mbox.state = .running
    ∃ t, exec (.commandPlaced v) s = .next t
      ∧ (code = 0#8 → t = s)
      ∧ (code ≠ 0#8 → ¬ busy → t = { s with mbox := { s.mbox with
          state := .pending, code := code, auto := false, abortEnded := false, latched := s.args } })
      ∧ (busy → code = 8#8 → s.mbox.code ≠ 8#8 →
          t = { s with mbox := { s.mbox with state := .pending, code := 8#8, auto := false, abortEnded := false,
                                             latched := s.args },
                       sweep := s.sweep.map detach, events := s.events ||| 4#32 })
      ∧ (busy → code ≠ 0#8 → (code ≠ 8#8 ∨ s.mbox.code = 8#8) → t = { s with events := s.events ||| 2#32 })

/-- SET_DOMAIN stores the entry its arguments spell, in HALTED, for an index that exists and, where it is valid,
values in range; GET_DOMAIN reports an entry; and what one stores, the other reports in the same layout. The model's
reading (log entry 10): every result but OK is a refusal, whose result words are all zero. -/
def Obligations.DomainsAreSetAndReported : Prop :=
  (∀ (s : State) (i : Fin 16), takenCommand s = some 1#8 →
    let b := beginCommand s
    let d := argDomain s
    let inRange := 1 ≤ d.leaseDefault.toNat ∧ d.leaseDefault.toNat ≤ d.leaseMax.toNat ∧ 1 ≤ d.waitCap.toNat
      ∧ 1 ≤ d.queueLimit.toNat ∧ d.queueLimit.toNat ≤ 64 ∧ (d.modes = 1#2 ∨ d.modes = 2#2)
      ∧ (d.policy = 1#2 ∨ d.policy = 2#2)
    ∃ t, exec .setDomain s = .next t
      ∧ t = { b with domains := t.domains, mbox := t.mbox, res := t.res, events := t.events, offered := t.offered }
      ∧ OfferStands b t
      ∧ (s.part ≠ .halted → t.domains = s.domains ∧ Completes s t .notHalted [])
      ∧ (s.part = .halted → 16 ≤ bitField (argWord s 0) 0 8 → t.domains = s.domains ∧ Completes s t .invalid [])
      ∧ (s.part = .halted → bitField (argWord s 0) 0 8 = i.val → d.valid = true → ¬ inRange →
          t.domains = s.domains ∧ Completes s t .invalid [])
      ∧ (s.part = .halted → bitField (argWord s 0) 0 8 = i.val → (d.valid = true → inRange) →
          t.domain i = d ∧ (∀ j, j ≠ i → t.domain j = s.domain j) ∧ Completes s t .ok []))
  ∧ (∀ s : State, takenCommand s = some 2#8 →
    let b := beginCommand s
    ∃ t, exec .getDomain s = .next t
      ∧ t = { b with mbox := t.mbox, res := t.res, events := t.events, offered := t.offered } ∧ OfferStands b t
      ∧ (16 ≤ bitField (argWord s 0) 0 8 → Completes s t .invalid [])
      ∧ ∀ i : Fin 16, bitField (argWord s 0) 0 8 = i.val → Completes s t .ok (domainWords i (s.domain i)))
  ∧ ∀ (s : State) (i : Fin 16), bitField (argWord s 0) 0 8 = i.val →
      domainWords i (argDomain s) = [argWord s 0 &&& 0x0000F3FF#32, argWord s 1, argWord s 2, argWord s 3,
        argWord s 4, argWord s 5, argWord s 6, argWord s 7 &&& 0xFFFF00FF#32]

/-- SET_AGENT, the whole of Table 6-4: ENABLE makes a DISABLED agent ACTIVE with the next epoch and the keepalive tick at
NOW, in HALTED with the quota given and in the other states with the quota kept; DISABLE is for HALTED; a completion reports
state, epoch and quota; and each refusal leaves every record: INVALID for an agent number above 31, an action that is none
of the three, a quota out of range in HALTED, and ENABLE of an agent to be admitted; ALREADY; NOT_HALTED. The model's
readings: every result but OK is a refusal, whose result words are all zero (log entry 10); and where the manual names no
row, since no run reaches the state, a FENCING agent in HALTED is treated as a FENCED one and ABORTING as RUNNING (log
entry 17). -/
def Obligations.SetAgentEnablesAndDisables : Prop :=
  ∀ s : State, takenCommand s = some 3#8 →
    let b := beginCommand s
    let action := bitField (argWord s 0) 8 2
    let quota := bitField (argWord s 1) 0 16
    let ok := 1 ≤ quota ∧ quota ≤ 1024
    let code := fun x : AgentState =>
      if x = .disabled then 0#16 else if x = .active then 1#16 else if x = .fencing then 2#16 else 3#16
    ∃ t, exec .setAgent s = .next t
      ∧ t = { b with agents := t.agents, marks := t.marks, mbox := t.mbox, res := t.res, events := t.events,
                     offered := t.offered } ∧ OfferStands b t
      ∧ (32 ≤ bitField (argWord s 0) 0 8 → t.agents = s.agents ∧ t.marks = s.marks ∧ Completes s t .invalid [])
      ∧ ∀ a : Agent, bitField (argWord s 0) 0 8 = a.val →
        let g := s.agent a
        let epoch := if g.epoch = 0xFFFF#16 then 1#16 else g.epoch + 1#16
        let refused := fun r => t.agents = s.agents ∧ t.marks = s.marks ∧ Completes s t r []
        let becomes := fun x : AgentRec => t.agent a = x ∧ (∀ y, y ≠ a → t.agent y = s.agent y)
          ∧ Completes s t .ok [x.epoch ++ code x.state, BitVec.ofNat 32 x.quota]
        (action = 3 → refused .invalid)
        ∧ (s.part = .halted → ¬ ok → refused .invalid)
        ∧ (s.part = .halted → ok → action = 0 → becomes { g with quota := quota } ∧ t.marks = s.marks)
        ∧ (s.part = .halted → ok → action = 1 → g.state = .disabled →
            becomes { g with state := .active, epoch := epoch, keepalive := s.now, quota := quota }
              ∧ MarksCompared s t (g.leases.map fun h => .lease h.num))
        ∧ (s.part = .halted → ok → action = 1 → g.state = .active → refused .already)
        ∧ (s.part = .halted → ok → action = 1 → g.state = .fencing ∨ g.state = .fenced → refused .invalid)
        ∧ (s.part = .halted → ok → action = 2 → g.state ≠ .disabled →
            becomes { g with state := .disabled, quota := quota } ∧ t.marks = s.marks)
        ∧ (s.part = .halted → ok → action = 2 → g.state = .disabled → refused .already)
        ∧ (s.part ≠ .halted → action = 1 → g.state = .disabled →
            becomes { g with state := .active, epoch := epoch, keepalive := s.now }
              ∧ MarksCompared s t (g.leases.map fun h => .lease h.num))
        ∧ (s.part ≠ .halted → action ≠ 3 → ¬ (action = 1 ∧ g.state = .disabled) → refused .notHalted)

/-- GET_AGENT, INSPECT_LOCK, INSPECT_LEASE and UNKNOWN_COMMAND complete with what they report, word by word as Table 11-5
lays it out, and change nothing. INSPECT_LEASE reports a FREE entry's generation, a RESERVED entry's generation and agent,
and of an IN_USE entry all that R197 lists. The numbers reported fit their fields, as every number of an entry that exists
does. The model's reading (log entry 10): every result but OK is a refusal, whose result words are all zero. -/
def Obligations.ReportsChangeNothing : Prop :=
  let unchanged := fun s t : State =>
    t = { beginCommand s with mbox := t.mbox, res := t.res, events := t.events, offered := t.offered }
      ∧ OfferStands (beginCommand s) t
  (∀ s : State, takenCommand s = some 4#8 → ∃ t, exec .getAgent s = .next t ∧ unchanged s t
    ∧ (32 ≤ bitField (argWord s 0) 0 8 → Completes s t .invalid [])
    ∧ ∀ a : Agent, bitField (argWord s 0) 0 8 = a.val →
        let g := s.agent a
        let waits := s.waits.countP fun e => e.2.agent = a
        let code := if g.state = .disabled then 0#16 else if g.state = .active then 1#16
          else if g.state = .fencing then 2#16 else 3#16
        let tags := t.res.get 5
        g.leases.length < 65536 → waits < 65536 →
        Completes s t .ok
          [g.epoch ++ code, BitVec.ofNat 32 g.quota, BitVec.ofNat 32 (g.keepalive / 4294967296 % 65536),
           BitVec.ofNat 32 g.keepalive, BitVec.ofNat 16 waits ++ BitVec.ofNat 16 g.leases.length, tags]
        ∧ (∀ x : Tag, tags.getLsbD x.val = decide (s.tag a x ≠ .free))
        ∧ (tags.getLsbD 16 = decide (Job.fence a true ∈ s.sweep ∨ Job.fence a false ∈ s.sweep))
        ∧ ∀ i, 17 ≤ i → tags.getLsbD i = false)
  ∧ (∀ s : State, takenCommand s = some 0x0C#8 → ∃ t, exec .inspectLock s = .next t ∧ unchanged s t
    ∧ (recordOfKey s (argPair s 0 1) = none → Completes s t .notFound [])
    ∧ ∀ n rec, recordOfKey s (argPair s 0 1) = some (n, rec) →
        let mode := if rec.mode = .shared then 1#8 else 2#8
        let upgrade := fun x : Word => (rec.slot = none → x = 0#32)
          ∧ ∀ u, rec.slot = some u → u.lease.num < 8192 →
              x = 1#1 ++ 0#3 ++ BitVec.ofNat 4 u.tag.val ++ u.lease.gen ++ 0#3 ++ BitVec.ofNat 13 u.lease.num
        let agents := t.res.get 1
        n < 4096 → rec.holders.length < 256 → rec.queue.length < 256 →
        Completes s t .ok
          [0#8 ++ BitVec.ofNat 8 rec.queue.length ++ BitVec.ofNat 8 rec.holders.length ++ mode, agents, t.res.get 2,
           rec.lastToken.extractLsb' 32 32, rec.lastToken.extractLsb' 0 32,
           0#12 ++ BitVec.ofNat 4 rec.domain.val ++ 0#4 ++ BitVec.ofNat 12 n]
        ∧ upgrade (t.res.get 2)
        ∧ ∀ a : Agent, agents.getLsbD a.val = true ↔ ∃ h ∈ rec.holders, ∃ l, leaseAt s h.num = some l ∧ l.agent = a)
  ∧ (∀ s : State, takenCommand s = some 0x0D#8 → ∃ t, exec .inspectLease s = .next t ∧ unchanged s t ∧
    let k := bitField (argWord s 0) 0 16
    let gen := genOf s k
    (8192 ≤ k → Completes s t .invalid [])
    ∧ (k < 8192 → tableGet s.leases k = none → Completes s t .ok [0#16 ++ gen ++ 0#8])
    ∧ (k < 8192 → ∀ a w, tableGet s.leases k = some (.reserved a w) →
        Completes s t .ok [0#11 ++ BitVec.ofNat 5 a.val ++ gen ++ 1#8])
    ∧ (k < 8192 → ∀ l rec, tableGet s.leases k = some (.inUse l) → tableGet s.records l.record = some rec →
        let mode := if l.mode = .shared then 1#2 else 2#2
        let due := max l.ownDeadline ((s.agent l.agent).keepalive + l.duration)
        Completes s t .ok
          [0#6 ++ mode ++ 0#3 ++ BitVec.ofNat 5 l.agent.val ++ gen ++ 2#8, rec.key.extractLsb' 32 32,
           rec.key.extractLsb' 0 32, l.token.extractLsb' 32 32, l.token.extractLsb' 0 32,
           BitVec.ofNat 32 (due / 4294967296 % 65536), BitVec.ofNat 32 due, BitVec.ofNat 32 l.duration]))
  ∧ ∀ (s : State) (c : Byte), takenCommand s = some c → (c = 0#8 ∨ 15 ≤ c.toNat) →
    ∃ t, exec .unknownCommand s = .next t ∧ unchanged s t ∧ Completes s t .invalid []

/-- SEED sets the counter and SEEDED in HALTED, for a value not below the counter and not its end value; START makes
a seeded part with a valid domain RUNNING. The model's readings: every result but OK is a refusal, whose result words are
all zero (log entry 10); and a START taken in ABORTING, which no run reaches, completes NOT_HALTED (log entry 17). -/
def Obligations.SeedAndStart : Prop :=
  (∀ s : State, takenCommand s = some 5#8 →
    let b := beginCommand s
    let v := argPair s 0 1
    let fits := s.token.toNat ≤ v.toNat ∧ v ≠ 0xFFFFFFFFFFFFFFFF#64
    ∃ t, exec .seed s = .next t
      ∧ t = { b with token := t.token, seeded := t.seeded, mbox := t.mbox, res := t.res, events := t.events,
                     offered := t.offered } ∧ OfferStands b t
      ∧ (s.part = .halted → fits → t.token = v ∧ t.seeded = true ∧ Completes s t .ok [argWord s 0, argWord s 1])
      ∧ (s.part = .halted → ¬ fits → t.token = s.token ∧ t.seeded = s.seeded ∧ Completes s t .invalid [])
      ∧ (s.part ≠ .halted → t.token = s.token ∧ t.seeded = s.seeded ∧ Completes s t .notHalted []))
  ∧ ∀ s : State, takenCommand s = some 6#8 →
    let b := beginCommand s
    let ready := s.seeded = true ∧ ∃ d : Fin 16, (s.domain d).valid = true
    ∃ t, exec .start s = .next t
      ∧ t = { b with part := t.part, mbox := t.mbox, res := t.res, events := t.events, offered := t.offered }
      ∧ OfferStands b t
      ∧ (s.part = .halted → ready → t.part = .running
          ∧ Completes { s with events := s.events ||| 8#32 } t .ok [1#32])
      ∧ (s.part = .halted → ¬ ready → t.part = .halted ∧ Completes s t .notReady [])
      ∧ (s.part = .running → t.part = .running ∧ Completes s t .already [])
      ∧ (s.part = .quiescing ∨ s.part = .aborting → t.part = s.part ∧ Completes s t .notHalted [])

/-- QUIESCE makes a RUNNING part QUIESCING with the command attached to a quiesce job, or HALTED at once where there
is no lease; ABORT makes a RUNNING or QUIESCING part ABORTING with an abort job in place of every job. The model's
reading (log entry 10): every result but OK is a refusal, whose result words are all zero. An ABORT taken in ABORTING
attaches to the abort job there (log entry 17 for the states no run reaches). -/
def Obligations.QuiesceAndAbort : Prop :=
  (∀ s : State, takenCommand s = some 7#8 → s.sweep.any isQuiesceJob = false →
    let b := beginCommand s
    ∃ t, exec .quiesce s = .next t
      ∧ (s.part = .running → s.leases ≠ [] →
          t = { b with part := .quiescing, sweep := s.sweep ++ [.quiesce 0 true],
                       mbox := { s.mbox with state := .running }, events := s.events ||| 8#32, offered := t.offered }
          ∧ OfferStands b t)
      ∧ (s.part = .running → s.leases = [] →
          t = { b with part := .halted, offered := none, mbox := t.mbox, res := t.res, events := t.events }
          ∧ Completes { s with events := s.events ||| 8#32 } t .ok [0#32, 0#32])
      ∧ (s.part = .halted ∨ s.part = .aborting ∨ s.part = .quiescing →
          t = { b with mbox := t.mbox, res := t.res, events := t.events, offered := t.offered }
          ∧ OfferStands b t ∧ Completes s t .already []))
  ∧ ∀ s : State, takenCommand s = some 8#8 →
    let b := beginCommand s
    ∃ t, exec .abort s = .next t
      ∧ (s.part = .running ∨ s.part = .quiescing →
          t = { b with part := .aborting, sweep := [.abort 0 true], mbox := { s.mbox with state := .running },
                       events := s.events ||| 8#32 })
      ∧ (s.part = .aborting →
          t = { b with sweep := s.sweep.map attachAbort, mbox := { s.mbox with state := .running } })
      ∧ (s.part = .halted → t = { b with mbox := t.mbox, res := t.res, events := t.events }
          ∧ (s.mbox.abortEnded = true → Completes s t .ok [0#32])
          ∧ (s.mbox.abortEnded = false → Completes s t .already []))

/-- FENCE of an ACTIVE agent with no wait and no upgrade: FENCED at once where it holds no lease, and else FENCING
with the command attached to a fence job; its notice becomes a FENCE notice with its epoch, at the tail where none is
queued for it and else in place of the LOST or FENCE notice queued. The other agent states: attach to the
job, ALREADY, NOT_ADMITTED; a number above 31, INVALID. The model's reading (log entry 10): every result but OK is a
refusal, whose result words are all zero. -/
def Obligations.FenceByCommand : Prop :=
  ∀ s : State, takenCommand s = some 9#8 → s.part ≠ .aborting →
    let b := beginCommand s
    let refused := fun t r => t = { b with mbox := t.mbox, res := t.res, events := t.events, offered := t.offered }
      ∧ OfferStands b t ∧ Completes s t r []
    (32 ≤ bitField (argWord s 0) 0 8 → ∃ t, exec .fence s = .next t ∧ refused t .invalid)
    ∧ ∀ a : Agent, bitField (argWord s 0) 0 8 = a.val →
      let g := s.agent a
      let q := s.port (portOf a)
      ∃ t, exec .fence s = .next t
        ∧ (g.state = .fenced → refused t .already) ∧ (g.state = .disabled → refused t .notAdmitted)
        ∧ (g.state = .fencing → t = { b with sweep := s.sweep.map (attachFence a),
                                             mbox := { s.mbox with state := .running }, offered := t.offered })
        ∧ (g.state = .active → (∀ x, s.tag a x = .free ∨ s.tag a x = .replying) → fenceJobPresent s a = false →
          t = { b with agents := t.agents, ports := t.ports, sweep := t.sweep, mbox := t.mbox, res := t.res,
                       events := t.events, offered := t.offered } ∧ OfferStands b t
          ∧ t.agent a = { g with state := if g.leases = [] then .fenced else .fencing }
          ∧ (∀ x, x ≠ a → t.agent x = s.agent x)
          ∧ (g.leases = [] → t.sweep = s.sweep ∧ Completes s t .ok [BitVec.setWidth 32 g.epoch])
          ∧ (g.leases ≠ [] → t.sweep = s.sweep ++ [.fence a true] ∧ t.mbox = { s.mbox with state := .running }
              ∧ t.res = s.res ∧ t.events = s.events)
          ∧ t.port (portOf a) = { q with noticeQ := (t.port (portOf a)).noticeQ }
          ∧ (q.link = .down → t.port (portOf a) = q)
          ∧ (q.link ≠ .down → slotOf a ∉ q.noticeQ.map noticeSlot →
              (t.port (portOf a)).noticeQ = q.noticeQ ++ [.fence (slotOf a) g.epoch])
          ∧ (∀ pre post n, q.link ≠ .down → q.noticeQ = pre ++ n :: post → noticeSlot n = slotOf a →
              slotOf a ∉ pre.map noticeSlot →
              (t.port (portOf a)).noticeQ = pre ++ .fence (slotOf a) g.epoch :: post)
          ∧ ∀ x, x ≠ portOf a → t.port x = s.port x)

/-- ADMIT makes a FENCED agent, which holds no lease, ACTIVE with the next epoch and the keepalive tick at NOW; BUSY
while FENCING, ALREADY when ACTIVE, NOT_ADMITTED when DISABLED, INVALID above 31. The model's reading (log entry 10):
every result but OK is a refusal, whose result words are all zero. -/
def Obligations.AdmitReturnsAFencedAgent : Prop :=
  ∀ s : State, takenCommand s = some 0x0A#8 →
    let b := beginCommand s
    ∃ t, exec .admitAgent s = .next t
      ∧ t = { b with agents := t.agents, marks := t.marks, mbox := t.mbox, res := t.res, events := t.events,
                     offered := t.offered } ∧ OfferStands b t
      ∧ (32 ≤ bitField (argWord s 0) 0 8 → t.agents = s.agents ∧ t.marks = s.marks ∧ Completes s t .invalid [])
      ∧ ∀ a : Agent, bitField (argWord s 0) 0 8 = a.val →
        let g := s.agent a
        let epoch := if g.epoch = 0xFFFF#16 then 1#16 else g.epoch + 1#16
        (g.state = .fenced → g.leases = [] →
          t.agent a = { g with state := .active, epoch := epoch, keepalive := s.now } ∧ t.marks = s.marks
            ∧ (∀ x, x ≠ a → t.agent x = s.agent x) ∧ Completes s t .ok [BitVec.setWidth 32 epoch])
        ∧ (g.state ≠ .fenced → t.agents = s.agents ∧ t.marks = s.marks)
        ∧ (g.state = .fencing → Completes s t .busy []) ∧ (g.state = .active → Completes s t .already [])
        ∧ (g.state = .disabled → Completes s t .notAdmitted [])

/-- FORCE_RELEASE of a key with one holder, no waiter and no upgrade: the lease is lost FORCED, the record is
retired, and the command reports one loss, no grant, and the record retired; NOT_FOUND for a key with no record. The
model's reading (log entry 10): every result but OK is a refusal, whose result words are all zero. -/
def Obligations.ForceReleaseTakesTheLock : Prop :=
  ∀ s : State, tablesOk s = true → takenCommand s = some 0x0B#8 →
    let b := beginCommand s
    (recordOfKey s (argPair s 0 1) = none → ∃ t, exec .forceRelease s = .next t
      ∧ t = { b with mbox := t.mbox, res := t.res, events := t.events, offered := t.offered } ∧ OfferStands b t
      ∧ Completes s t .notFound [])
    ∧ ∀ (n : Nat) (rec : LockRecord) (h : Handle) (l : Lease), recordOfKey s (argPair s 0 1) = some (n, rec) →
      s.part = .running → rec.holders = [h] → rec.queue = [] → rec.slot = none → leaseAt s h.num = some l →
      l.record = n → handleOf s h.num = h → (s.agent l.agent).state = .active → fenceJobPresent s l.agent = false →
      let sl := slotOf l.agent
      let q := s.port (portOf l.agent)
      ∃ t, exec .forceRelease s = .next t
        ∧ t = { b with agents := t.agents, ports := t.ports, records := t.records, leases := t.leases, gens := t.gens,
                       marks := t.marks, pools := t.pools, mbox := t.mbox, res := t.res, events := t.events,
                       offered := t.offered } ∧ OfferStands b t
        ∧ tableGet t.records n = none ∧ (∀ j, j ≠ n → tableGet t.records j = tableGet s.records j)
        ∧ tableGet t.leases h.num = none ∧ (∀ j, j ≠ h.num → tableGet t.leases j = tableGet s.leases j)
        ∧ genOf t h.num = genOf s h.num + 1#8 ∧ (∀ j, j ≠ h.num → genOf t j = genOf s j)
        ∧ t.agent l.agent = { s.agent l.agent with leases := (s.agent l.agent).leases.erase h }
        ∧ (∀ x, x ≠ l.agent → t.agent x = s.agent x) ∧ MarksCompared s t [.lease h.num] ∧ CountsPublished s t
        ∧ t.port (portOf l.agent) = { q with noticeQ := (t.port (portOf l.agent)).noticeQ }
        ∧ (q.link = .down → t.port (portOf l.agent) = q)
        ∧ (q.link ≠ .down → sl ∉ q.noticeQ.map noticeSlot →
            (t.port (portOf l.agent)).noticeQ = q.noticeQ ++ [.lost sl 1 h .forced])
        ∧ (∀ x, x ≠ portOf l.agent → t.port x = s.port x) ∧ Completes s t .ok [1#32, 0x100#32]

/-! ### The pressure monitor -/

/-- COUNT_ARRIVAL and SET_PRESSURE: the level of Tables 8-3 and 8-4, the count evaluated, and the pool's event exactly if
the level changed. COUNT_ARRIVAL evaluates one of the pool's published counts: the older ones are superseded and the later
ones stay, in order; with none published nothing changes. SET_PRESSURE leaves none outstanding; marks out of order or a
pool that does not exist, INVALID. The model's readings: which of several published counts is evaluated is a free value,
and SET_PRESSURE covers every one (log entry 27); with none published, no change (log entry 1); every result but OK is a
refusal, whose result words are all zero (log entry 10). -/
def Obligations.PressureLevelsFollowTheCounts : Prop :=
  (∀ (s : State) (k : Pool), (s.pool k).published ≠ [] →
    let x := s.pool k
    ∃ t, exec (.countArrival k) s = .next t
      ∧ t = { s with pools := t.pools, events := t.events, freeDraws := t.freeDraws }
      ∧ (∀ j, j ≠ k → t.pool j = s.pool j)
      ∧ (t.events = if (t.pool k).level = x.level then s.events else s.events ||| atBit (eventBit (.pressure k)) 1)
      ∧ ∃ older n later, x.published = older ++ n :: later
        ∧ t.pool k = { x with level := (t.pool k).level, evaluated := n, published := later }
        ∧ (n ≤ x.low → (t.pool k).level = .normal)
        ∧ (x.low < n → n < x.high → n < x.shed → (t.pool k).level = x.level)
        ∧ (x.low < n → x.high ≤ n → n < x.shed → (t.pool k).level = if x.level = .normal then .high else x.level)
        ∧ (x.low < n → x.shed ≤ n → (t.pool k).level = .shed))
  ∧ (∀ (s : State) (k : Pool), (s.pool k).published = [] → exec (.countArrival k) s = .next s)
  ∧ (∀ (s : State) (k : Pool), takenCommand s = some 0x0E#8 →
      poolOfCode (bitField (argWord s 0) 0 8) = some k →
    let b := beginCommand s
    let x := s.pool k
    let low := bitField (argWord s 1) 0 16
    let high := bitField (argWord s 2) 0 16
    let shed := bitField (argWord s 3) 0 16
    let n := poolCount s k
    let inOrder := low < high ∧ high ≤ shed ∧ shed ≤ poolCapacity k
    let level := if shed ≤ n then Level.shed else if high ≤ n then .high else if n ≤ low then .normal else x.level
    ∃ t, exec .setPressure s = .next t
      ∧ t = { b with pools := t.pools, mbox := t.mbox, res := t.res, events := t.events, offered := t.offered }
      ∧ OfferStands b t ∧ (∀ j, j ≠ k → t.pool j = s.pool j)
      ∧ (inOrder → t.pool k = { x with low := low, high := high, shed := shed, level := level, evaluated := n,
                                       published := [] }
          ∧ Completes { s with events :=
              if level = x.level then s.events else s.events ||| atBit (eventBit (.pressure k)) 1 } t .ok
              [BitVec.ofNat 32 (levelCode level), BitVec.ofNat 32 n])
      ∧ (¬ inOrder → t.pool k = x ∧ Completes s t .invalid []))
  ∧ ∀ s : State, takenCommand s = some 0x0E#8 → 3 ≤ bitField (argWord s 0) 0 8 →
    ∃ t, exec .setPressure s = .next t
      ∧ t = { beginCommand s with mbox := t.mbox, res := t.res, events := t.events, offered := t.offered }
      ∧ OfferStands (beginCommand s) t ∧ Completes s t .invalid []

/-! ### The register window -/

/-- The writes with a behaviour of their own and the plain writes: TICK_PERIOD in HALTED from 100 on, ones that clear
EVENTS and FRAME_ERROR flags, the ARG words, EVENT_ENABLE, and every other address ignored. The interrupt is low while an
enabled flag is set. -/
def Obligations.RegisterWritesTakeEffect : Prop :=
  (∀ (s : State) (v : Word), ∃ t, exec (.tickPeriodWrite v) s = .next t
    ∧ (s.part = .halted → 100 ≤ bitField v 0 16 → t = { s with tickPeriod := v.extractLsb' 0 16, tickPos := 0 })
    ∧ (s.part ≠ .halted ∨ bitField v 0 16 < 100 → t = s))
  ∧ (∀ (s : State) (v : Word), ∃ t, exec (.eventsClear v) s = .next t ∧ t = { s with events := t.events }
    ∧ ∀ i, t.events.getLsbD i = (s.events.getLsbD i && !v.getLsbD i))
  ∧ (∀ (s : State) (v : Word), ∃ t, exec (.frameErrorClear v) s = .next t ∧ t = { s with ports := t.ports }
    ∧ ∀ p : Port, t.port p = { s.port p with
        frameError := (s.port p).frameError && !v.getLsbD (8 * p.val + 3) })
  ∧ (∀ (s : State) (i : Fin 8) (v : Word),
    ∃ t, exec (.registerWrite (BitVec.ofNat 7 (8 + i.val)) v) s = .next t ∧ t = { s with args := t.args }
      ∧ readRegister t (BitVec.ofNat 7 (8 + i.val)) = v ∧ t.args.get i = v ∧ ∀ j, j ≠ i → t.args.get j = s.args.get j)
  ∧ (∀ (s : State) (v : Word), exec (.registerWrite 0x19#7 v) s
      = .next { s with eventEnable := v &&& 0x0007FF3F#32 })
  ∧ (∀ s : State, irqLow s = true ↔ ∃ i : Fin 32, s.events.getLsbD i = true ∧ s.eventEnable.getLsbD i = true)
  ∧ ∀ (s : State) (addr : BitVec 7) (v : Word), (Instr.registerWrite addr v).wellFormed = true → addr ≠ 0x19#7 →
      ¬ (8 ≤ addr.toNat ∧ addr.toNat < 16) → exec (.registerWrite addr v) s = .next s

/-- NOW_LO_READ captures bits 31..0 of NOW and latches bits 47..32 for NOW_HI; POOL_MARK_READ captures a pool's low and
high marks and latches its shed mark. After device reset every latch is 0. -/
def Obligations.LatchingReads : Prop :=
  (∀ s : State, ∃ t, exec .nowLoRead s = .next t
    ∧ t = { s with spiData := BitVec.ofNat 32 s.now, nowLatch := BitVec.ofNat 16 (s.now / 2 ^ 32) }
    ∧ readRegister t 0x1B#7 = BitVec.setWidth 32 (BitVec.ofNat 16 (s.now / 2 ^ 32)))
  ∧ (State.reset.nowLatch = 0#16 ∧ ∀ k, (State.reset.pool k).shedLatch = 0)
  ∧ ∀ (s : State) (k : Pool), ∃ t, exec (.poolMarkRead k) s = .next t
    ∧ t = { s with spiData := atBit 0 (s.pool k).low ||| atBit 16 (s.pool k).high, pools := t.pools }
    ∧ t.pool k = { s.pool k with shedLatch := (s.pool k).shed } ∧ (∀ j, j ≠ k → t.pool j = s.pool j)
    ∧ readRegister t (poolMarkAddr k + 1#7) = BitVec.ofNat 32 (s.pool k).shed

/-! ### The agent link -/

/-- What takes a port to TRAINING and to DOWN: a signal, the enables of LINK_CTRL, and the SEND_TRAIN of a TRAINING
port. The model's reading (log entry 12): a TRAIN begins as TRAINING is entered, and going DOWN cuts the frame being
sent. -/
def Obligations.LinksTrainAndGoDown : Prop :=
  let trained := fun q : PortState => { q with link := .training, tx := some .train }
  let cut := fun q : PortState => match q.link with
    | .up => { q with link := .down, heldDown := true, withdrawPending := true, fifo := [], replyQ := [],
                      noticeQ := [], reports := [], ingressCredits := 0, unsentReturns := 0, withheld := 0,
                      egressCredits := 0, ackOwed := false, egressTurn := .reply, tx := none, trainDue := false }
    | .training => { q with link := .down, replyQ := [], noticeQ := [], ackOwed := false, tx := none,
                            trainDue := false }
    | .down => q
  (∀ (s : State) (p : Port),
    let q := { s.port p with signal := true }
    let trains := q.link = .down ∧ q.enable = true ∧ q.heldDown = false
    ∃ t, exec (.signalArrives p) s = .next t ∧ t = { s with ports := t.ports, events := t.events }
      ∧ (trains → t.port p = trained q ∧ t.events = s.events ||| atBit (8 + p.val) 1)
      ∧ (¬ trains → t.port p = q ∧ t.events = s.events) ∧ ∀ x, x ≠ p → t.port x = s.port x)
  ∧ (∀ (s : State) (p : Port),
    let q := { s.port p with signal := false }
    ∃ t, exec (.signalLost p) s = .next t ∧ t = { s with ports := t.ports, events := t.events }
      ∧ t.port p = cut q ∧ (∀ x, x ≠ p → t.port x = s.port x)
      ∧ t.events = if q.link = .down then s.events else s.events ||| atBit (8 + p.val) 1)
  ∧ (∀ (s : State) (v : Word), ∃ t, exec (.linkCtrlWrite v) s = .next t
      ∧ t = { s with ports := t.ports, events := t.events }
      ∧ ∀ p : Port,
        let q := { s.port p with enable := v.getLsbD p.val }
        (v.getLsbD p.val = false → t.port p = cut q)
        ∧ (v.getLsbD p.val = true → t.port p =
            if q.link = .down ∧ q.signal = true ∧ q.heldDown = false then trained q else q)
        ∧ (t.events.getLsbD (8 + p.val) = (s.events.getLsbD (8 + p.val) || decide ((t.port p).link ≠ q.link))))
  ∧ ∀ (s : State) (p : Port), (s.port p).link = .training →
    ∃ t, exec (.sendTrain p) s = .next t ∧ t = { s with ports := t.ports } ∧ (∀ x, x ≠ p → t.port x = s.port x)
      ∧ t.port p = (if (s.port p).tx = none ∧ (s.port p).ackOwed = false then
          { s.port p with tx := some .train, trainDue := false } else { s.port p with trainDue := true })

/-- The frames that pass their check, in UP and TRAINING, and the frame that fails it: acknowledgements owed, going UP
with 16 credits to return, a request received against a credit, egress credits granted, the far end's restart, and the
violations, which take an UP port DOWN, everything of the link flushed, with LINK_FAULT; a TRAIN or TRAIN_ACK of the
wrong length is ignored in TRAINING. The model's reading (log entry 18): a frame too short for a kind byte and a check
fails its check. The model's choices: with unsent returns above the ingress credits a frame that fails its check returns
no credit (log entry 19), and a frame being sent as the port goes UP is sent on (log entry 26). -/
def Obligations.ReceivedFramesAct : Prop :=
  ∀ (s : State) (p : Port) (f : List Byte),
    let q := s.port p
    let linked := atBit (8 + p.val) 1
    let down := fun (t : State) (ev : Word) => t = { s with ports := t.ports, events := ev }
      ∧ (∀ x, x ≠ p → t.port x = s.port x)
      ∧ t.port p = { q with link := .down, heldDown := true, withdrawPending := true, fifo := [], replyQ := [],
                            noticeQ := [], reports := [], ingressCredits := 0, unsentReturns := 0, withheld := 0,
                            egressCredits := 0, ackOwed := false, egressTurn := .reply, tx := none, trainDue := false }
    let violated := fun t => down t (s.events ||| linked ||| atBit (12 + p.val) 1)
    let port := fun (t : State) (x : PortState) => t = { s with ports := t.ports, events := t.events } ∧ t.port p = x
      ∧ ∀ y, y ≠ p → t.port y = s.port y
    ((Instr.trainReceived p f).wellFormed = true → ∃ t, exec (.trainReceived p f) s = .next t
      ∧ (q.link = .down → t = s)
      ∧ (q.link = .training → framePayload f = [] → port t { q with ackOwed := true } ∧ t.events = s.events)
      ∧ (q.link = .training → framePayload f ≠ [] → t = s)
      ∧ (q.link = .up → framePayload f = [] → down t (s.events ||| linked))
      ∧ (q.link = .up → framePayload f ≠ [] → violated t))
    ∧ ((Instr.trainAckReceived p f).wellFormed = true → ∃ t, exec (.trainAckReceived p f) s = .next t
      ∧ (q.link = .down ∨ q.link = .up ∧ framePayload f = [] → t = s)
      ∧ (q.link = .training → framePayload f = [] →
          port t { q with link := .up, ingressCredits := 16, unsentReturns := 16, trainDue := false }
          ∧ t.events = s.events ||| linked)
      ∧ (q.link = .training → framePayload f ≠ [] → t = s)
      ∧ (q.link = .up → framePayload f ≠ [] → violated t))
    ∧ ((Instr.creditReceived p f).wellFormed = true → ∃ t, exec (.creditReceived p f) s = .next t
      ∧ (q.link ≠ .up → t = s)
      ∧ (q.link = .up → ∀ c, framePayload f = [c] → 1 ≤ c.toNat → c.toNat ≤ 16 → q.egressCredits + c.toNat ≤ 255 →
          port t { q with egressCredits := q.egressCredits + c.toNat } ∧ t.events = s.events)
      ∧ (q.link = .up → (¬ ∃ c, framePayload f = [c] ∧ 1 ≤ c.toNat ∧ c.toNat ≤ 16
          ∧ q.egressCredits + c.toNat ≤ 255) → violated t))
    ∧ ((Instr.messageReceived p f).wellFormed = true → ∃ t, exec (.messageReceived p f) s = .next t
      ∧ (q.link ≠ .up → t = s)
      ∧ (q.link = .up → (framePayload f).length = 24 → 1 ≤ q.ingressCredits →
          port t { q with ingressCredits := q.ingressCredits - 1,
                          fifo := q.fifo ++ [requestOfBytes (framePayload f)] } ∧ t.events = s.events)
      ∧ (q.link = .up → ((framePayload f).length ≠ 24 ∨ q.ingressCredits = 0) → violated t))
    ∧ ((Instr.unknownKindFrameReceived p f).wellFormed = true →
      ∃ t, exec (.unknownKindFrameReceived p f) s = .next t ∧ (q.link ≠ .up → t = s) ∧ (q.link = .up → violated t))
    ∧ ((Instr.frameCheckFailed p f).wellFormed = true → ∃ t, exec (.frameCheckFailed p f) s = .next t
      ∧ (q.link = .down → t = s)
      ∧ (q.link ≠ .down → port t { q with frameError := true, unsentReturns :=
            if q.link = .up ∧ f.length = 29 ∧ q.unsentReturns < q.ingressCredits then q.unsentReturns + 1
            else q.unsentReturns } ∧ t.events = s.events))

/-- TRANSMIT_FRAME of a free transmitter, in its order: in TRAINING a TRAIN_ACK owed, then a TRAIN due; in UP a
TRAIN_ACK owed, then a CREDIT of all unsent returns, then with an egress credit the head of a queue, in turn where
both hold entries. TRANSMISSION_COMPLETE reports a tag-owned reply and returns a withheld credit. The model's readings:
after a message frame the turn names the queue the frame did not come from (log entry 11), and a TRAIN_ACK owed is cleared
as its TRAIN_ACK begins (log entry 24). -/
def Obligations.TransmitterOrderAndCompletion : Prop :=
  (∀ (s : State) (p : Port),
    let q := s.port p
    let empty := q.replyQ = [] ∧ q.noticeQ = []
    let idle := q.ackOwed = false ∧ q.unsentReturns = 0
    ∃ t, exec (.transmitFrame p) s = .next t ∧ t = { s with ports := t.ports } ∧ (∀ x, x ≠ p → t.port x = s.port x)
      ∧ (q.tx ≠ none ∨ q.link = .down → t = s)
      ∧ (q.tx = none → q.link ≠ .down → q.ackOwed = true →
          t.port p = { q with tx := some .trainAck, ackOwed := false })
      ∧ (q.tx = none → q.link = .training → q.ackOwed = false → q.trainDue = true →
          t.port p = { q with tx := some .train, trainDue := false })
      ∧ (q.tx = none → q.link = .up → q.ackOwed = false → 1 ≤ q.unsentReturns →
          t.port p = { q with tx := some (.credit q.unsentReturns), unsentReturns := 0 })
      ∧ (q.tx = none → q.link = .up → idle → (q.egressCredits = 0 ∨ empty) → t.port p = q)
      ∧ (∀ r rest, q.tx = none → q.link = .up → idle → 1 ≤ q.egressCredits → q.replyQ = r :: rest →
          (q.noticeQ = [] ∨ q.egressTurn = .reply) →
          t.port p = { q with tx := some (.reply r), replyQ := rest, egressCredits := q.egressCredits - 1,
                              egressTurn := .notice })
      ∧ ∀ n rest, q.tx = none → q.link = .up → idle → 1 ≤ q.egressCredits → q.noticeQ = n :: rest →
          (q.replyQ = [] ∨ q.egressTurn = .notice) →
          t.port p = { q with tx := some (.notice n), noticeQ := rest, egressCredits := q.egressCredits - 1,
                              egressTurn := .reply })
  ∧ ∀ (s : State) (p : Port),
    let q := s.port p
    ∃ t, exec (.transmissionComplete p) s = .next t ∧ t = { s with ports := t.ports }
      ∧ (∀ x, x ≠ p → t.port x = s.port x)
      ∧ (∀ r a g, q.tx = some (.reply r) → r.owner = .tag a g →
          t.port p = { q with tx := none, reports := q.reports ++ [(a, g)] })
      ∧ (∀ r, q.tx = some (.reply r) → r.owner = .credit →
          t.port p = { q with tx := none, withheld := q.withheld - 1, ingressCredits := q.ingressCredits + 1,
                              unsentReturns := q.unsentReturns + 1 })
      ∧ ((∀ r, q.tx ≠ some (.reply r)) → t.port p = { q with tx := none })

/-- A request message read from its bytes is the request that was written, every field at every value; a frame made of
a kind and a payload passes its check and gives both back; and the bits of an SPI transaction, most significant first,
give its address and, for a write, its data, whatever bits follow. -/
def Obligations.MessagesFramesAndTransactions : Prop :=
  (∀ r : Request, requestOfBytes (requestBytes r) = r ∧ (requestBytes r).length = 24)
  ∧ (∀ (kind : Byte) (payload : List Byte), frameOk (frameBytes kind payload) = true
      ∧ frameKind (frameBytes kind payload) = kind ∧ framePayload (frameBytes kind payload) = payload)
  ∧ ∀ (addr : BitVec 7) (v : Word) (more : List Bool),
      let address := List.ofFn fun i : Fin 7 => addr.getMsbD i
      let data := List.ofFn fun i : Fin 32 => v.getMsbD i
      spiEvent (true :: address ++ data ++ more) = .write addr v
        ∧ spiEvent (false :: address ++ more) = .read addr
        ∧ ∀ n, n < 32 → spiEvent (true :: address ++ data.take n) = .nothing
end

