-- ==== Sys2Proof/Laws/State.lean ====
section
/-! SUPPORT. What each operation leaves alone, field by field, and what it writes: the small lemmas of the record
updates, so that no later proof unfolds one. -/

namespace Sys2Proof.Machine

/-- Only the agent bank. -/
@[simp] theorem updAgent_keeps (a : Agent) (f : AgentRec → AgentRec) (s : State) :
    (updAgent a f s).now = s.now ∧ (updAgent a f s).tickPeriod = s.tickPeriod ∧
    (updAgent a f s).tickPos = s.tickPos ∧ (updAgent a f s).marks = s.marks ∧ (updAgent a f s).offered = s.offered ∧
    (updAgent a f s).records = s.records ∧ (updAgent a f s).leases = s.leases ∧ (updAgent a f s).gens = s.gens ∧
    (updAgent a f s).waits = s.waits ∧ (updAgent a f s).domains = s.domains ∧ (updAgent a f s).token = s.token ∧
    (updAgent a f s).seeded = s.seeded ∧ (updAgent a f s).part = s.part ∧ (updAgent a f s).sweep = s.sweep ∧
    (updAgent a f s).outer = s.outer ∧ (updAgent a f s).inner = s.inner ∧ (updAgent a f s).chosen = s.chosen ∧
    (updAgent a f s).pools = s.pools ∧ (updAgent a f s).ports = s.ports ∧ (updAgent a f s).mbox = s.mbox ∧
    (updAgent a f s).args = s.args ∧ (updAgent a f s).res = s.res ∧ (updAgent a f s).events = s.events ∧
    (updAgent a f s).eventEnable = s.eventEnable ∧ (updAgent a f s).nowLatch = s.nowLatch ∧
    (updAgent a f s).spiData = s.spiData ∧ (updAgent a f s).handed = s.handed ∧
    (updAgent a f s).freeDraws = s.freeDraws ∧ (updAgent a f s).pending = s.pending := by
  exact ⟨rfl, rfl, rfl, rfl, rfl, rfl, rfl, rfl, rfl, rfl, rfl, rfl, rfl, rfl, rfl, rfl, rfl, rfl, rfl, rfl, rfl, rfl, rfl, rfl, rfl, rfl, rfl, rfl, rfl⟩

/-- Only the port bank. -/
@[simp] theorem updPort_keeps (p : Port) (f : PortState → PortState) (s : State) :
    (updPort p f s).now = s.now ∧ (updPort p f s).tickPeriod = s.tickPeriod ∧ (updPort p f s).tickPos = s.tickPos ∧
    (updPort p f s).marks = s.marks ∧ (updPort p f s).offered = s.offered ∧ (updPort p f s).records = s.records ∧
    (updPort p f s).leases = s.leases ∧ (updPort p f s).gens = s.gens ∧ (updPort p f s).waits = s.waits ∧
    (updPort p f s).domains = s.domains ∧ (updPort p f s).agents = s.agents ∧ (updPort p f s).token = s.token ∧
    (updPort p f s).seeded = s.seeded ∧ (updPort p f s).part = s.part ∧ (updPort p f s).sweep = s.sweep ∧
    (updPort p f s).outer = s.outer ∧ (updPort p f s).inner = s.inner ∧ (updPort p f s).chosen = s.chosen ∧
    (updPort p f s).pools = s.pools ∧ (updPort p f s).mbox = s.mbox ∧ (updPort p f s).args = s.args ∧
    (updPort p f s).res = s.res ∧ (updPort p f s).events = s.events ∧ (updPort p f s).eventEnable = s.eventEnable ∧
    (updPort p f s).nowLatch = s.nowLatch ∧ (updPort p f s).spiData = s.spiData ∧
    (updPort p f s).handed = s.handed ∧ (updPort p f s).freeDraws = s.freeDraws ∧
    (updPort p f s).pending = s.pending := by
  exact ⟨rfl, rfl, rfl, rfl, rfl, rfl, rfl, rfl, rfl, rfl, rfl, rfl, rfl, rfl, rfl, rfl, rfl, rfl, rfl, rfl, rfl, rfl, rfl, rfl, rfl, rfl, rfl, rfl, rfl⟩

/-- Only the monitor's pools. -/
@[simp] theorem updPool_keeps (k : Pool) (f : PoolState → PoolState) (s : State) :
    (updPool k f s).now = s.now ∧ (updPool k f s).tickPeriod = s.tickPeriod ∧ (updPool k f s).tickPos = s.tickPos ∧
    (updPool k f s).marks = s.marks ∧ (updPool k f s).offered = s.offered ∧ (updPool k f s).records = s.records ∧
    (updPool k f s).leases = s.leases ∧ (updPool k f s).gens = s.gens ∧ (updPool k f s).waits = s.waits ∧
    (updPool k f s).domains = s.domains ∧ (updPool k f s).agents = s.agents ∧ (updPool k f s).token = s.token ∧
    (updPool k f s).seeded = s.seeded ∧ (updPool k f s).part = s.part ∧ (updPool k f s).sweep = s.sweep ∧
    (updPool k f s).outer = s.outer ∧ (updPool k f s).inner = s.inner ∧ (updPool k f s).chosen = s.chosen ∧
    (updPool k f s).ports = s.ports ∧ (updPool k f s).mbox = s.mbox ∧ (updPool k f s).args = s.args ∧
    (updPool k f s).res = s.res ∧ (updPool k f s).events = s.events ∧ (updPool k f s).eventEnable = s.eventEnable ∧
    (updPool k f s).nowLatch = s.nowLatch ∧ (updPool k f s).spiData = s.spiData ∧
    (updPool k f s).handed = s.handed ∧ (updPool k f s).freeDraws = s.freeDraws ∧
    (updPool k f s).pending = s.pending := by
  cases k <;> simp [updPool]

/-- Only EVENTS. -/
@[simp] theorem postEvent_keeps (e : Event) (s : State) :
    (postEvent e s).now = s.now ∧ (postEvent e s).tickPeriod = s.tickPeriod ∧ (postEvent e s).tickPos = s.tickPos ∧
    (postEvent e s).marks = s.marks ∧ (postEvent e s).offered = s.offered ∧ (postEvent e s).records = s.records ∧
    (postEvent e s).leases = s.leases ∧ (postEvent e s).gens = s.gens ∧ (postEvent e s).waits = s.waits ∧
    (postEvent e s).domains = s.domains ∧ (postEvent e s).agents = s.agents ∧ (postEvent e s).token = s.token ∧
    (postEvent e s).seeded = s.seeded ∧ (postEvent e s).part = s.part ∧ (postEvent e s).sweep = s.sweep ∧
    (postEvent e s).outer = s.outer ∧ (postEvent e s).inner = s.inner ∧ (postEvent e s).chosen = s.chosen ∧
    (postEvent e s).pools = s.pools ∧ (postEvent e s).ports = s.ports ∧ (postEvent e s).mbox = s.mbox ∧
    (postEvent e s).args = s.args ∧ (postEvent e s).res = s.res ∧ (postEvent e s).eventEnable = s.eventEnable ∧
    (postEvent e s).nowLatch = s.nowLatch ∧ (postEvent e s).spiData = s.spiData ∧
    (postEvent e s).handed = s.handed ∧ (postEvent e s).freeDraws = s.freeDraws ∧
    (postEvent e s).pending = s.pending := by
  exact ⟨rfl, rfl, rfl, rfl, rfl, rfl, rfl, rfl, rfl, rfl, rfl, rfl, rfl, rfl, rfl, rfl, rfl, rfl, rfl, rfl, rfl, rfl, rfl, rfl, rfl, rfl, rfl, rfl, rfl⟩

/-- Only the agent bank. -/
@[simp] theorem setTag_keeps (a : Agent) (t : Tag) (x : TagState) (s : State) :
    (setTag a t x s).now = s.now ∧ (setTag a t x s).tickPeriod = s.tickPeriod ∧
    (setTag a t x s).tickPos = s.tickPos ∧ (setTag a t x s).marks = s.marks ∧ (setTag a t x s).offered = s.offered ∧
    (setTag a t x s).records = s.records ∧ (setTag a t x s).leases = s.leases ∧ (setTag a t x s).gens = s.gens ∧
    (setTag a t x s).waits = s.waits ∧ (setTag a t x s).domains = s.domains ∧ (setTag a t x s).token = s.token ∧
    (setTag a t x s).seeded = s.seeded ∧ (setTag a t x s).part = s.part ∧ (setTag a t x s).sweep = s.sweep ∧
    (setTag a t x s).outer = s.outer ∧ (setTag a t x s).inner = s.inner ∧ (setTag a t x s).chosen = s.chosen ∧
    (setTag a t x s).pools = s.pools ∧ (setTag a t x s).ports = s.ports ∧ (setTag a t x s).mbox = s.mbox ∧
    (setTag a t x s).args = s.args ∧ (setTag a t x s).res = s.res ∧ (setTag a t x s).events = s.events ∧
    (setTag a t x s).eventEnable = s.eventEnable ∧ (setTag a t x s).nowLatch = s.nowLatch ∧
    (setTag a t x s).spiData = s.spiData ∧ (setTag a t x s).handed = s.handed ∧
    (setTag a t x s).freeDraws = s.freeDraws ∧ (setTag a t x s).pending = s.pending := by
  exact ⟨rfl, rfl, rfl, rfl, rfl, rfl, rfl, rfl, rfl, rfl, rfl, rfl, rfl, rfl, rfl, rfl, rfl, rfl, rfl, rfl, rfl, rfl, rfl, rfl, rfl, rfl, rfl, rfl, rfl⟩

/-- Only the agent bank. -/
@[simp] theorem setAgentState_keeps (a : Agent) (x : AgentState) (s : State) :
    (setAgentState a x s).now = s.now ∧ (setAgentState a x s).tickPeriod = s.tickPeriod ∧
    (setAgentState a x s).tickPos = s.tickPos ∧ (setAgentState a x s).marks = s.marks ∧
    (setAgentState a x s).offered = s.offered ∧ (setAgentState a x s).records = s.records ∧
    (setAgentState a x s).leases = s.leases ∧ (setAgentState a x s).gens = s.gens ∧
    (setAgentState a x s).waits = s.waits ∧ (setAgentState a x s).domains = s.domains ∧
    (setAgentState a x s).token = s.token ∧ (setAgentState a x s).seeded = s.seeded ∧
    (setAgentState a x s).part = s.part ∧ (setAgentState a x s).sweep = s.sweep ∧
    (setAgentState a x s).outer = s.outer ∧ (setAgentState a x s).inner = s.inner ∧
    (setAgentState a x s).chosen = s.chosen ∧ (setAgentState a x s).pools = s.pools ∧
    (setAgentState a x s).ports = s.ports ∧ (setAgentState a x s).mbox = s.mbox ∧
    (setAgentState a x s).args = s.args ∧ (setAgentState a x s).res = s.res ∧
    (setAgentState a x s).events = s.events ∧ (setAgentState a x s).eventEnable = s.eventEnable ∧
    (setAgentState a x s).nowLatch = s.nowLatch ∧ (setAgentState a x s).spiData = s.spiData ∧
    (setAgentState a x s).handed = s.handed ∧ (setAgentState a x s).freeDraws = s.freeDraws ∧
    (setAgentState a x s).pending = s.pending := by
  exact ⟨rfl, rfl, rfl, rfl, rfl, rfl, rfl, rfl, rfl, rfl, rfl, rfl, rfl, rfl, rfl, rfl, rfl, rfl, rfl, rfl, rfl, rfl, rfl, rfl, rfl, rfl, rfl, rfl, rfl⟩

/-- Only the agent bank. -/
@[simp] theorem listLease_keeps (a : Agent) (h : Handle) (s : State) :
    (listLease a h s).now = s.now ∧ (listLease a h s).tickPeriod = s.tickPeriod ∧
    (listLease a h s).tickPos = s.tickPos ∧ (listLease a h s).marks = s.marks ∧
    (listLease a h s).offered = s.offered ∧ (listLease a h s).records = s.records ∧
    (listLease a h s).leases = s.leases ∧ (listLease a h s).gens = s.gens ∧ (listLease a h s).waits = s.waits ∧
    (listLease a h s).domains = s.domains ∧ (listLease a h s).token = s.token ∧
    (listLease a h s).seeded = s.seeded ∧ (listLease a h s).part = s.part ∧ (listLease a h s).sweep = s.sweep ∧
    (listLease a h s).outer = s.outer ∧ (listLease a h s).inner = s.inner ∧ (listLease a h s).chosen = s.chosen ∧
    (listLease a h s).pools = s.pools ∧ (listLease a h s).ports = s.ports ∧ (listLease a h s).mbox = s.mbox ∧
    (listLease a h s).args = s.args ∧ (listLease a h s).res = s.res ∧ (listLease a h s).events = s.events ∧
    (listLease a h s).eventEnable = s.eventEnable ∧ (listLease a h s).nowLatch = s.nowLatch ∧
    (listLease a h s).spiData = s.spiData ∧ (listLease a h s).handed = s.handed ∧
    (listLease a h s).freeDraws = s.freeDraws ∧ (listLease a h s).pending = s.pending := by
  exact ⟨rfl, rfl, rfl, rfl, rfl, rfl, rfl, rfl, rfl, rfl, rfl, rfl, rfl, rfl, rfl, rfl, rfl, rfl, rfl, rfl, rfl, rfl, rfl, rfl, rfl, rfl, rfl, rfl, rfl⟩

/-- Only the agent bank. -/
@[simp] theorem unlistLease_keeps (a : Agent) (h : Handle) (s : State) :
    (unlistLease a h s).now = s.now ∧ (unlistLease a h s).tickPeriod = s.tickPeriod ∧
    (unlistLease a h s).tickPos = s.tickPos ∧ (unlistLease a h s).marks = s.marks ∧
    (unlistLease a h s).offered = s.offered ∧ (unlistLease a h s).records = s.records ∧
    (unlistLease a h s).leases = s.leases ∧ (unlistLease a h s).gens = s.gens ∧
    (unlistLease a h s).waits = s.waits ∧ (unlistLease a h s).domains = s.domains ∧
    (unlistLease a h s).token = s.token ∧ (unlistLease a h s).seeded = s.seeded ∧
    (unlistLease a h s).part = s.part ∧ (unlistLease a h s).sweep = s.sweep ∧ (unlistLease a h s).outer = s.outer ∧
    (unlistLease a h s).inner = s.inner ∧ (unlistLease a h s).chosen = s.chosen ∧
    (unlistLease a h s).pools = s.pools ∧ (unlistLease a h s).ports = s.ports ∧ (unlistLease a h s).mbox = s.mbox ∧
    (unlistLease a h s).args = s.args ∧ (unlistLease a h s).res = s.res ∧ (unlistLease a h s).events = s.events ∧
    (unlistLease a h s).eventEnable = s.eventEnable ∧ (unlistLease a h s).nowLatch = s.nowLatch ∧
    (unlistLease a h s).spiData = s.spiData ∧ (unlistLease a h s).handed = s.handed ∧
    (unlistLease a h s).freeDraws = s.freeDraws ∧ (unlistLease a h s).pending = s.pending := by
  exact ⟨rfl, rfl, rfl, rfl, rfl, rfl, rfl, rfl, rfl, rfl, rfl, rfl, rfl, rfl, rfl, rfl, rfl, rfl, rfl, rfl, rfl, rfl, rfl, rfl, rfl, rfl, rfl, rfl, rfl⟩

/-- Only the generations. -/
@[simp] theorem advanceGen_keeps (k : Nat) (s : State) :
    (advanceGen k s).now = s.now ∧ (advanceGen k s).tickPeriod = s.tickPeriod ∧
    (advanceGen k s).tickPos = s.tickPos ∧ (advanceGen k s).marks = s.marks ∧ (advanceGen k s).offered = s.offered ∧
    (advanceGen k s).records = s.records ∧ (advanceGen k s).leases = s.leases ∧ (advanceGen k s).waits = s.waits ∧
    (advanceGen k s).domains = s.domains ∧ (advanceGen k s).agents = s.agents ∧ (advanceGen k s).token = s.token ∧
    (advanceGen k s).seeded = s.seeded ∧ (advanceGen k s).part = s.part ∧ (advanceGen k s).sweep = s.sweep ∧
    (advanceGen k s).outer = s.outer ∧ (advanceGen k s).inner = s.inner ∧ (advanceGen k s).chosen = s.chosen ∧
    (advanceGen k s).pools = s.pools ∧ (advanceGen k s).ports = s.ports ∧ (advanceGen k s).mbox = s.mbox ∧
    (advanceGen k s).args = s.args ∧ (advanceGen k s).res = s.res ∧ (advanceGen k s).events = s.events ∧
    (advanceGen k s).eventEnable = s.eventEnable ∧ (advanceGen k s).nowLatch = s.nowLatch ∧
    (advanceGen k s).spiData = s.spiData ∧ (advanceGen k s).handed = s.handed ∧
    (advanceGen k s).freeDraws = s.freeDraws ∧ (advanceGen k s).pending = s.pending := by
  exact ⟨rfl, rfl, rfl, rfl, rfl, rfl, rfl, rfl, rfl, rfl, rfl, rfl, rfl, rfl, rfl, rfl, rfl, rfl, rfl, rfl, rfl, rfl, rfl, rfl, rfl, rfl, rfl, rfl, rfl⟩

/-- Only the lease pool and its generations. -/
@[simp] theorem freeLeaseEntry_keeps (k : Nat) (s : State) :
    (freeLeaseEntry k s).now = s.now ∧ (freeLeaseEntry k s).tickPeriod = s.tickPeriod ∧
    (freeLeaseEntry k s).tickPos = s.tickPos ∧ (freeLeaseEntry k s).marks = s.marks ∧
    (freeLeaseEntry k s).offered = s.offered ∧ (freeLeaseEntry k s).records = s.records ∧
    (freeLeaseEntry k s).waits = s.waits ∧ (freeLeaseEntry k s).domains = s.domains ∧
    (freeLeaseEntry k s).agents = s.agents ∧ (freeLeaseEntry k s).token = s.token ∧
    (freeLeaseEntry k s).seeded = s.seeded ∧ (freeLeaseEntry k s).part = s.part ∧
    (freeLeaseEntry k s).sweep = s.sweep ∧ (freeLeaseEntry k s).outer = s.outer ∧
    (freeLeaseEntry k s).inner = s.inner ∧ (freeLeaseEntry k s).chosen = s.chosen ∧
    (freeLeaseEntry k s).pools = s.pools ∧ (freeLeaseEntry k s).ports = s.ports ∧
    (freeLeaseEntry k s).mbox = s.mbox ∧ (freeLeaseEntry k s).args = s.args ∧ (freeLeaseEntry k s).res = s.res ∧
    (freeLeaseEntry k s).events = s.events ∧ (freeLeaseEntry k s).eventEnable = s.eventEnable ∧
    (freeLeaseEntry k s).nowLatch = s.nowLatch ∧ (freeLeaseEntry k s).spiData = s.spiData ∧
    (freeLeaseEntry k s).handed = s.handed ∧ (freeLeaseEntry k s).freeDraws = s.freeDraws ∧
    (freeLeaseEntry k s).pending = s.pending := by
  exact ⟨rfl, rfl, rfl, rfl, rfl, rfl, rfl, rfl, rfl, rfl, rfl, rfl, rfl, rfl, rfl, rfl, rfl, rfl, rfl, rfl, rfl, rfl, rfl, rfl, rfl, rfl, rfl, rfl⟩

/-- Only the lease pool. -/
@[simp] theorem updLease_keeps (k : Nat) (f : Lease → Lease) (s : State) :
    (updLease k f s).now = s.now ∧ (updLease k f s).tickPeriod = s.tickPeriod ∧
    (updLease k f s).tickPos = s.tickPos ∧ (updLease k f s).marks = s.marks ∧ (updLease k f s).offered = s.offered ∧
    (updLease k f s).records = s.records ∧ (updLease k f s).gens = s.gens ∧ (updLease k f s).waits = s.waits ∧
    (updLease k f s).domains = s.domains ∧ (updLease k f s).agents = s.agents ∧ (updLease k f s).token = s.token ∧
    (updLease k f s).seeded = s.seeded ∧ (updLease k f s).part = s.part ∧ (updLease k f s).sweep = s.sweep ∧
    (updLease k f s).outer = s.outer ∧ (updLease k f s).inner = s.inner ∧ (updLease k f s).chosen = s.chosen ∧
    (updLease k f s).pools = s.pools ∧ (updLease k f s).ports = s.ports ∧ (updLease k f s).mbox = s.mbox ∧
    (updLease k f s).args = s.args ∧ (updLease k f s).res = s.res ∧ (updLease k f s).events = s.events ∧
    (updLease k f s).eventEnable = s.eventEnable ∧ (updLease k f s).nowLatch = s.nowLatch ∧
    (updLease k f s).spiData = s.spiData ∧ (updLease k f s).handed = s.handed ∧
    (updLease k f s).freeDraws = s.freeDraws ∧ (updLease k f s).pending = s.pending := by
  unfold updLease; repeat' split
  all_goals simp

/-- Only the lock table. -/
@[simp] theorem updRecord_keeps (n : Nat) (f : LockRecord → LockRecord) (s : State) :
    (updRecord n f s).now = s.now ∧ (updRecord n f s).tickPeriod = s.tickPeriod ∧
    (updRecord n f s).tickPos = s.tickPos ∧ (updRecord n f s).marks = s.marks ∧
    (updRecord n f s).offered = s.offered ∧ (updRecord n f s).leases = s.leases ∧ (updRecord n f s).gens = s.gens ∧
    (updRecord n f s).waits = s.waits ∧ (updRecord n f s).domains = s.domains ∧
    (updRecord n f s).agents = s.agents ∧ (updRecord n f s).token = s.token ∧ (updRecord n f s).seeded = s.seeded ∧
    (updRecord n f s).part = s.part ∧ (updRecord n f s).sweep = s.sweep ∧ (updRecord n f s).outer = s.outer ∧
    (updRecord n f s).inner = s.inner ∧ (updRecord n f s).chosen = s.chosen ∧ (updRecord n f s).pools = s.pools ∧
    (updRecord n f s).ports = s.ports ∧ (updRecord n f s).mbox = s.mbox ∧ (updRecord n f s).args = s.args ∧
    (updRecord n f s).res = s.res ∧ (updRecord n f s).events = s.events ∧
    (updRecord n f s).eventEnable = s.eventEnable ∧ (updRecord n f s).nowLatch = s.nowLatch ∧
    (updRecord n f s).spiData = s.spiData ∧ (updRecord n f s).handed = s.handed ∧
    (updRecord n f s).freeDraws = s.freeDraws ∧ (updRecord n f s).pending = s.pending := by
  unfold updRecord; repeat' split
  all_goals simp

/-- Only what the item has handed over. -/
@[simp] theorem noteHanded_keeps (p : Port) (s : State) :
    (noteHanded p s).now = s.now ∧ (noteHanded p s).tickPeriod = s.tickPeriod ∧
    (noteHanded p s).tickPos = s.tickPos ∧ (noteHanded p s).marks = s.marks ∧ (noteHanded p s).offered = s.offered ∧
    (noteHanded p s).records = s.records ∧ (noteHanded p s).leases = s.leases ∧ (noteHanded p s).gens = s.gens ∧
    (noteHanded p s).waits = s.waits ∧ (noteHanded p s).domains = s.domains ∧ (noteHanded p s).agents = s.agents ∧
    (noteHanded p s).token = s.token ∧ (noteHanded p s).seeded = s.seeded ∧ (noteHanded p s).part = s.part ∧
    (noteHanded p s).sweep = s.sweep ∧ (noteHanded p s).outer = s.outer ∧ (noteHanded p s).inner = s.inner ∧
    (noteHanded p s).chosen = s.chosen ∧ (noteHanded p s).pools = s.pools ∧ (noteHanded p s).ports = s.ports ∧
    (noteHanded p s).mbox = s.mbox ∧ (noteHanded p s).args = s.args ∧ (noteHanded p s).res = s.res ∧
    (noteHanded p s).events = s.events ∧ (noteHanded p s).eventEnable = s.eventEnable ∧
    (noteHanded p s).nowLatch = s.nowLatch ∧ (noteHanded p s).spiData = s.spiData ∧
    (noteHanded p s).freeDraws = s.freeDraws ∧ (noteHanded p s).pending = s.pending := by
  exact ⟨rfl, rfl, rfl, rfl, rfl, rfl, rfl, rfl, rfl, rfl, rfl, rfl, rfl, rfl, rfl, rfl, rfl, rfl, rfl, rfl, rfl, rfl, rfl, rfl, rfl, rfl, rfl, rfl, rfl⟩

/-- Only the port bank, with a free value drawn. -/
@[simp] theorem portGoesOn_keeps (x : EgressTurn) (p : Port) (s : State) :
    (portGoesOn x p s).now = s.now ∧ (portGoesOn x p s).tickPeriod = s.tickPeriod ∧
    (portGoesOn x p s).tickPos = s.tickPos ∧ (portGoesOn x p s).marks = s.marks ∧
    (portGoesOn x p s).offered = s.offered ∧ (portGoesOn x p s).records = s.records ∧
    (portGoesOn x p s).leases = s.leases ∧ (portGoesOn x p s).gens = s.gens ∧ (portGoesOn x p s).waits = s.waits ∧
    (portGoesOn x p s).domains = s.domains ∧ (portGoesOn x p s).agents = s.agents ∧
    (portGoesOn x p s).token = s.token ∧ (portGoesOn x p s).seeded = s.seeded ∧ (portGoesOn x p s).part = s.part ∧
    (portGoesOn x p s).sweep = s.sweep ∧ (portGoesOn x p s).outer = s.outer ∧ (portGoesOn x p s).inner = s.inner ∧
    (portGoesOn x p s).chosen = s.chosen ∧ (portGoesOn x p s).pools = s.pools ∧ (portGoesOn x p s).mbox = s.mbox ∧
    (portGoesOn x p s).args = s.args ∧ (portGoesOn x p s).res = s.res ∧ (portGoesOn x p s).events = s.events ∧
    (portGoesOn x p s).eventEnable = s.eventEnable ∧ (portGoesOn x p s).nowLatch = s.nowLatch ∧
    (portGoesOn x p s).spiData = s.spiData ∧ (portGoesOn x p s).handed = s.handed ∧
    (portGoesOn x p s).pending = s.pending := by
  unfold portGoesOn; repeat' split
  all_goals simp

/-- Only the port bank, with a free value drawn. -/
@[simp] theorem handPort_keeps (x : EgressTurn) (p : Port) (f : PortState → PortState) (s : State) :
    (handPort x p f s).now = s.now ∧ (handPort x p f s).tickPeriod = s.tickPeriod ∧
    (handPort x p f s).tickPos = s.tickPos ∧ (handPort x p f s).marks = s.marks ∧
    (handPort x p f s).offered = s.offered ∧ (handPort x p f s).records = s.records ∧
    (handPort x p f s).leases = s.leases ∧ (handPort x p f s).gens = s.gens ∧ (handPort x p f s).waits = s.waits ∧
    (handPort x p f s).domains = s.domains ∧ (handPort x p f s).agents = s.agents ∧
    (handPort x p f s).token = s.token ∧ (handPort x p f s).seeded = s.seeded ∧ (handPort x p f s).part = s.part ∧
    (handPort x p f s).sweep = s.sweep ∧ (handPort x p f s).outer = s.outer ∧ (handPort x p f s).inner = s.inner ∧
    (handPort x p f s).chosen = s.chosen ∧ (handPort x p f s).pools = s.pools ∧ (handPort x p f s).mbox = s.mbox ∧
    (handPort x p f s).args = s.args ∧ (handPort x p f s).res = s.res ∧ (handPort x p f s).events = s.events ∧
    (handPort x p f s).eventEnable = s.eventEnable ∧ (handPort x p f s).nowLatch = s.nowLatch ∧
    (handPort x p f s).spiData = s.spiData ∧ (handPort x p f s).pending = s.pending := by
  unfold handPort; repeat' split
  all_goals simp

/-- Only the port bank, with a free value drawn. -/
@[simp] theorem placeReply_keeps (a : Agent) (r : Reply) (s : State) :
    (placeReply a r s).now = s.now ∧ (placeReply a r s).tickPeriod = s.tickPeriod ∧
    (placeReply a r s).tickPos = s.tickPos ∧ (placeReply a r s).marks = s.marks ∧
    (placeReply a r s).offered = s.offered ∧ (placeReply a r s).records = s.records ∧
    (placeReply a r s).leases = s.leases ∧ (placeReply a r s).gens = s.gens ∧ (placeReply a r s).waits = s.waits ∧
    (placeReply a r s).domains = s.domains ∧ (placeReply a r s).agents = s.agents ∧
    (placeReply a r s).token = s.token ∧ (placeReply a r s).seeded = s.seeded ∧ (placeReply a r s).part = s.part ∧
    (placeReply a r s).sweep = s.sweep ∧ (placeReply a r s).outer = s.outer ∧ (placeReply a r s).inner = s.inner ∧
    (placeReply a r s).chosen = s.chosen ∧ (placeReply a r s).pools = s.pools ∧ (placeReply a r s).mbox = s.mbox ∧
    (placeReply a r s).args = s.args ∧ (placeReply a r s).res = s.res ∧ (placeReply a r s).events = s.events ∧
    (placeReply a r s).eventEnable = s.eventEnable ∧ (placeReply a r s).nowLatch = s.nowLatch ∧
    (placeReply a r s).spiData = s.spiData ∧ (placeReply a r s).pending = s.pending := by
  simp [placeReply]

/-- Only the port bank, with a free value drawn. -/
@[simp] theorem placeNotice_keeps (a : Agent) (f : List Notice → List Notice) (s : State) :
    (placeNotice a f s).now = s.now ∧ (placeNotice a f s).tickPeriod = s.tickPeriod ∧
    (placeNotice a f s).tickPos = s.tickPos ∧ (placeNotice a f s).marks = s.marks ∧
    (placeNotice a f s).offered = s.offered ∧ (placeNotice a f s).records = s.records ∧
    (placeNotice a f s).leases = s.leases ∧ (placeNotice a f s).gens = s.gens ∧
    (placeNotice a f s).waits = s.waits ∧ (placeNotice a f s).domains = s.domains ∧
    (placeNotice a f s).agents = s.agents ∧ (placeNotice a f s).token = s.token ∧
    (placeNotice a f s).seeded = s.seeded ∧ (placeNotice a f s).part = s.part ∧
    (placeNotice a f s).sweep = s.sweep ∧ (placeNotice a f s).outer = s.outer ∧
    (placeNotice a f s).inner = s.inner ∧ (placeNotice a f s).chosen = s.chosen ∧
    (placeNotice a f s).pools = s.pools ∧ (placeNotice a f s).mbox = s.mbox ∧ (placeNotice a f s).args = s.args ∧
    (placeNotice a f s).res = s.res ∧ (placeNotice a f s).events = s.events ∧
    (placeNotice a f s).eventEnable = s.eventEnable ∧ (placeNotice a f s).nowLatch = s.nowLatch ∧
    (placeNotice a f s).spiData = s.spiData ∧ (placeNotice a f s).pending = s.pending := by
  simp [placeNotice]

/-- The tag and the port, with a free value drawn. -/
@[simp] theorem answerTag_keeps (a : Agent) (t : Tag) (kind : Byte) (st : Status) (c : Content) (s : State) :
    (answerTag a t kind st c s).now = s.now ∧ (answerTag a t kind st c s).tickPeriod = s.tickPeriod ∧
    (answerTag a t kind st c s).tickPos = s.tickPos ∧ (answerTag a t kind st c s).marks = s.marks ∧
    (answerTag a t kind st c s).offered = s.offered ∧ (answerTag a t kind st c s).records = s.records ∧
    (answerTag a t kind st c s).leases = s.leases ∧ (answerTag a t kind st c s).gens = s.gens ∧
    (answerTag a t kind st c s).waits = s.waits ∧ (answerTag a t kind st c s).domains = s.domains ∧
    (answerTag a t kind st c s).token = s.token ∧ (answerTag a t kind st c s).seeded = s.seeded ∧
    (answerTag a t kind st c s).part = s.part ∧ (answerTag a t kind st c s).sweep = s.sweep ∧
    (answerTag a t kind st c s).outer = s.outer ∧ (answerTag a t kind st c s).inner = s.inner ∧
    (answerTag a t kind st c s).chosen = s.chosen ∧ (answerTag a t kind st c s).pools = s.pools ∧
    (answerTag a t kind st c s).mbox = s.mbox ∧ (answerTag a t kind st c s).args = s.args ∧
    (answerTag a t kind st c s).res = s.res ∧ (answerTag a t kind st c s).events = s.events ∧
    (answerTag a t kind st c s).eventEnable = s.eventEnable ∧ (answerTag a t kind st c s).nowLatch = s.nowLatch ∧
    (answerTag a t kind st c s).spiData = s.spiData ∧ (answerTag a t kind st c s).pending = s.pending := by
  simp [answerTag]

/-- Only the port bank, with a free value drawn. -/
@[simp] theorem answerNoTag_keeps (a : Agent) (t : Tag) (kind : Byte) (st : Status) (s : State) :
    (answerNoTag a t kind st s).now = s.now ∧ (answerNoTag a t kind st s).tickPeriod = s.tickPeriod ∧
    (answerNoTag a t kind st s).tickPos = s.tickPos ∧ (answerNoTag a t kind st s).marks = s.marks ∧
    (answerNoTag a t kind st s).offered = s.offered ∧ (answerNoTag a t kind st s).records = s.records ∧
    (answerNoTag a t kind st s).leases = s.leases ∧ (answerNoTag a t kind st s).gens = s.gens ∧
    (answerNoTag a t kind st s).waits = s.waits ∧ (answerNoTag a t kind st s).domains = s.domains ∧
    (answerNoTag a t kind st s).agents = s.agents ∧ (answerNoTag a t kind st s).token = s.token ∧
    (answerNoTag a t kind st s).seeded = s.seeded ∧ (answerNoTag a t kind st s).part = s.part ∧
    (answerNoTag a t kind st s).sweep = s.sweep ∧ (answerNoTag a t kind st s).outer = s.outer ∧
    (answerNoTag a t kind st s).inner = s.inner ∧ (answerNoTag a t kind st s).chosen = s.chosen ∧
    (answerNoTag a t kind st s).pools = s.pools ∧ (answerNoTag a t kind st s).mbox = s.mbox ∧
    (answerNoTag a t kind st s).args = s.args ∧ (answerNoTag a t kind st s).res = s.res ∧
    (answerNoTag a t kind st s).events = s.events ∧ (answerNoTag a t kind st s).eventEnable = s.eventEnable ∧
    (answerNoTag a t kind st s).nowLatch = s.nowLatch ∧ (answerNoTag a t kind st s).spiData = s.spiData ∧
    (answerNoTag a t kind st s).pending = s.pending := by
  simp [answerNoTag]

/-- Only the mailbox, the result words and EVENTS. -/
@[simp] theorem completeCmd_keeps (res : CmdResult) (words : List Word) (s : State) :
    (completeCmd res words s).now = s.now ∧ (completeCmd res words s).tickPeriod = s.tickPeriod ∧
    (completeCmd res words s).tickPos = s.tickPos ∧ (completeCmd res words s).marks = s.marks ∧
    (completeCmd res words s).offered = s.offered ∧ (completeCmd res words s).records = s.records ∧
    (completeCmd res words s).leases = s.leases ∧ (completeCmd res words s).gens = s.gens ∧
    (completeCmd res words s).waits = s.waits ∧ (completeCmd res words s).domains = s.domains ∧
    (completeCmd res words s).agents = s.agents ∧ (completeCmd res words s).token = s.token ∧
    (completeCmd res words s).seeded = s.seeded ∧ (completeCmd res words s).part = s.part ∧
    (completeCmd res words s).sweep = s.sweep ∧ (completeCmd res words s).outer = s.outer ∧
    (completeCmd res words s).inner = s.inner ∧ (completeCmd res words s).chosen = s.chosen ∧
    (completeCmd res words s).pools = s.pools ∧ (completeCmd res words s).ports = s.ports ∧
    (completeCmd res words s).args = s.args ∧ (completeCmd res words s).eventEnable = s.eventEnable ∧
    (completeCmd res words s).nowLatch = s.nowLatch ∧ (completeCmd res words s).spiData = s.spiData ∧
    (completeCmd res words s).handed = s.handed ∧ (completeCmd res words s).freeDraws = s.freeDraws ∧
    (completeCmd res words s).pending = s.pending := by
  exact ⟨rfl, rfl, rfl, rfl, rfl, rfl, rfl, rfl, rfl, rfl, rfl, rfl, rfl, rfl, rfl, rfl, rfl, rfl, rfl, rfl, rfl, rfl, rfl, rfl, rfl, rfl, rfl⟩

/-- Only the mailbox, the result words and EVENTS. -/
@[simp] theorem completeTaken_keeps (code : Byte) (res : CmdResult) (words : List Word) (s : State) :
    (completeTaken code res words s).now = s.now ∧ (completeTaken code res words s).tickPeriod = s.tickPeriod ∧
    (completeTaken code res words s).tickPos = s.tickPos ∧ (completeTaken code res words s).marks = s.marks ∧
    (completeTaken code res words s).offered = s.offered ∧ (completeTaken code res words s).records = s.records ∧
    (completeTaken code res words s).leases = s.leases ∧ (completeTaken code res words s).gens = s.gens ∧
    (completeTaken code res words s).waits = s.waits ∧ (completeTaken code res words s).domains = s.domains ∧
    (completeTaken code res words s).agents = s.agents ∧ (completeTaken code res words s).token = s.token ∧
    (completeTaken code res words s).seeded = s.seeded ∧ (completeTaken code res words s).part = s.part ∧
    (completeTaken code res words s).sweep = s.sweep ∧ (completeTaken code res words s).outer = s.outer ∧
    (completeTaken code res words s).inner = s.inner ∧ (completeTaken code res words s).chosen = s.chosen ∧
    (completeTaken code res words s).pools = s.pools ∧ (completeTaken code res words s).ports = s.ports ∧
    (completeTaken code res words s).args = s.args ∧ (completeTaken code res words s).eventEnable = s.eventEnable ∧
    (completeTaken code res words s).nowLatch = s.nowLatch ∧ (completeTaken code res words s).spiData = s.spiData ∧
    (completeTaken code res words s).handed = s.handed ∧ (completeTaken code res words s).freeDraws = s.freeDraws ∧
    (completeTaken code res words s).pending = s.pending := by
  unfold completeTaken; repeat' split
  all_goals simp

/-- Only the mailbox. -/
@[simp] theorem mailboxRunning_keeps (s : State) :
    (mailboxRunning s).now = s.now ∧ (mailboxRunning s).tickPeriod = s.tickPeriod ∧
    (mailboxRunning s).tickPos = s.tickPos ∧ (mailboxRunning s).marks = s.marks ∧
    (mailboxRunning s).offered = s.offered ∧ (mailboxRunning s).records = s.records ∧
    (mailboxRunning s).leases = s.leases ∧ (mailboxRunning s).gens = s.gens ∧ (mailboxRunning s).waits = s.waits ∧
    (mailboxRunning s).domains = s.domains ∧ (mailboxRunning s).agents = s.agents ∧
    (mailboxRunning s).token = s.token ∧ (mailboxRunning s).seeded = s.seeded ∧ (mailboxRunning s).part = s.part ∧
    (mailboxRunning s).sweep = s.sweep ∧ (mailboxRunning s).outer = s.outer ∧ (mailboxRunning s).inner = s.inner ∧
    (mailboxRunning s).chosen = s.chosen ∧ (mailboxRunning s).pools = s.pools ∧ (mailboxRunning s).ports = s.ports ∧
    (mailboxRunning s).args = s.args ∧ (mailboxRunning s).res = s.res ∧ (mailboxRunning s).events = s.events ∧
    (mailboxRunning s).eventEnable = s.eventEnable ∧ (mailboxRunning s).nowLatch = s.nowLatch ∧
    (mailboxRunning s).spiData = s.spiData ∧ (mailboxRunning s).handed = s.handed ∧
    (mailboxRunning s).freeDraws = s.freeDraws ∧ (mailboxRunning s).pending = s.pending := by
  exact ⟨rfl, rfl, rfl, rfl, rfl, rfl, rfl, rfl, rfl, rfl, rfl, rfl, rfl, rfl, rfl, rfl, rfl, rfl, rfl, rfl, rfl, rfl, rfl, rfl, rfl, rfl, rfl, rfl, rfl⟩

/-- Only the mailbox, the attachments and EVENTS. -/
@[simp] theorem supersede_keeps (auto : Bool) (latched : Vector Word 8) (s : State) :
    (supersede auto latched s).now = s.now ∧ (supersede auto latched s).tickPeriod = s.tickPeriod ∧
    (supersede auto latched s).tickPos = s.tickPos ∧ (supersede auto latched s).marks = s.marks ∧
    (supersede auto latched s).offered = s.offered ∧ (supersede auto latched s).records = s.records ∧
    (supersede auto latched s).leases = s.leases ∧ (supersede auto latched s).gens = s.gens ∧
    (supersede auto latched s).waits = s.waits ∧ (supersede auto latched s).domains = s.domains ∧
    (supersede auto latched s).agents = s.agents ∧ (supersede auto latched s).token = s.token ∧
    (supersede auto latched s).seeded = s.seeded ∧ (supersede auto latched s).part = s.part ∧
    (supersede auto latched s).outer = s.outer ∧ (supersede auto latched s).inner = s.inner ∧
    (supersede auto latched s).chosen = s.chosen ∧ (supersede auto latched s).pools = s.pools ∧
    (supersede auto latched s).ports = s.ports ∧ (supersede auto latched s).args = s.args ∧
    (supersede auto latched s).res = s.res ∧ (supersede auto latched s).eventEnable = s.eventEnable ∧
    (supersede auto latched s).nowLatch = s.nowLatch ∧ (supersede auto latched s).spiData = s.spiData ∧
    (supersede auto latched s).handed = s.handed ∧ (supersede auto latched s).freeDraws = s.freeDraws ∧
    (supersede auto latched s).pending = s.pending := by
  exact ⟨rfl, rfl, rfl, rfl, rfl, rfl, rfl, rfl, rfl, rfl, rfl, rfl, rfl, rfl, rfl, rfl, rfl, rfl, rfl, rfl, rfl, rfl, rfl, rfl, rfl, rfl, rfl⟩

/-- Only the mailbox, the attachments and EVENTS. -/
@[simp] theorem placeAutoAbort_keeps (s : State) :
    (placeAutoAbort s).now = s.now ∧ (placeAutoAbort s).tickPeriod = s.tickPeriod ∧
    (placeAutoAbort s).tickPos = s.tickPos ∧ (placeAutoAbort s).marks = s.marks ∧
    (placeAutoAbort s).offered = s.offered ∧ (placeAutoAbort s).records = s.records ∧
    (placeAutoAbort s).leases = s.leases ∧ (placeAutoAbort s).gens = s.gens ∧ (placeAutoAbort s).waits = s.waits ∧
    (placeAutoAbort s).domains = s.domains ∧ (placeAutoAbort s).agents = s.agents ∧
    (placeAutoAbort s).token = s.token ∧ (placeAutoAbort s).seeded = s.seeded ∧ (placeAutoAbort s).part = s.part ∧
    (placeAutoAbort s).outer = s.outer ∧ (placeAutoAbort s).inner = s.inner ∧ (placeAutoAbort s).chosen = s.chosen ∧
    (placeAutoAbort s).pools = s.pools ∧ (placeAutoAbort s).ports = s.ports ∧ (placeAutoAbort s).args = s.args ∧
    (placeAutoAbort s).res = s.res ∧ (placeAutoAbort s).eventEnable = s.eventEnable ∧
    (placeAutoAbort s).nowLatch = s.nowLatch ∧ (placeAutoAbort s).spiData = s.spiData ∧
    (placeAutoAbort s).handed = s.handed ∧ (placeAutoAbort s).freeDraws = s.freeDraws ∧
    (placeAutoAbort s).pending = s.pending := by
  unfold placeAutoAbort; repeat' split
  all_goals simp

/-- Only the part state, the sweep list and EVENTS. -/
@[simp] theorem startAbort_keeps (attached : Bool) (s : State) :
    (startAbort attached s).now = s.now ∧ (startAbort attached s).tickPeriod = s.tickPeriod ∧
    (startAbort attached s).tickPos = s.tickPos ∧ (startAbort attached s).marks = s.marks ∧
    (startAbort attached s).offered = s.offered ∧ (startAbort attached s).records = s.records ∧
    (startAbort attached s).leases = s.leases ∧ (startAbort attached s).gens = s.gens ∧
    (startAbort attached s).waits = s.waits ∧ (startAbort attached s).domains = s.domains ∧
    (startAbort attached s).agents = s.agents ∧ (startAbort attached s).token = s.token ∧
    (startAbort attached s).seeded = s.seeded ∧ (startAbort attached s).outer = s.outer ∧
    (startAbort attached s).inner = s.inner ∧ (startAbort attached s).chosen = s.chosen ∧
    (startAbort attached s).pools = s.pools ∧ (startAbort attached s).ports = s.ports ∧
    (startAbort attached s).mbox = s.mbox ∧ (startAbort attached s).args = s.args ∧
    (startAbort attached s).res = s.res ∧ (startAbort attached s).eventEnable = s.eventEnable ∧
    (startAbort attached s).nowLatch = s.nowLatch ∧ (startAbort attached s).spiData = s.spiData ∧
    (startAbort attached s).handed = s.handed ∧ (startAbort attached s).freeDraws = s.freeDraws ∧
    (startAbort attached s).pending = s.pending := by
  exact ⟨rfl, rfl, rfl, rfl, rfl, rfl, rfl, rfl, rfl, rfl, rfl, rfl, rfl, rfl, rfl, rfl, rfl, rfl, rfl, rfl, rfl, rfl, rfl, rfl, rfl, rfl, rfl⟩

/-- What the token end changes. -/
@[simp] theorem tokenEndReached_keeps (s : State) :
    (tokenEndReached s).now = s.now ∧ (tokenEndReached s).tickPeriod = s.tickPeriod ∧
    (tokenEndReached s).tickPos = s.tickPos ∧ (tokenEndReached s).marks = s.marks ∧
    (tokenEndReached s).offered = s.offered ∧ (tokenEndReached s).records = s.records ∧
    (tokenEndReached s).leases = s.leases ∧ (tokenEndReached s).gens = s.gens ∧
    (tokenEndReached s).waits = s.waits ∧ (tokenEndReached s).domains = s.domains ∧
    (tokenEndReached s).agents = s.agents ∧ (tokenEndReached s).token = s.token ∧
    (tokenEndReached s).outer = s.outer ∧ (tokenEndReached s).inner = s.inner ∧
    (tokenEndReached s).chosen = s.chosen ∧ (tokenEndReached s).pools = s.pools ∧
    (tokenEndReached s).ports = s.ports ∧ (tokenEndReached s).args = s.args ∧ (tokenEndReached s).res = s.res ∧
    (tokenEndReached s).eventEnable = s.eventEnable ∧ (tokenEndReached s).nowLatch = s.nowLatch ∧
    (tokenEndReached s).spiData = s.spiData ∧ (tokenEndReached s).handed = s.handed ∧
    (tokenEndReached s).freeDraws = s.freeDraws ∧ (tokenEndReached s).pending = s.pending := by
  unfold tokenEndReached; dsimp only; simp only [postEvent_keeps]; split <;> simp

/-- Only the part state, the offer and EVENTS. -/
@[simp] theorem enterHalted_keeps (s : State) :
    (enterHalted s).now = s.now ∧ (enterHalted s).tickPeriod = s.tickPeriod ∧ (enterHalted s).tickPos = s.tickPos ∧
    (enterHalted s).marks = s.marks ∧ (enterHalted s).records = s.records ∧ (enterHalted s).leases = s.leases ∧
    (enterHalted s).gens = s.gens ∧ (enterHalted s).waits = s.waits ∧ (enterHalted s).domains = s.domains ∧
    (enterHalted s).agents = s.agents ∧ (enterHalted s).token = s.token ∧ (enterHalted s).seeded = s.seeded ∧
    (enterHalted s).sweep = s.sweep ∧ (enterHalted s).outer = s.outer ∧ (enterHalted s).inner = s.inner ∧
    (enterHalted s).chosen = s.chosen ∧ (enterHalted s).pools = s.pools ∧ (enterHalted s).ports = s.ports ∧
    (enterHalted s).mbox = s.mbox ∧ (enterHalted s).args = s.args ∧ (enterHalted s).res = s.res ∧
    (enterHalted s).eventEnable = s.eventEnable ∧ (enterHalted s).nowLatch = s.nowLatch ∧
    (enterHalted s).spiData = s.spiData ∧ (enterHalted s).handed = s.handed ∧
    (enterHalted s).freeDraws = s.freeDraws ∧ (enterHalted s).pending = s.pending := by
  exact ⟨rfl, rfl, rfl, rfl, rfl, rfl, rfl, rfl, rfl, rfl, rfl, rfl, rfl, rfl, rfl, rfl, rfl, rfl, rfl, rfl, rfl, rfl, rfl, rfl, rfl, rfl, rfl⟩

/-- Only the due marks. -/
@[simp] theorem unmark_keeps (e : TimedEntry) (s : State) :
    (unmark e s).now = s.now ∧ (unmark e s).tickPeriod = s.tickPeriod ∧ (unmark e s).tickPos = s.tickPos ∧
    (unmark e s).offered = s.offered ∧ (unmark e s).records = s.records ∧ (unmark e s).leases = s.leases ∧
    (unmark e s).gens = s.gens ∧ (unmark e s).waits = s.waits ∧ (unmark e s).domains = s.domains ∧
    (unmark e s).agents = s.agents ∧ (unmark e s).token = s.token ∧ (unmark e s).seeded = s.seeded ∧
    (unmark e s).part = s.part ∧ (unmark e s).sweep = s.sweep ∧ (unmark e s).outer = s.outer ∧
    (unmark e s).inner = s.inner ∧ (unmark e s).chosen = s.chosen ∧ (unmark e s).pools = s.pools ∧
    (unmark e s).ports = s.ports ∧ (unmark e s).mbox = s.mbox ∧ (unmark e s).args = s.args ∧
    (unmark e s).res = s.res ∧ (unmark e s).events = s.events ∧ (unmark e s).eventEnable = s.eventEnable ∧
    (unmark e s).nowLatch = s.nowLatch ∧ (unmark e s).spiData = s.spiData ∧ (unmark e s).handed = s.handed ∧
    (unmark e s).freeDraws = s.freeDraws ∧ (unmark e s).pending = s.pending := by
  exact ⟨rfl, rfl, rfl, rfl, rfl, rfl, rfl, rfl, rfl, rfl, rfl, rfl, rfl, rfl, rfl, rfl, rfl, rfl, rfl, rfl, rfl, rfl, rfl, rfl, rfl, rfl, rfl, rfl, rfl⟩

/-- Only the due marks. -/
@[simp] theorem mark_keeps (e : TimedEntry) (s : State) :
    (mark e s).now = s.now ∧ (mark e s).tickPeriod = s.tickPeriod ∧ (mark e s).tickPos = s.tickPos ∧
    (mark e s).offered = s.offered ∧ (mark e s).records = s.records ∧ (mark e s).leases = s.leases ∧
    (mark e s).gens = s.gens ∧ (mark e s).waits = s.waits ∧ (mark e s).domains = s.domains ∧
    (mark e s).agents = s.agents ∧ (mark e s).token = s.token ∧ (mark e s).seeded = s.seeded ∧
    (mark e s).part = s.part ∧ (mark e s).sweep = s.sweep ∧ (mark e s).outer = s.outer ∧
    (mark e s).inner = s.inner ∧ (mark e s).chosen = s.chosen ∧ (mark e s).pools = s.pools ∧
    (mark e s).ports = s.ports ∧ (mark e s).mbox = s.mbox ∧ (mark e s).args = s.args ∧ (mark e s).res = s.res ∧
    (mark e s).events = s.events ∧ (mark e s).eventEnable = s.eventEnable ∧ (mark e s).nowLatch = s.nowLatch ∧
    (mark e s).spiData = s.spiData ∧ (mark e s).handed = s.handed ∧ (mark e s).freeDraws = s.freeDraws ∧
    (mark e s).pending = s.pending := by
  unfold mark; repeat' split
  all_goals simp

/-- Only the due marks. -/
@[simp] theorem recompare_keeps (e : TimedEntry) (s : State) :
    (recompare e s).now = s.now ∧ (recompare e s).tickPeriod = s.tickPeriod ∧ (recompare e s).tickPos = s.tickPos ∧
    (recompare e s).offered = s.offered ∧ (recompare e s).records = s.records ∧ (recompare e s).leases = s.leases ∧
    (recompare e s).gens = s.gens ∧ (recompare e s).waits = s.waits ∧ (recompare e s).domains = s.domains ∧
    (recompare e s).agents = s.agents ∧ (recompare e s).token = s.token ∧ (recompare e s).seeded = s.seeded ∧
    (recompare e s).part = s.part ∧ (recompare e s).sweep = s.sweep ∧ (recompare e s).outer = s.outer ∧
    (recompare e s).inner = s.inner ∧ (recompare e s).chosen = s.chosen ∧ (recompare e s).pools = s.pools ∧
    (recompare e s).ports = s.ports ∧ (recompare e s).mbox = s.mbox ∧ (recompare e s).args = s.args ∧
    (recompare e s).res = s.res ∧ (recompare e s).events = s.events ∧ (recompare e s).eventEnable = s.eventEnable ∧
    (recompare e s).nowLatch = s.nowLatch ∧ (recompare e s).spiData = s.spiData ∧
    (recompare e s).handed = s.handed ∧ (recompare e s).freeDraws = s.freeDraws ∧
    (recompare e s).pending = s.pending := by
  unfold recompare; repeat' split
  all_goals simp

/-- Only the due marks. -/
@[simp] theorem foldl_recompare_keeps (l : List Handle) (s : State) :
    (l.foldl (fun s h => recompare (.lease h.num) s) s).now = s.now ∧
    (l.foldl (fun s h => recompare (.lease h.num) s) s).tickPeriod = s.tickPeriod ∧
    (l.foldl (fun s h => recompare (.lease h.num) s) s).tickPos = s.tickPos ∧
    (l.foldl (fun s h => recompare (.lease h.num) s) s).offered = s.offered ∧
    (l.foldl (fun s h => recompare (.lease h.num) s) s).records = s.records ∧
    (l.foldl (fun s h => recompare (.lease h.num) s) s).leases = s.leases ∧
    (l.foldl (fun s h => recompare (.lease h.num) s) s).gens = s.gens ∧
    (l.foldl (fun s h => recompare (.lease h.num) s) s).waits = s.waits ∧
    (l.foldl (fun s h => recompare (.lease h.num) s) s).domains = s.domains ∧
    (l.foldl (fun s h => recompare (.lease h.num) s) s).agents = s.agents ∧
    (l.foldl (fun s h => recompare (.lease h.num) s) s).token = s.token ∧
    (l.foldl (fun s h => recompare (.lease h.num) s) s).seeded = s.seeded ∧
    (l.foldl (fun s h => recompare (.lease h.num) s) s).part = s.part ∧
    (l.foldl (fun s h => recompare (.lease h.num) s) s).sweep = s.sweep ∧
    (l.foldl (fun s h => recompare (.lease h.num) s) s).outer = s.outer ∧
    (l.foldl (fun s h => recompare (.lease h.num) s) s).inner = s.inner ∧
    (l.foldl (fun s h => recompare (.lease h.num) s) s).chosen = s.chosen ∧
    (l.foldl (fun s h => recompare (.lease h.num) s) s).pools = s.pools ∧
    (l.foldl (fun s h => recompare (.lease h.num) s) s).ports = s.ports ∧
    (l.foldl (fun s h => recompare (.lease h.num) s) s).mbox = s.mbox ∧
    (l.foldl (fun s h => recompare (.lease h.num) s) s).args = s.args ∧
    (l.foldl (fun s h => recompare (.lease h.num) s) s).res = s.res ∧
    (l.foldl (fun s h => recompare (.lease h.num) s) s).events = s.events ∧
    (l.foldl (fun s h => recompare (.lease h.num) s) s).eventEnable = s.eventEnable ∧
    (l.foldl (fun s h => recompare (.lease h.num) s) s).nowLatch = s.nowLatch ∧
    (l.foldl (fun s h => recompare (.lease h.num) s) s).spiData = s.spiData ∧
    (l.foldl (fun s h => recompare (.lease h.num) s) s).handed = s.handed ∧
    (l.foldl (fun s h => recompare (.lease h.num) s) s).freeDraws = s.freeDraws ∧
    (l.foldl (fun s h => recompare (.lease h.num) s) s).pending = s.pending := by
  induction l generalizing s with
  | nil => simp
  | cons h rest ih => simp [ih]

/-- Only the due marks. -/
@[simp] theorem recompareLeases_keeps (a : Agent) (s : State) :
    (recompareLeases a s).now = s.now ∧ (recompareLeases a s).tickPeriod = s.tickPeriod ∧
    (recompareLeases a s).tickPos = s.tickPos ∧ (recompareLeases a s).offered = s.offered ∧
    (recompareLeases a s).records = s.records ∧ (recompareLeases a s).leases = s.leases ∧
    (recompareLeases a s).gens = s.gens ∧ (recompareLeases a s).waits = s.waits ∧
    (recompareLeases a s).domains = s.domains ∧ (recompareLeases a s).agents = s.agents ∧
    (recompareLeases a s).token = s.token ∧ (recompareLeases a s).seeded = s.seeded ∧
    (recompareLeases a s).part = s.part ∧ (recompareLeases a s).sweep = s.sweep ∧
    (recompareLeases a s).outer = s.outer ∧ (recompareLeases a s).inner = s.inner ∧
    (recompareLeases a s).chosen = s.chosen ∧ (recompareLeases a s).pools = s.pools ∧
    (recompareLeases a s).ports = s.ports ∧ (recompareLeases a s).mbox = s.mbox ∧
    (recompareLeases a s).args = s.args ∧ (recompareLeases a s).res = s.res ∧
    (recompareLeases a s).events = s.events ∧ (recompareLeases a s).eventEnable = s.eventEnable ∧
    (recompareLeases a s).nowLatch = s.nowLatch ∧ (recompareLeases a s).spiData = s.spiData ∧
    (recompareLeases a s).handed = s.handed ∧ (recompareLeases a s).freeDraws = s.freeDraws ∧
    (recompareLeases a s).pending = s.pending := by
  simp [recompareLeases]

/-- Only the due marks. -/
@[simp] theorem markAllDue_keeps (s : State) :
    (markAllDue s).now = s.now ∧ (markAllDue s).tickPeriod = s.tickPeriod ∧ (markAllDue s).tickPos = s.tickPos ∧
    (markAllDue s).offered = s.offered ∧ (markAllDue s).records = s.records ∧ (markAllDue s).leases = s.leases ∧
    (markAllDue s).gens = s.gens ∧ (markAllDue s).waits = s.waits ∧ (markAllDue s).domains = s.domains ∧
    (markAllDue s).agents = s.agents ∧ (markAllDue s).token = s.token ∧ (markAllDue s).seeded = s.seeded ∧
    (markAllDue s).part = s.part ∧ (markAllDue s).sweep = s.sweep ∧ (markAllDue s).outer = s.outer ∧
    (markAllDue s).inner = s.inner ∧ (markAllDue s).chosen = s.chosen ∧ (markAllDue s).pools = s.pools ∧
    (markAllDue s).ports = s.ports ∧ (markAllDue s).mbox = s.mbox ∧ (markAllDue s).args = s.args ∧
    (markAllDue s).res = s.res ∧ (markAllDue s).events = s.events ∧ (markAllDue s).eventEnable = s.eventEnable ∧
    (markAllDue s).nowLatch = s.nowLatch ∧ (markAllDue s).spiData = s.spiData ∧ (markAllDue s).handed = s.handed ∧
    (markAllDue s).freeDraws = s.freeDraws ∧ (markAllDue s).pending = s.pending := by
  exact ⟨rfl, rfl, rfl, rfl, rfl, rfl, rfl, rfl, rfl, rfl, rfl, rfl, rfl, rfl, rfl, rfl, rfl, rfl, rfl, rfl, rfl, rfl, rfl, rfl, rfl, rfl, rfl, rfl, rfl⟩

/-- Only the offer. -/
@[simp] theorem offerTimer_keeps (s : State) :
    (offerTimer s).now = s.now ∧ (offerTimer s).tickPeriod = s.tickPeriod ∧ (offerTimer s).tickPos = s.tickPos ∧
    (offerTimer s).marks = s.marks ∧ (offerTimer s).records = s.records ∧ (offerTimer s).leases = s.leases ∧
    (offerTimer s).gens = s.gens ∧ (offerTimer s).waits = s.waits ∧ (offerTimer s).domains = s.domains ∧
    (offerTimer s).agents = s.agents ∧ (offerTimer s).token = s.token ∧ (offerTimer s).seeded = s.seeded ∧
    (offerTimer s).part = s.part ∧ (offerTimer s).sweep = s.sweep ∧ (offerTimer s).outer = s.outer ∧
    (offerTimer s).inner = s.inner ∧ (offerTimer s).chosen = s.chosen ∧ (offerTimer s).pools = s.pools ∧
    (offerTimer s).ports = s.ports ∧ (offerTimer s).mbox = s.mbox ∧ (offerTimer s).args = s.args ∧
    (offerTimer s).res = s.res ∧ (offerTimer s).events = s.events ∧ (offerTimer s).eventEnable = s.eventEnable ∧
    (offerTimer s).nowLatch = s.nowLatch ∧ (offerTimer s).spiData = s.spiData ∧ (offerTimer s).handed = s.handed ∧
    (offerTimer s).freeDraws = s.freeDraws ∧ (offerTimer s).pending = s.pending := by
  unfold offerTimer; repeat' split
  all_goals simp

/-- Only the offer. -/
@[simp] theorem takeOffer_keeps (e : TimedEntry) (s : State) :
    (takeOffer e s).now = s.now ∧ (takeOffer e s).tickPeriod = s.tickPeriod ∧ (takeOffer e s).tickPos = s.tickPos ∧
    (takeOffer e s).marks = s.marks ∧ (takeOffer e s).records = s.records ∧ (takeOffer e s).leases = s.leases ∧
    (takeOffer e s).gens = s.gens ∧ (takeOffer e s).waits = s.waits ∧ (takeOffer e s).domains = s.domains ∧
    (takeOffer e s).agents = s.agents ∧ (takeOffer e s).token = s.token ∧ (takeOffer e s).seeded = s.seeded ∧
    (takeOffer e s).part = s.part ∧ (takeOffer e s).sweep = s.sweep ∧ (takeOffer e s).outer = s.outer ∧
    (takeOffer e s).inner = s.inner ∧ (takeOffer e s).chosen = s.chosen ∧ (takeOffer e s).pools = s.pools ∧
    (takeOffer e s).ports = s.ports ∧ (takeOffer e s).mbox = s.mbox ∧ (takeOffer e s).args = s.args ∧
    (takeOffer e s).res = s.res ∧ (takeOffer e s).events = s.events ∧ (takeOffer e s).eventEnable = s.eventEnable ∧
    (takeOffer e s).nowLatch = s.nowLatch ∧ (takeOffer e s).spiData = s.spiData ∧
    (takeOffer e s).handed = s.handed ∧ (takeOffer e s).freeDraws = s.freeDraws ∧
    (takeOffer e s).pending = s.pending := by
  exact ⟨rfl, rfl, rfl, rfl, rfl, rfl, rfl, rfl, rfl, rfl, rfl, rfl, rfl, rfl, rfl, rfl, rfl, rfl, rfl, rfl, rfl, rfl, rfl, rfl, rfl, rfl, rfl, rfl, rfl⟩

/-- What a grant changes. -/
@[simp] theorem grantLease_keeps (n k : Nat) (a : Agent) (m : Mode) (ticks : Nat) (s : State) :
    (grantLease n k a m ticks s).now = s.now ∧ (grantLease n k a m ticks s).tickPeriod = s.tickPeriod ∧
    (grantLease n k a m ticks s).tickPos = s.tickPos ∧ (grantLease n k a m ticks s).offered = s.offered ∧
    (grantLease n k a m ticks s).gens = s.gens ∧ (grantLease n k a m ticks s).waits = s.waits ∧
    (grantLease n k a m ticks s).domains = s.domains ∧ (grantLease n k a m ticks s).seeded = s.seeded ∧
    (grantLease n k a m ticks s).part = s.part ∧ (grantLease n k a m ticks s).sweep = s.sweep ∧
    (grantLease n k a m ticks s).outer = s.outer ∧ (grantLease n k a m ticks s).inner = s.inner ∧
    (grantLease n k a m ticks s).chosen = s.chosen ∧ (grantLease n k a m ticks s).pools = s.pools ∧
    (grantLease n k a m ticks s).ports = s.ports ∧ (grantLease n k a m ticks s).mbox = s.mbox ∧
    (grantLease n k a m ticks s).args = s.args ∧ (grantLease n k a m ticks s).res = s.res ∧
    (grantLease n k a m ticks s).events = s.events ∧ (grantLease n k a m ticks s).eventEnable = s.eventEnable ∧
    (grantLease n k a m ticks s).nowLatch = s.nowLatch ∧ (grantLease n k a m ticks s).spiData = s.spiData ∧
    (grantLease n k a m ticks s).handed = s.handed ∧ (grantLease n k a m ticks s).freeDraws = s.freeDraws ∧
    (grantLease n k a m ticks s).pending = s.pending := by
  unfold grantLease; repeat' split
  all_goals simp

/-- Only the tag and the reply queue. -/
@[simp] theorem answerGranted_keeps (a : Agent) (t : Tag) (kind : Byte) (k : Nat) (s : State) :
    (answerGranted a t kind k s).now = s.now ∧ (answerGranted a t kind k s).tickPeriod = s.tickPeriod ∧
    (answerGranted a t kind k s).tickPos = s.tickPos ∧ (answerGranted a t kind k s).marks = s.marks ∧
    (answerGranted a t kind k s).offered = s.offered ∧ (answerGranted a t kind k s).records = s.records ∧
    (answerGranted a t kind k s).leases = s.leases ∧ (answerGranted a t kind k s).gens = s.gens ∧
    (answerGranted a t kind k s).waits = s.waits ∧ (answerGranted a t kind k s).domains = s.domains ∧
    (answerGranted a t kind k s).token = s.token ∧ (answerGranted a t kind k s).seeded = s.seeded ∧
    (answerGranted a t kind k s).part = s.part ∧ (answerGranted a t kind k s).sweep = s.sweep ∧
    (answerGranted a t kind k s).outer = s.outer ∧ (answerGranted a t kind k s).inner = s.inner ∧
    (answerGranted a t kind k s).chosen = s.chosen ∧ (answerGranted a t kind k s).pools = s.pools ∧
    (answerGranted a t kind k s).mbox = s.mbox ∧ (answerGranted a t kind k s).args = s.args ∧
    (answerGranted a t kind k s).res = s.res ∧ (answerGranted a t kind k s).events = s.events ∧
    (answerGranted a t kind k s).eventEnable = s.eventEnable ∧ (answerGranted a t kind k s).nowLatch = s.nowLatch ∧
    (answerGranted a t kind k s).spiData = s.spiData ∧ (answerGranted a t kind k s).pending = s.pending := by
  unfold answerGranted; repeat' split
  all_goals simp

/-- What a dequeue changes. -/
@[simp] theorem dequeueWait_keeps (w : Nat) (e : WaitEntry) (s : State) :
    (dequeueWait w e s).now = s.now ∧ (dequeueWait w e s).tickPeriod = s.tickPeriod ∧
    (dequeueWait w e s).tickPos = s.tickPos ∧ (dequeueWait w e s).offered = s.offered ∧
    (dequeueWait w e s).leases = s.leases ∧ (dequeueWait w e s).gens = s.gens ∧
    (dequeueWait w e s).domains = s.domains ∧ (dequeueWait w e s).agents = s.agents ∧
    (dequeueWait w e s).token = s.token ∧ (dequeueWait w e s).seeded = s.seeded ∧
    (dequeueWait w e s).part = s.part ∧ (dequeueWait w e s).sweep = s.sweep ∧ (dequeueWait w e s).outer = s.outer ∧
    (dequeueWait w e s).inner = s.inner ∧ (dequeueWait w e s).chosen = s.chosen ∧
    (dequeueWait w e s).pools = s.pools ∧ (dequeueWait w e s).ports = s.ports ∧ (dequeueWait w e s).mbox = s.mbox ∧
    (dequeueWait w e s).args = s.args ∧ (dequeueWait w e s).res = s.res ∧ (dequeueWait w e s).events = s.events ∧
    (dequeueWait w e s).eventEnable = s.eventEnable ∧ (dequeueWait w e s).nowLatch = s.nowLatch ∧
    (dequeueWait w e s).spiData = s.spiData ∧ (dequeueWait w e s).handed = s.handed ∧
    (dequeueWait w e s).freeDraws = s.freeDraws ∧ (dequeueWait w e s).pending = s.pending := by
  simp [dequeueWait]

/-- What the removal of a wait changes. -/
@[simp] theorem removeWait_keeps (w : Nat) (ans : Option Status) (s : State) :
    (removeWait w ans s).now = s.now ∧ (removeWait w ans s).tickPeriod = s.tickPeriod ∧
    (removeWait w ans s).tickPos = s.tickPos ∧ (removeWait w ans s).offered = s.offered ∧
    (removeWait w ans s).domains = s.domains ∧ (removeWait w ans s).token = s.token ∧
    (removeWait w ans s).seeded = s.seeded ∧ (removeWait w ans s).part = s.part ∧
    (removeWait w ans s).sweep = s.sweep ∧ (removeWait w ans s).outer = s.outer ∧
    (removeWait w ans s).inner = s.inner ∧ (removeWait w ans s).chosen = s.chosen ∧
    (removeWait w ans s).pools = s.pools ∧ (removeWait w ans s).mbox = s.mbox ∧ (removeWait w ans s).args = s.args ∧
    (removeWait w ans s).res = s.res ∧ (removeWait w ans s).events = s.events ∧
    (removeWait w ans s).eventEnable = s.eventEnable ∧ (removeWait w ans s).nowLatch = s.nowLatch ∧
    (removeWait w ans s).spiData = s.spiData ∧ (removeWait w ans s).pending = s.pending := by
  unfold removeWait; repeat' split
  all_goals simp

/-- What the drop of an upgrade changes. -/
@[simp] theorem dropUpgrade_keeps (n : Nat) (ans : Option Status) (s : State) :
    (dropUpgrade n ans s).now = s.now ∧ (dropUpgrade n ans s).tickPeriod = s.tickPeriod ∧
    (dropUpgrade n ans s).tickPos = s.tickPos ∧ (dropUpgrade n ans s).offered = s.offered ∧
    (dropUpgrade n ans s).leases = s.leases ∧ (dropUpgrade n ans s).gens = s.gens ∧
    (dropUpgrade n ans s).waits = s.waits ∧ (dropUpgrade n ans s).domains = s.domains ∧
    (dropUpgrade n ans s).token = s.token ∧ (dropUpgrade n ans s).seeded = s.seeded ∧
    (dropUpgrade n ans s).part = s.part ∧ (dropUpgrade n ans s).sweep = s.sweep ∧
    (dropUpgrade n ans s).outer = s.outer ∧ (dropUpgrade n ans s).inner = s.inner ∧
    (dropUpgrade n ans s).chosen = s.chosen ∧ (dropUpgrade n ans s).pools = s.pools ∧
    (dropUpgrade n ans s).mbox = s.mbox ∧ (dropUpgrade n ans s).args = s.args ∧ (dropUpgrade n ans s).res = s.res ∧
    (dropUpgrade n ans s).events = s.events ∧ (dropUpgrade n ans s).eventEnable = s.eventEnable ∧
    (dropUpgrade n ans s).nowLatch = s.nowLatch ∧ (dropUpgrade n ans s).spiData = s.spiData ∧
    (dropUpgrade n ans s).pending = s.pending := by
  unfold dropUpgrade; repeat' split
  all_goals simp

/-- What an upgrade's grant changes. -/
@[simp] theorem upgradeLease_keeps (n k : Nat) (s : State) :
    (upgradeLease n k s).now = s.now ∧ (upgradeLease n k s).tickPeriod = s.tickPeriod ∧
    (upgradeLease n k s).tickPos = s.tickPos ∧ (upgradeLease n k s).marks = s.marks ∧
    (upgradeLease n k s).offered = s.offered ∧ (upgradeLease n k s).gens = s.gens ∧
    (upgradeLease n k s).waits = s.waits ∧ (upgradeLease n k s).domains = s.domains ∧
    (upgradeLease n k s).agents = s.agents ∧ (upgradeLease n k s).seeded = s.seeded ∧
    (upgradeLease n k s).part = s.part ∧ (upgradeLease n k s).sweep = s.sweep ∧
    (upgradeLease n k s).outer = s.outer ∧ (upgradeLease n k s).inner = s.inner ∧
    (upgradeLease n k s).chosen = s.chosen ∧ (upgradeLease n k s).pools = s.pools ∧
    (upgradeLease n k s).ports = s.ports ∧ (upgradeLease n k s).mbox = s.mbox ∧ (upgradeLease n k s).args = s.args ∧
    (upgradeLease n k s).res = s.res ∧ (upgradeLease n k s).events = s.events ∧
    (upgradeLease n k s).eventEnable = s.eventEnable ∧ (upgradeLease n k s).nowLatch = s.nowLatch ∧
    (upgradeLease n k s).spiData = s.spiData ∧ (upgradeLease n k s).handed = s.handed ∧
    (upgradeLease n k s).freeDraws = s.freeDraws ∧ (upgradeLease n k s).pending = s.pending := by
  simp [upgradeLease]

/-- What an upgrade's grant and answer change. -/
@[simp] theorem grantUpgrade_keeps (n : Nat) (u : Upgrade) (s : State) :
    (grantUpgrade n u s).now = s.now ∧ (grantUpgrade n u s).tickPeriod = s.tickPeriod ∧
    (grantUpgrade n u s).tickPos = s.tickPos ∧ (grantUpgrade n u s).offered = s.offered ∧
    (grantUpgrade n u s).gens = s.gens ∧ (grantUpgrade n u s).waits = s.waits ∧
    (grantUpgrade n u s).domains = s.domains ∧ (grantUpgrade n u s).seeded = s.seeded ∧
    (grantUpgrade n u s).part = s.part ∧ (grantUpgrade n u s).sweep = s.sweep ∧
    (grantUpgrade n u s).outer = s.outer ∧ (grantUpgrade n u s).inner = s.inner ∧
    (grantUpgrade n u s).chosen = s.chosen ∧ (grantUpgrade n u s).pools = s.pools ∧
    (grantUpgrade n u s).mbox = s.mbox ∧ (grantUpgrade n u s).args = s.args ∧ (grantUpgrade n u s).res = s.res ∧
    (grantUpgrade n u s).events = s.events ∧ (grantUpgrade n u s).eventEnable = s.eventEnable ∧
    (grantUpgrade n u s).nowLatch = s.nowLatch ∧ (grantUpgrade n u s).spiData = s.spiData ∧
    (grantUpgrade n u s).pending = s.pending := by
  unfold grantUpgrade; dsimp only; split <;> simp

/-- What the grant of a queue head changes. -/
@[simp] theorem grantWait_keeps (n w : Nat) (e : WaitEntry) (s : State) :
    (grantWait n w e s).now = s.now ∧ (grantWait n w e s).tickPeriod = s.tickPeriod ∧
    (grantWait n w e s).tickPos = s.tickPos ∧ (grantWait n w e s).offered = s.offered ∧
    (grantWait n w e s).domains = s.domains ∧ (grantWait n w e s).seeded = s.seeded ∧
    (grantWait n w e s).part = s.part ∧ (grantWait n w e s).sweep = s.sweep ∧ (grantWait n w e s).outer = s.outer ∧
    (grantWait n w e s).inner = s.inner ∧ (grantWait n w e s).chosen = s.chosen ∧
    (grantWait n w e s).pools = s.pools ∧ (grantWait n w e s).mbox = s.mbox ∧ (grantWait n w e s).args = s.args ∧
    (grantWait n w e s).res = s.res ∧ (grantWait n w e s).events = s.events ∧
    (grantWait n w e s).eventEnable = s.eventEnable ∧ (grantWait n w e s).nowLatch = s.nowLatch ∧
    (grantWait n w e s).spiData = s.spiData ∧ (grantWait n w e s).pending = s.pending := by
  simp [grantWait]

/-- What step 3 of grant evaluation changes. -/
@[simp] theorem grantHeads_keeps (n : Nat) (q : List Nat) (s : State) :
    (grantHeads n q s).now = s.now ∧ (grantHeads n q s).tickPeriod = s.tickPeriod ∧
    (grantHeads n q s).tickPos = s.tickPos ∧ (grantHeads n q s).offered = s.offered ∧
    (grantHeads n q s).domains = s.domains ∧ (grantHeads n q s).seeded = s.seeded ∧
    (grantHeads n q s).part = s.part ∧ (grantHeads n q s).sweep = s.sweep ∧ (grantHeads n q s).outer = s.outer ∧
    (grantHeads n q s).inner = s.inner ∧ (grantHeads n q s).chosen = s.chosen ∧ (grantHeads n q s).pools = s.pools ∧
    (grantHeads n q s).mbox = s.mbox ∧ (grantHeads n q s).args = s.args ∧ (grantHeads n q s).res = s.res ∧
    (grantHeads n q s).events = s.events ∧ (grantHeads n q s).eventEnable = s.eventEnable ∧
    (grantHeads n q s).nowLatch = s.nowLatch ∧ (grantHeads n q s).spiData = s.spiData ∧
    (grantHeads n q s).pending = s.pending := by
  induction q generalizing s with
  | nil => simp [grantHeads]
  | cons w rest ih =>
    unfold grantHeads; repeat' split
    all_goals simp [ih]

/-- Only the lock table. -/
@[simp] theorem retireRecord_keeps (n : Nat) (s : State) :
    (retireRecord n s).now = s.now ∧ (retireRecord n s).tickPeriod = s.tickPeriod ∧
    (retireRecord n s).tickPos = s.tickPos ∧ (retireRecord n s).marks = s.marks ∧
    (retireRecord n s).offered = s.offered ∧ (retireRecord n s).leases = s.leases ∧
    (retireRecord n s).gens = s.gens ∧ (retireRecord n s).waits = s.waits ∧ (retireRecord n s).domains = s.domains ∧
    (retireRecord n s).agents = s.agents ∧ (retireRecord n s).token = s.token ∧
    (retireRecord n s).seeded = s.seeded ∧ (retireRecord n s).part = s.part ∧ (retireRecord n s).sweep = s.sweep ∧
    (retireRecord n s).outer = s.outer ∧ (retireRecord n s).inner = s.inner ∧ (retireRecord n s).chosen = s.chosen ∧
    (retireRecord n s).pools = s.pools ∧ (retireRecord n s).ports = s.ports ∧ (retireRecord n s).mbox = s.mbox ∧
    (retireRecord n s).args = s.args ∧ (retireRecord n s).res = s.res ∧ (retireRecord n s).events = s.events ∧
    (retireRecord n s).eventEnable = s.eventEnable ∧ (retireRecord n s).nowLatch = s.nowLatch ∧
    (retireRecord n s).spiData = s.spiData ∧ (retireRecord n s).handed = s.handed ∧
    (retireRecord n s).freeDraws = s.freeDraws ∧ (retireRecord n s).pending = s.pending := by
  unfold retireRecord; repeat' split
  all_goals simp

/-- What steps 3 and 4 of grant evaluation change. -/
@[simp] theorem evaluateQueue_keeps (n : Nat) (s : State) :
    (evaluateQueue n s).now = s.now ∧ (evaluateQueue n s).tickPeriod = s.tickPeriod ∧
    (evaluateQueue n s).tickPos = s.tickPos ∧ (evaluateQueue n s).offered = s.offered ∧
    (evaluateQueue n s).domains = s.domains ∧ (evaluateQueue n s).seeded = s.seeded ∧
    (evaluateQueue n s).part = s.part ∧ (evaluateQueue n s).sweep = s.sweep ∧ (evaluateQueue n s).outer = s.outer ∧
    (evaluateQueue n s).inner = s.inner ∧ (evaluateQueue n s).chosen = s.chosen ∧
    (evaluateQueue n s).pools = s.pools ∧ (evaluateQueue n s).mbox = s.mbox ∧ (evaluateQueue n s).args = s.args ∧
    (evaluateQueue n s).res = s.res ∧ (evaluateQueue n s).events = s.events ∧
    (evaluateQueue n s).eventEnable = s.eventEnable ∧ (evaluateQueue n s).nowLatch = s.nowLatch ∧
    (evaluateQueue n s).spiData = s.spiData ∧ (evaluateQueue n s).pending = s.pending := by
  unfold evaluateQueue; repeat' split
  all_goals simp

/-- What grant evaluation changes. -/
@[simp] theorem evaluateRecord_keeps (n : Nat) (s : State) :
    (evaluateRecord n s).now = s.now ∧ (evaluateRecord n s).tickPeriod = s.tickPeriod ∧
    (evaluateRecord n s).tickPos = s.tickPos ∧ (evaluateRecord n s).offered = s.offered ∧
    (evaluateRecord n s).domains = s.domains ∧ (evaluateRecord n s).seeded = s.seeded ∧
    (evaluateRecord n s).part = s.part ∧ (evaluateRecord n s).sweep = s.sweep ∧
    (evaluateRecord n s).outer = s.outer ∧ (evaluateRecord n s).inner = s.inner ∧
    (evaluateRecord n s).chosen = s.chosen ∧ (evaluateRecord n s).pools = s.pools ∧
    (evaluateRecord n s).mbox = s.mbox ∧ (evaluateRecord n s).args = s.args ∧ (evaluateRecord n s).res = s.res ∧
    (evaluateRecord n s).events = s.events ∧ (evaluateRecord n s).eventEnable = s.eventEnable ∧
    (evaluateRecord n s).nowLatch = s.nowLatch ∧ (evaluateRecord n s).spiData = s.spiData ∧
    (evaluateRecord n s).pending = s.pending := by
  unfold evaluateRecord; repeat' split
  all_goals simp

/-- What grant evaluation and the token end change. -/
@[simp] theorem evaluate_keeps (n : Nat) (s : State) :
    (evaluate n s).now = s.now ∧ (evaluate n s).tickPeriod = s.tickPeriod ∧ (evaluate n s).tickPos = s.tickPos ∧
    (evaluate n s).offered = s.offered ∧ (evaluate n s).domains = s.domains ∧ (evaluate n s).outer = s.outer ∧
    (evaluate n s).inner = s.inner ∧ (evaluate n s).chosen = s.chosen ∧ (evaluate n s).pools = s.pools ∧
    (evaluate n s).args = s.args ∧ (evaluate n s).res = s.res ∧ (evaluate n s).eventEnable = s.eventEnable ∧
    (evaluate n s).nowLatch = s.nowLatch ∧ (evaluate n s).spiData = s.spiData ∧
    (evaluate n s).pending = s.pending := by
  unfold evaluate withTokenEnd; dsimp only; repeat' split
  all_goals simp

/-- What the end of a lease changes. -/
@[simp] theorem endLease_keeps (k : Nat) (s : State) :
    (endLease k s).now = s.now ∧ (endLease k s).tickPeriod = s.tickPeriod ∧ (endLease k s).tickPos = s.tickPos ∧
    (endLease k s).offered = s.offered ∧ (endLease k s).waits = s.waits ∧ (endLease k s).domains = s.domains ∧
    (endLease k s).token = s.token ∧ (endLease k s).seeded = s.seeded ∧ (endLease k s).part = s.part ∧
    (endLease k s).sweep = s.sweep ∧ (endLease k s).outer = s.outer ∧ (endLease k s).inner = s.inner ∧
    (endLease k s).chosen = s.chosen ∧ (endLease k s).pools = s.pools ∧ (endLease k s).ports = s.ports ∧
    (endLease k s).mbox = s.mbox ∧ (endLease k s).args = s.args ∧ (endLease k s).res = s.res ∧
    (endLease k s).events = s.events ∧ (endLease k s).eventEnable = s.eventEnable ∧
    (endLease k s).nowLatch = s.nowLatch ∧ (endLease k s).spiData = s.spiData ∧ (endLease k s).handed = s.handed ∧
    (endLease k s).freeDraws = s.freeDraws ∧ (endLease k s).pending = s.pending := by
  unfold endLease; repeat' split
  all_goals simp

/-- What a loss changes. -/
@[simp] theorem loseLease_keeps (k : Nat) (reason : LossReason) (s : State) :
    (loseLease k reason s).now = s.now ∧ (loseLease k reason s).tickPeriod = s.tickPeriod ∧
    (loseLease k reason s).tickPos = s.tickPos ∧ (loseLease k reason s).offered = s.offered ∧
    (loseLease k reason s).waits = s.waits ∧ (loseLease k reason s).domains = s.domains ∧
    (loseLease k reason s).token = s.token ∧ (loseLease k reason s).seeded = s.seeded ∧
    (loseLease k reason s).part = s.part ∧ (loseLease k reason s).sweep = s.sweep ∧
    (loseLease k reason s).outer = s.outer ∧ (loseLease k reason s).inner = s.inner ∧
    (loseLease k reason s).chosen = s.chosen ∧ (loseLease k reason s).pools = s.pools ∧
    (loseLease k reason s).mbox = s.mbox ∧ (loseLease k reason s).args = s.args ∧
    (loseLease k reason s).res = s.res ∧ (loseLease k reason s).events = s.events ∧
    (loseLease k reason s).eventEnable = s.eventEnable ∧ (loseLease k reason s).nowLatch = s.nowLatch ∧
    (loseLease k reason s).spiData = s.spiData ∧ (loseLease k reason s).pending = s.pending := by
  unfold loseLease; repeat' split
  all_goals simp

/-- What the fence of one tag changes. -/
@[simp] theorem fenceTag_keeps (a : Agent) (t : Tag) (s : State) :
    (fenceTag a s t).now = s.now ∧ (fenceTag a s t).tickPeriod = s.tickPeriod ∧
    (fenceTag a s t).tickPos = s.tickPos ∧ (fenceTag a s t).offered = s.offered ∧
    (fenceTag a s t).domains = s.domains ∧ (fenceTag a s t).outer = s.outer ∧ (fenceTag a s t).inner = s.inner ∧
    (fenceTag a s t).chosen = s.chosen ∧ (fenceTag a s t).pools = s.pools ∧ (fenceTag a s t).args = s.args ∧
    (fenceTag a s t).res = s.res ∧ (fenceTag a s t).eventEnable = s.eventEnable ∧
    (fenceTag a s t).nowLatch = s.nowLatch ∧ (fenceTag a s t).spiData = s.spiData ∧
    (fenceTag a s t).pending = s.pending := by
  unfold fenceTag; repeat' split
  all_goals simp

/-- What the fence of the tags changes. -/
@[simp] theorem foldl_fenceTag_keeps (a : Agent) (l : List Tag) (s : State) :
    (l.foldl (fenceTag a) s).now = s.now ∧ (l.foldl (fenceTag a) s).tickPeriod = s.tickPeriod ∧
    (l.foldl (fenceTag a) s).tickPos = s.tickPos ∧ (l.foldl (fenceTag a) s).offered = s.offered ∧
    (l.foldl (fenceTag a) s).domains = s.domains ∧ (l.foldl (fenceTag a) s).outer = s.outer ∧
    (l.foldl (fenceTag a) s).inner = s.inner ∧ (l.foldl (fenceTag a) s).chosen = s.chosen ∧
    (l.foldl (fenceTag a) s).pools = s.pools ∧ (l.foldl (fenceTag a) s).args = s.args ∧
    (l.foldl (fenceTag a) s).res = s.res ∧ (l.foldl (fenceTag a) s).eventEnable = s.eventEnable ∧
    (l.foldl (fenceTag a) s).nowLatch = s.nowLatch ∧ (l.foldl (fenceTag a) s).spiData = s.spiData ∧
    (l.foldl (fenceTag a) s).pending = s.pending := by
  induction l generalizing s with
  | nil => simp
  | cons t rest ih => simp [ih]

/-- Only the agent bank and the sweep list. -/
@[simp] theorem fenceJob_keeps (a : Agent) (s : State) :
    (fenceJob a s).now = s.now ∧ (fenceJob a s).tickPeriod = s.tickPeriod ∧ (fenceJob a s).tickPos = s.tickPos ∧
    (fenceJob a s).marks = s.marks ∧ (fenceJob a s).offered = s.offered ∧ (fenceJob a s).records = s.records ∧
    (fenceJob a s).leases = s.leases ∧ (fenceJob a s).gens = s.gens ∧ (fenceJob a s).waits = s.waits ∧
    (fenceJob a s).domains = s.domains ∧ (fenceJob a s).token = s.token ∧ (fenceJob a s).seeded = s.seeded ∧
    (fenceJob a s).part = s.part ∧ (fenceJob a s).outer = s.outer ∧ (fenceJob a s).inner = s.inner ∧
    (fenceJob a s).chosen = s.chosen ∧ (fenceJob a s).pools = s.pools ∧ (fenceJob a s).ports = s.ports ∧
    (fenceJob a s).mbox = s.mbox ∧ (fenceJob a s).args = s.args ∧ (fenceJob a s).res = s.res ∧
    (fenceJob a s).events = s.events ∧ (fenceJob a s).eventEnable = s.eventEnable ∧
    (fenceJob a s).nowLatch = s.nowLatch ∧ (fenceJob a s).spiData = s.spiData ∧ (fenceJob a s).handed = s.handed ∧
    (fenceJob a s).freeDraws = s.freeDraws ∧ (fenceJob a s).pending = s.pending := by
  unfold fenceJob; repeat' split
  all_goals simp

/-- What entering FENCING changes. -/
@[simp] theorem enterFencing_keeps (a : Agent) (s : State) :
    (enterFencing a s).now = s.now ∧ (enterFencing a s).tickPeriod = s.tickPeriod ∧
    (enterFencing a s).tickPos = s.tickPos ∧ (enterFencing a s).offered = s.offered ∧
    (enterFencing a s).domains = s.domains ∧ (enterFencing a s).outer = s.outer ∧
    (enterFencing a s).inner = s.inner ∧ (enterFencing a s).chosen = s.chosen ∧ (enterFencing a s).pools = s.pools ∧
    (enterFencing a s).args = s.args ∧ (enterFencing a s).res = s.res ∧
    (enterFencing a s).eventEnable = s.eventEnable ∧ (enterFencing a s).nowLatch = s.nowLatch ∧
    (enterFencing a s).spiData = s.spiData ∧ (enterFencing a s).pending = s.pending := by
  simp [enterFencing]

/-- Only the arbiter. -/
@[simp] theorem choose_keeps (ok : Member → Bool) (s : State) :
    (choose ok s).now = s.now ∧ (choose ok s).tickPeriod = s.tickPeriod ∧ (choose ok s).tickPos = s.tickPos ∧
    (choose ok s).marks = s.marks ∧ (choose ok s).offered = s.offered ∧ (choose ok s).records = s.records ∧
    (choose ok s).leases = s.leases ∧ (choose ok s).gens = s.gens ∧ (choose ok s).waits = s.waits ∧
    (choose ok s).domains = s.domains ∧ (choose ok s).agents = s.agents ∧ (choose ok s).token = s.token ∧
    (choose ok s).seeded = s.seeded ∧ (choose ok s).part = s.part ∧ (choose ok s).sweep = s.sweep ∧
    (choose ok s).pools = s.pools ∧ (choose ok s).ports = s.ports ∧ (choose ok s).mbox = s.mbox ∧
    (choose ok s).args = s.args ∧ (choose ok s).res = s.res ∧ (choose ok s).events = s.events ∧
    (choose ok s).eventEnable = s.eventEnable ∧ (choose ok s).nowLatch = s.nowLatch ∧
    (choose ok s).spiData = s.spiData ∧ (choose ok s).handed = s.handed ∧ (choose ok s).freeDraws = s.freeDraws ∧
    (choose ok s).pending = s.pending := by
  unfold choose; repeat' split
  all_goals simp

/-- Only the arbiter. -/
@[simp] theorem withChoice_keeps (s : State) :
    (withChoice s).now = s.now ∧ (withChoice s).tickPeriod = s.tickPeriod ∧ (withChoice s).tickPos = s.tickPos ∧
    (withChoice s).marks = s.marks ∧ (withChoice s).offered = s.offered ∧ (withChoice s).records = s.records ∧
    (withChoice s).leases = s.leases ∧ (withChoice s).gens = s.gens ∧ (withChoice s).waits = s.waits ∧
    (withChoice s).domains = s.domains ∧ (withChoice s).agents = s.agents ∧ (withChoice s).token = s.token ∧
    (withChoice s).seeded = s.seeded ∧ (withChoice s).part = s.part ∧ (withChoice s).sweep = s.sweep ∧
    (withChoice s).pools = s.pools ∧ (withChoice s).ports = s.ports ∧ (withChoice s).mbox = s.mbox ∧
    (withChoice s).args = s.args ∧ (withChoice s).res = s.res ∧ (withChoice s).events = s.events ∧
    (withChoice s).eventEnable = s.eventEnable ∧ (withChoice s).nowLatch = s.nowLatch ∧
    (withChoice s).spiData = s.spiData ∧ (withChoice s).handed = s.handed ∧ (withChoice s).freeDraws = s.freeDraws ∧
    (withChoice s).pending = s.pending := by
  unfold withChoice; repeat' split
  all_goals simp

/-- A take changes what its own removal changes, and the arbiter. -/
theorem beginTake_eq (remove : State → State) (s : State) :
    beginTake remove s = choose (eligible (remove (withChoice s))) (remove (withChoice s)) := rfl

/-- Only the arbiter. -/
@[simp] theorem beginCommand_keeps (s : State) :
    (beginCommand s).now = s.now ∧ (beginCommand s).tickPeriod = s.tickPeriod ∧
    (beginCommand s).tickPos = s.tickPos ∧ (beginCommand s).marks = s.marks ∧ (beginCommand s).offered = s.offered ∧
    (beginCommand s).records = s.records ∧ (beginCommand s).leases = s.leases ∧ (beginCommand s).gens = s.gens ∧
    (beginCommand s).waits = s.waits ∧ (beginCommand s).domains = s.domains ∧ (beginCommand s).agents = s.agents ∧
    (beginCommand s).token = s.token ∧ (beginCommand s).seeded = s.seeded ∧ (beginCommand s).part = s.part ∧
    (beginCommand s).sweep = s.sweep ∧ (beginCommand s).pools = s.pools ∧ (beginCommand s).ports = s.ports ∧
    (beginCommand s).mbox = s.mbox ∧ (beginCommand s).args = s.args ∧ (beginCommand s).res = s.res ∧
    (beginCommand s).events = s.events ∧ (beginCommand s).eventEnable = s.eventEnable ∧
    (beginCommand s).nowLatch = s.nowLatch ∧ (beginCommand s).spiData = s.spiData ∧
    (beginCommand s).handed = s.handed ∧ (beginCommand s).freeDraws = s.freeDraws ∧
    (beginCommand s).pending = s.pending := by
  simp [beginCommand]

/-- What the end of a fence job changes. -/
@[simp] theorem endFenceJob_keeps (before : State) (j : Job) (s : State) :
    (endFenceJob before s j).now = s.now ∧ (endFenceJob before s j).tickPeriod = s.tickPeriod ∧
    (endFenceJob before s j).tickPos = s.tickPos ∧ (endFenceJob before s j).marks = s.marks ∧
    (endFenceJob before s j).offered = s.offered ∧ (endFenceJob before s j).records = s.records ∧
    (endFenceJob before s j).leases = s.leases ∧ (endFenceJob before s j).gens = s.gens ∧
    (endFenceJob before s j).waits = s.waits ∧ (endFenceJob before s j).domains = s.domains ∧
    (endFenceJob before s j).token = s.token ∧ (endFenceJob before s j).seeded = s.seeded ∧
    (endFenceJob before s j).part = s.part ∧ (endFenceJob before s j).outer = s.outer ∧
    (endFenceJob before s j).inner = s.inner ∧ (endFenceJob before s j).chosen = s.chosen ∧
    (endFenceJob before s j).pools = s.pools ∧ (endFenceJob before s j).ports = s.ports ∧
    (endFenceJob before s j).args = s.args ∧ (endFenceJob before s j).eventEnable = s.eventEnable ∧
    (endFenceJob before s j).nowLatch = s.nowLatch ∧ (endFenceJob before s j).spiData = s.spiData ∧
    (endFenceJob before s j).handed = s.handed ∧ (endFenceJob before s j).freeDraws = s.freeDraws ∧
    (endFenceJob before s j).pending = s.pending := by
  unfold endFenceJob; repeat' split
  all_goals simp

/-- What the ends of fence jobs change. -/
@[simp] theorem foldl_endFenceJob_keeps (before : State) (l : List Job) (s : State) :
    (l.foldl (endFenceJob before) s).now = s.now ∧ (l.foldl (endFenceJob before) s).tickPeriod = s.tickPeriod ∧
    (l.foldl (endFenceJob before) s).tickPos = s.tickPos ∧ (l.foldl (endFenceJob before) s).marks = s.marks ∧
    (l.foldl (endFenceJob before) s).offered = s.offered ∧ (l.foldl (endFenceJob before) s).records = s.records ∧
    (l.foldl (endFenceJob before) s).leases = s.leases ∧ (l.foldl (endFenceJob before) s).gens = s.gens ∧
    (l.foldl (endFenceJob before) s).waits = s.waits ∧ (l.foldl (endFenceJob before) s).domains = s.domains ∧
    (l.foldl (endFenceJob before) s).token = s.token ∧ (l.foldl (endFenceJob before) s).seeded = s.seeded ∧
    (l.foldl (endFenceJob before) s).part = s.part ∧ (l.foldl (endFenceJob before) s).outer = s.outer ∧
    (l.foldl (endFenceJob before) s).inner = s.inner ∧ (l.foldl (endFenceJob before) s).chosen = s.chosen ∧
    (l.foldl (endFenceJob before) s).pools = s.pools ∧ (l.foldl (endFenceJob before) s).ports = s.ports ∧
    (l.foldl (endFenceJob before) s).args = s.args ∧ (l.foldl (endFenceJob before) s).eventEnable = s.eventEnable ∧
    (l.foldl (endFenceJob before) s).nowLatch = s.nowLatch ∧ (l.foldl (endFenceJob before) s).spiData = s.spiData ∧
    (l.foldl (endFenceJob before) s).handed = s.handed ∧ (l.foldl (endFenceJob before) s).freeDraws = s.freeDraws ∧
    (l.foldl (endFenceJob before) s).pending = s.pending := by
  induction l generalizing s with
  | nil => simp
  | cons t rest ih => simp [ih]

/-- What the ends of fence jobs change. -/
@[simp] theorem endFenceJobs_keeps (before : State) (s : State) :
    (endFenceJobs before s).now = s.now ∧ (endFenceJobs before s).tickPeriod = s.tickPeriod ∧
    (endFenceJobs before s).tickPos = s.tickPos ∧ (endFenceJobs before s).marks = s.marks ∧
    (endFenceJobs before s).offered = s.offered ∧ (endFenceJobs before s).records = s.records ∧
    (endFenceJobs before s).leases = s.leases ∧ (endFenceJobs before s).gens = s.gens ∧
    (endFenceJobs before s).waits = s.waits ∧ (endFenceJobs before s).domains = s.domains ∧
    (endFenceJobs before s).token = s.token ∧ (endFenceJobs before s).seeded = s.seeded ∧
    (endFenceJobs before s).part = s.part ∧ (endFenceJobs before s).outer = s.outer ∧
    (endFenceJobs before s).inner = s.inner ∧ (endFenceJobs before s).chosen = s.chosen ∧
    (endFenceJobs before s).pools = s.pools ∧ (endFenceJobs before s).ports = s.ports ∧
    (endFenceJobs before s).args = s.args ∧ (endFenceJobs before s).eventEnable = s.eventEnable ∧
    (endFenceJobs before s).nowLatch = s.nowLatch ∧ (endFenceJobs before s).spiData = s.spiData ∧
    (endFenceJobs before s).handed = s.handed ∧ (endFenceJobs before s).freeDraws = s.freeDraws ∧
    (endFenceJobs before s).pending = s.pending := by
  simp [endFenceJobs]

/-- What the quiesce halt changes. -/
@[simp] theorem quiesceHalt_keeps (before : State) (s : State) :
    (quiesceHalt before s).now = s.now ∧ (quiesceHalt before s).tickPeriod = s.tickPeriod ∧
    (quiesceHalt before s).tickPos = s.tickPos ∧ (quiesceHalt before s).marks = s.marks ∧
    (quiesceHalt before s).records = s.records ∧ (quiesceHalt before s).leases = s.leases ∧
    (quiesceHalt before s).gens = s.gens ∧ (quiesceHalt before s).waits = s.waits ∧
    (quiesceHalt before s).domains = s.domains ∧ (quiesceHalt before s).agents = s.agents ∧
    (quiesceHalt before s).token = s.token ∧ (quiesceHalt before s).seeded = s.seeded ∧
    (quiesceHalt before s).sweep = s.sweep ∧ (quiesceHalt before s).outer = s.outer ∧
    (quiesceHalt before s).inner = s.inner ∧ (quiesceHalt before s).chosen = s.chosen ∧
    (quiesceHalt before s).pools = s.pools ∧ (quiesceHalt before s).ports = s.ports ∧
    (quiesceHalt before s).mbox = s.mbox ∧ (quiesceHalt before s).args = s.args ∧
    (quiesceHalt before s).res = s.res ∧ (quiesceHalt before s).eventEnable = s.eventEnable ∧
    (quiesceHalt before s).nowLatch = s.nowLatch ∧ (quiesceHalt before s).spiData = s.spiData ∧
    (quiesceHalt before s).handed = s.handed ∧ (quiesceHalt before s).freeDraws = s.freeDraws ∧
    (quiesceHalt before s).pending = s.pending := by
  unfold quiesceHalt; repeat' split
  all_goals simp

/-- Only the published counts. -/
@[simp] theorem publishPool_keeps (before : State) (k : Pool) (s : State) :
    (publishPool before k s).now = s.now ∧ (publishPool before k s).tickPeriod = s.tickPeriod ∧
    (publishPool before k s).tickPos = s.tickPos ∧ (publishPool before k s).marks = s.marks ∧
    (publishPool before k s).offered = s.offered ∧ (publishPool before k s).records = s.records ∧
    (publishPool before k s).leases = s.leases ∧ (publishPool before k s).gens = s.gens ∧
    (publishPool before k s).waits = s.waits ∧ (publishPool before k s).domains = s.domains ∧
    (publishPool before k s).agents = s.agents ∧ (publishPool before k s).token = s.token ∧
    (publishPool before k s).seeded = s.seeded ∧ (publishPool before k s).part = s.part ∧
    (publishPool before k s).sweep = s.sweep ∧ (publishPool before k s).outer = s.outer ∧
    (publishPool before k s).inner = s.inner ∧ (publishPool before k s).chosen = s.chosen ∧
    (publishPool before k s).ports = s.ports ∧ (publishPool before k s).mbox = s.mbox ∧
    (publishPool before k s).args = s.args ∧ (publishPool before k s).res = s.res ∧
    (publishPool before k s).events = s.events ∧ (publishPool before k s).eventEnable = s.eventEnable ∧
    (publishPool before k s).nowLatch = s.nowLatch ∧ (publishPool before k s).spiData = s.spiData ∧
    (publishPool before k s).handed = s.handed ∧ (publishPool before k s).freeDraws = s.freeDraws ∧
    (publishPool before k s).pending = s.pending := by
  unfold publishPool; repeat' split
  all_goals simp

/-- Only the published counts. -/
@[simp] theorem publishCounts_keeps (before : State) (s : State) :
    (publishCounts before s).now = s.now ∧ (publishCounts before s).tickPeriod = s.tickPeriod ∧
    (publishCounts before s).tickPos = s.tickPos ∧ (publishCounts before s).marks = s.marks ∧
    (publishCounts before s).offered = s.offered ∧ (publishCounts before s).records = s.records ∧
    (publishCounts before s).leases = s.leases ∧ (publishCounts before s).gens = s.gens ∧
    (publishCounts before s).waits = s.waits ∧ (publishCounts before s).domains = s.domains ∧
    (publishCounts before s).agents = s.agents ∧ (publishCounts before s).token = s.token ∧
    (publishCounts before s).seeded = s.seeded ∧ (publishCounts before s).part = s.part ∧
    (publishCounts before s).sweep = s.sweep ∧ (publishCounts before s).outer = s.outer ∧
    (publishCounts before s).inner = s.inner ∧ (publishCounts before s).chosen = s.chosen ∧
    (publishCounts before s).ports = s.ports ∧ (publishCounts before s).mbox = s.mbox ∧
    (publishCounts before s).args = s.args ∧ (publishCounts before s).res = s.res ∧
    (publishCounts before s).events = s.events ∧ (publishCounts before s).eventEnable = s.eventEnable ∧
    (publishCounts before s).nowLatch = s.nowLatch ∧ (publishCounts before s).spiData = s.spiData ∧
    (publishCounts before s).handed = s.handed ∧ (publishCounts before s).freeDraws = s.freeDraws ∧
    (publishCounts before s).pending = s.pending := by
  simp [publishCounts]

/-- What ends every item. -/
@[simp] theorem finishItem_keeps (before : State) (s : State) :
    (finishItem before s).now = s.now ∧ (finishItem before s).tickPeriod = s.tickPeriod ∧
    (finishItem before s).tickPos = s.tickPos ∧ (finishItem before s).marks = s.marks ∧
    (finishItem before s).records = s.records ∧ (finishItem before s).leases = s.leases ∧
    (finishItem before s).gens = s.gens ∧ (finishItem before s).waits = s.waits ∧
    (finishItem before s).domains = s.domains ∧ (finishItem before s).token = s.token ∧
    (finishItem before s).seeded = s.seeded ∧ (finishItem before s).outer = s.outer ∧
    (finishItem before s).inner = s.inner ∧ (finishItem before s).chosen = s.chosen ∧
    (finishItem before s).ports = s.ports ∧ (finishItem before s).args = s.args ∧
    (finishItem before s).eventEnable = s.eventEnable ∧ (finishItem before s).nowLatch = s.nowLatch ∧
    (finishItem before s).spiData = s.spiData ∧ (finishItem before s).handed = s.handed ∧
    (finishItem before s).freeDraws = s.freeDraws ∧ (finishItem before s).pending = s.pending := by
  simp [finishItem]

/-- Only what the item has handed over. -/
@[simp] theorem withHanded_keeps (l : List Port) (s : State) :
    (withHanded l s).now = s.now ∧ (withHanded l s).tickPeriod = s.tickPeriod ∧
    (withHanded l s).tickPos = s.tickPos ∧ (withHanded l s).marks = s.marks ∧ (withHanded l s).offered = s.offered ∧
    (withHanded l s).records = s.records ∧ (withHanded l s).leases = s.leases ∧ (withHanded l s).gens = s.gens ∧
    (withHanded l s).waits = s.waits ∧ (withHanded l s).domains = s.domains ∧ (withHanded l s).agents = s.agents ∧
    (withHanded l s).token = s.token ∧ (withHanded l s).seeded = s.seeded ∧ (withHanded l s).part = s.part ∧
    (withHanded l s).sweep = s.sweep ∧ (withHanded l s).outer = s.outer ∧ (withHanded l s).inner = s.inner ∧
    (withHanded l s).chosen = s.chosen ∧ (withHanded l s).pools = s.pools ∧ (withHanded l s).ports = s.ports ∧
    (withHanded l s).mbox = s.mbox ∧ (withHanded l s).args = s.args ∧ (withHanded l s).res = s.res ∧
    (withHanded l s).events = s.events ∧ (withHanded l s).eventEnable = s.eventEnable ∧
    (withHanded l s).nowLatch = s.nowLatch ∧ (withHanded l s).spiData = s.spiData ∧
    (withHanded l s).freeDraws = s.freeDraws ∧ (withHanded l s).pending = s.pending := by
  exact ⟨rfl, rfl, rfl, rfl, rfl, rfl, rfl, rfl, rfl, rfl, rfl, rfl, rfl, rfl, rfl, rfl, rfl, rfl, rfl, rfl, rfl, rfl, rfl, rfl, rfl, rfl, rfl, rfl, rfl⟩

/-- Only the port bank. -/
@[simp] theorem popRequest_keeps (p : Port) (b : Bool) (s : State) :
    (popRequest p b s).now = s.now ∧ (popRequest p b s).tickPeriod = s.tickPeriod ∧
    (popRequest p b s).tickPos = s.tickPos ∧ (popRequest p b s).marks = s.marks ∧
    (popRequest p b s).offered = s.offered ∧ (popRequest p b s).records = s.records ∧
    (popRequest p b s).leases = s.leases ∧ (popRequest p b s).gens = s.gens ∧ (popRequest p b s).waits = s.waits ∧
    (popRequest p b s).domains = s.domains ∧ (popRequest p b s).agents = s.agents ∧
    (popRequest p b s).token = s.token ∧ (popRequest p b s).seeded = s.seeded ∧ (popRequest p b s).part = s.part ∧
    (popRequest p b s).sweep = s.sweep ∧ (popRequest p b s).outer = s.outer ∧ (popRequest p b s).inner = s.inner ∧
    (popRequest p b s).chosen = s.chosen ∧ (popRequest p b s).pools = s.pools ∧ (popRequest p b s).mbox = s.mbox ∧
    (popRequest p b s).args = s.args ∧ (popRequest p b s).res = s.res ∧ (popRequest p b s).events = s.events ∧
    (popRequest p b s).eventEnable = s.eventEnable ∧ (popRequest p b s).nowLatch = s.nowLatch ∧
    (popRequest p b s).spiData = s.spiData ∧ (popRequest p b s).handed = s.handed ∧
    (popRequest p b s).freeDraws = s.freeDraws ∧ (popRequest p b s).pending = s.pending := by
  simp [popRequest]

/-- The arbiter and the port. -/
@[simp] theorem beginRequest_keeps (p : Port) (r : Request) (s : State) :
    (beginRequest p r s).now = s.now ∧ (beginRequest p r s).tickPeriod = s.tickPeriod ∧
    (beginRequest p r s).tickPos = s.tickPos ∧ (beginRequest p r s).marks = s.marks ∧
    (beginRequest p r s).offered = s.offered ∧ (beginRequest p r s).records = s.records ∧
    (beginRequest p r s).leases = s.leases ∧ (beginRequest p r s).gens = s.gens ∧
    (beginRequest p r s).waits = s.waits ∧ (beginRequest p r s).domains = s.domains ∧
    (beginRequest p r s).agents = s.agents ∧ (beginRequest p r s).token = s.token ∧
    (beginRequest p r s).seeded = s.seeded ∧ (beginRequest p r s).part = s.part ∧
    (beginRequest p r s).sweep = s.sweep ∧ (beginRequest p r s).pools = s.pools ∧
    (beginRequest p r s).mbox = s.mbox ∧ (beginRequest p r s).args = s.args ∧ (beginRequest p r s).res = s.res ∧
    (beginRequest p r s).events = s.events ∧ (beginRequest p r s).eventEnable = s.eventEnable ∧
    (beginRequest p r s).nowLatch = s.nowLatch ∧ (beginRequest p r s).spiData = s.spiData ∧
    (beginRequest p r s).handed = s.handed ∧ (beginRequest p r s).freeDraws = s.freeDraws ∧
    (beginRequest p r s).pending = s.pending := by
  simp [beginRequest, beginTake_eq]

/-- The tag and the port, with a free value drawn. -/
@[simp] theorem reply_keeps (a : Agent) (r : Request) (st : Status) (c : Content) (s : State) :
    (reply a r st c s).now = s.now ∧ (reply a r st c s).tickPeriod = s.tickPeriod ∧
    (reply a r st c s).tickPos = s.tickPos ∧ (reply a r st c s).marks = s.marks ∧
    (reply a r st c s).offered = s.offered ∧ (reply a r st c s).records = s.records ∧
    (reply a r st c s).leases = s.leases ∧ (reply a r st c s).gens = s.gens ∧ (reply a r st c s).waits = s.waits ∧
    (reply a r st c s).domains = s.domains ∧ (reply a r st c s).token = s.token ∧
    (reply a r st c s).seeded = s.seeded ∧ (reply a r st c s).part = s.part ∧ (reply a r st c s).sweep = s.sweep ∧
    (reply a r st c s).outer = s.outer ∧ (reply a r st c s).inner = s.inner ∧ (reply a r st c s).chosen = s.chosen ∧
    (reply a r st c s).pools = s.pools ∧ (reply a r st c s).mbox = s.mbox ∧ (reply a r st c s).args = s.args ∧
    (reply a r st c s).res = s.res ∧ (reply a r st c s).events = s.events ∧
    (reply a r st c s).eventEnable = s.eventEnable ∧ (reply a r st c s).nowLatch = s.nowLatch ∧
    (reply a r st c s).spiData = s.spiData ∧ (reply a r st c s).pending = s.pending := by
  simp [reply]

/-- Only the port bank and EVENTS. -/
@[simp] theorem enterTraining_keeps (p : Port) (s : State) :
    (enterTraining p s).now = s.now ∧ (enterTraining p s).tickPeriod = s.tickPeriod ∧
    (enterTraining p s).tickPos = s.tickPos ∧ (enterTraining p s).marks = s.marks ∧
    (enterTraining p s).offered = s.offered ∧ (enterTraining p s).records = s.records ∧
    (enterTraining p s).leases = s.leases ∧ (enterTraining p s).gens = s.gens ∧
    (enterTraining p s).waits = s.waits ∧ (enterTraining p s).domains = s.domains ∧
    (enterTraining p s).agents = s.agents ∧ (enterTraining p s).token = s.token ∧
    (enterTraining p s).seeded = s.seeded ∧ (enterTraining p s).part = s.part ∧
    (enterTraining p s).sweep = s.sweep ∧ (enterTraining p s).outer = s.outer ∧
    (enterTraining p s).inner = s.inner ∧ (enterTraining p s).chosen = s.chosen ∧
    (enterTraining p s).pools = s.pools ∧ (enterTraining p s).mbox = s.mbox ∧ (enterTraining p s).args = s.args ∧
    (enterTraining p s).res = s.res ∧ (enterTraining p s).eventEnable = s.eventEnable ∧
    (enterTraining p s).nowLatch = s.nowLatch ∧ (enterTraining p s).spiData = s.spiData ∧
    (enterTraining p s).handed = s.handed ∧ (enterTraining p s).freeDraws = s.freeDraws ∧
    (enterTraining p s).pending = s.pending := by
  unfold enterTraining; simp

/-- Only the port bank and EVENTS. -/
@[simp] theorem tryTrain_keeps (p : Port) (s : State) :
    (tryTrain p s).now = s.now ∧ (tryTrain p s).tickPeriod = s.tickPeriod ∧ (tryTrain p s).tickPos = s.tickPos ∧
    (tryTrain p s).marks = s.marks ∧ (tryTrain p s).offered = s.offered ∧ (tryTrain p s).records = s.records ∧
    (tryTrain p s).leases = s.leases ∧ (tryTrain p s).gens = s.gens ∧ (tryTrain p s).waits = s.waits ∧
    (tryTrain p s).domains = s.domains ∧ (tryTrain p s).agents = s.agents ∧ (tryTrain p s).token = s.token ∧
    (tryTrain p s).seeded = s.seeded ∧ (tryTrain p s).part = s.part ∧ (tryTrain p s).sweep = s.sweep ∧
    (tryTrain p s).outer = s.outer ∧ (tryTrain p s).inner = s.inner ∧ (tryTrain p s).chosen = s.chosen ∧
    (tryTrain p s).pools = s.pools ∧ (tryTrain p s).mbox = s.mbox ∧ (tryTrain p s).args = s.args ∧
    (tryTrain p s).res = s.res ∧ (tryTrain p s).eventEnable = s.eventEnable ∧ (tryTrain p s).nowLatch = s.nowLatch ∧
    (tryTrain p s).spiData = s.spiData ∧ (tryTrain p s).handed = s.handed ∧ (tryTrain p s).freeDraws = s.freeDraws ∧
    (tryTrain p s).pending = s.pending := by
  unfold tryTrain; dsimp only; split <;> simp

/-- Only the port bank and EVENTS. -/
@[simp] theorem goDown_keeps (p : Port) (s : State) :
    (goDown p s).now = s.now ∧ (goDown p s).tickPeriod = s.tickPeriod ∧ (goDown p s).tickPos = s.tickPos ∧
    (goDown p s).marks = s.marks ∧ (goDown p s).offered = s.offered ∧ (goDown p s).records = s.records ∧
    (goDown p s).leases = s.leases ∧ (goDown p s).gens = s.gens ∧ (goDown p s).waits = s.waits ∧
    (goDown p s).domains = s.domains ∧ (goDown p s).agents = s.agents ∧ (goDown p s).token = s.token ∧
    (goDown p s).seeded = s.seeded ∧ (goDown p s).part = s.part ∧ (goDown p s).sweep = s.sweep ∧
    (goDown p s).outer = s.outer ∧ (goDown p s).inner = s.inner ∧ (goDown p s).chosen = s.chosen ∧
    (goDown p s).pools = s.pools ∧ (goDown p s).mbox = s.mbox ∧ (goDown p s).args = s.args ∧
    (goDown p s).res = s.res ∧ (goDown p s).eventEnable = s.eventEnable ∧ (goDown p s).nowLatch = s.nowLatch ∧
    (goDown p s).spiData = s.spiData ∧ (goDown p s).handed = s.handed ∧ (goDown p s).freeDraws = s.freeDraws ∧
    (goDown p s).pending = s.pending := by
  unfold goDown; repeat' split
  all_goals simp

/-- Only the port bank and EVENTS. -/
@[simp] theorem linkFault_keeps (p : Port) (s : State) :
    (linkFault p s).now = s.now ∧ (linkFault p s).tickPeriod = s.tickPeriod ∧ (linkFault p s).tickPos = s.tickPos ∧
    (linkFault p s).marks = s.marks ∧ (linkFault p s).offered = s.offered ∧ (linkFault p s).records = s.records ∧
    (linkFault p s).leases = s.leases ∧ (linkFault p s).gens = s.gens ∧ (linkFault p s).waits = s.waits ∧
    (linkFault p s).domains = s.domains ∧ (linkFault p s).agents = s.agents ∧ (linkFault p s).token = s.token ∧
    (linkFault p s).seeded = s.seeded ∧ (linkFault p s).part = s.part ∧ (linkFault p s).sweep = s.sweep ∧
    (linkFault p s).outer = s.outer ∧ (linkFault p s).inner = s.inner ∧ (linkFault p s).chosen = s.chosen ∧
    (linkFault p s).pools = s.pools ∧ (linkFault p s).mbox = s.mbox ∧ (linkFault p s).args = s.args ∧
    (linkFault p s).res = s.res ∧ (linkFault p s).eventEnable = s.eventEnable ∧
    (linkFault p s).nowLatch = s.nowLatch ∧ (linkFault p s).spiData = s.spiData ∧
    (linkFault p s).handed = s.handed ∧ (linkFault p s).freeDraws = s.freeDraws ∧
    (linkFault p s).pending = s.pending := by
  unfold linkFault; simp

/-- Only the port bank and EVENTS. -/
@[simp] theorem goUp_keeps (p : Port) (s : State) :
    (goUp p s).now = s.now ∧ (goUp p s).tickPeriod = s.tickPeriod ∧ (goUp p s).tickPos = s.tickPos ∧
    (goUp p s).marks = s.marks ∧ (goUp p s).offered = s.offered ∧ (goUp p s).records = s.records ∧
    (goUp p s).leases = s.leases ∧ (goUp p s).gens = s.gens ∧ (goUp p s).waits = s.waits ∧
    (goUp p s).domains = s.domains ∧ (goUp p s).agents = s.agents ∧ (goUp p s).token = s.token ∧
    (goUp p s).seeded = s.seeded ∧ (goUp p s).part = s.part ∧ (goUp p s).sweep = s.sweep ∧
    (goUp p s).outer = s.outer ∧ (goUp p s).inner = s.inner ∧ (goUp p s).chosen = s.chosen ∧
    (goUp p s).pools = s.pools ∧ (goUp p s).mbox = s.mbox ∧ (goUp p s).args = s.args ∧ (goUp p s).res = s.res ∧
    (goUp p s).eventEnable = s.eventEnable ∧ (goUp p s).nowLatch = s.nowLatch ∧ (goUp p s).spiData = s.spiData ∧
    (goUp p s).handed = s.handed ∧ (goUp p s).freeDraws = s.freeDraws ∧ (goUp p s).pending = s.pending := by
  unfold goUp; simp

/-- Only the port bank and EVENTS. -/
@[simp] theorem onCheckFailed_keeps (p : Port) (f : List Byte) (s : State) :
    (onCheckFailed p f s).now = s.now ∧ (onCheckFailed p f s).tickPeriod = s.tickPeriod ∧
    (onCheckFailed p f s).tickPos = s.tickPos ∧ (onCheckFailed p f s).marks = s.marks ∧
    (onCheckFailed p f s).offered = s.offered ∧ (onCheckFailed p f s).records = s.records ∧
    (onCheckFailed p f s).leases = s.leases ∧ (onCheckFailed p f s).gens = s.gens ∧
    (onCheckFailed p f s).waits = s.waits ∧ (onCheckFailed p f s).domains = s.domains ∧
    (onCheckFailed p f s).agents = s.agents ∧ (onCheckFailed p f s).token = s.token ∧
    (onCheckFailed p f s).seeded = s.seeded ∧ (onCheckFailed p f s).part = s.part ∧
    (onCheckFailed p f s).sweep = s.sweep ∧ (onCheckFailed p f s).outer = s.outer ∧
    (onCheckFailed p f s).inner = s.inner ∧ (onCheckFailed p f s).chosen = s.chosen ∧
    (onCheckFailed p f s).pools = s.pools ∧ (onCheckFailed p f s).mbox = s.mbox ∧
    (onCheckFailed p f s).args = s.args ∧ (onCheckFailed p f s).res = s.res ∧
    (onCheckFailed p f s).eventEnable = s.eventEnable ∧ (onCheckFailed p f s).nowLatch = s.nowLatch ∧
    (onCheckFailed p f s).spiData = s.spiData ∧ (onCheckFailed p f s).handed = s.handed ∧
    (onCheckFailed p f s).freeDraws = s.freeDraws ∧ (onCheckFailed p f s).pending = s.pending := by
  unfold onCheckFailed; simp

/-- Only the port bank and EVENTS. -/
@[simp] theorem onTrain_keeps (p : Port) (f : List Byte) (s : State) :
    (onTrain p f s).now = s.now ∧ (onTrain p f s).tickPeriod = s.tickPeriod ∧ (onTrain p f s).tickPos = s.tickPos ∧
    (onTrain p f s).marks = s.marks ∧ (onTrain p f s).offered = s.offered ∧ (onTrain p f s).records = s.records ∧
    (onTrain p f s).leases = s.leases ∧ (onTrain p f s).gens = s.gens ∧ (onTrain p f s).waits = s.waits ∧
    (onTrain p f s).domains = s.domains ∧ (onTrain p f s).agents = s.agents ∧ (onTrain p f s).token = s.token ∧
    (onTrain p f s).seeded = s.seeded ∧ (onTrain p f s).part = s.part ∧ (onTrain p f s).sweep = s.sweep ∧
    (onTrain p f s).outer = s.outer ∧ (onTrain p f s).inner = s.inner ∧ (onTrain p f s).chosen = s.chosen ∧
    (onTrain p f s).pools = s.pools ∧ (onTrain p f s).mbox = s.mbox ∧ (onTrain p f s).args = s.args ∧
    (onTrain p f s).res = s.res ∧ (onTrain p f s).eventEnable = s.eventEnable ∧
    (onTrain p f s).nowLatch = s.nowLatch ∧ (onTrain p f s).spiData = s.spiData ∧
    (onTrain p f s).handed = s.handed ∧ (onTrain p f s).freeDraws = s.freeDraws ∧
    (onTrain p f s).pending = s.pending := by
  unfold onTrain; repeat' split
  all_goals simp

/-- Only the port bank and EVENTS. -/
@[simp] theorem onTrainAck_keeps (p : Port) (f : List Byte) (s : State) :
    (onTrainAck p f s).now = s.now ∧ (onTrainAck p f s).tickPeriod = s.tickPeriod ∧
    (onTrainAck p f s).tickPos = s.tickPos ∧ (onTrainAck p f s).marks = s.marks ∧
    (onTrainAck p f s).offered = s.offered ∧ (onTrainAck p f s).records = s.records ∧
    (onTrainAck p f s).leases = s.leases ∧ (onTrainAck p f s).gens = s.gens ∧ (onTrainAck p f s).waits = s.waits ∧
    (onTrainAck p f s).domains = s.domains ∧ (onTrainAck p f s).agents = s.agents ∧
    (onTrainAck p f s).token = s.token ∧ (onTrainAck p f s).seeded = s.seeded ∧ (onTrainAck p f s).part = s.part ∧
    (onTrainAck p f s).sweep = s.sweep ∧ (onTrainAck p f s).outer = s.outer ∧ (onTrainAck p f s).inner = s.inner ∧
    (onTrainAck p f s).chosen = s.chosen ∧ (onTrainAck p f s).pools = s.pools ∧ (onTrainAck p f s).mbox = s.mbox ∧
    (onTrainAck p f s).args = s.args ∧ (onTrainAck p f s).res = s.res ∧
    (onTrainAck p f s).eventEnable = s.eventEnable ∧ (onTrainAck p f s).nowLatch = s.nowLatch ∧
    (onTrainAck p f s).spiData = s.spiData ∧ (onTrainAck p f s).handed = s.handed ∧
    (onTrainAck p f s).freeDraws = s.freeDraws ∧ (onTrainAck p f s).pending = s.pending := by
  unfold onTrainAck; repeat' split
  all_goals simp

/-- Only the port bank and EVENTS. -/
@[simp] theorem onCredit_keeps (p : Port) (f : List Byte) (s : State) :
    (onCredit p f s).now = s.now ∧ (onCredit p f s).tickPeriod = s.tickPeriod ∧
    (onCredit p f s).tickPos = s.tickPos ∧ (onCredit p f s).marks = s.marks ∧ (onCredit p f s).offered = s.offered ∧
    (onCredit p f s).records = s.records ∧ (onCredit p f s).leases = s.leases ∧ (onCredit p f s).gens = s.gens ∧
    (onCredit p f s).waits = s.waits ∧ (onCredit p f s).domains = s.domains ∧ (onCredit p f s).agents = s.agents ∧
    (onCredit p f s).token = s.token ∧ (onCredit p f s).seeded = s.seeded ∧ (onCredit p f s).part = s.part ∧
    (onCredit p f s).sweep = s.sweep ∧ (onCredit p f s).outer = s.outer ∧ (onCredit p f s).inner = s.inner ∧
    (onCredit p f s).chosen = s.chosen ∧ (onCredit p f s).pools = s.pools ∧ (onCredit p f s).mbox = s.mbox ∧
    (onCredit p f s).args = s.args ∧ (onCredit p f s).res = s.res ∧ (onCredit p f s).eventEnable = s.eventEnable ∧
    (onCredit p f s).nowLatch = s.nowLatch ∧ (onCredit p f s).spiData = s.spiData ∧
    (onCredit p f s).handed = s.handed ∧ (onCredit p f s).freeDraws = s.freeDraws ∧
    (onCredit p f s).pending = s.pending := by
  unfold onCredit; repeat' split
  all_goals simp

/-- Only the port bank and EVENTS. -/
@[simp] theorem onMessage_keeps (p : Port) (f : List Byte) (s : State) :
    (onMessage p f s).now = s.now ∧ (onMessage p f s).tickPeriod = s.tickPeriod ∧
    (onMessage p f s).tickPos = s.tickPos ∧ (onMessage p f s).marks = s.marks ∧
    (onMessage p f s).offered = s.offered ∧ (onMessage p f s).records = s.records ∧
    (onMessage p f s).leases = s.leases ∧ (onMessage p f s).gens = s.gens ∧ (onMessage p f s).waits = s.waits ∧
    (onMessage p f s).domains = s.domains ∧ (onMessage p f s).agents = s.agents ∧
    (onMessage p f s).token = s.token ∧ (onMessage p f s).seeded = s.seeded ∧ (onMessage p f s).part = s.part ∧
    (onMessage p f s).sweep = s.sweep ∧ (onMessage p f s).outer = s.outer ∧ (onMessage p f s).inner = s.inner ∧
    (onMessage p f s).chosen = s.chosen ∧ (onMessage p f s).pools = s.pools ∧ (onMessage p f s).mbox = s.mbox ∧
    (onMessage p f s).args = s.args ∧ (onMessage p f s).res = s.res ∧
    (onMessage p f s).eventEnable = s.eventEnable ∧ (onMessage p f s).nowLatch = s.nowLatch ∧
    (onMessage p f s).spiData = s.spiData ∧ (onMessage p f s).handed = s.handed ∧
    (onMessage p f s).freeDraws = s.freeDraws ∧ (onMessage p f s).pending = s.pending := by
  unfold onMessage; repeat' split
  all_goals simp

/-- Only the port bank and EVENTS. -/
@[simp] theorem onUnknownKind_keeps (p : Port) (s : State) :
    (onUnknownKind p s).now = s.now ∧ (onUnknownKind p s).tickPeriod = s.tickPeriod ∧
    (onUnknownKind p s).tickPos = s.tickPos ∧ (onUnknownKind p s).marks = s.marks ∧
    (onUnknownKind p s).offered = s.offered ∧ (onUnknownKind p s).records = s.records ∧
    (onUnknownKind p s).leases = s.leases ∧ (onUnknownKind p s).gens = s.gens ∧
    (onUnknownKind p s).waits = s.waits ∧ (onUnknownKind p s).domains = s.domains ∧
    (onUnknownKind p s).agents = s.agents ∧ (onUnknownKind p s).token = s.token ∧
    (onUnknownKind p s).seeded = s.seeded ∧ (onUnknownKind p s).part = s.part ∧
    (onUnknownKind p s).sweep = s.sweep ∧ (onUnknownKind p s).outer = s.outer ∧
    (onUnknownKind p s).inner = s.inner ∧ (onUnknownKind p s).chosen = s.chosen ∧
    (onUnknownKind p s).pools = s.pools ∧ (onUnknownKind p s).mbox = s.mbox ∧ (onUnknownKind p s).args = s.args ∧
    (onUnknownKind p s).res = s.res ∧ (onUnknownKind p s).eventEnable = s.eventEnable ∧
    (onUnknownKind p s).nowLatch = s.nowLatch ∧ (onUnknownKind p s).spiData = s.spiData ∧
    (onUnknownKind p s).handed = s.handed ∧ (onUnknownKind p s).freeDraws = s.freeDraws ∧
    (onUnknownKind p s).pending = s.pending := by
  unfold onUnknownKind; repeat' split
  all_goals simp

/-- Only the port bank and EVENTS. -/
@[simp] theorem receiveFrame_keeps (p : Port) (f : List Byte) (s : State) :
    (receiveFrame p f s).now = s.now ∧ (receiveFrame p f s).tickPeriod = s.tickPeriod ∧
    (receiveFrame p f s).tickPos = s.tickPos ∧ (receiveFrame p f s).marks = s.marks ∧
    (receiveFrame p f s).offered = s.offered ∧ (receiveFrame p f s).records = s.records ∧
    (receiveFrame p f s).leases = s.leases ∧ (receiveFrame p f s).gens = s.gens ∧
    (receiveFrame p f s).waits = s.waits ∧ (receiveFrame p f s).domains = s.domains ∧
    (receiveFrame p f s).agents = s.agents ∧ (receiveFrame p f s).token = s.token ∧
    (receiveFrame p f s).seeded = s.seeded ∧ (receiveFrame p f s).part = s.part ∧
    (receiveFrame p f s).sweep = s.sweep ∧ (receiveFrame p f s).outer = s.outer ∧
    (receiveFrame p f s).inner = s.inner ∧ (receiveFrame p f s).chosen = s.chosen ∧
    (receiveFrame p f s).pools = s.pools ∧ (receiveFrame p f s).mbox = s.mbox ∧ (receiveFrame p f s).args = s.args ∧
    (receiveFrame p f s).res = s.res ∧ (receiveFrame p f s).eventEnable = s.eventEnable ∧
    (receiveFrame p f s).nowLatch = s.nowLatch ∧ (receiveFrame p f s).spiData = s.spiData ∧
    (receiveFrame p f s).handed = s.handed ∧ (receiveFrame p f s).freeDraws = s.freeDraws ∧
    (receiveFrame p f s).pending = s.pending := by
  unfold receiveFrame; repeat' split
  all_goals simp

end Sys2Proof.Machine
end

