-- ==== Sys2Proof/Laws/Table.lean ====
section
/-! SUPPORT. The sparse tables: a read after a write, the canonical form that every operation keeps, and the lowest
free number. -/

namespace Sys2Proof.Machine

variable {α : Type}

@[simp] theorem tableGet_nil (n : Nat) : tableGet ([] : Table α) n = none := rfl

/-- A read after a write gives the entry written, and every other number reads as before. -/
@[simp] theorem tableGet_tableSet (t : Table α) (n m : Nat) (v : α) :
    tableGet (tableSet t n v) m = if m = n then some v else tableGet t m := by
  induction t with
  | nil => by_cases h : n = m <;> simp [tableSet, tableGet, h, eq_comm]
  | cons e rest ih =>
    obtain ⟨k, w⟩ := e
    by_cases h1 : n < k
    · rw [tableSet, if_pos h1]
      by_cases h : n = m
      · simp [tableGet, h]
      · simp [tableGet, h, Ne.symm h]
    · by_cases h2 : n = k
      · subst h2
        by_cases h : n = m <;> simp [tableSet, tableGet, h, eq_comm]
      · by_cases h3 : k = m
        · subst h3; simp [tableSet, tableGet, h1, h2, Ne.symm h2]
        · simp [tableSet, tableGet, h1, h2, h3, ih]

/-- A freed number reads as free, and every other number reads as before. -/
@[simp] theorem tableGet_tableErase (t : Table α) (n m : Nat) :
    tableGet (tableErase t n) m = if m = n then none else tableGet t m := by
  induction t with
  | nil => simp [tableErase]
  | cons e rest ih =>
    obtain ⟨k, w⟩ := e
    by_cases h1 : k = n
    · subst h1
      by_cases h : k = m
      · subst h; simp [tableErase, ih]
      · simp [tableErase, tableGet, ih, h, Ne.symm h]
    · by_cases h2 : k = m
      · subst h2; simp [tableErase, tableGet, h1]
      · simp [tableErase, tableGet, h1, h2, ih]

/-- The numbers of a table rise strictly. -/
def Rising (t : Table α) : Prop := (t.map Prod.fst).Pairwise (· < ·)

/-- The canonical form: numbers rising strictly, all below the capacity. -/
theorem tableWf_iff (c : Nat) (t : Table α) :
    tableWf c t = true ↔ Rising t ∧ ∀ e ∈ t, e.1 < c := by
  induction t with
  | nil => simp [tableWf, Rising]
  | cons e rest ih =>
    obtain ⟨k, w⟩ := e
    cases rest with
    | nil => simp [tableWf, Rising]
    | cons e2 rest =>
      obtain ⟨l, x⟩ := e2
      rw [tableWf, Bool.and_eq_true, ih, decide_eq_true_iff]
      simp only [Rising, List.map_cons, List.pairwise_cons, List.mem_cons, forall_eq_or_imp]
      constructor
      · rintro ⟨h, ⟨h1, h2⟩, h3, h4⟩
        exact ⟨⟨⟨h, fun a ha => Nat.lt_trans h (h1 a ha)⟩, h1, h2⟩, by omega, h3, h4⟩
      · rintro ⟨⟨⟨h, _⟩, h1, h2⟩, _, h3, h4⟩
        exact ⟨h, ⟨h1, h2⟩, h3, h4⟩

/-- An entry that a table lists under a number is read there, in a table with rising numbers. -/
theorem tableGet_of_mem {t : Table α} (h : Rising t) {n : Nat} {v : α} (hm : (n, v) ∈ t) : tableGet t n = some v := by
  induction t with
  | nil => simp at hm
  | cons e rest ih =>
    obtain ⟨k, w⟩ := e
    simp only [Rising, List.map_cons, List.pairwise_cons, List.mem_map, forall_exists_index, and_imp] at h
    rcases List.mem_cons.1 hm with h1 | h1
    · cases h1; simp [tableGet]
    · have : k < n := h.1 n (n, v) h1 rfl
      simp [tableGet, Nat.ne_of_lt this, ih h.2 h1]

/-- What a table reads at a number is listed there. -/
theorem mem_of_tableGet {t : Table α} {n : Nat} {v : α} (h : tableGet t n = some v) : (n, v) ∈ t := by
  induction t with
  | nil => simp at h
  | cons e rest ih =>
    obtain ⟨k, w⟩ := e
    by_cases hk : k = n
    · subst hk; simp [tableGet] at h; simp [h]
    · simp [tableGet, hk] at h; simp [ih h]

/-- The entries after a write are the one written and entries listed before. -/
theorem mem_tableSet {t : Table α} {n : Nat} {v : α} {e : Nat × α} (h : e ∈ tableSet t n v) : e = (n, v) ∨ e ∈ t := by
  induction t with
  | nil => simpa [tableSet] using h
  | cons f rest ih =>
    obtain ⟨k, w⟩ := f
    simp only [tableSet] at h
    split at h
    · simpa using h
    · split at h
      · rcases List.mem_cons.1 h with h | h
        · exact .inl h
        · exact .inr (List.mem_cons_of_mem _ h)
      · rcases List.mem_cons.1 h with h | h
        · exact .inr (by simp [h])
        · exact (ih h).imp_right (List.mem_cons_of_mem _)

/-- The entries after a free are entries listed before, under other numbers. -/
theorem mem_tableErase {t : Table α} {n : Nat} {e : Nat × α} : e ∈ tableErase t n ↔ e ∈ t ∧ e.1 ≠ n := by
  induction t with
  | nil => simp [tableErase]
  | cons f rest ih =>
    obtain ⟨k, w⟩ := f
    by_cases h : k = n
    · subst h; simp only [tableErase, if_true, ih, List.mem_cons]; constructor
      · rintro ⟨h1, h2⟩; exact ⟨.inr h1, h2⟩
      · rintro ⟨rfl | h1, h2⟩ <;> simp_all
    · simp only [tableErase, h, if_false, List.mem_cons, ih]; constructor
      · rintro (rfl | ⟨h1, h2⟩)
        · exact ⟨.inl rfl, h⟩
        · exact ⟨.inr h1, h2⟩
      · rintro ⟨rfl | h1, h2⟩
        · exact .inl rfl
        · exact .inr ⟨h1, h2⟩

/-- A write keeps the numbers rising. -/
theorem rising_tableSet {t : Table α} (h : Rising t) (n : Nat) (v : α) : Rising (tableSet t n v) := by
  induction t with
  | nil => simp [tableSet, Rising]
  | cons f rest ih =>
    obtain ⟨k, w⟩ := f
    have h' := h
    simp only [Rising, List.map_cons, List.pairwise_cons] at h
    simp only [tableSet]
    split
    · rename_i h1
      simp only [Rising, List.map_cons, List.pairwise_cons, List.mem_cons, forall_eq_or_imp]
      exact ⟨⟨h1, fun a ha => Nat.lt_trans h1 (h.1 a ha)⟩, h⟩
    · split
      · rename_i h2; subst h2; simpa [Rising] using h
      · rename_i h1 h2
        simp only [Rising, List.map_cons, List.pairwise_cons]
        refine ⟨fun a ha => ?_, ih h.2⟩
        obtain ⟨e, he, rfl⟩ := List.mem_map.1 ha
        rcases mem_tableSet he with rfl | he
        · simp; omega
        · exact h.1 _ (List.mem_map_of_mem he)

/-- A free keeps the numbers rising. -/
theorem rising_tableErase {t : Table α} (h : Rising t) (n : Nat) : Rising (tableErase t n) := by
  induction t with
  | nil => simp [tableErase, Rising]
  | cons f rest ih =>
    obtain ⟨k, w⟩ := f
    simp only [Rising, List.map_cons, List.pairwise_cons] at h
    simp only [tableErase]
    split
    · exact ih h.2
    · simp only [Rising, List.map_cons, List.pairwise_cons]
      refine ⟨fun a ha => ?_, ih h.2⟩
      obtain ⟨e, he, rfl⟩ := List.mem_map.1 ha
      exact h.1 _ (List.mem_map_of_mem (mem_tableErase.1 he).1)

/-- A write below the capacity keeps the canonical form. -/
theorem tableWf_tableSet {c : Nat} {t : Table α} (h : tableWf c t = true) {n : Nat} (hn : n < c) (v : α) :
    tableWf c (tableSet t n v) = true := by
  rw [tableWf_iff] at *
  refine ⟨rising_tableSet h.1 n v, fun e he => ?_⟩
  rcases mem_tableSet he with rfl | he
  · exact hn
  · exact h.2 e he

/-- A free keeps the canonical form. -/
theorem tableWf_tableErase {c : Nat} {t : Table α} (h : tableWf c t = true) (n : Nat) :
    tableWf c (tableErase t n) = true := by
  rw [tableWf_iff] at *
  exact ⟨rising_tableErase h.1 n, fun e he => h.2 e (mem_tableErase.1 he).1⟩

/-- A number that reads as an entry lies below the capacity. -/
theorem lt_of_tableGet {c : Nat} {t : Table α} (h : tableWf c t = true) {n : Nat} {v : α}
    (hg : tableGet t n = some v) : n < c := ((tableWf_iff c t).1 h).2 _ (mem_of_tableGet hg)

/-- A write over a listed entry keeps the count of entries. -/
theorem length_tableSet_of_get {t : Table α} (h : Rising t) {n : Nat} {w : α} (hg : tableGet t n = some w) (v : α) :
    (tableSet t n v).length = t.length := by
  induction t with
  | nil => simp at hg
  | cons f rest ih =>
    obtain ⟨k, x⟩ := f
    simp only [Rising, List.map_cons, List.pairwise_cons] at h
    by_cases hk : k = n
    · subst hk; simp [tableSet]
    · simp only [tableGet, hk, if_false] at hg
      have : k < n := h.1 n (List.mem_map.2 ⟨_, mem_of_tableGet hg, rfl⟩)
      simp [tableSet, Nat.not_lt_of_gt this, Ne.symm hk, ih h.2 hg]

/-- A write at a free number adds one entry. -/
theorem length_tableSet_of_free {t : Table α} {n : Nat} (hg : tableGet t n = none) (v : α) :
    (tableSet t n v).length = t.length + 1 := by
  induction t with
  | nil => simp [tableSet]
  | cons f rest ih =>
    obtain ⟨k, x⟩ := f
    by_cases hk : k = n
    · simp [tableGet, hk] at hg
    · simp only [tableGet, hk, if_false] at hg
      simp only [tableSet, Ne.symm hk, if_false]
      split
      · simp
      · simp [ih hg]

/-- A free of a listed number removes one entry. -/
theorem length_tableErase {t : Table α} (h : Rising t) {n : Nat} {w : α} (hg : tableGet t n = some w) :
    (tableErase t n).length + 1 = t.length := by
  induction t with
  | nil => simp at hg
  | cons f rest ih =>
    obtain ⟨k, x⟩ := f
    simp only [Rising, List.map_cons, List.pairwise_cons] at h
    by_cases hk : k = n
    · subst hk
      have : tableErase rest k = rest := by
        have hr : ∀ e ∈ rest, e.1 ≠ k := fun e he => Nat.ne_of_gt (h.1 _ (List.mem_map_of_mem he))
        clear ih hg h
        induction rest with
        | nil => rfl
        | cons g r ihr =>
          obtain ⟨l, y⟩ := g
          have h1 : l ≠ k := hr _ (List.mem_cons_self ..)
          simp [tableErase, h1, ihr fun e he => hr e (List.mem_cons_of_mem _ he)]
      simp [tableErase, this]
    · simp only [tableGet, hk, if_false] at hg
      simp [tableErase, hk, ih h.2 hg]

/-- Two writes at one number are the last. -/
@[simp] theorem tableSet_tableSet (t : Table α) (n : Nat) (v w : α) :
    tableSet (tableSet t n v) n w = tableSet t n w := by
  induction t with
  | nil => simp [tableSet]
  | cons f rest ih =>
    obtain ⟨k, x⟩ := f
    by_cases h1 : n < k
    · simp [tableSet, h1]
    · by_cases h2 : n = k
      · subst h2; simp [tableSet]
      · simp [tableSet, h1, h2, ih]

/-- The lowest free number is free and no lower number from the start on is. -/
theorem lowestFreeFrom_spec {t : Table α} {fuel n k : Nat} (h : lowestFreeFrom t fuel n = some k) :
    tableGet t k = none ∧ n ≤ k ∧ k < n + fuel ∧ ∀ j, n ≤ j → j < k → (tableGet t j).isSome := by
  induction fuel generalizing n with
  | zero => simp [lowestFreeFrom] at h
  | succ fuel ih =>
    simp only [lowestFreeFrom] at h
    split at h
    · rename_i hn
      cases h
      exact ⟨by simpa using hn, Nat.le_refl _, by omega, fun j h1 h2 => absurd h2 (by omega)⟩
    · rename_i hn
      obtain ⟨h1, h2, h3, h4⟩ := ih h
      refine ⟨h1, by omega, by omega, fun j hj1 hj2 => ?_⟩
      rcases Nat.lt_or_ge n j with hj | hj
      · exact h4 j (by omega) hj2
      · have : j = n := by omega
        subst this
        cases hg : tableGet t j <;> simp_all

/-- The lowest free number of a pool is below its capacity, free, and the lowest such. -/
theorem lowestFree_spec {t : Table α} {c k : Nat} (h : lowestFree t c = some k) :
    tableGet t k = none ∧ k < c ∧ ∀ j < k, (tableGet t j).isSome := by
  obtain ⟨h1, _, h3, h4⟩ := lowestFreeFrom_spec h
  exact ⟨h1, by omega, fun j hj => h4 j (Nat.zero_le _) hj⟩

end Sys2Proof.Machine
end

