-- ==== Sys2Proof/Laws/Bank.lean ====
section
/-! SUPPORT. What the operations write: an agent's record, a port, a pool, a tag, an entry, a flag. -/

namespace Sys2Proof.Machine

/-- A read of a bank after a write of one of its places. -/
theorem vector_get_set {α : Type} {n : Nat} (v : Vector α n) (i j : Fin n) (x : α) :
    (v.set i.val x i.isLt).get j = if j = i then x else v.get j := by
  by_cases h : j = i
  · subst h; simp [Vector.get_eq_getElem]
  · have : i.val ≠ j.val := fun e => h (Fin.ext e.symm)
    simp [Vector.get_eq_getElem, this, h]

/-- A bank whose places all read alike is the same bank. -/
theorem vector_ext_get {α : Type} {n : Nat} {v w : Vector α n} (h : ∀ i, v.get i = w.get i) : v = w := by
  apply Vector.ext
  intro i hi
  simpa [Vector.get_eq_getElem] using h ⟨i, hi⟩

@[simp] theorem updAgent_agent (a b : Agent) (f : AgentRec → AgentRec) (s : State) :
    (updAgent a f s).agent b = if b = a then f (s.agent a) else s.agent b := vector_get_set ..

@[simp] theorem updPort_port (p q : Port) (f : PortState → PortState) (s : State) :
    (updPort p f s).port q = if q = p then f (s.port p) else s.port q := vector_get_set ..

@[simp] theorem updPool_pool (k l : Pool) (f : PoolState → PoolState) (s : State) :
    (updPool k f s).pool l = if l = k then f (s.pool k) else s.pool l := by
  cases k <;> cases l <;> rfl

/-- The agent bank alone says what an agent's record is. -/
theorem agent_congr {s t : State} (h : t.agents = s.agents) (a : Agent) : t.agent a = s.agent a := by
  simp [State.agent, h]

/-- The agent bank alone says what state a tag is in. -/
theorem tag_congr {s t : State} (h : t.agents = s.agents) (a : Agent) (g : Tag) : t.tag a g = s.tag a g := by
  simp [State.tag, agent_congr h]

/-- The agent bank alone says whether a request's tag is busy. -/
theorem tagIsBusy_congr {s t : State} (h : t.agents = s.agents) (p : Port) (r : Request) :
    tagIsBusy t p r = tagIsBusy s p r := by simp only [tagIsBusy, tag_congr h]

/-- The port bank alone says what a port's state is. -/
theorem port_congr {s t : State} (h : t.ports = s.ports) (p : Port) : t.port p = s.port p := by
  simp [State.port, h]

/-- The domain table alone says what a domain entry is. -/
theorem domain_congr {s t : State} (h : t.domains = s.domains) (d : Fin 16) : t.domain d = s.domain d := by
  simp [State.domain, h]

/-- The generations alone say what a handle's generation is. -/
theorem genOf_congr {s t : State} (h : t.gens = s.gens) (k : Nat) : genOf t k = genOf s k := by simp [genOf, h]

/-- The lease pool alone says which lease an entry holds. -/
theorem leaseAt_congr {s t : State} (h : t.leases = s.leases) (k : Nat) : leaseAt t k = leaseAt s k := by
  simp [leaseAt, h]

/-- A tag set reads as set, and every other tag of every agent as before. -/
@[simp] theorem setTag_tag (a b : Agent) (t u : Tag) (x : TagState) (s : State) :
    (setTag a t x s).tag b u = if b = a ∧ u = t then x else s.tag b u := by
  simp only [State.tag, setTag, updAgent_agent]
  by_cases hb : b = a
  · subst hb; simp [vector_get_set]
  · simp [hb]

/-- Setting a tag leaves everything else of every agent's record. -/
@[simp] theorem setTag_rest (a b : Agent) (t : Tag) (x : TagState) (s : State) :
    ((setTag a t x s).agent b).state = (s.agent b).state ∧ ((setTag a t x s).agent b).epoch = (s.agent b).epoch ∧
    ((setTag a t x s).agent b).quota = (s.agent b).quota ∧ ((setTag a t x s).agent b).keepalive = (s.agent b).keepalive ∧
    ((setTag a t x s).agent b).leases = (s.agent b).leases := by
  simp only [setTag, updAgent_agent]
  by_cases hb : b = a
  · subst hb; simp
  · simp [hb]

/-- What an item has handed over is no port's state. -/
@[simp] theorem noteHanded_port (p : Port) (s : State) (q : Port) : (noteHanded p s).port q = s.port q := rfl

/-- A port noted has been handed something, beside those before it. -/
@[simp] theorem noteHanded_handed (p : Port) (s : State) : (noteHanded p s).handed = p :: s.handed := rfl

/-- What an item has handed over is no agent's record. -/
@[simp] theorem noteHanded_agent (p : Port) (s : State) (a : Agent) : (noteHanded p s).agent a = s.agent a := rfl

/-- A transmitter's acts leave the link state (10, R177). -/
@[simp] theorem transmitterSteps_link (n : Nat) (q : PortState) : (transmitterSteps n q).link = q.link := by
  have step : ∀ q : PortState, (transmitterStep q).link = q.link := fun q => by
    unfold transmitterStep; split
    · unfold beginFrame; repeat' split
      all_goals simp_all
      unfold beginMessage; split <;> simp_all
    · unfold completeFrame; repeat' split
      all_goals rfl
  induction n generalizing q with
  | zero => rfl
  | succ n ih => rw [transmitterSteps, ih, step]

/-- A port that the item has handed nothing does not go on inside it (09, R157). -/
theorem portGoesOn_quiet {p : Port} {s : State} (h : p ∉ s.handed) (x : EgressTurn) : portGoesOn x p s = s := by
  simp [portGoesOn, h]

/-- All that going on can do: some number of the port's transmitter's acts, and none where the item has handed the port
nothing or the order does not tell (09, R157). -/
theorem portGoesOn_port (x : EgressTurn) (p : Port) (s : State) :
    ∃ n, (p ∉ s.handed ∨ orderTells x (s.port p) = false → n = 0)
      ∧ ∀ q, (portGoesOn x p s).port q = if q = p then transmitterSteps n (s.port q) else s.port q := by
  unfold portGoesOn
  split
  · rename_i h
    refine ⟨Config.actsInside s.freeDraws, fun hn => ?_, fun q => ?_⟩
    · exact hn.elim (fun hn => absurd h.1 hn) fun hn => by simp [hn] at h
    · by_cases hq : q = p
      · subst hq; simp; rfl
      · simp [hq]; rfl
  · exact ⟨0, fun _ => rfl, fun q => by simp [transmitterSteps]⟩

/-- A port that goes on inside an item keeps its link state (09, R157). -/
@[simp] theorem portGoesOn_link (x : EgressTurn) (p : Port) (s : State) (q : Port) :
    ((portGoesOn x p s).port q).link = (s.port q).link := by
  obtain ⟨n, -, h⟩ := portGoesOn_port x p s
  rw [h]; split <;> simp

/-- All that handing a port an entry can do: in DOWN nothing; else the port, after some number of its own acts, takes the
entry, and the item has handed it something. It makes no act where the item has handed it nothing before, and none where
the order does not tell (09, R157; 10, R173, R174). -/
theorem handPort_port (x : EgressTurn) (p : Port) (f : PortState → PortState) (s : State) :
    ∃ n, (p ∉ s.handed ∨ orderTells x (s.port p) = false → n = 0)
      ∧ (∀ q, (handPort x p f s).port q =
          if q = p ∧ (s.port q).link ≠ .down then f (transmitterSteps n (s.port q)) else s.port q)
      ∧ (handPort x p f s).handed = if (s.port p).link = .down then s.handed else p :: s.handed := by
  obtain ⟨n, h0, hn⟩ := portGoesOn_port x p s
  refine ⟨n, h0, fun q => ?_, ?_⟩
  · unfold handPort
    split
    · rename_i h
      by_cases hq : q = p
      · subst hq; simp [h]
      · simp [hq]
    · rename_i h
      by_cases hq : q = p
      · subst hq; simp [h, hn]
      · simp [hq, hn]
  · unfold handPort
    split <;> simp

/-- The port that the item hands its first entry takes it as it stands, unless it is DOWN (10, R173, R174). -/
theorem handPort_first {p : Port} {s : State} (h0 : p ∉ s.handed) (x : EgressTurn) (f : PortState → PortState) (q : Port) :
    (handPort x p f s).port q = if q = p ∧ (s.port q).link ≠ .down then f (s.port q) else s.port q := by
  obtain ⟨n, hn, h, -⟩ := handPort_port x p f s
  rw [h, hn (.inl h0)]; rfl

/-- A slot's agent is served by its port. -/
@[simp] theorem portOf_agentOf (p : Port) (sl : Slot) : portOf (agentOf p sl) = p := by
  apply Fin.ext; simp [portOf, agentOf]; omega

/-- A slot's agent has that slot. -/
@[simp] theorem slotOf_agentOf (p : Port) (sl : Slot) : slotOf (agentOf p sl) = sl := by
  apply Fin.ext; simp [slotOf, agentOf]

/-- An agent is the one of its port and slot. -/
@[simp] theorem agentOf_portOf_slotOf (a : Agent) : agentOf (portOf a) (slotOf a) = a := by
  apply Fin.ext; simp [portOf, slotOf, agentOf]; omega

/-- The lease read at an entry is the one its table lists in use. -/
theorem leaseAt_eq_some {s : State} {k : Nat} {l : Lease} :
    leaseAt s k = some l ↔ tableGet s.leases k = some (.inUse l) := by
  unfold leaseAt
  split
  · rename_i l' h; simp [h]
  · rename_i h
    constructor
    · simp
    · intro h2; exact absurd h2 (h l)

/-- An event's flag is set and every other flag is as before (11, R198). -/
theorem postEvent_events (e : Event) (s : State) (i : Nat) :
    (postEvent e s).events.getLsbD i = (s.events.getLsbD i || decide (i = eventBit e)) := by
  have hb : eventBit e < 32 := by
    cases e with
    | pressure k => cases k <;> decide
    | linkChange p => simp [eventBit]; omega
    | linkFault p => simp [eventBit]; omega
    | _ => decide
  simp only [postEvent, atBit, BitVec.getLsbD_or, BitVec.getLsbD_shiftLeft, BitVec.getLsbD_ofNat]
  by_cases h : i = eventBit e
  · subst h; simp [hb]
  · by_cases h2 : i < eventBit e
    · simp [h, h2]
    · have : i - eventBit e ≠ 0 := by omega
      have h3 : Nat.testBit 1 (i - eventBit e) = false := by
        rw [Bool.eq_false_iff]; exact fun hc => this (Nat.testBit_one_eq_true_iff_self_eq_zero.1 hc)
      simp [h, h3]

end Sys2Proof.Machine
end

