-- ==== Sys2Proof/Laws/Monitor.lean ====
section
/-! SUPPORT. What an arrival can do at the pressure monitor (08, R143, R146). -/

namespace Sys2Proof.Machine

/-- Where enough counts are published, the one evaluated has just the older ones before it. -/
theorem evaluateAfter_eq {k : Pool} {older : Nat} {s : State} (h : older < (s.pool k).published.length) :
    ∃ l count later, (s.pool k).published = l ++ count :: later ∧ l.length = older
      ∧ evaluateAfter k older s = setPool k (evaluateCount count later (s.pool k)) s := by
  have hd := List.drop_eq_getElem_cons h
  refine ⟨(s.pool k).published.take older, (s.pool k).published[older], (s.pool k).published.drop (older + 1), ?_,
    by simp [Nat.le_of_lt h], by rw [evaluateAfter, hd]⟩
  conv_lhs => rw [← List.take_append_drop older (s.pool k).published, hd]

/-- All that COUNT_ARRIVAL can do: with no count published nothing; else one of those published is evaluated, and those
after it stay. It draws a free value only where several are published (08, R143; log entry 27). -/
theorem execCountArrival_cases (k : Pool) (s : State) :
    (s.pool k).published = [] ∧ execCountArrival k s = .next s
      ∨ ∃ l count later draws, (s.pool k).published = l ++ count :: later
        ∧ ((s.pool k).published.length = 1 → draws = s.freeDraws)
        ∧ execCountArrival k s
          = .next (setPool k (evaluateCount count later (s.pool k)) { s with freeDraws := draws }) := by
  by_cases h0 : (s.pool k).published = []
  · exact .inl ⟨h0, by simp [execCountArrival, evaluateAfter, h0]⟩
  · have hl : 0 < (s.pool k).published.length := List.length_pos_iff.2 h0
    right
    unfold execCountArrival; dsimp only; split
    · obtain ⟨l, count, later, hp, -, he⟩ := evaluateAfter_eq (k := k) hl
      exact ⟨l, count, later, s.freeDraws, hp, fun _ => rfl, by rw [he]⟩
    · rename_i hn
      obtain ⟨l, count, later, hp, -, he⟩ := evaluateAfter_eq (k := k) (s := { s with freeDraws := s.freeDraws + 1 })
        (Nat.mod_lt (Config.countsSuperseded s.freeDraws) hl)
      exact ⟨l, count, later, _, hp, fun h1 => by omega, congrArg _ he⟩

end Sys2Proof.Machine
end

