-- ==== Sys2Proof/Laws/Moves.lean ====
section
/-! SUPPORT. Once for all commands, what a command can do to the part: a chain of small moves, each with its guard.
An invariant that every move keeps is one that every command keeps. -/

namespace Sys2Proof.Machine

/-- Nothing changes in the tables, the token, the ports, EVENTS, EVENT_ENABLE, the tick period, the quotas and the
marks; and no offer comes to stand in HALTED. -/
def Quiet (s t : State) : Prop :=
  t.records = s.records ∧ t.leases = s.leases ∧ t.gens = s.gens ∧ t.waits = s.waits ∧ t.token = s.token
    ∧ t.ports = s.ports ∧ t.events = s.events ∧ t.eventEnable = s.eventEnable ∧ t.tickPeriod = s.tickPeriod
    ∧ (∀ a, (t.agent a).quota = (s.agent a).quota) ∧ (∀ k, poolOk k (t.pool k) = poolOk k (s.pool k))
    ∧ (t.part = .halted → t.offered = none ∨ (s.part = .halted ∧ t.offered = s.offered))

/-- One small move of the part. -/
inductive Move : State → State → Prop
  | quiet {s t : State} (h : Quiet s t) : Move s t
  | event (e : Event) (s : State) : Move s (postEvent e s)
  | flags (v : Word) (s : State) : Move s { s with events := s.events &&& v }
  | enables (v : Word) (s : State) : Move s { s with eventEnable := v &&& Config.eventMask }
  | period (v : BitVec 16) (s : State) (h : Config.minTickPeriod ≤ v.toNat) : Move s { s with tickPeriod := v }
  | quota (a : Agent) (q : Nat) (s : State) (h : 1 ≤ q ∧ q ≤ Config.maxQuota) :
      Move s (updAgent a (fun g => { g with quota := q }) s)
  | pool (k : Pool) (p : PoolState) (s : State) (h : poolOk k (s.pool k) = true → poolOk k p = true) :
      Move s (updPool k (fun _ => p) s)
  | raise (v : Token) (s : State) (h : s.token.toNat ≤ v.toNat) : Move s { s with token := v }
  | port (p : Port) (f : PortState → PortState) (s : State)
      (h : portOk (s.port p) = true → portOk (f (s.port p)) = true) : Move s (updPort p f s)
  | record (n : Nat) (f : LockRecord → LockRecord) (s : State)
      (h : ∀ r, ((f r).mode = r.mode ∨ (f r).mode = .shared) ∧ (f r).holders.length ≤ r.holders.length
        ∧ (f r).lastToken = r.lastToken) : Move s (updRecord n f s)
  | create (key : Key) (d : Fin 16) (m : Mode) (n : Nat) (s : State) (h : n < Config.lockCapacity) :
      Move s (newRecord key d m n s)
  | retire (n : Nat) (s : State) : Move s { s with records := tableErase s.records n }
  | grant (n k : Nat) (a : Agent) (m : Mode) (ticks : Nat) (s : State) (ht : s.token ≠ Config.tokenEnd)
      (hk : k < Config.leaseCapacity) (hc : ∀ r, tableGet s.records n = some r → compatible m r = true) :
      Move s (grantLease n k a m ticks s)
  | upgrade (n k : Nat) (s : State) (ht : s.token ≠ Config.tokenEnd)
      (hc : ∀ r, tableGet s.records n = some r → r.holders.length ≤ 1) : Move s (upgradeLease n k s)
  | lease (k : Nat) (f : Lease → Lease) (s : State) (h : ∀ l, (f l).token = l.token) : Move s (updLease k f s)
  | reserve (k : Nat) (a : Agent) (w : Nat) (s : State) (h : k < Config.leaseCapacity) :
      Move s { s with leases := tableSet s.leases k (.reserved a w) }
  | free (k : Nat) (s : State) (h : k < Config.leaseCapacity) : Move s (freeLeaseEntry k s)
  | wait (w : Nat) (e : WaitEntry) (s : State) (hw : w < Config.waitCapacity) (he : e.reserved < Config.leaseCapacity) :
      Move s { s with waits := tableSet s.waits w e }
  | unwait (w : Nat) (s : State) : Move s { s with waits := tableErase s.waits w }

/-- The canonical form of the tables, table by table. -/
theorem tablesOk_iff (s : State) : tablesOk s = true ↔
    tableWf Config.lockCapacity s.records = true ∧ tableWf Config.leaseCapacity s.leases = true
      ∧ tableWf Config.leaseCapacity s.gens = true ∧ (∀ e ∈ s.gens, e.2 ≠ 0#8)
      ∧ tableWf Config.waitCapacity s.waits = true ∧ ∀ e ∈ s.waits, e.2.reserved < Config.leaseCapacity := by
  simp [tablesOk, and_assoc]

/-- A generation advanced keeps the generations' canonical form. -/
theorem advanceGen_gens {k : Nat} {s : State} (hk : k < Config.leaseCapacity)
    (h : tableWf Config.leaseCapacity s.gens = true) (h0 : ∀ e ∈ s.gens, e.2 ≠ 0#8) :
    tableWf Config.leaseCapacity (advanceGen k s).gens = true ∧ ∀ e ∈ (advanceGen k s).gens, e.2 ≠ 0#8 := by
  simp only [advanceGen]
  split
  · exact ⟨tableWf_tableErase h k, fun e he => h0 e (mem_tableErase.1 he).1⟩
  · rename_i hg
    refine ⟨tableWf_tableSet h hk _, fun e he => ?_⟩
    rcases mem_tableSet he with rfl | he
    · exact hg
    · exact h0 e he

/-- A record's update keeps the lock table's canonical form. -/
theorem updRecord_wf {n : Nat} {f : LockRecord → LockRecord} {s : State}
    (h : tableWf Config.lockCapacity s.records = true) : tableWf Config.lockCapacity (updRecord n f s).records = true := by
  unfold updRecord
  split
  · rename_i r hr; exact tableWf_tableSet h (lt_of_tableGet h hr) _
  · exact h

/-- A lease's update keeps the lease pool's canonical form. -/
theorem updLease_wf {k : Nat} {f : Lease → Lease} {s : State}
    (h : tableWf Config.leaseCapacity s.leases = true) : tableWf Config.leaseCapacity (updLease k f s).leases = true := by
  unfold updLease
  split
  · rename_i l hl; exact tableWf_tableSet h (lt_of_tableGet h (leaseAt_eq_some.1 hl)) _
  · exact h

/-- Every move keeps the tables' canonical form. -/
theorem Move.tablesOk {s t : State} (m : Move s t) (h : tablesOk s = true) : tablesOk t = true := by
  rw [tablesOk_iff] at *
  obtain ⟨h1, h2, h3, h4, h5, h6⟩ := h
  cases m with
  | quiet q => obtain ⟨q1, q2, q3, q4, _⟩ := q; rw [q1, q2, q3, q4]; exact ⟨h1, h2, h3, h4, h5, h6⟩
  | event | flags | enables | period | raise => exact ⟨h1, h2, h3, h4, h5, h6⟩
  | quota | pool | port =>
    simp only [updAgent_keeps, updPool_keeps, updPort_keeps]; exact ⟨h1, h2, h3, h4, h5, h6⟩
  | record n f s h => simp only [updRecord_keeps]; exact ⟨updRecord_wf h1, h2, h3, h4, h5, h6⟩
  | create key d m n s h => exact ⟨tableWf_tableSet h1 h _, h2, h3, h4, h5, h6⟩
  | retire n s => exact ⟨tableWf_tableErase h1 n, h2, h3, h4, h5, h6⟩
  | grant n k a m ticks s ht hk hc =>
    unfold grantLease
    split
    · exact ⟨h1, h2, h3, h4, h5, h6⟩
    · rename_i r hr
      simp only [recompare_keeps, listLease_keeps]
      exact ⟨tableWf_tableSet h1 (lt_of_tableGet h1 hr) _, tableWf_tableSet h2 hk _, h3, h4, h5, h6⟩
  | upgrade n k s ht hc =>
    simp only [upgradeLease, updLease_keeps, updRecord_keeps]
    exact ⟨updRecord_wf h1, updLease_wf (by simpa using h2), h3, h4, h5, h6⟩
  | lease k f s h => simp only [updLease_keeps]; exact ⟨h1, updLease_wf h2, h3, h4, h5, h6⟩
  | reserve k a w s h => exact ⟨h1, tableWf_tableSet h2 h _, h3, h4, h5, h6⟩
  | free k s h =>
    have hg := advanceGen_gens (s := { s with leases := tableErase s.leases k }) h h3 h4
    simp only [freeLeaseEntry, advanceGen_keeps]
    exact ⟨h1, tableWf_tableErase h2 k, hg.1, hg.2, h5, h6⟩
  | wait w e s hw he =>
    refine ⟨h1, h2, h3, h4, tableWf_tableSet h5 hw _, fun x hx => ?_⟩
    rcases mem_tableSet hx with rfl | hx
    · exact he
    · exact h6 x hx
  | unwait w s =>
    exact ⟨h1, h2, h3, h4, tableWf_tableErase h5 w, fun x hx => h6 x (mem_tableErase.1 hx).1⟩

/-- A chain of moves. -/
def Moves : State → State → Prop := Relation.ReflTransGen Move

theorem Moves.refl (s : State) : Moves s s := Relation.ReflTransGen.refl

theorem Moves.one {s t : State} (h : Move s t) : Moves s t := Relation.ReflTransGen.single h

theorem Moves.trans {s t u : State} (h : Moves s t) (g : Moves t u) : Moves s u := Relation.ReflTransGen.trans h g

/-- What every move keeps, a chain keeps. -/
theorem Moves.keep {P : State → Prop} (hm : ∀ s t, Move s t → P s → P t) {s t : State} (h : Moves s t) (hs : P s) : P t := by
  induction h with
  | refl => exact hs
  | tail _ m ih => exact hm _ _ m ih

/-- A chain of moves from a state whose tables are in canonical form. -/
structure Path (s t : State) : Prop where
  moves : tablesOk s = true → Moves s t

theorem Path.refl (s : State) : Path s s := ⟨fun _ => Moves.refl s⟩

theorem Path.one {s t : State} (h : Move s t) : Path s t := ⟨fun _ => Moves.one h⟩

/-- A path keeps the tables' canonical form. -/
theorem Path.tablesOk {s t : State} (h : Path s t) (hs : tablesOk s = true) : tablesOk t = true :=
  (h.moves hs).keep (fun _ _ m => m.tablesOk) hs

theorem Path.trans {s t u : State} (h : Path s t) (g : Path t u) : Path s u :=
  ⟨fun hs => (h.moves hs).trans (g.moves (h.tablesOk hs))⟩

theorem Path.quiet {s t : State} (h : Quiet s t) : Path s t := Path.one (.quiet h)

/-- A path may be found knowing that the tables are in canonical form. -/
theorem Path.ofOk {s t : State} (h : Sys2Proof.Machine.tablesOk s = true → Path s t) : Path s t :=
  ⟨fun hs => (h hs).moves hs⟩

/-- A fold of operations that are each a path is a path. -/
theorem Path.fold {α : Type} {f : State → α → State} (h : ∀ s x, Path s (f s x)) (l : List α) (s : State) :
    Path s (l.foldl f s) := by
  induction l generalizing s with
  | nil => exact Path.refl s
  | cons x rest ih => exact (h s x).trans (ih _)

end Sys2Proof.Machine
end

