-- ==== Sys2Proof/Laws/Paths.lean ====
section
/-! SUPPORT. Every command is a chain of moves (`exec_path`), operation by operation. -/

namespace Sys2Proof.Machine

/-! ### Changes that are quiet -/

/-- A change of an agent's record that keeps its quota is quiet. -/
theorem updAgent_path (a : Agent) (f : AgentRec → AgentRec) (h : ∀ r, (f r).quota = r.quota) (s : State) :
    Path s (updAgent a f s) := by
  refine Path.quiet ?_
  simp only [Quiet, updAgent_keeps, updAgent_agent, true_and]
  refine ⟨fun b => ?_, fun k => by cases k <;> simp [State.pool], fun hp => .inr ⟨hp, trivial⟩⟩
  by_cases hb : b = a
  · subst hb; simp [h]
  · simp [hb]

theorem setTag_path (a : Agent) (t : Tag) (x : TagState) (s : State) : Path s (setTag a t x s) :=
  updAgent_path a (fun r => { r with tags := r.tags.set t.val x t.isLt }) (fun _ => rfl) s

theorem setAgentState_path (a : Agent) (x : AgentState) (s : State) : Path s (setAgentState a x s) :=
  updAgent_path a (fun r => { r with state := x }) (fun _ => rfl) s

theorem listLease_path (a : Agent) (h : Handle) (s : State) : Path s (listLease a h s) :=
  updAgent_path a (fun r => { r with leases := r.leases ++ [h] }) (fun _ => rfl) s

theorem unlistLease_path (a : Agent) (h : Handle) (s : State) : Path s (unlistLease a h s) :=
  updAgent_path a (fun r => { r with leases := r.leases.erase h }) (fun _ => rfl) s

theorem unmark_path (e : TimedEntry) (s : State) : Path s (unmark e s) :=
  Path.quiet (by simp +contextual [Quiet, State.agent, State.pool])

theorem recompare_path (e : TimedEntry) (s : State) : Path s (recompare e s) :=
  Path.quiet (by simp +contextual [Quiet, State.agent, State.pool])

theorem recompareLeases_path (a : Agent) (s : State) : Path s (recompareLeases a s) :=
  Path.quiet (by simp +contextual [Quiet, State.agent, State.pool])

theorem markAllDue_path (s : State) : Path s (markAllDue s) :=
  Path.quiet (by simp +contextual [Quiet, State.agent, State.pool])

/-- The offer comes to stand only while the part serves (07, R133). -/
theorem offerTimer_path (s : State) : Path s (offerTimer s) := by
  refine Path.quiet ?_
  unfold offerTimer
  split
  · rename_i h
    refine ⟨rfl, rfl, rfl, rfl, rfl, rfl, rfl, rfl, rfl, fun _ => rfl, fun k => by cases k <;> rfl, fun hp => ?_⟩
    have hs := h.2
    simp only [serving, decide_eq_true_iff] at hs
    have hp' : s.part = .halted := hp
    rcases hs with hs | hs <;> simp [hs] at hp'
  · simp +contextual [Quiet]

theorem choose_path (ok : Member → Bool) (s : State) : Path s (choose ok s) :=
  Path.quiet (by simp +contextual [Quiet, State.agent, State.pool])

theorem withChoice_path (s : State) : Path s (withChoice s) :=
  Path.quiet (by simp +contextual [Quiet, State.agent, State.pool])

theorem beginCommand_path (s : State) : Path s (beginCommand s) :=
  Path.quiet (by simp +contextual [Quiet, State.agent, State.pool])

theorem mailboxRunning_path (s : State) : Path s (mailboxRunning s) :=
  Path.quiet (by simp +contextual [Quiet, State.agent, State.pool])

/-- A change of the sweep list alone is quiet. -/
theorem sweep_path (l : List Job) (s : State) : Path s { s with sweep := l } :=
  Path.quiet (by simp +contextual [Quiet, State.agent, State.pool])

/-! ### Posts, the mailbox and the part state -/

theorem postEvent_path (e : Event) (s : State) : Path s (postEvent e s) := Path.one (.event e s)

theorem completeCmd_path (r : CmdResult) (ws : List Word) (s : State) : Path s (completeCmd r ws s) := by
  refine Path.trans (Path.quiet ?_) (postEvent_path _ _)
  simp +contextual [Quiet, State.agent, State.pool]

theorem completeTaken_path (c : Byte) (r : CmdResult) (ws : List Word) (s : State) : Path s (completeTaken c r ws s) := by
  unfold completeTaken; split
  · exact completeCmd_path ..
  · exact Path.refl s

theorem supersede_path (auto : Bool) (l : Vector Word 8) (s : State) : Path s (supersede auto l s) := by
  refine Path.trans (Path.quiet ?_) (postEvent_path _ _)
  simp +contextual [Quiet, State.agent, State.pool]

theorem placeAutoAbort_path (s : State) : Path s (placeAutoAbort s) := by
  unfold placeAutoAbort; split
  · exact Path.quiet (by simp +contextual [Quiet, State.agent, State.pool])
  · exact Path.quiet (by simp +contextual [Quiet, State.agent, State.pool])
  all_goals
    split
    · exact Path.refl s
    · exact supersede_path ..

theorem startAbort_path (b : Bool) (s : State) : Path s (startAbort b s) := by
  refine Path.trans (Path.quiet ?_) (postEvent_path _ _)
  simp +contextual [Quiet, State.agent, State.pool]

theorem enterHalted_path (s : State) : Path s (enterHalted s) := by
  refine Path.trans (Path.quiet ?_) (postEvent_path _ _)
  simp +contextual [Quiet, State.agent, State.pool]

theorem tokenEndReached_path (s : State) : Path s (tokenEndReached s) := by
  have h : Path s (postEvent .tokenEnd { s with seeded := false }) :=
    Path.trans (Path.quiet (by simp +contextual [Quiet, State.agent, State.pool])) (postEvent_path _ _)
  unfold tokenEndReached; dsimp only; split
  · exact (h.trans (startAbort_path ..)).trans (placeAutoAbort_path _)
  · exact (h.trans (startAbort_path ..)).trans (placeAutoAbort_path _)
  · exact h
  · exact h

theorem withTokenEnd_path {f : State → State} {s : State} (h : Path s (f s)) : Path s (withTokenEnd f s) := by
  unfold withTokenEnd; dsimp only; split
  · exact h.trans (tokenEndReached_path _)
  · exact h

/-! ### Ports -/

/-- A port's change that keeps its account is a move. -/
theorem updPort_path (p : Port) (f : PortState → PortState) (h : ∀ q, portOk q = true → portOk (f q) = true) (s : State) :
    Path s (updPort p f s) := Path.one (.port p f s (h _))

/-- The start of a transmission keeps the port's account: a reply that holds a credit is then the one being sent. -/
theorem transmit_portOk (q : PortState) (hq : portOk q = true) : portOk (transmit q) = true := by
  obtain ⟨link, hd, wp, fifo, ing, un, wh, eg, rq, nq, et, ack, rp, fe, en, sg, tx, td⟩ := q
  unfold transmit; split
  · rename_i ht; simp only at ht; subst ht
    cases link
    · exact hq
    · simp only [beginFrame]; split
      · simp [portOk, creditReplies] at hq ⊢; grind
      · split
        · simp [portOk, creditReplies] at hq ⊢; grind
        · exact hq
    · simp only [beginFrame]; split
      · simp [portOk, creditReplies] at hq ⊢; grind
      · split
        · simp [portOk, creditReplies] at hq ⊢; grind
        · split
          · cases rq <;> cases nq <;> cases et <;>
              simp [beginMessage, egressSource, portOk, creditReplies, otherTurn] at hq ⊢ <;> grind
          · exact hq
  · exact hq

/-- The end of a transmission keeps the port's account (10, R177). -/
theorem completeFrame_portOk (q : PortState) (hq : portOk q = true) : portOk (completeFrame q) = true := by
  obtain ⟨link, hd, wp, fifo, ing, un, wh, eg, rq, nq, et, ack, rp, fe, en, sg, tx, td⟩ := q
  unfold completeFrame; split
  · rename_i r ht; simp only at ht; subst ht
    cases hr : r.owner <;> cases link <;> simp [portOk, creditReplies, isCreditReply, hr] at hq ⊢ <;> grind
  all_goals
    rename_i ht; simp only at ht; subst ht
    cases link <;> simp [portOk, creditReplies] at hq ⊢ <;> grind

/-- A transmitter's acts keep the port's account. -/
theorem transmitterSteps_portOk (n : Nat) (q : PortState) (hq : portOk q = true) :
    portOk (transmitterSteps n q) = true := by
  induction n generalizing q with
  | zero => exact hq
  | succ n ih =>
    refine ih _ ?_
    unfold transmitterStep; split
    · rename_i ht; have := transmit_portOk q hq; rwa [transmit, if_pos ht] at this
    · exact completeFrame_portOk q hq

/-- A change of what the item has handed over is quiet. -/
theorem handed_path (l : List Port) (s : State) : Path s (withHanded l s) :=
  Path.quiet (by simp +contextual [Quiet, State.agent, State.pool])

theorem portGoesOn_path (x : EgressTurn) (p : Port) (s : State) : Path s (portGoesOn x p s) := by
  unfold portGoesOn; split
  · refine Path.trans (t := { s with freeDraws := s.freeDraws + 1 }) (Path.quiet ?_) (updPort_path p _ (transmitterSteps_portOk _) _)
    simp +contextual [Quiet, State.agent, State.pool]
  · exact Path.refl s

/-- An entry that keeps the account of a port which is not DOWN. -/
theorem handPort_path (x : EgressTurn) (p : Port) (f : PortState → PortState)
    (h : ∀ q, q.link ≠ .down → portOk q = true → portOk (f q) = true) (s : State) : Path s (handPort x p f s) := by
  unfold handPort; split
  · exact Path.refl s
  · rename_i hl
    refine (portGoesOn_path x p s).trans (Path.trans (Path.one (.port _ _ _ fun hq => h _ ?_ hq)) (handed_path _ _))
    simpa using hl

/-- A reply that belongs to a tag keeps the account of its port. -/
theorem placeReply_path (a : Agent) (r : Reply) (h : r.owner ≠ .credit) (s : State) : Path s (placeReply a r s) := by
  refine handPort_path _ _ _ (fun q hl hq => ?_) s
  have hr : creditReplies { q with replyQ := q.replyQ ++ [r] } = creditReplies q := by
    simp [creditReplies, isCreditReply, h]
  cases hlk : q.link <;> simp_all [portOk] <;> grind

theorem answerTag_path (a : Agent) (t : Tag) (k : Byte) (st : Status) (c : Content) (s : State) :
    Path s (answerTag a t k st c s) :=
  (setTag_path a t _ s).trans (placeReply_path a _ (by simp) _)

/-- A notice change that keeps one notice per agent keeps the account of its port. -/
theorem placeNotice_path (a : Agent) (f : List Notice → List Notice)
    (h : ∀ l, (l.map noticeSlot).Nodup → ((f l).map noticeSlot).Nodup) (s : State) : Path s (placeNotice a f s) := by
  refine handPort_path _ _ _ (fun q hl hq => ?_) s
  have hr : creditReplies { q with noticeQ := f q.noticeQ } = creditReplies q := rfl
  cases hlk : q.link <;> simp_all [portOk] <;> grind

/-- A loss keeps one notice per agent (02, R44). -/
theorem noticeLoss_slots (sl : Slot) (h : Handle) (reason : LossReason) (l : List Notice) :
    (noticeLoss sl h reason l).map noticeSlot
      = if sl ∈ l.map noticeSlot then l.map noticeSlot else l.map noticeSlot ++ [sl] := by
  induction l with
  | nil => simp [noticeLoss, noticeSlot]
  | cons n rest ih =>
    by_cases hn : noticeSlot n = sl
    · cases n <;> simp_all [noticeLoss, noticeSlot]
    · simp only [noticeLoss, hn, if_false, List.map_cons, ih, List.mem_cons, Ne.symm hn, false_or]
      split <;> simp

/-- A fence keeps one notice per agent (02, R45). -/
theorem noticeFence_slots (sl : Slot) (e : BitVec 16) (l : List Notice) :
    (noticeFence sl e l).map noticeSlot
      = if sl ∈ l.map noticeSlot then l.map noticeSlot else l.map noticeSlot ++ [sl] := by
  induction l with
  | nil => simp [noticeFence, noticeSlot]
  | cons n rest ih =>
    by_cases hn : noticeSlot n = sl
    · simp_all [noticeFence, noticeSlot]
    · simp only [noticeFence, hn, if_false, List.map_cons, ih, List.mem_cons, Ne.symm hn, false_or]
      split <;> simp

theorem nodup_addSlot {sl : Slot} {l : List Slot} (h : l.Nodup) : (if sl ∈ l then l else l ++ [sl]).Nodup := by
  split
  · exact h
  · rename_i hs
    rw [List.nodup_append]
    exact ⟨h, by simp, fun x hx y hy => by simp at hy; subst hy; exact fun e => hs (e ▸ hx)⟩

/-! ### Grants and removals -/

/-- A record's change that neither adds a holder nor makes it EXCLUSIVE nor moves its last token is a move. -/
theorem updRecord_path (n : Nat) (f : LockRecord → LockRecord)
    (h : ∀ r, ((f r).mode = r.mode ∨ (f r).mode = .shared) ∧ (f r).holders.length ≤ r.holders.length
      ∧ (f r).lastToken = r.lastToken) (s : State) : Path s (updRecord n f s) := Path.one (.record n f s h)

/-- A lease's change that keeps its token is a move. -/
theorem updLease_path {k : Nat} {f : Lease → Lease} (h : ∀ l, (f l).token = l.token) (s : State) :
    Path s (updLease k f s) := Path.one (.lease k f s h)

theorem dequeueWait_path (w : Nat) (e : WaitEntry) (s : State) : Path s (dequeueWait w e s) :=
  ((Path.one (.unwait w s)).trans (updRecord_path e.record (fun r => { r with queue := r.queue.erase w })
    (fun _ => ⟨.inl rfl, Nat.le_refl _, rfl⟩) _)).trans (unmark_path _ _)

theorem freeLeaseEntry_path {k : Nat} (h : k < Config.leaseCapacity) (s : State) : Path s (freeLeaseEntry k s) :=
  Path.one (.free k s h)

/-- A wait's reserved entry number exists. -/
theorem reserved_lt {s : State} (h : tablesOk s = true) {w : Nat} {e : WaitEntry} (hg : tableGet s.waits w = some e) :
    e.reserved < Config.leaseCapacity :=
  ((tablesOk_iff s).1 h).2.2.2.2.2 _ (mem_of_tableGet hg)

/-- An IN_USE lease's number exists. -/
theorem lease_lt {s : State} (h : tablesOk s = true) {k : Nat} {l : Lease} (hg : leaseAt s k = some l) :
    k < Config.leaseCapacity := lt_of_tableGet ((tablesOk_iff s).1 h).2.1 (leaseAt_eq_some.1 hg)

theorem removeWait_path (w : Nat) (ans : Option Status) (s : State) : Path s (removeWait w ans s) := by
  refine Path.ofOk fun hs => ?_
  unfold removeWait
  split
  · exact Path.refl s
  · rename_i e hg
    have h := (dequeueWait_path w e s).trans (freeLeaseEntry_path (reserved_lt hs hg) _)
    dsimp only; split
    · exact h.trans (answerTag_path ..)
    · exact h.trans (setTag_path ..)

theorem dropUpgrade_path (n : Nat) (ans : Option Status) (s : State) : Path s (dropUpgrade n ans s) := by
  unfold dropUpgrade
  split
  · exact Path.refl s
  · have h : ∀ e, Path s (unmark e (updRecord n (fun r => { r with slot := none }) s)) := fun e =>
      (updRecord_path n (fun r => { r with slot := none }) (fun _ => ⟨.inl rfl, Nat.le_refl _, rfl⟩) s).trans (unmark_path _ _)
    dsimp only; split
    · exact (h _).trans (answerTag_path ..)
    · exact (h _).trans (setTag_path ..)
    · exact h _

theorem answerGranted_path (a : Agent) (t : Tag) (kind : Byte) (k : Nat) (s : State) :
    Path s (answerGranted a t kind k s) := by
  unfold answerGranted; split
  · exact answerTag_path ..
  · exact Path.refl s

/-- A queue head is granted to a record it is compatible with, while the counter is not at its end. -/
theorem grantWait_path {n w : Nat} {e : WaitEntry} {s : State} (ht : s.token ≠ Config.tokenEnd)
    (hg : tableGet s.waits w = some e) (hc : ∀ r, tableGet s.records n = some r → compatible e.mode r = true) :
    Path s (grantWait n w e s) := by
  refine Path.ofOk fun hs => ?_
  refine ((dequeueWait_path w e s).trans (Path.one (.grant n e.reserved e.agent e.mode e.leaseTicks _ (by simpa using ht)
    (reserved_lt hs hg) fun r hr => ?_))).trans (answerGranted_path ..)
  have : ∃ r', tableGet s.records n = some r' ∧ r.mode = r'.mode ∧ r.holders = r'.holders := by
    simp only [dequeueWait, unmark_keeps, updRecord] at hr
    split at hr
    · rename_i r' hr'
      dsimp only at hr hr'
      rw [tableGet_tableSet] at hr
      split at hr
      · rename_i he; subst he; cases hr; exact ⟨r', hr', rfl, rfl⟩
      · exact ⟨r, hr, rfl, rfl⟩
    · exact ⟨r, hr, rfl, rfl⟩
  obtain ⟨r', hr', hm, hh⟩ := this
  have := hc r' hr'
  simpa [compatible, hm, hh] using this

theorem grantHeads_path (n : Nat) (q : List Nat) (s : State) : Path s (grantHeads n q s) := by
  induction q generalizing s with
  | nil => exact Path.refl s
  | cons w rest ih =>
    unfold grantHeads
    split
    · rename_i r e hr he
      split
      · rename_i hc
        refine Path.trans ?_ (ih _)
        split
        · exact removeWait_path ..
        · rename_i ht
          exact grantWait_path ht he fun r' hr' => by rw [hr] at hr'; cases hr'; exact hc
      · exact Path.refl s
    · exact Path.refl s

theorem retireRecord_path (n : Nat) (s : State) : Path s (retireRecord n s) := by
  unfold retireRecord; split
  · split
    · exact Path.one (.retire n s)
    · exact Path.refl s
  · exact Path.refl s

theorem evaluateQueue_path (n : Nat) (s : State) : Path s (evaluateQueue n s) := by
  unfold evaluateQueue; split
  · exact (grantHeads_path ..).trans (retireRecord_path ..)
  · exact Path.refl s

/-- The upgrade of a record's only holder, while the counter is not at its end, is a move. -/
theorem upgradeLease_path {n k : Nat} {s : State} (ht : s.token ≠ Config.tokenEnd)
    (hc : ∀ r, tableGet s.records n = some r → r.holders.length ≤ 1) : Path s (upgradeLease n k s) :=
  Path.one (.upgrade n k s ht hc)

theorem grantUpgrade_path {n : Nat} {u : Upgrade} {s : State} (ht : s.token ≠ Config.tokenEnd)
    (hc : ∀ r, tableGet s.records n = some r → r.holders.length ≤ 1) : Path s (grantUpgrade n u s) := by
  have h : Path s (upgradeLease n u.lease.num
      (unmark (.upgrade n) (updRecord n (fun r => { r with slot := none }) s))) := by
    refine ((updRecord_path n (fun r => { r with slot := none }) (fun _ => ⟨.inl rfl, Nat.le_refl _, rfl⟩) s).trans (unmark_path _ _)).trans
      (upgradeLease_path (by simpa using ht) fun r hr => ?_)
    simp only [unmark_keeps, updRecord] at hr
    split at hr
    · rename_i r' hr'
      rw [tableGet_tableSet] at hr
      split at hr
      · cases hr; exact hc r' hr'
      · exact hc r hr
    · exact hc r hr
  unfold grantUpgrade; dsimp only; split
  · exact h.trans (answerTag_path ..)
  · exact h

theorem evaluateRecord_path (n : Nat) (s : State) : Path s (evaluateRecord n s) := by
  unfold evaluateRecord; split
  · exact Path.refl s
  · rename_i r hr
    split
    · exact evaluateQueue_path ..
    · split
      · rename_i hh
        split
        · exact (dropUpgrade_path ..).trans (evaluateQueue_path ..)
        · rename_i ht
          exact grantUpgrade_path ht fun r' hr' => by rw [hr] at hr'; cases hr'; simp [hh]
      · exact Path.refl s

theorem evaluate_path (n : Nat) (s : State) : Path s (evaluate n s) := withTokenEnd_path (evaluateRecord_path n s)

theorem endLease_path (k : Nat) (s : State) : Path s (endLease k s) := by
  refine Path.ofOk fun hs => ?_
  unfold endLease; split
  · exact Path.refl s
  · rename_i l hl
    exact (((updRecord_path l.record (fun r => { r with holders := r.holders.erase (handleOf s k) })
      (fun r => ⟨.inl rfl, List.length_erase_le, rfl⟩) s).trans
      (unlistLease_path ..)).trans (unmark_path ..)).trans (freeLeaseEntry_path (lease_lt hs hl) _)

theorem loseLease_path (k : Nat) (reason : LossReason) (s : State) : Path s (loseLease k reason s) := by
  unfold loseLease; split
  · exact Path.refl s
  · dsimp only; split
    · refine (endLease_path ..).trans (placeNotice_path _ _ (fun l h => ?_) _)
      rw [noticeLoss_slots]; exact nodup_addSlot h
    · exact endLease_path ..

theorem fenceTag_path (a : Agent) (s : State) (t : Tag) : Path s (fenceTag a s t) := by
  unfold fenceTag; split
  · split
    · exact (removeWait_path ..).trans (evaluate_path ..)
    · exact Path.refl s
  · split
    · exact (dropUpgrade_path ..).trans (evaluate_path ..)
    · exact Path.refl s
  · exact Path.refl s
  · exact Path.refl s

theorem fenceJob_path (a : Agent) (s : State) : Path s (fenceJob a s) := by
  unfold fenceJob; split
  · exact setAgentState_path ..
  · split
    · exact Path.refl s
    · exact sweep_path ..

theorem enterFencing_path (a : Agent) (s : State) : Path s (enterFencing a s) := by
  unfold enterFencing
  refine (((setAgentState_path a _ s).trans (Path.fold (fenceTag_path a) _ _)).trans
    (placeNotice_path _ _ (fun l h => ?_) _)).trans (fenceJob_path ..)
  rw [noticeFence_slots]; exact nodup_addSlot h

/-! ### What begins and ends an item -/

theorem endFenceJob_path (b s : State) (j : Job) : Path s (endFenceJob b s j) := by
  unfold endFenceJob; split
  · split
    · have h : ∀ l a, Path s (setAgentState a .fenced { s with sweep := l }) := fun l a =>
        (sweep_path l s).trans (setAgentState_path ..)
      dsimp only; split
      · exact (h _ _).trans (completeCmd_path ..)
      · exact h _ _
    · exact Path.refl s
  · exact Path.refl s
  · exact Path.refl s

theorem quiesceHalt_path (b s : State) : Path s (quiesceHalt b s) := by
  unfold quiesceHalt; split
  · exact enterHalted_path s
  · exact Path.refl s

theorem publishPool_path (b : State) (k : Pool) (s : State) : Path s (publishPool b k s) := by
  unfold publishPool; split
  · exact Path.refl s
  · refine Path.quiet ?_
    simp only [Quiet, updPool_keeps, updPool_pool, true_and]
    refine ⟨fun _ => by simp [State.agent], fun l => ?_, fun hp => .inr ⟨hp, trivial⟩⟩
    by_cases hl : l = k
    · subst hl; simp [poolOk]
    · simp [hl]

theorem publishCounts_path (b s : State) : Path s (publishCounts b s) :=
  ((publishPool_path ..).trans (publishPool_path ..)).trans (publishPool_path ..)

theorem finishItem_path (b s : State) : Path s (finishItem b s) :=
  (((Path.fold (endFenceJob_path b) _ _).trans (quiesceHalt_path ..)).trans (offerTimer_path _)).trans
    (publishCounts_path ..)

theorem beginTake_path {remove : State → State} {s : State} (h : Path (withChoice s) (remove (withChoice s))) :
    Path s (beginTake remove s) := ((withChoice_path s).trans h).trans (choose_path ..)

theorem runItem_path {start work : State → State} {s : State} (h : Path s (work (withHanded [] (start s)))) :
    Path s (runItem start work s) := (h.trans (finishItem_path ..)).trans (handed_path ..)

/-- An item whose take and whose work are paths is a path. -/
theorem item_path {start work : State → State} {s : State} (h : Path s (start s)) (hw : ∀ u, Path u (work u)) :
    Path s (runItem start work s) := runItem_path ((h.trans (handed_path [] _)).trans (hw _))

end Sys2Proof.Machine
end

