-- ==== Sys2Proof/Laws/Commands.lean ====
section
/-! SUPPORT. Every command but DEVICE_RESET is a chain of moves from a state whose tables are in canonical form
(`exec_path`), family by family. -/

namespace Sys2Proof.Machine

/-! ### Requests -/

theorem reply_path (a : Agent) (r : Request) (st : Status) (c : Content) (s : State) : Path s (reply a r st c s) :=
  answerTag_path ..

theorem joinBehaviour_path (a : Agent) (r : Request) (s : State) : Path s (joinBehaviour a r s) := reply_path ..

theorem queryBehaviour_path (a : Agent) (r : Request) (s : State) : Path s (queryBehaviour a r s) := reply_path ..

theorem grantNow_path {a : Agent} {r : Request} {f : State → State} {s : State}
    (h : s.token ≠ Config.tokenEnd → Path s (f s)) : Path s (grantNow a r f s) := by
  unfold grantNow; split
  · exact reply_path ..
  · rename_i ht; exact withTokenEnd_path (h ht)

/-- A grant to a record the mode is compatible with, while the counter is not at its end. -/
theorem grantRequest_path {a : Agent} {r : Request} {m : Mode} {n k : Nat} {s : State} (ht : s.token ≠ Config.tokenEnd)
    (hk : k < Config.leaseCapacity) (hc : ∀ x, tableGet s.records n = some x → compatible m x = true) :
    Path s (grantRequest a r m n k s) :=
  (Path.one (.grant n k a m r.leaseTicks.toNat s ht hk hc)).trans (answerGranted_path ..)

theorem grantCreating_path (a : Agent) (r : Request) (m : Mode) (s : State) : Path s (grantCreating a r m s) := by
  unfold grantCreating; split
  · rename_i d n k _ hn hk
    refine grantNow_path fun ht => ?_
    refine (Path.one (.create r.key d m n s (lowestFree_spec hn).2.1)).trans
      (grantRequest_path ht (lowestFree_spec hk).2.1 fun x hx => ?_)
    simp only [newRecord, tableGet_tableSet, if_true] at hx
    cases hx; rfl
  · exact reply_path ..

theorem grantJoining_path {a : Agent} {r : Request} {m : Mode} {n : Nat} {s : State}
    (hc : ∀ x, tableGet s.records n = some x → compatible m x = true) : Path s (grantJoining a r m n s) := by
  unfold grantJoining; split
  · rename_i k hk
    exact grantNow_path fun ht => grantRequest_path ht (lowestFree_spec hk).2.1 hc
  · exact reply_path ..

theorem enqueue_path (a : Agent) (r : Request) (m : Mode) (n : Nat) (s : State) : Path s (enqueue a r m n s) := by
  unfold enqueue; split
  · rename_i rec w k hr hw hk
    refine Path.trans ?_ (recompare_path _ _)
    refine Path.trans ?_ (setTag_path ..)
    have h1 := updRecord_path n (fun x => { x with queue := x.queue ++ [w] })
      (fun _ => ⟨.inl rfl, Nat.le_refl _, rfl⟩) s
    simp only [updRecord, hr] at h1
    exact (h1.trans (Path.one (.wait w _ _ (lowestFree_spec hw).2.1 (lowestFree_spec hk).2.1))).trans
      (Path.one (.reserve k a w _ (lowestFree_spec hk).2.1))
  · exact reply_path ..

/-- The key's record is the one its number reads as, in a lock table in canonical form. -/
theorem recordOfKey_get {s : State} (hs : tablesOk s = true) {key : Key} {n : Nat} {r : LockRecord}
    (h : recordOfKey s key = some (n, r)) : tableGet s.records n = some r :=
  tableGet_of_mem ((tableWf_iff _ _).1 ((tablesOk_iff s).1 hs).1).1 (List.mem_of_find?_eq_some h)

/-- Outcome 4 names a record the mode is compatible with (01, R8). -/
theorem joinHolders_compatible {s : State} {a : Agent} {key : Key} {m : Mode} {w n : Nat}
    (h : immediateDecision s a key m w = .joinHolders n) : ∃ r, recordOfKey s key = some (n, r) ∧ compatible m r = true := by
  unfold immediateDecision at h
  split at h
  · simp at h
  · rename_i n' r hr
    split at h
    · simp at h
    · split at h
      · simp at h
      · split at h
        · rename_i hc; cases h; exact ⟨r, hr, hc.2.2⟩
        · split at h
          · simp at h
          · split at h <;> simp at h

theorem acquireBehaviour_path (a : Agent) (r : Request) (s : State) : Path s (acquireBehaviour a r s) := by
  refine Path.ofOk fun hs => ?_
  have h : ∀ m d, immediateDecision s a r.key m r.waitTicks.toNat = d → Path s (carryOut a r m d s) := by
    intro m d hd
    unfold carryOut; split
    · exact grantCreating_path ..
    · obtain ⟨x, hx, hc⟩ := joinHolders_compatible hd
      exact grantJoining_path fun y hy => by rw [recordOfKey_get hs hx] at hy; cases hy; exact hc
    · exact enqueue_path ..
    · split <;> exact reply_path ..
    · exact reply_path ..
    · exact reply_path ..
    · exact reply_path ..
  unfold acquireBehaviour; split
  · exact reply_path ..
  · dsimp only; split
    · split
      · exact reply_path ..
      · exact h _ _ rfl
    · exact h _ _ rfl

theorem withLease_path {behave : Agent → Request → Lease → State → State} {a : Agent} {r : Request} {s : State}
    (h : ∀ l, Path s (behave a r l s)) : Path s (withLease behave a r s) := by
  unfold withLease; split
  · exact reply_path ..
  · split
    · exact h _
    · exact reply_path ..

theorem releaseLease_path (a : Agent) (r : Request) (l : Lease) (s : State) : Path s (releaseLease a r l s) := by
  unfold releaseLease; dsimp only
  refine Path.trans ?_ (evaluate_path ..)
  refine Path.trans ?_ (reply_path ..)
  refine Path.trans ?_ (endLease_path ..)
  split
  · exact dropUpgrade_path ..
  · exact Path.refl s

theorem renewLease_path (a : Agent) (r : Request) (l : Lease) (s : State) : Path s (renewLease a r l s) := by
  unfold renewLease; dsimp only; split
  · exact reply_path ..
  · refine Path.trans ?_ (reply_path ..)
    refine Path.trans ?_ (recompare_path ..)
    exact updLease_path (by simp) s

theorem keepaliveBehaviour_path (a : Agent) (r : Request) (s : State) : Path s (keepaliveBehaviour a r s) :=
  ((updAgent_path a (fun g => { g with keepalive := s.now }) (fun _ => rfl) s).trans (recompareLeases_path ..)).trans
    (reply_path ..)

/-- The lease's record read at its number is the one an upgrade's decision looks at. -/
theorem upgradeOnRecord_path {a : Agent} {r : Request} {l : Lease} {rec : LockRecord} {s : State}
    (hr : tableGet s.records l.record = some rec) : Path s (upgradeOnRecord a r l rec s) := by
  unfold upgradeOnRecord; dsimp only; split
  · split <;> exact reply_path ..
  · split
    · rename_i hh
      refine grantNow_path fun ht => (upgradeLease_path ht fun x hx => ?_).trans (answerGranted_path ..)
      rw [hr] at hx; cases hx; simp [hh]
    · split
      · exact reply_path ..
      · refine Path.trans ?_ (recompare_path ..)
        refine Path.trans ?_ (setTag_path ..)
        exact updRecord_path _ _ (by simp) s

theorem upgradeLive_path (a : Agent) (r : Request) (l : Lease) (s : State) : Path s (upgradeLive a r l s) := by
  unfold upgradeLive; split
  · exact reply_path ..
  · split
    · exact reply_path ..
    · rename_i rec hr
      split
      · exact reply_path ..
      · exact upgradeOnRecord_path hr

theorem downgradeLease_path (a : Agent) (r : Request) (l : Lease) (s : State) : Path s (downgradeLease a r l s) := by
  unfold downgradeLease; dsimp only; split
  · exact reply_path ..
  · split
    · exact reply_path ..
    · split
      · exact reply_path ..
      · refine Path.trans ?_ (evaluate_path ..)
        refine Path.trans ?_ (reply_path ..)
        refine Path.trans ?_ (updRecord_path _ _ (by simp) _)
        exact updLease_path (by simp) s

theorem cancelBehaviour_path (a : Agent) (r : Request) (s : State) : Path s (cancelBehaviour a r s) := by
  unfold cancelBehaviour; split
  · split
    · exact ((removeWait_path ..).trans (reply_path ..)).trans (evaluate_path ..)
    · exact reply_path ..
  · split
    · exact ((dropUpgrade_path ..).trans (reply_path ..)).trans (evaluate_path ..)
    · exact reply_path ..
  · exact reply_path ..
  · exact reply_path ..

/-- A taken request stood at the head of its port's FIFO. -/
theorem takenRequest_fifo {s : State} {p : Port} {r : Request} (h : takenRequest s = some (p, r)) :
    ∃ rest, (s.port p).fifo = r :: rest := by
  unfold takenRequest at h
  split at h
  · rename_i p' _
    cases hq : (s.port p').fifo with
    | nil => simp [hq] at h
    | cons x l => simp [hq] at h; obtain ⟨rfl, rfl⟩ := h; exact ⟨l, hq⟩
  · simp at h

/-- The take that returns a message's credit keeps its port's account (10, R171). -/
theorem popRequest_path {p : Port} {s : State} (hf : (s.port p).fifo ≠ []) : Path s (popRequest p false s) := by
  refine Path.one (.port p _ s fun hq => ?_)
  generalize s.port p = q at *
  obtain ⟨link, hd, wp, fifo, ing, un, wh, eg, rq, nq, et, ack, rep, fe, en, sg, tx, td⟩ := q
  obtain ⟨x, l, rfl⟩ : ∃ x l, fifo = x :: l := List.exists_cons_of_ne_nil hf
  cases link <;> simp [portOk, creditReplies] at hq ⊢
  grind

/-- A take that withholds a message's credit and places the reply that holds it keeps its port's account (10, R171,
R173). -/
theorem refusedTake_path {p : Port} {a : Agent} {t : Tag} {kind : Byte} {st : Status} {ok : Member → Bool} {s : State}
    (ha : portOf a = p) (hf : (s.port p).fifo ≠ []) :
    Path s (answerNoTag a t kind st (withHanded [] (choose ok (popRequest p true s)))) := by
  subst ha
  let rep : Reply := ⟨.credit, slotOf a, t, st, kind, {}⟩
  let g : PortState → PortState := fun q =>
    if q.link = .down then { q with fifo := q.fifo.tail, withheld := q.withheld + 1 }
    else { q with fifo := q.fifo.tail, withheld := q.withheld + 1, replyQ := q.replyQ ++ [rep] }
  have h1 : Path s (updPort (portOf a) g s) := by
    refine Path.one (.port _ g s fun hq => ?_)
    generalize s.port (portOf a) = q at *
    obtain ⟨link, hd, wp, fifo, ing, un, wh, eg, rq, nq, et, ack, rp, fe, en, sg, tx, td⟩ := q
    obtain ⟨x, l, rfl⟩ : ∃ x l, fifo = x :: l := List.exists_cons_of_ne_nil hf
    have hr : isCreditReply rep = true := rfl
    cases link <;> simp [portOk, creditReplies, g, hr] at hq ⊢
    grind
  refine h1.trans (Path.quiet ?_)
  have hp : (answerNoTag a t kind st (withHanded [] (choose ok (popRequest (portOf a) true s)))).ports
      = (updPort (portOf a) g s).ports := by
    refine vector_ext_get fun q => ?_
    have hc : ∀ x, (withHanded [] (choose ok (popRequest (portOf a) true s))).port x
        = (popRequest (portOf a) true s).port x :=
      fun x => by simp [State.port]
    show (answerNoTag a t kind st _).port q = (updPort (portOf a) g s).port q
    rw [answerNoTag, placeReply, handPort_first (by simp [withHanded])]
    simp only [hc]
    simp only [popRequest, updPort_port]
    by_cases hq : q = portOf a
    · subst hq
      by_cases hd : (s.port (portOf a)).link = .down <;> simp [hd, g, rep]
    · simp [hq]
  simp +contextual [Quiet, State.agent, State.pool, hp]

/-- The take of a request: the message leaves its FIFO, and the rest is the request's own. -/
theorem takeRequest_path {isKind : Byte → Bool} {behave : Agent → Request → State → State}
    (hb : ∀ a r s, Path s (behave a r s)) {s t : State} (h : takeRequest isKind behave s = .next t) : Path s t := by
  unfold takeRequest at h
  split at h
  · rename_i p r htr
    split at h
    · cases h
      refine runItem_path ?_
      obtain ⟨rest, hf⟩ := takenRequest_fifo htr
      have hw : ((withChoice s).port p).fifo ≠ [] := by simp [State.port] at hf ⊢; simp [hf]
      have hbusy : tagIsBusy (withHanded [] (beginRequest p r s)) p r = tagIsBusy s p r :=
        tagIsBusy_congr (by simp) p r
      have hchoice : tagIsBusy (withChoice s) p r = tagIsBusy s p r :=
        tagIsBusy_congr (by simp) p r
      by_cases hB : tagIsBusy s p r = true
      · have hr : ∀ st, Path s (answerNoTag (senderOf p r) r.tag r.kind st (withHanded [] (beginRequest p r s))) := by
          intro st
          refine (withChoice_path s).trans ?_
          have := refusedTake_path (t := r.tag) (kind := r.kind) (st := st) (a := senderOf p r)
            (ok := eligible (popRequest p true (withChoice s))) (by simp [senderOf]) hw
          simpa [beginRequest, beginTake, hB] using this
        unfold requestWork; dsimp only
        split
        · rw [if_pos (hbusy.trans hB)]; exact hr _
        · rw [if_pos (hbusy.trans hB)]; exact hr _
      · have hB' : tagIsBusy s p r = false := by simpa using hB
        have hbeg : Path s (beginRequest p r s) := by
          have := (withChoice_path s).trans ((popRequest_path hw).trans
            (choose_path (eligible (popRequest p false (withChoice s))) _))
          simpa [beginRequest, beginTake, hB'] using this
        refine (hbeg.trans (handed_path [] _)).trans ?_
        have hnote : ∀ {u v : State}, Path (noteHanded p u) v → Path u v := fun h => (handed_path _ _).trans h
        unfold requestWork; dsimp only
        split
        · split
          · rename_i hx; rw [hbusy, hB'] at hx; simp at hx
          · exact hnote (reply_path ..)
        · split
          · rename_i hx; rw [hbusy, hB'] at hx; simp at hx
          · split
            · exact hnote (reply_path ..)
            · exact hnote (hb ..)
    · cases h; exact Path.refl s
  · cases h; exact Path.refl s

/-! ### Timer, sweep and withdrawal -/

theorem takeOffer_path (e : TimedEntry) {s : State} (hs : serving s = true) : Path s (takeOffer e s) := by
  refine Path.quiet ?_
  have hp : s.part ≠ .halted := by
    simp only [serving, decide_eq_true_iff] at hs
    rcases hs with hs | hs <;> simp [hs]
  simp [Quiet, State.agent, State.pool, hp]

theorem takenTimer_serving {s : State} {e : TimedEntry} (h : takenTimer s = some e) : serving s = true := by
  unfold takenTimer at h; split at h
  · rename_i hc; exact hc.2
  · simp at h

theorem autoFence_path (a : Agent) (s : State) : Path s (autoFence a s) :=
  (enterFencing_path a s).trans (postEvent_path ..)

theorem expireLease_path (k : Nat) (l : Lease) (s : State) : Path s (expireLease k l s) := by
  have h : Path s (evaluate l.record (loseLease k .expired
      (if inSlot s k l then dropUpgrade l.record (some .lost) s else s))) := by
    refine Path.trans ?_ (evaluate_path ..)
    refine Path.trans ?_ (loseLease_path ..)
    split
    · exact dropUpgrade_path ..
    · exact Path.refl s
  unfold expireLease; dsimp only
  generalize evaluate l.record _ = u at h ⊢
  split
  · exact h.trans (autoFence_path ..)
  · exact h

theorem leaseItem_path (k : Nat) (s : State) : Path s (leaseItem k s) := by
  unfold leaseItem; split
  · split
    · exact expireLease_path ..
    · exact Path.refl s
  · exact Path.refl s

theorem waitItem_path (w : Nat) (s : State) : Path s (waitItem w s) := by
  unfold waitItem; split
  · split
    · exact (removeWait_path ..).trans (evaluate_path ..)
    · exact Path.refl s
  · exact Path.refl s

theorem upgradeItem_path (n : Nat) (s : State) : Path s (upgradeItem n s) := by
  unfold upgradeItem; split
  · exact (dropUpgrade_path ..).trans (evaluate_path ..)
  · exact Path.refl s

/-- A TIMER item whose work is a path is a path. -/
theorem timerItem_path {e : TimedEntry} {work : State → State} {s : State} (hs : serving s = true)
    (hw : ∀ u, Path u (work u)) : Path s (runItem (beginTake (takeOffer e)) work s) := by
  refine item_path (beginTake_path (takeOffer_path e ?_)) hw
  simpa [serving] using hs

theorem fenceStep_path (a : Agent) (s : State) : Path s (fenceStep a s) := by
  unfold fenceStep; split
  · exact Path.refl s
  · split
    · exact (endLease_path ..).trans (evaluate_path ..)
    · exact unlistLease_path ..

theorem clearQueue_path (ans : Option Status) (q : List Nat) (s : State) : Path s (clearQueue ans q s) :=
  Path.fold (fun s w => removeWait_path w ans s) q s

theorem quiesceVisit_path (n : Nat) (r : LockRecord) (s : State) : Path s (quiesceVisit n r s) :=
  ((dropUpgrade_path ..).trans (clearQueue_path ..)).trans (evaluate_path ..)

theorem endQuiesceJob_path (b : Bool) (s : State) : Path s (endQuiesceJob b s) := by
  unfold endQuiesceJob; dsimp only; split
  · exact (sweep_path _ s).trans (completeCmd_path ..)
  · exact sweep_path _ s

theorem quiesceAdvance_path (n : Nat) (b : Bool) (s : State) : Path s (quiesceAdvance n b s) := by
  unfold quiesceAdvance; split
  · exact Path.refl s
  · split
    · exact sweep_path _ s
    · exact endQuiesceJob_path ..

theorem quiesceStep_path (n : Nat) (b : Bool) (s : State) : Path s (quiesceStep n b s) := by
  unfold quiesceStep; split
  · exact (quiesceVisit_path ..).trans (quiesceAdvance_path ..)
  · exact endQuiesceJob_path ..

theorem abortDrop_path (n : Nat) (r : LockRecord) (s : State) : Path s (abortDrop n r s) := by
  unfold abortDrop; dsimp only
  refine Path.trans ?_ (Path.one (.retire n _))
  refine Path.trans ?_ (Path.fold (fun s (h : Handle) => loseLease_path h.num .aborted s) _ _)
  exact (dropUpgrade_path ..).trans (clearQueue_path ..)

theorem endAbort_path (b : Bool) (s : State) : Path s (endAbort b s) := by
  have h : Path s (enterHalted (fenceAllFencing { s with sweep := [] })) := by
    refine Path.trans (Path.quiet ?_) (enterHalted_path _)
    simp only [Quiet, fenceAllFencing, true_and]
    refine ⟨fun a => ?_, fun k => by cases k <;> rfl, fun hp => .inr ⟨hp, trivial⟩⟩
    simp only [State.agent, Vector.get_eq_getElem, Vector.getElem_map]
    split <;> rfl
  unfold endAbort; dsimp only; split
  · exact h.trans (completeCmd_path ..)
  · split
    · refine h.trans (Path.quiet ?_)
      simp +contextual [Quiet, State.agent, State.pool]
    · exact h

theorem abortStep_path (n : Nat) (b : Bool) (s : State) : Path s (abortStep n b s) := by
  unfold abortStep; split
  · dsimp only; split
    · exact (abortDrop_path ..).trans (sweep_path _ _)
    · exact (abortDrop_path ..).trans (endAbort_path ..)
  · exact endAbort_path ..

/-- A SWEEP item whose work is a path is a path. -/
theorem sweepItem_path {work : State → State} {s : State} (hw : ∀ u, Path u (work u)) :
    Path s (runItem (beginTake id) work s) :=
  item_path (beginTake_path (Path.refl _)) hw

/-- An UP or TRAINING port's hold is clear; the hold and the pending withdrawal go together. -/
theorem enterTraining_path {p : Port} {s : State} (hd : (s.port p).link = .down) (hh : (s.port p).heldDown = false) :
    Path s (enterTraining p s) := by
  refine Path.trans (Path.one (.port p _ s fun hq => ?_)) (postEvent_path ..)
  generalize s.port p = q at *
  obtain ⟨link, hd, wp, fifo, ing, un, wh, eg, rq, nq, et, ack, rp, fe, en, sg, tx, td⟩ := q
  simp only at hd hh; subst hd hh
  simp [portOk, creditReplies] at hq ⊢; grind

theorem tryTrain_path (p : Port) (s : State) : Path s (tryTrain p s) := by
  unfold tryTrain; dsimp only; split
  · rename_i h; exact enterTraining_path h.1 h.2.2.2
  · exact Path.refl s

theorem withdrawRecord_path (p : Port) (s : State) (n : Nat) : Path s (withdrawRecord p s n) := by
  unfold withdrawRecord; split
  · exact Path.refl s
  · dsimp only; split
    · exact Path.refl s
    · refine Path.trans ?_ (evaluate_path ..)
      refine Path.trans ?_ (Path.fold (fun s w => removeWait_path w none s) _ _)
      split
      · exact dropUpgrade_path ..
      · exact Path.refl s

theorem freeTags_path (s : State) (a : Agent) : Path s (freeTags s a) :=
  updAgent_path a (fun g => { g with tags := Vector.replicate 16 .free }) (fun _ => rfl) s

theorem withdrawPort_path (p : Port) (s : State) : Path s (withdrawPort p s) := by
  unfold withdrawPort; dsimp only
  refine Path.trans ?_ (tryTrain_path ..)
  refine Path.trans ((Path.fold (withdrawRecord_path p) _ s).trans (Path.fold freeTags_path (agentsOf p) _))
    (updPort_path p _ (fun q hq => ?_) _)
  obtain ⟨link, hd, wp, fifo, ing, un, wh, eg, rq, nq, et, ack, rp, fe, en, sg, tx, td⟩ := q
  cases link <;> simp [portOk, creditReplies] at hq ⊢ <;> grind

theorem beginWithdraw_path (p : Port) (s : State) : Path s (beginWithdraw p s) := by
  refine beginTake_path (updPort_path p _ (fun q hq => ?_) _)
  obtain ⟨link, hd, wp, fifo, ing, un, wh, eg, rq, nq, et, ack, rp, fe, en, sg, tx, td⟩ := q
  cases link <;> simp [portOk, creditReplies] at hq ⊢ <;> grind

/-! ### Management commands -/

theorem takeCommand_path {isCode : Byte → Bool} {work : Byte → State → State} (hw : ∀ c s, Path s (work c s))
    {s t : State} (h : takeCommand isCode work s = .next t) : Path s t := by
  unfold takeCommand at h; split at h
  · split at h
    · cases h; exact item_path (beginCommand_path s) (hw _)
    · cases h; exact Path.refl s
  · cases h; exact Path.refl s

theorem setDomainWork_path (c : Byte) (s : State) : Path s (setDomainWork c s) := by
  unfold setDomainWork; split
  · exact completeTaken_path ..
  · split
    · exact completeTaken_path ..
    · dsimp only; split
      · exact completeTaken_path ..
      · refine Path.trans (Path.quiet ?_) (completeTaken_path ..)
        simp +contextual [Quiet, State.agent, State.pool]

theorem getDomainWork_path (c : Byte) (s : State) : Path s (getDomainWork c s) := by
  unfold getDomainWork; split <;> exact completeTaken_path ..

theorem activate_path (a : Agent) (s : State) : Path s (activate a s) :=
  (updAgent_path a (fun g => { g with state := .active, epoch := nextEpoch g.epoch, keepalive := s.now })
    (fun _ => rfl) s).trans (recompareLeases_path ..)

theorem setQuota_path {a : Agent} {q : Nat} (h : 1 ≤ q ∧ q ≤ Config.maxQuota) (s : State) : Path s (setQuota a q s) :=
  Path.one (.quota a q s h)

theorem agentDone_path (c : Byte) (a : Agent) (s : State) : Path s (agentDone c a s) := completeTaken_path ..

theorem setAgentHalted_path (c : Byte) (a : Agent) (action quota : Nat) (s : State) :
    Path s (setAgentHalted c a action quota s) := by
  unfold setAgentHalted; split
  · exact completeTaken_path ..
  · rename_i hq
    have hq' : 1 ≤ quota ∧ quota ≤ Config.maxQuota := by omega
    split
    · exact (setQuota_path hq' s).trans (agentDone_path ..)
    · split
      · split
        · exact ((setQuota_path hq' s).trans (activate_path ..)).trans (agentDone_path ..)
        all_goals exact completeTaken_path ..
      · split
        all_goals first
          | exact ((setQuota_path hq' s).trans (setAgentState_path ..)).trans (agentDone_path ..)
          | exact completeTaken_path ..

theorem setAgentWork_path (c : Byte) (s : State) : Path s (setAgentWork c s) := by
  unfold setAgentWork; dsimp only; split
  · exact completeTaken_path ..
  · split
    · exact completeTaken_path ..
    · split
      · exact setAgentHalted_path ..
      · split
        · exact (activate_path ..).trans (agentDone_path ..)
        · exact completeTaken_path ..

theorem getAgentWork_path (c : Byte) (s : State) : Path s (getAgentWork c s) := by
  unfold getAgentWork; split <;> exact completeTaken_path ..

theorem seedWork_path (c : Byte) (s : State) : Path s (seedWork c s) := by
  unfold seedWork; dsimp only; split
  · exact completeTaken_path ..
  · split
    · exact completeTaken_path ..
    · rename_i hv
      refine Path.trans (Path.trans (Path.one (.raise (argPair s 0 1) s (by omega))) (Path.quiet ?_)) (completeTaken_path ..)
      simp +contextual [Quiet, State.agent, State.pool]

/-- A change of the part state to one that serves is quiet. -/
theorem part_path {x : PartState} (h : x ≠ .halted) (s : State) : Path s { s with part := x } :=
  Path.quiet (by simp [Quiet, State.agent, State.pool, h])

theorem startWork_path (c : Byte) (s : State) : Path s (startWork c s) := by
  unfold startWork; split
  · split
    · exact ((part_path (by simp) s).trans (postEvent_path ..)).trans (completeTaken_path ..)
    · exact completeTaken_path ..
  all_goals exact completeTaken_path ..

theorem quiesceWork_path (c : Byte) (s : State) : Path s (quiesceWork c s) := by
  have h : Path s (postEvent .partState { s with part := .quiescing }) :=
    (part_path (by simp) s).trans (postEvent_path ..)
  unfold quiesceWork; split
  · dsimp only; split
    · exact h.trans (completeTaken_path ..)
    · exact (h.trans (sweep_path _ _)).trans (mailboxRunning_path _)
  all_goals exact completeTaken_path ..

theorem abortWork_path (c : Byte) (s : State) : Path s (abortWork c s) := by
  unfold abortWork; split
  · exact (startAbort_path ..).trans (mailboxRunning_path _)
  · exact (startAbort_path ..).trans (mailboxRunning_path _)
  · exact (sweep_path _ _).trans (mailboxRunning_path _)
  · split <;> exact completeTaken_path ..

theorem attachToFenceJob_path (c : Byte) (a : Agent) (s : State) : Path s (attachToFenceJob c a s) := by
  unfold attachToFenceJob; split
  · exact (sweep_path _ _).trans (mailboxRunning_path _)
  · exact Path.refl s

theorem fenceWork_path (c : Byte) (s : State) : Path s (fenceWork c s) := by
  unfold fenceWork; split
  · exact completeTaken_path ..
  · split
    · dsimp only; split
      · exact (enterFencing_path ..).trans (completeTaken_path ..)
      · exact (enterFencing_path ..).trans (attachToFenceJob_path ..)
    · exact attachToFenceJob_path ..
    · exact completeTaken_path ..
    · exact completeTaken_path ..

theorem admitWork_path (c : Byte) (s : State) : Path s (admitWork c s) := by
  unfold admitWork; split
  · exact completeTaken_path ..
  · split
    · exact (activate_path ..).trans (completeTaken_path ..)
    all_goals exact completeTaken_path ..

theorem forceReleaseWork_path (c : Byte) (s : State) : Path s (forceReleaseWork c s) := by
  unfold forceReleaseWork; split
  · exact completeTaken_path ..
  · refine Path.trans (Path.trans ?_ (evaluate_path ..)) (completeTaken_path ..)
    exact (dropUpgrade_path ..).trans (Path.fold (fun s (h : Handle) => loseLease_path h.num .forced s) _ _)

theorem inspectLockWork_path (c : Byte) (s : State) : Path s (inspectLockWork c s) := by
  unfold inspectLockWork; split <;> exact completeTaken_path ..

theorem inspectLeaseWork_path (c : Byte) (s : State) : Path s (inspectLeaseWork c s) := by
  unfold inspectLeaseWork; dsimp only; split <;> exact completeTaken_path ..

/-- A pool written with marks in order is a move, with its event. -/
theorem setPool_path {k : Pool} {p : PoolState} (s : State) (h : poolOk k (s.pool k) = true → poolOk k p = true) : Path s (setPool k p s) := by
  unfold setPool; dsimp only; split
  · exact Path.one (.pool k p s h)
  · exact (Path.one (.pool k p s h)).trans (postEvent_path ..)

theorem setPressureWork_path (c : Byte) (s : State) : Path s (setPressureWork c s) := by
  unfold setPressureWork; dsimp only; split
  · exact completeTaken_path ..
  · split
    · rename_i k _ hm
      refine Path.trans (setPool_path s fun _ => ?_) (completeTaken_path ..)
      unfold poolOk withMarks; exact hm
    · exact completeTaken_path ..

/-- An evaluation keeps a pool's marks. -/
theorem evaluateCount_path (k : Pool) (n : Nat) (l : List Nat) (s : State) :
    Path s (setPool k (evaluateCount n l (s.pool k)) s) :=
  setPool_path s fun h => h

/-! ### The agent link -/

theorem goDown_path (p : Port) (s : State) : Path s (goDown p s) := by
  unfold goDown; split
  · refine Path.trans (updPort_path p downFromUp (fun q hq => ?_) s) (postEvent_path ..)
    simp [portOk, creditReplies, downFromUp, Config.maxEgress]
  · rename_i hl
    refine Path.trans (Path.one (.port p downFromTraining s fun hq => ?_)) (postEvent_path ..)
    generalize s.port p = q at *
    obtain ⟨link, hd, wp, fifo, ing, un, wh, eg, rq, nq, et, ack, rp, fe, en, sg, tx, td⟩ := q
    simp only at hl; subst hl
    simp [portOk, creditReplies, downFromTraining] at hq ⊢; grind
  · exact Path.refl s

theorem linkFault_path (p : Port) (s : State) : Path s (linkFault p s) := (goDown_path ..).trans (postEvent_path ..)

theorem goUp_path {p : Port} {s : State} (hl : (s.port p).link = .training) : Path s (goUp p s) := by
  refine Path.trans (Path.one (.port p _ s fun hq => ?_)) (postEvent_path ..)
  generalize s.port p = q at *
  obtain ⟨link, hd, wp, fifo, ing, un, wh, eg, rq, nq, et, ack, rp, fe, en, sg, tx, td⟩ := q
  simp only at hl; subst hl
  simp [portOk, creditReplies, Config.ingressTotal, Config.maxEgress] at hq ⊢; grind

theorem onCheckFailed_path (p : Port) (f : List Byte) (s : State) : Path s (onCheckFailed p f s) := by
  refine updPort_path p _ (fun q hq => ?_) s
  obtain ⟨link, hd, wp, fifo, ing, un, wh, eg, rq, nq, et, ack, rp, fe, en, sg, tx, td⟩ := q
  dsimp only
  split
  · rename_i h; obtain ⟨rfl, _, h⟩ := h
    simp [portOk, creditReplies] at hq ⊢; grind
  · exact hq

theorem onTrain_path (p : Port) (f : List Byte) (s : State) : Path s (onTrain p f s) := by
  unfold onTrain; split
  · exact Path.refl s
  · split
    · exact updPort_path p _ (fun q hq => hq.symm ▸ rfl) s
    · exact Path.refl s
  · split
    · exact goDown_path ..
    · exact linkFault_path ..

theorem onTrainAck_path (p : Port) (f : List Byte) (s : State) : Path s (onTrainAck p f s) := by
  unfold onTrainAck; split
  · exact Path.refl s
  · rename_i hl
    split
    · exact goUp_path hl
    · exact Path.refl s
  · split
    · exact Path.refl s
    · exact linkFault_path ..

theorem onCredit_path (p : Port) (f : List Byte) (s : State) : Path s (onCredit p f s) := by
  unfold onCredit; split
  · exact Path.refl s
  · exact Path.refl s
  · rename_i hl
    split
    · split
      · rename_i c _ hc
        refine Path.one (.port p _ s fun hq => ?_)
        generalize s.port p = q at *
        obtain ⟨link, hd, wp, fifo, ing, un, wh, eg, rq, nq, et, ack, rp, fe, en, sg, tx, td⟩ := q
        simp only at hl hc; subst hl
        simp [portOk, creditReplies] at hq ⊢; grind
      · exact linkFault_path ..
    · exact linkFault_path ..

theorem onMessage_path (p : Port) (f : List Byte) (s : State) : Path s (onMessage p f s) := by
  unfold onMessage; split
  · exact Path.refl s
  · exact Path.refl s
  · rename_i hl
    split
    · rename_i hc
      refine Path.one (.port p _ s fun hq => ?_)
      generalize s.port p = q at *
      obtain ⟨link, hd, wp, fifo, ing, un, wh, eg, rq, nq, et, ack, rp, fe, en, sg, tx, td⟩ := q
      simp only at hl hc; subst hl
      simp [portOk, creditReplies] at hq ⊢; grind
    · exact linkFault_path ..

theorem onUnknownKind_path (p : Port) (s : State) : Path s (onUnknownKind p s) := by
  unfold onUnknownKind; split
  · exact Path.refl s
  · exact Path.refl s
  · exact linkFault_path ..

theorem receiveFrame_path (p : Port) (f : List Byte) (s : State) : Path s (receiveFrame p f s) := by
  unfold receiveFrame; repeat' split
  · exact Path.refl s
  · exact onCheckFailed_path ..
  · exact onTrain_path ..
  · exact onTrainAck_path ..
  · exact onCredit_path ..
  · exact onMessage_path ..
  · exact onUnknownKind_path ..

/-- A port's change that touches none of the account's fields keeps the account. -/
theorem inputs_portOk (q : PortState) (hq : portOk q = true) (sg en : Bool) :
    portOk { q with signal := sg } = true ∧ portOk { q with enable := en } = true
      ∧ portOk { q with frameError := false } = true ∧ ∀ l, portOk { q with reports := l } = true := by
  obtain ⟨link, hd, wp, fifo, ing, un, wh, eg, rq, nq, et, ack, rp, fe, en, sg, tx, td⟩ := q
  exact ⟨hq, hq, hq, fun _ => hq⟩

theorem sendTrain_path {p : Port} {s : State} (hl : (s.port p).link = .training) :
    Path s (updPort p (fun q => if q.tx = none ∧ q.ackOwed = false then { q with tx := some .train, trainDue := false }
      else { q with trainDue := true }) s) := by
  refine Path.one (.port p _ s fun hq => ?_)
  generalize s.port p = q at *
  obtain ⟨link, hd, wp, fifo, ing, un, wh, eg, rq, nq, et, ack, rp, fe, en, sg, tx, td⟩ := q
  simp only at hl; subst hl
  dsimp only; split
  · rename_i h; obtain ⟨rfl, _⟩ := h; simp [portOk, creditReplies] at hq ⊢; grind
  · exact hq

/-! ### The register window -/

theorem placeCommand_path (c : Byte) (s : State) : Path s (placeCommand c s) :=
  Path.quiet (by simp +contextual [placeCommand, Quiet, State.agent, State.pool])

theorem writeCmd_path (v : Word) (s : State) : Path s (writeCmd v s) := by
  unfold writeCmd; dsimp only; split
  · exact Path.refl s
  · split
    · exact placeCommand_path ..
    · exact placeCommand_path ..
    all_goals
      split
      · exact supersede_path ..
      · exact postEvent_path ..

theorem writeTickPeriod_path (v : Word) (s : State) : Path s (writeTickPeriod v s) := by
  unfold writeTickPeriod; split
  · rename_i h
    refine Path.trans (Path.one (.period (v.extractLsb' 0 16) s h.2)) (Path.quiet ?_)
    simp +contextual [Quiet, State.agent, State.pool]
  · exact Path.refl s

theorem writeEnable_path (v : Word) (s : State) (p : Port) : Path s (writeEnable v s p) := by
  have h := updPort_path p (fun q => { q with enable := v.getLsbD p.val })
    (fun q hq => (inputs_portOk q hq false _).2.1) s
  unfold writeEnable; dsimp only; split
  · exact h.trans (tryTrain_path ..)
  · exact h.trans (goDown_path ..)

theorem clearFrameError_path (v : Word) (s : State) (p : Port) : Path s (clearFrameError v s p) := by
  unfold clearFrameError; split
  · exact updPort_path p _ (fun q hq => (inputs_portOk q hq false false).2.2.1) s
  · exact Path.refl s

theorem writePlain_path (addr : BitVec 7) (v : Word) (s : State) : Path s (writePlain addr v s) := by
  unfold writePlain; split
  · exact Path.quiet (by simp +contextual [Quiet, State.agent, State.pool])
  · split
    · exact Path.one (.enables v s)
    · exact Path.refl s

theorem writeRegister_path (addr : BitVec 7) (v : Word) (s : State) : Path s (writeRegister addr v s) := by
  unfold writeRegister; repeat' split
  · exact writeCmd_path ..
  · exact Path.one (.flags (~~~v) s)
  · exact writeTickPeriod_path ..
  · exact Path.fold (writeEnable_path v) allPorts s
  · exact Path.fold (clearFrameError_path v) allPorts s
  · exact writePlain_path ..

/-! ### All commands -/

theorem next_inj {s t : State} (h : (Host.Outcome.next s : Host.Outcome State Fault Refusal) = .next t) : s = t :=
  Host.Outcome.next.inj h

/-- Every command but DEVICE_RESET is a chain of moves, from a state whose tables are in canonical form. -/
theorem exec_path {c : Instr} {s t : State} (hc : c ≠ .deviceReset) (h : exec c s = .next t) : Path s t := by
  cases c with
  | deviceReset => exact absurd rfl hc
  | tick => obtain rfl := next_inj h; exact Path.quiet (by simp +contextual [Quiet, State.agent, State.pool])
  | markDue => obtain rfl := next_inj h; exact (markAllDue_path s).trans (offerTimer_path _)
  | join => simp only [exec, execJoin] at h; exact takeRequest_path joinBehaviour_path h
  | acquire => simp only [exec, execAcquire] at h; exact takeRequest_path acquireBehaviour_path h
  | release => simp only [exec, execRelease] at h; exact takeRequest_path (fun a r s => withLease_path fun l => releaseLease_path a r l s) h
  | renew => simp only [exec, execRenew] at h; exact takeRequest_path (fun a r s => withLease_path fun l => renewLease_path a r l s) h
  | keepalive => simp only [exec, execKeepalive] at h; exact takeRequest_path keepaliveBehaviour_path h
  | upgrade => simp only [exec, execUpgrade] at h; exact takeRequest_path (fun a r s => withLease_path fun l => upgradeLive_path a r l s) h
  | downgrade => simp only [exec, execDowngrade] at h; exact takeRequest_path (fun a r s => withLease_path fun l => downgradeLease_path a r l s) h
  | cancel => simp only [exec, execCancel] at h; exact takeRequest_path cancelBehaviour_path h
  | query => simp only [exec, execQuery] at h; exact takeRequest_path queryBehaviour_path h
  | malformed => simp only [exec, execMalformed] at h; exact takeRequest_path (fun _ _ s => Path.refl s) h
  | withdraw =>
    simp only [exec, execWithdraw] at h; split at h <;> obtain rfl := next_inj h
    · exact item_path (beginWithdraw_path ..) (withdrawPort_path _)
    · exact Path.refl s
  | leaseExpiry =>
    simp only [exec, execLeaseExpiry] at h; split at h <;> obtain rfl := next_inj h
    · rename_i k hk; exact timerItem_path (takenTimer_serving hk) (leaseItem_path k)
    all_goals exact Path.refl s
  | waitTimeout =>
    simp only [exec, execWaitTimeout] at h; split at h <;> obtain rfl := next_inj h
    · rename_i k hk; exact timerItem_path (takenTimer_serving hk) (waitItem_path k)
    all_goals exact Path.refl s
  | upgradeTimeout =>
    simp only [exec, execUpgradeTimeout] at h; split at h <;> obtain rfl := next_inj h
    · rename_i k hk; exact timerItem_path (takenTimer_serving hk) (upgradeItem_path k)
    all_goals exact Path.refl s
  | fenceStep =>
    simp only [exec, execFenceStep] at h; split at h <;> obtain rfl := next_inj h
    · exact sweepItem_path (fenceStep_path _)
    all_goals exact Path.refl s
  | quiesceStep =>
    simp only [exec, execQuiesceStep] at h; split at h <;> obtain rfl := next_inj h
    · exact sweepItem_path (quiesceStep_path _ _)
    all_goals exact Path.refl s
  | abortStep =>
    simp only [exec, execAbortStep] at h; split at h <;> obtain rfl := next_inj h
    · exact sweepItem_path (abortStep_path _ _)
    all_goals exact Path.refl s
  | emptyTake =>
    simp only [exec, execEmptyTake] at h; split at h
    · split at h <;> obtain rfl := next_inj h
      · exact Path.refl s
      · exact beginTake_path (Path.refl _)
    · obtain rfl := next_inj h; exact Path.refl s
  | tagComplete p =>
    simp only [exec, execTagComplete] at h; split at h <;> obtain rfl := next_inj h
    · exact Path.refl s
    · rename_i a g rest _
      have h := updPort_path p (fun q => { q with reports := rest })
        (fun q hq => (inputs_portOk q hq false false).2.2.2 rest) s
      split
      · exact h.trans (setTag_path ..)
      · exact h
  | commandPlaced v => obtain rfl := next_inj h; exact writeCmd_path ..
  | setDomain => simp only [exec, execSetDomain] at h; exact takeCommand_path setDomainWork_path h
  | getDomain => simp only [exec, execGetDomain] at h; exact takeCommand_path getDomainWork_path h
  | setAgent => simp only [exec, execSetAgent] at h; exact takeCommand_path setAgentWork_path h
  | getAgent => simp only [exec, execGetAgent] at h; exact takeCommand_path getAgentWork_path h
  | seed => simp only [exec, execSeed] at h; exact takeCommand_path seedWork_path h
  | start => simp only [exec, execStart] at h; exact takeCommand_path startWork_path h
  | quiesce => simp only [exec, execQuiesce] at h; exact takeCommand_path quiesceWork_path h
  | abort => simp only [exec, execAbort] at h; exact takeCommand_path abortWork_path h
  | fence => simp only [exec, execFence] at h; exact takeCommand_path fenceWork_path h
  | admitAgent => simp only [exec, execAdmitAgent] at h; exact takeCommand_path admitWork_path h
  | forceRelease => simp only [exec, execForceRelease] at h; exact takeCommand_path forceReleaseWork_path h
  | inspectLock => simp only [exec, execInspectLock] at h; exact takeCommand_path inspectLockWork_path h
  | inspectLease => simp only [exec, execInspectLease] at h; exact takeCommand_path inspectLeaseWork_path h
  | setPressure => simp only [exec, execSetPressure] at h; exact takeCommand_path setPressureWork_path h
  | unknownCommand => simp only [exec, execUnknownCommand] at h; exact takeCommand_path (fun c s => completeTaken_path c .invalid [] s) h
  | countArrival k =>
    simp only [exec] at h
    rcases execCountArrival_cases k s with ⟨-, he⟩ | ⟨l, n, later, draws, -, -, he⟩ <;> rw [he] at h <;>
      obtain rfl := next_inj h
    · exact Path.refl s
    · exact Path.trans (t := { s with freeDraws := draws })
        (Path.quiet (by simp +contextual [Quiet, State.agent, State.pool])) (evaluateCount_path k n later _)
  | tickPeriodWrite v => obtain rfl := next_inj h; exact writeTickPeriod_path ..
  | linkCtrlWrite v => obtain rfl := next_inj h; exact Path.fold (writeEnable_path v) allPorts s
  | eventsClear v => obtain rfl := next_inj h; exact Path.one (.flags (~~~v) s)
  | frameErrorClear v => obtain rfl := next_inj h; exact Path.fold (clearFrameError_path v) allPorts s
  | nowLoRead => obtain rfl := next_inj h; exact Path.quiet (by simp +contextual [Quiet, State.agent, State.pool])
  | poolMarkRead k =>
    obtain rfl := next_inj h
    refine Path.trans (Path.quiet (t := { s with spiData := readRegister s (poolMarkAddr k) }) ?_) ?_
    · simp +contextual [Quiet, State.agent, State.pool]
    · refine Path.quiet ?_
      simp only [Quiet, updPool_keeps, updPool_pool, true_and]
      refine ⟨fun _ => by simp [State.agent], fun l => ?_, fun hp => .inr ⟨hp, trivial⟩⟩
      by_cases hl : l = k
      · subst hl; simp [poolOk]
      · simp [hl]
  | registerWrite addr v => obtain rfl := next_inj h; exact writeRegister_path ..
  | signalArrives p =>
    obtain rfl := next_inj h
    exact (updPort_path p _ (fun q hq => (inputs_portOk q hq true false).1) s).trans (tryTrain_path ..)
  | signalLost p =>
    obtain rfl := next_inj h
    exact (updPort_path p _ (fun q hq => (inputs_portOk q hq false false).1) s).trans (goDown_path ..)
  | sendTrain p =>
    simp only [exec, execSendTrain] at h; split at h <;> obtain rfl := next_inj h
    · rename_i hl; exact sendTrain_path hl
    · exact Path.refl s
  | trainReceived p f => obtain rfl := next_inj h; exact receiveFrame_path ..
  | trainAckReceived p f => obtain rfl := next_inj h; exact receiveFrame_path ..
  | creditReceived p f => obtain rfl := next_inj h; exact receiveFrame_path ..
  | messageReceived p f => obtain rfl := next_inj h; exact receiveFrame_path ..
  | frameCheckFailed p f => obtain rfl := next_inj h; exact receiveFrame_path ..
  | transmitFrame p => obtain rfl := next_inj h; exact updPort_path p _ transmit_portOk s
  | transmissionComplete p => obtain rfl := next_inj h; exact updPort_path p _ completeFrame_portOk s
  | unknownKindFrameReceived p f => obtain rfl := next_inj h; exact receiveFrame_path ..

end Sys2Proof.Machine
end

