-- ==== Sys2Proof/Laws/Handed.lean ====
section
/-! SUPPORT. What an item that hands over replies alone does to the ports: each takes them in the order given, and may go
on by itself between them (09, R157). And the tables of a notice's changes (02, R44, R45). -/

namespace Sys2Proof.Machine

/-! ### Replies taken by one port -/

/-- A port keeps its link state as it takes replies (10, R173). -/
theorem RepliesTaken.link {g : Bool} {q q' : PortState} {l : List Reply} (h : RepliesTaken g q l q') :
    q'.link = q.link := by
  induction l generalizing g q with
  | nil => exact congrArg PortState.link h
  | cons r rest ih => obtain ⟨n, -, h⟩ := h; simpa using ih h

/-- A port that may go on before its first reply takes what one that may not takes. -/
theorem RepliesTaken.goesOn {g : Bool} {q q' : PortState} {l : List Reply} (h : RepliesTaken g q l q') :
    RepliesTaken true q l q' := by
  cases l with
  | nil => exact h
  | cons r rest => obtain ⟨n, hn, h⟩ := h; exact ⟨n, fun h => hn (h.imp (by simp) id), h⟩

/-- Replies taken after replies. -/
theorem RepliesTaken.append {g g' : Bool} {q q' q'' : PortState} {l l' : List Reply} (h : RepliesTaken g q l q')
    (h' : RepliesTaken g' q' l' q'') (hg : l = [] → g' = g) : RepliesTaken g q (l ++ l') q'' := by
  induction l generalizing g g' q with
  | nil => cases h; rw [← hg rfl]; exact h'
  | cons r rest ih =>
    obtain ⟨n, hn, h⟩ := h
    exact ⟨n, hn, ih h h'.goesOn fun _ => rfl⟩

/-! ### What an item's replies do to every port -/

/-- From `s` to `t`, inside one item: every port takes the replies to its agents out of those given, in their order, unless
it is DOWN, and may go on by itself before each where the item has handed it something before; and the ports handed
something are then those and these. -/
def Answers (s t : State) (l : List (Agent × Reply)) : Prop :=
  ∀ q, (q ∈ t.handed ↔ q ∈ s.handed ∨ (s.port q).link ≠ .down ∧ ∃ x ∈ l, portOf x.1 = q)
    ∧ if (s.port q).link = .down then t.port q = s.port q
      else RepliesTaken (decide (q ∈ s.handed)) (s.port q) ((l.filter fun x => portOf x.1 = q).map fun x => x.2) (t.port q)

/-- A change of neither a port nor what the item has handed over answers nothing. -/
theorem Answers.none {s t : State} (hp : t.ports = s.ports) (hh : t.handed = s.handed) : Answers s t [] := fun q => by
  simp [hh, port_congr hp, RepliesTaken]

/-- Answers after answers. -/
theorem Answers.trans {s t u : State} {l l' : List (Agent × Reply)} (h : Answers s t l) (h' : Answers t u l') :
    Answers s u (l ++ l') := by
  intro q
  obtain ⟨hm, hp⟩ := h q
  obtain ⟨hm', hp'⟩ := h' q
  have hl : (t.port q).link = (s.port q).link := by
    split at hp
    · rw [hp]
    · exact hp.link
  rw [hl] at hm' hp'
  refine ⟨?_, ?_⟩
  · rw [hm', hm]; simp only [List.mem_append, or_and_right, exists_or]; rw [or_assoc, ← and_or_left]
  · split at hp
    · rename_i hd; simp only [hd, if_true] at hp' ⊢; rw [hp', hp]
    · rename_i hd
      simp only [hd, if_false] at hp' ⊢
      rw [List.filter_append, List.map_append]
      refine hp.append hp' fun he => ?_
      simp only [List.map_eq_nil_iff, List.filter_eq_nil_iff, decide_eq_true_eq] at he
      simp only [hm, decide_eq_decide]
      exact ⟨fun h => h.elim id fun h => absurd h.2.choose_spec.2 (he _ h.2.choose_spec.1), .inl⟩

/-- One reply handed over (10, R173). -/
theorem placeReply_answers (a : Agent) (r : Reply) (s : State) : Answers s (placeReply a r s) [(a, r)] := by
  intro q
  obtain ⟨n, h0, hp, hh⟩ := handPort_port .reply (portOf a) (fun q => { q with replyQ := q.replyQ ++ [r] }) s
  unfold placeReply
  rw [hp, hh]
  by_cases hq : q = portOf a
  · subst hq
    by_cases hd : (s.port (portOf a)).link = .down
    · simp [hd]
    · simp only [hd, if_false, ne_eq, not_false_eq_true, and_self, if_true]
      have ht : RepliesTaken (decide (portOf a ∈ s.handed)) (s.port (portOf a)) [r] _ := ⟨n, by simpa [orderTells] using h0, rfl⟩
      exact ⟨by simp, by simpa using ht⟩
  · have : portOf a ≠ q := fun h => hq h.symm
    refine ⟨?_, ?_⟩
    · split <;> simp [hq, this]
    · simp [hq, this, RepliesTaken]

/-- An answer to a tag hands over its one reply (05, R88). -/
theorem answerTag_answers (a : Agent) (t : Tag) (kind : Byte) (st : Status) (c : Content) (s : State) :
    Answers s (answerTag a t kind st c s) [(a, ⟨.tag a t, slotOf a, t, st, kind, c⟩)] :=
  (Answers.none (by simp) (by simp)).trans (placeReply_answers a _ (setTag a t .replying s))

/-- From `s` to `t`, inside one item: some replies are handed over, and no notice. -/
def RepliesOnly (s t : State) : Prop := ∃ l, Answers s t l

theorem RepliesOnly.none {s t : State} (hp : t.ports = s.ports) (hh : t.handed = s.handed) : RepliesOnly s t :=
  ⟨[], Answers.none hp hh⟩

theorem RepliesOnly.refl (s : State) : RepliesOnly s s := RepliesOnly.none rfl rfl

theorem RepliesOnly.trans {s t u : State} : RepliesOnly s t → RepliesOnly t u → RepliesOnly s u
  | ⟨_, h⟩, ⟨_, h'⟩ => ⟨_, h.trans h'⟩

/-- Steps that hand over replies alone, one for each entry of a list. -/
theorem RepliesOnly.fold {α : Type} {f : State → α → State} (h : ∀ s x, RepliesOnly s (f s x)) (l : List α) (s : State) :
    RepliesOnly s (l.foldl f s) := by
  induction l generalizing s with
  | nil => exact .refl s
  | cons x rest ih => exact (h s x).trans (ih _)

theorem answerTag_repliesOnly (a : Agent) (t : Tag) (kind : Byte) (st : Status) (c : Content) (s : State) :
    RepliesOnly s (answerTag a t kind st c s) := ⟨_, answerTag_answers a t kind st c s⟩

theorem answerGranted_repliesOnly (a : Agent) (t : Tag) (kind : Byte) (k : Nat) (s : State) :
    RepliesOnly s (answerGranted a t kind k s) := by
  unfold answerGranted; split
  · exact answerTag_repliesOnly ..
  · exact .refl s

theorem removeWait_repliesOnly (w : Nat) (ans : Option Status) (s : State) : RepliesOnly s (removeWait w ans s) := by
  unfold removeWait; split
  · exact .refl s
  · dsimp only; split
    · exact (RepliesOnly.none (by simp) (by simp)).trans (answerTag_repliesOnly ..)
    · exact .none (by simp) (by simp)

theorem dropUpgrade_repliesOnly (n : Nat) (ans : Option Status) (s : State) : RepliesOnly s (dropUpgrade n ans s) := by
  unfold dropUpgrade; split
  · exact .refl s
  · dsimp only; split
    · exact (RepliesOnly.none (by simp) (by simp)).trans (answerTag_repliesOnly ..)
    · exact .none (by simp) (by simp)
    · exact .none (by simp) (by simp)

theorem grantUpgrade_repliesOnly (n : Nat) (u : Upgrade) (s : State) : RepliesOnly s (grantUpgrade n u s) := by
  unfold grantUpgrade; dsimp only; split
  · exact (RepliesOnly.none (by simp) (by simp)).trans (answerTag_repliesOnly ..)
  · exact .none (by simp) (by simp)

theorem grantWait_repliesOnly (n w : Nat) (e : WaitEntry) (s : State) : RepliesOnly s (grantWait n w e s) :=
  (RepliesOnly.none (by simp) (by simp)).trans (answerGranted_repliesOnly ..)

theorem grantHeads_repliesOnly (n : Nat) (l : List Nat) (s : State) : RepliesOnly s (grantHeads n l s) := by
  induction l generalizing s with
  | nil => exact .refl s
  | cons w rest ih =>
    unfold grantHeads; split
    · split
      · refine RepliesOnly.trans ?_ (ih _)
        split
        · exact removeWait_repliesOnly ..
        · exact grantWait_repliesOnly ..
      · exact .refl s
    · exact .refl s

theorem evaluateQueue_repliesOnly (n : Nat) (s : State) : RepliesOnly s (evaluateQueue n s) := by
  unfold evaluateQueue; split
  · rename_i r _
    exact (grantHeads_repliesOnly n r.queue s).trans (.none (by simp) (by simp))
  · exact .refl s

theorem evaluateRecord_repliesOnly (n : Nat) (s : State) : RepliesOnly s (evaluateRecord n s) := by
  unfold evaluateRecord; split
  · exact .refl s
  · split
    · exact evaluateQueue_repliesOnly ..
    · split
      · split
        · exact (dropUpgrade_repliesOnly ..).trans (evaluateQueue_repliesOnly ..)
        · exact grantUpgrade_repliesOnly ..
      · exact .refl s

/-- A grant evaluation hands over replies alone (01, R13 to R17). -/
theorem evaluate_repliesOnly (n : Nat) (s : State) : RepliesOnly s (evaluate n s) := by
  unfold evaluate withTokenEnd; dsimp only; split
  · exact (evaluateRecord_repliesOnly n s).trans (.none (by simp) (by simp))
  · exact evaluateRecord_repliesOnly n s

theorem fenceTag_repliesOnly (a : Agent) (s : State) (t : Tag) : RepliesOnly s (fenceTag a s t) := by
  unfold fenceTag; split
  · split
    · exact (removeWait_repliesOnly ..).trans (evaluate_repliesOnly ..)
    · exact .refl s
  · split
    · exact (dropUpgrade_repliesOnly ..).trans (evaluate_repliesOnly ..)
    · exact .refl s
  · exact .refl s
  · exact .refl s

/-! ### Where the order does not tell -/

/-- Acts that an entry does not hold up are made after it as well. -/
theorem steps_after {I : PortState → Prop} {f : PortState → PortState} (keeps : ∀ q, I q → I (transmitterStep q))
    (apart : ∀ q, I q → transmitterStep q = q ∨ transmitterStep (f q) = f (transmitterStep q)) (n : Nat) {q : PortState}
    (h : I q) : ∃ m, transmitterSteps m (f q) = f (transmitterSteps n q) := by
  induction n generalizing q with
  | zero => exact ⟨0, rfl⟩
  | succ n ih =>
    obtain ⟨m, hm⟩ := ih (keeps q h)
    rcases apart q h with he | he
    · rw [he] at hm; exact ⟨m, by rw [hm, transmitterSteps, he]⟩
    · exact ⟨m + 1, by rw [transmitterSteps, he, hm, transmitterSteps]⟩

/-- What a port that holds no notice sends before it takes a reply, it can send after it as well: the same frames in the
same order (10, R176; log entry 3). -/
theorem reply_after_acts (n : Nat) {q : PortState} (h : q.noticeQ = []) (r : Reply) :
    ∃ m, transmitterSteps m { q with replyQ := q.replyQ ++ [r] }
      = { transmitterSteps n q with replyQ := (transmitterSteps n q).replyQ ++ [r] } := by
  refine steps_after (I := fun q => q.noticeQ = []) (f := fun q => { q with replyQ := q.replyQ ++ [r] })
    (fun q h => ?_) (fun q h => ?_) n h
  all_goals
    obtain ⟨link, hd, wp, fifo, ing, un, wh, eg, rq, nq, et, ack, rp, fe, en, sg, tx, td⟩ := q
    simp only at h; subst h
  · unfold transmitterStep beginFrame beginMessage completeFrame egressSource
    repeat' split
    all_goals simp_all
  · cases tx with
    | none =>
      by_cases hu : 1 ≤ un <;> by_cases he : 1 ≤ eg <;> cases link <;> cases ack <;> cases td <;> cases rq <;>
        simp [transmitterStep, beginFrame, beginMessage, egressSource, hu, he]
    | some x =>
      right
      cases x with
      | reply r' => cases ho : r'.owner <;> simp [transmitterStep, completeFrame, ho]
      | train | trainAck | credit | notice => rfl

/-- What a port with empty queues sends before it takes a notice, it can send after it as well: the same frames in the
same order (10, R176; log entry 3). -/
theorem notice_after_acts (n : Nat) {q : PortState} (h : q.replyQ = [] ∧ q.noticeQ = []) (f : List Notice → List Notice) :
    ∃ m, transmitterSteps m { q with noticeQ := f q.noticeQ }
      = { transmitterSteps n q with noticeQ := f (transmitterSteps n q).noticeQ } := by
  refine steps_after (I := fun q => q.replyQ = [] ∧ q.noticeQ = []) (f := fun q => { q with noticeQ := f q.noticeQ })
    (fun q h => ?_) (fun q h => ?_) n h
  all_goals
    obtain ⟨link, hd, wp, fifo, ing, un, wh, eg, rq, nq, et, ack, rp, fe, en, sg, tx, td⟩ := q
    obtain ⟨rfl, rfl⟩ : rq = [] ∧ nq = [] := h
  · unfold transmitterStep beginFrame beginMessage completeFrame egressSource
    repeat' split
    all_goals simp_all
  · cases tx with
    | none =>
      by_cases hu : 1 ≤ un <;> by_cases he : 1 ≤ eg <;> cases link <;> cases ack <;> cases td <;>
        simp [transmitterStep, beginFrame, beginMessage, egressSource, hu, he]
    | some x =>
      right
      cases x with
      | reply r' => cases ho : r'.owner <;> simp [transmitterStep, completeFrame, ho]
      | train | trainAck | credit | notice => rfl

/-- A loss leaves a notice queued (02, R44). -/
theorem noticeLoss_ne_nil (sl : Slot) (h : Handle) (reason : LossReason) (l : List Notice) :
    noticeLoss sl h reason l ≠ [] := by
  cases l with
  | nil => simp [noticeLoss]
  | cons n rest => unfold noticeLoss; split <;> simp

/-! ### The tables of R44 and R45 -/

/-- With nothing queued for the slot, a loss and a fence are placed at the tail (02, R44, R45). -/
theorem notice_placed {sl : Slot} {l : List Notice} (h0 : sl ∉ l.map noticeSlot) (h : Handle) (reason : LossReason)
    (epoch : BitVec 16) :
    noticeLoss sl h reason l = l ++ [.lost sl 1 h reason] ∧ noticeFence sl epoch l = l ++ [.fence sl epoch] := by
  induction l with
  | nil => exact ⟨rfl, rfl⟩
  | cons n rest ih =>
    simp only [List.map_cons, List.mem_cons, not_or] at h0
    simp [noticeLoss, noticeFence, Ne.symm h0.1, ih h0.2]

/-- With a notice queued for the slot, a loss and a fence change it in its position (02, R44, R45). -/
theorem notice_changed {sl : Slot} {pre : List Notice} (h0 : sl ∉ pre.map noticeSlot) (n : Notice)
    (hn : noticeSlot n = sl) (post : List Notice) (h : Handle) (reason : LossReason) (epoch : BitVec 16) :
    noticeLoss sl h reason (pre ++ n :: post) = pre ++ (match n with
        | .lost _ c _ _ => .lost sl (min (c + 1) 1024) h reason
        | .fence s e => .fence s e) :: post
      ∧ noticeFence sl epoch (pre ++ n :: post) = pre ++ .fence sl epoch :: post := by
  induction pre with
  | nil => subst hn; cases n <;> simp [noticeLoss, noticeFence, Config.maxLossCount, noticeSlot]
  | cons m rest ih =>
    simp only [List.map_cons, List.mem_cons, not_or] at h0
    have := ih h0.2
    simp [noticeLoss, noticeFence, Ne.symm h0.1, this]

end Sys2Proof.Machine
end

