-- ==== Sys2Proof/Laws/Item.lean ====
section
/-! SUPPORT. What ends a work item when the item has done nothing that ends a fence job, halts a quiesced part or
changes a count; and the arbiter's part in a take. -/

namespace Sys2Proof.Machine

/-- No fence job ends in an item that leaves no lease list newly empty (06, R121). -/
theorem endFenceJobs_quiet {b s : State} (h : ∀ a, (b.agent a).leases ≠ [] → (s.agent a).leases ≠ []) :
    endFenceJobs b s = s := by
  have step : ∀ j, endFenceJob b s j = s := by
    intro j
    cases j with
    | fence a att =>
      simp only [endFenceJob]
      split
      · rename_i hc; exact absurd hc.2 (h a hc.1)
      · rfl
    | quiesce | abort => rfl
  have fold : ∀ l : List Job, l.foldl (endFenceJob b) s = s := by
    intro l
    induction l with
    | nil => rfl
    | cons j rest ih => simp [step, ih]
  exact fold s.sweep

/-- An item that leaves the part as quiesced as it was halts nothing (11, R187). -/
theorem quiesceHalt_quiet {b s : State} (h : quiesceOver s = true → quiesceOver b = true) : quiesceHalt b s = s := by
  unfold quiesceHalt
  split
  · rename_i hc
    simp only [Bool.and_eq_true, Bool.not_eq_true'] at hc
    rw [h hc.1] at hc; simp at hc
  · rfl

/-- A part that is not QUIESCING is not halted at an item's end (11, R187). -/
theorem quiesceHalt_running {b s : State} (h : s.part ≠ .quiescing) : quiesceHalt b s = s :=
  quiesceHalt_quiet fun hq => by simp [quiesceOver, h] at hq

/-- An item that changes no count publishes none (08, R143). -/
theorem publishCounts_quiet {b s : State} (h : ∀ k, poolCount s k = poolCount b k) : publishCounts b s = s := by
  have h1 : ∀ k, publishPool b k s = s := fun k => by simp [publishPool, h k]
  simp [publishCounts, h1]

/-- The end of an item that changed no lease list, no count and nothing of the part state: the clock's offer is all
that is left (07, R133). -/
theorem finishItem_quiet {b s : State} (hl : ∀ a, (s.agent a).leases = (b.agent a).leases)
    (hp : s.part = b.part) (hs : s.sweep = b.sweep) (hc : ∀ k, poolCount s k = poolCount b k) :
    finishItem b s = offerTimer s := by
  have h1 : endFenceJobs b s = s := endFenceJobs_quiet fun a h => by rwa [hl a]
  have h2 : quiesceHalt b s = s := quiesceHalt_quiet fun h => by
    simpa [quiesceOver, hp, hs, hc .leasePool] using h
  have h3 : publishCounts b (offerTimer s) = offerTimer s := publishCounts_quiet fun k => by
    have := hc k; cases k <;> simpa [poolCount] using this
  simp only [finishItem, h1, h2, h3]

end Sys2Proof.Machine
end

