-- ==== Sys2Proof/Laws/Spi.lean ====
section
/-! SUPPORT. What a run of pin events at the management port gives: a whole transaction gives the event of its bits, and a
device reset abandons the one in progress (11, R202, R203). -/

namespace Sys2Proof.Machine

/-- The bits that follow are clocked in; a read is captured at the end of the command byte, and nothing happens before the
rise of CS_N otherwise (11, R203). -/
theorem spiRun_clock (sent bits : List Bool) (rest : List SpiPin) :
    spiRun (some sent) (bits.map .clock ++ rest) =
      (if sent.length < 8 ∧ 8 ≤ (sent ++ bits).length ∧ spiEvent ((sent ++ bits).take 8) ≠ .nothing
        then [spiEvent ((sent ++ bits).take 8)] else []) ++ spiRun (some (sent ++ bits)) rest := by
  induction bits generalizing sent with
  | nil =>
    have : ¬ (sent.length < 8 ∧ 8 ≤ sent.length) := by omega
    simp; omega
  | cons b bits ih =>
    simp only [List.map_cons, List.cons_append, spiRun, spiPin]
    rw [ih (sent ++ [b])]
    simp only [List.append_assoc, List.singleton_append, List.length_append, List.length_cons]
    by_cases h7 : sent.length = 7
    · have ht : (sent ++ b :: bits).take 8 = sent ++ [b] := by
        simp [List.take_append, h7]
      simp only [h7, if_true, ht]
      by_cases he : spiEvent (sent ++ [b]) = .nothing <;> simp [he, show 8 ≤ 7 + (bits.length + 1) by omega]
    · have : (if sent.length = 7 then spiEvent (sent ++ [b]) else SpiEvent.nothing) = .nothing := by simp [h7]
      simp only [this, if_true]
      by_cases hlt : sent.length < 7
      · simp [show sent.length + 1 < 8 by omega, show sent.length < 8 by omega]
      · simp [show ¬ sent.length + 1 < 8 by omega, show ¬ sent.length < 8 by omega]

/-- A whole transaction, from the fall of CS_N to its rise, gives at most one command: the event of its bits
(11, R202, R203). -/
theorem spiRun_transaction (bits : List Bool) :
    spiRun none (.select :: bits.map .clock ++ [.deselect])
      = if spiEvent bits = .nothing then [] else [spiEvent bits] := by
  have h := spiRun_clock [] bits [.deselect]
  simp only [List.nil_append, List.length_nil] at h
  simp only [List.cons_append, spiRun, spiPin, if_true, h, Option.getD_some]
  cases bits with
  | nil => simp [spiEvent, eventAtRise]
  | cons w rest =>
    simp only [spiEvent, List.take_succ_cons, List.length_cons, List.length_take]
    by_cases h8 : rest.length < 7
    · simp [h8, eventAtRise]
    · have e7 : min 7 rest.length = 7 := by omega
      cases w
      · simp [h8, eventAtRise, List.take_take, show 7 ≤ rest.length by omega]
      · by_cases h40 : 39 ≤ rest.length <;> simp [h8, e7, h40, eventAtRise]

/-- A device reset abandons the transaction in progress: what is clocked until the rise of CS_N, and that rise, give
nothing (11, R202). -/
theorem spiRun_abandoned (progress : Option (List Bool)) (bits : List Bool) (rest : List SpiPin) :
    spiRun progress (.deviceReset :: bits.map .clock ++ .deselect :: rest) = spiRun none rest := by
  have idle : ∀ l : List Bool, spiRun none (l.map .clock ++ .deselect :: rest) = spiRun none rest := by
    intro l
    induction l with
    | nil => simp [spiRun, spiPin, spiEvent, eventAtRise]
    | cons b l ih => simpa [spiRun, spiPin] using ih
  simpa [spiRun, spiPin] using idle bits

end Sys2Proof.Machine
end

