-- ==== Sys2Proof/Laws/Takes.lean ====
section
/-! SUPPORT. What a take runs: an admitted request runs its kind's behaviour, a command its work, each between the take
and the end of the item. -/

namespace Sys2Proof.Machine

/-- The behaviour at stage 8 of each kind (05, section 5.5 on). -/
def behaviourOf : Kind → Agent → Request → State → State
  | .join => joinBehaviour
  | .acquire => acquireBehaviour
  | .release => withLease releaseLease
  | .renew => withLease renewLease
  | .keepalive => keepaliveBehaviour
  | .upgrade => withLease upgradeLive
  | .downgrade => withLease downgradeLease
  | .cancel => cancelBehaviour
  | .query => queryBehaviour

/-- A kind code that names a kind is that kind's code (05, Table 5-2). -/
theorem kindOf_eq_some {b : Byte} {k : Kind} (h : kindOf b = some k) : b = kindCode k := by
  revert b; cases k <;> decide +kernel

/-- Stage 1 passes a kind only for its own code (04, R76). -/
theorem kindOf_of_stage1 {r : Request} {k : Kind} (h : stage1 r = some k) : kindOf r.kind = some k := by
  unfold stage1 at h
  split at h
  · rename_i k' hk
    split at h
    · rw [hk]; exact h
    · cases h
  · cases h

/-- A request of a known kind, taken: its item is the kind's (09, R152). -/
theorem exec_rowOf {s : State} {p : Port} {r : Request} {k : Kind} (h : takenRequest s = some (p, r))
    (hk : kindOf r.kind = some k) :
    exec (rowOf k) s = .next (runItem (beginRequest p r) (requestWork p r (behaviourOf k)) s) := by
  have hc := kindOf_eq_some hk
  cases k <;>
    simp [rowOf, exec, execJoin, execAcquire, execRelease, execRenew, execKeepalive, execUpgrade, execDowngrade,
      execCancel, execQuery, takeRequest, h, hc, behaviourOf]

/-- The take of a request changes nothing that the stages look at (04, R76 to R81). -/
theorem stageFailure_beginRequest (s : State) (p q : Port) (r r' : Request) (a : Agent) (k : Kind) :
    stageFailure (withHanded [] (beginRequest p r s)) a k r' = stageFailure s a k r'
      ∧ tagIsBusy (withHanded [] (beginRequest p r s)) q r' = tagIsBusy s q r' := by
  generalize hu : withHanded [] (beginRequest p r s) = u
  have agents : ∀ b, u.agent b = s.agent b := fun b => by simp [State.agent, ← hu]
  have domains : ∀ d, u.domain d = s.domain d := fun d => by simp [State.domain, ← hu]
  have part : u.part = s.part := by simp [← hu]
  have look : ∀ key, lookupDomain u key = lookupDomain s key := fun key => by
    simp only [lookupDomain, domains]
  have stages : ∀ key m, stage67 u a key m = stage67 s a key m := fun key m => by
    unfold stage67; rw [look]; simp only [domains]
  constructor
  · cases k <;> simp only [stageFailure, keyStages, stages, agents, part]
  · have tags : ∀ b g, u.tag b g = s.tag b g := fun b g => by simp only [State.tag, agents]
    unfold tagIsBusy; rw [tags]

/-- An admitted request runs its kind's behaviour (04, R75). -/
theorem exec_admitted {s : State} {p : Port} {r : Request} {k : Kind} (h : Admitted s p r k) :
    exec (rowOf k) s
      = .next (withHanded s.handed (finishItem s
          (behaviourOf k (senderOf p r) r (noteHanded p (withHanded [] (beginRequest p r s)))))) := by
  obtain ⟨h1, h2, h3, h4⟩ := h
  rw [exec_rowOf h1 (kindOf_of_stage1 h2)]
  obtain ⟨e1, e2⟩ := stageFailure_beginRequest s p p r r (senderOf p r) k
  simp [runItem, requestWork, h2, h3, h4, e1, e2]

/-- A request that fails a stage is answered with that stage's status (04, R78 to R81). -/
theorem exec_refused_at_a_stage {s : State} {p : Port} {r : Request} {k : Kind} {st : Status}
    (h1 : takenRequest s = some (p, r)) (h2 : stage1 r = some k) (h3 : tagIsBusy s p r = false)
    (h4 : stageFailure s (senderOf p r) k r = some st) :
    exec (rowOf k) s = .next (withHanded s.handed
      (finishItem s (reply (senderOf p r) r st {} (noteHanded p (withHanded [] (beginRequest p r s)))))) := by
  rw [exec_rowOf h1 (kindOf_of_stage1 h2)]
  obtain ⟨e1, e2⟩ := stageFailure_beginRequest s p p r r (senderOf p r) k
  simp [runItem, requestWork, h2, h3, h4, e1, e2]

/-- A command taken runs its work between the take and the end of the item (09, R152). -/
theorem takeCommand_taken {isCode : Byte → Bool} {work : Byte → State → State} {s : State} {c : Byte}
    (h : takenCommand s = some c) (hc : isCode c = true) :
    takeCommand isCode work s = .next (withHanded s.handed (finishItem s (work c (withHanded [] (beginCommand s))))) := by
  simp [takeCommand, h, hc, runItem]

/-- The command taken stands PENDING in the mailbox at its take (09, R156). -/
theorem mbox_of_takenCommand {s : State} {c : Byte} (h : takenCommand s = some c) :
    s.mbox.state = .pending ∧ s.mbox.code = c := by
  unfold takenCommand at h
  split at h
  · rename_i hc; exact ⟨hc.2, by simpa using h⟩
  · cases h

/-- A command that has not been superseded in its own item completes (11, R191). -/
theorem completeTaken_pending {s : State} {c : Byte} (res : CmdResult) (words : List Word)
    (h : s.mbox.state = .pending ∧ s.mbox.code = c) : completeTaken c res words s = completeCmd res words s := by
  simp [completeTaken, h.1, h.2]

end Sys2Proof.Machine
end

