-- ==== Sys2Proof/Tests/Slice0.lean ====
section
/-! SUPPORT. Tests: ill-formed commands that WellFormed refuses, the manual's own figures, and for every statement with
hypotheses a concrete state that meets them. -/

namespace Sys2Proof.Tests

set_option Elab.async false

open Sys2Proof Sys2Proof.Machine

/-! ### WellFormed refuses a term that fails each of its checks -/

theorem test_ill_formed_frames :
    (Instr.trainReceived 0 (frameBytes 2#8 [])).wellFormed = false
      ∧ (Instr.trainAckReceived 0 (frameBytes 1#8 [])).wellFormed = false
      ∧ (Instr.creditReceived 0 [3#8, 1#8, 0#8, 0#8, 0#8, 0#8]).wellFormed = false
      ∧ (Instr.messageReceived 0 (frameBytes 3#8 [1#8])).wellFormed = false
      ∧ (Instr.frameCheckFailed 0 (frameBytes 1#8 [])).wellFormed = false
      ∧ (Instr.unknownKindFrameReceived 0 (frameBytes 4#8 [])).wellFormed = false := by decide +kernel

theorem test_ill_formed_register_writes :
    (Instr.registerWrite 0x02#7 0#32).wellFormed = false ∧ (Instr.registerWrite 0x18#7 0#32).wellFormed = false
      ∧ (Instr.registerWrite 0x1C#7 0#32).wellFormed = false ∧ (Instr.registerWrite 0x1D#7 0#32).wellFormed = false
      ∧ (Instr.registerWrite 0x1E#7 0#32).wellFormed = false := by decide +kernel

theorem test_well_formed_operands :
    (Instr.trainReceived 0 (frameBytes 1#8 [])).wellFormed = true
      ∧ (Instr.trainAckReceived 3 (frameBytes 2#8 [])).wellFormed = true
      ∧ (Instr.creditReceived 1 (frameBytes 3#8 [16#8])).wellFormed = true
      ∧ (Instr.messageReceived 2 (frameBytes 4#8 [])).wellFormed = true
      ∧ (Instr.frameCheckFailed 0 [1#8]).wellFormed = true
      ∧ (Instr.unknownKindFrameReceived 0 (frameBytes 5#8 [])).wellFormed = true
      ∧ (Instr.registerWrite 0x19#7 0#32).wellFormed = true := by decide +kernel

/-! ### Figures the manual gives -/

/-- The TRAIN frame is 01 B5 36 5D FC (10, R168). -/
theorem test_train_frame_bytes : txBytes .train = [0x01#8, 0xB5#8, 0x36#8, 0x5D#8, 0xFC#8] := by decide +kernel

/-- The ID register reads 4B503201h (11, Table 11-4). -/
theorem test_id_register : readRegister State.reset 0x00#7 = 0x4B503201#32 := by decide +kernel

/-- After device reset the marks of the lock table are 3072, 3584 and 3968 (08, Table 8-1). -/
theorem test_reset_marks : (resetPool 3072 3584 3968) = State.reset.pool .lockTable := by decide +kernel

/-- MISO is in high impedance while CS_N is high; in a read of ID, 4B503201h, it is low in the command byte, and the first
two data bits are 0 and 1; and a write that a device reset meets gives nothing (11, R202, R203). -/
theorem test_spi_pins :
    let read := List.replicate 8 false
    let write := true :: List.replicate 38 false
    misoLevel false none 0x4B503201#32 = none ∧ misoLevel true (some [false]) 0x4B503201#32 = some false
      ∧ misoLevel true (some read) 0x4B503201#32 = some false
      ∧ misoLevel true (some (read ++ [false])) 0x4B503201#32 = some true
      ∧ spiRun none ([.select] ++ write.map .clock ++ [.clock true, .deselect]) = [.write 0#7 1#32]
      ∧ spiRun none ([.select] ++ write.map .clock ++ [.deviceReset, .clock true, .deselect]) = [] := by decide +kernel

/-! ### States for the witnesses -/

/-- A domain that allows S and X and upgrades, with expiry policy RELEASE. -/
def domainS : Domain :=
  { valid := true, upgradeAllowed := true, modes := 2#2, policy := 1#2, base := 0x1000#64, mask := 0xFF00#64,
    agents := 0xFFFFFFFE#32, leaseDefault := 100#16, leaseMax := 1000#16, waitCap := 65535#16, queueLimit := 1#8 }

/-- A domain that allows X alone and no upgrade, with expiry policy FENCE. -/
def domainX : Domain :=
  { domainS with upgradeAllowed := false, modes := 1#2, policy := 2#2, base := 0x2000#64 }

/-- An agent in service. -/
def serving1 : AgentRec := { resetAgent with state := .active, epoch := 1#16 }

/-- A port in service. -/
def portUp : PortState :=
  { resetPort true with link := .up, enable := true, ingressCredits := 16, egressCredits := 16 }

/-- A part in service, with nothing held. -/
def base : State :=
  { State.reset with
    now := 10000, token := 4000#64, seeded := true, part := .running,
    domains := (State.reset.domains.set 0 domainS).set 1 domainX,
    agents := Vector.replicate 32 serving1, ports := Vector.replicate 4 portUp }

/-- A request. -/
def ask (kind : Byte) (slot : Slot) (tag : Tag) : Request :=
  { kind := kind, slot := slot, tag := tag, epoch := 1#16, key := 0x1000#64, mode := 1#8, target := 2#8, waitTicks := 0#16,
    leaseTicks := 0#16, leaseNum := 0#16, gen := 0#8 }

/-- The request is at the head of its port's FIFO, and the port is chosen. -/
def asked (p : Port) (r : Request) (s : State) : State :=
  updPort p (fun q => { q with fifo := [r], ingressCredits := 15 }) { s with chosen := some (.port p) }

/-- A lease of an agent on record 0. -/
def leaseOf (a : Agent) (m : Mode) : LeaseSlot := .inUse ⟨a, 0, m, 4000#64, 100, 10000⟩

/-- Agent `a` holds lease 0 on record 0, alone; the lease is due. -/
def held (a : Agent) (m : Mode) (d : Fin 16) (queue : List Nat) : State :=
  updAgent a (fun g => { g with leases := [⟨0, 0#8⟩] })
    { base with
      now := 10100,
      records := [(0, { key := 0x1000#64, domain := d, mode := m, holders := [⟨0, 0#8⟩], queue := queue, slot := none,
                        lastToken := 4000#64 })],
      leases := [(0, leaseOf a m)] }

/-- Agent 1 holds record 0; wait entry 0 of agent 9, tag 2, is queued on it and due. -/
def queued (m : Mode) : State :=
  let s := held 1 m 0 [0]
  setTag 9 2 .waiting
    { s with leases := [(0, leaseOf 1 m), (1, .reserved 9 0)],
             waits := [(0, { record := 0, agent := 9, tag := 2, mode := .exclusive, leaseTicks := 0, deadline := some 10100,
                             reserved := 1 })] }

/-- Agents 1 and 9 share record 0, with an upgrade of agent 1, tag 2, in its slot and due, or with an empty slot. -/
def shared (slot : Option Upgrade) : State :=
  updAgent 1 (fun g => { g with leases := [⟨0, 0#8⟩] })
    (updAgent 9 (fun g => { g with leases := [⟨1, 0#8⟩] })
      { base with
        now := 10100,
        records := [(0, { key := 0x1000#64, domain := 0, mode := .shared, holders := [⟨0, 0#8⟩, ⟨1, 0#8⟩], queue := [],
                          slot := slot, lastToken := 4000#64 })],
        leases := [(0, leaseOf 1 .shared), (1, leaseOf 9 .shared)] })

/-- The upgrade of agent 1's lease. -/
def upgrade1 : Upgrade := { lease := ⟨0, 0#8⟩, tag := 2, deadline := some 10100 }

/-- Agent 1 holds record 0 in EXCLUSIVE mode; agents 9 and 17 wait for S and agent 25 for X behind them, tag 2 each. -/
def batch : State :=
  let wait := fun (a : Agent) (m : Mode) (k : Nat) => ({ record := 0, agent := a, tag := 2, mode := m, leaseTicks := 0,
                                                         deadline := none, reserved := k } : WaitEntry)
  let s := held 1 .exclusive 0 [0, 1, 2]
  setTag 9 2 .waiting (setTag 17 2 .waiting (setTag 25 2 .waiting
    { s with
      leases := [(0, leaseOf 1 .exclusive), (1, .reserved 9 0), (2, .reserved 17 1), (3, .reserved 25 2)],
      waits := [(0, wait 9 .shared 1), (1, wait 17 .shared 2), (2, wait 25 .exclusive 3)] }))

/-- One more record, with number 3 and a key of its own, beside the ones there. -/
def another (s : State) : State :=
  { s with records := s.records ++ [(3, { key := 0x1001#64, domain := 0, mode := .shared, holders := [⟨7, 0#8⟩], queue := [],
                                          slot := none, lastToken := 1#64 })],
           leases := s.leases ++ [(7, .inUse ⟨30, 3, .shared, 1#64, 100, 10000⟩)] }

/-- An entry is offered, and the TIMER chosen. -/
def timed (e : TimedEntry) (s : State) : State := { s with offered := some e, marks := [e], chosen := some .timer }

/-- A job is at the head of the sweep list, and SWEEP chosen. -/
def swept (j : Job) (p : PartState) (s : State) : State := { s with sweep := [j], part := p, chosen := some .sweep }

/-- A command is PENDING with its arguments, and MGMT chosen. -/
def commanded (code : Byte) (args : List Word) (s : State) : State :=
  { s with chosen := some .mgmt, mbox := { s.mbox with state := .pending, code := code, latched := eightWords args } }

/-- The engine's next take is the request, and it passes every stage, as a Bool. -/
def admits (s : State) (p : Port) (r : Request) (k : Kind) : Bool :=
  decide (takenRequest s = some (p, r)) && decide (stage1 r = some k) && !tagIsBusy s p r
    && decide (stageFailure s (senderOf p r) k r = none)

theorem admitted_of_admits {s : State} {p : Port} {r : Request} {k : Kind} (h : admits s p r k = true) :
    Admitted s p r k := by
  simpa [admits, Admitted, and_assoc] using h

/-! ### One worked step of the manual -/

/-- The RELEASE taken at 10020 in 05, section 5.12: the upgrade's lease alone, it is granted X with token 4003. -/
def section512 : State :=
  let s := updAgent 22 (fun g => { g with leases := [⟨601, 0#8⟩] })
    (setTag 9 2 .upgrading (updAgent 9 (fun g => { g with leases := [⟨600, 2#8⟩] }) base))
  { s with
    now := 10020, token := 4002#64, gens := [(600, 2#8)],
    records := [(0, { key := 0x0000000100AB0100#64, domain := 0, mode := .shared, holders := [⟨600, 2#8⟩, ⟨601, 0#8⟩],
                      queue := [], slot := some { lease := ⟨600, 2#8⟩, tag := 2, deadline := some 10510 },
                      lastToken := 4002#64 })],
    leases := [(600, .inUse ⟨9, 0, .shared, 4001#64, 100, 10100⟩), (601, .inUse ⟨22, 0, .shared, 4002#64, 300, 10304⟩)] }

/-- The request of agent 22, tag 6 (05, section 5.12). -/
def release512 : Request := { ask 3#8 6 6 with leaseNum := 601#16 }

/-- The state after a command. -/
def after (c : Instr) (s : State) : State :=
  match exec c s with
  | .next t => t
  | .fault _ | .refused _ => s

theorem test_release_grants_the_upgrade :
    let t := after .release (asked 2 release512 section512)
    t.records = [(0, ⟨0x0000000100AB0100#64, 0, .exclusive, [⟨600, 2#8⟩], [], none, 4003#64⟩)] ∧ genOf t 601 = 1#8
      ∧ (t.port 1).replyQ.map (fun r => (r.status, r.tag, r.content.num, r.content.token, r.content.ticks))
          = [(.granted, 2, 600#16, 4003#64, 100#16)]
      ∧ (t.port 2).replyQ.map (fun r => (r.status, r.tag, r.content.num, r.content.token))
          = [(.done, 6, 601#16, 4002#64)] := by decide +kernel

/-- Two older notices, and two replies of one item: the port goes on before the second reply, and 6 of its acts send
the first reply and both notices, so that the second reply leaves last (09, R157; 10, R176). -/
theorem test_notices_leave_between_two_replies :
    let r : Tag → Reply := fun g => ⟨.tag 9 g, 1, g, .cancelled, 6#8, {}⟩
    let s := updPort 1 (fun q => { q with link := .up, ackOwed := false, unsentReturns := 0, egressCredits := 4, replyQ := [],
                                          noticeQ := [.fence 2 1#16, .fence 3 1#16], egressTurn := .reply, tx := none,
                                          reports := [] }) base
    let t := placeReply 9 (r 0) s
    let q := transmitterSteps 6 (t.port 1)
    t.freeDraws = s.freeDraws ∧ (placeReply 9 (r 1) t).freeDraws = s.freeDraws + 1
      ∧ q.tx = none ∧ q.replyQ = [] ∧ q.noticeQ = [] ∧ q.reports = [(9, 0)] ∧ q.egressCredits = 1 := by decide +kernel

/-- A count at the shed mark, published and not evaluated, while an ACQUIRE is admitted: it stays ahead of the count that
the ACQUIRE publishes, and evaluating it then sheds (08, R143; 09, R157). -/
theorem test_an_older_count_is_evaluated_after_an_acquire :
    let t := after .acquire (asked 0 (ask 2#8 1 0) (updPool .leasePool (fun x => { x with published := [7936] }) base))
    (t.pool .leasePool).published = [7936, 1] ∧ t.leases.length = 1 ∧ (t.pool .leasePool).level = .normal
      ∧ ((evaluateAfter .leasePool 0 t).pool .leasePool).level = .shed
      ∧ ((evaluateAfter .leasePool 0 t).pool .leasePool).published = [1]
      ∧ ((evaluateAfter .leasePool 1 t).pool .leasePool).evaluated = 1 := by decide +kernel

/-! ### Witnesses: a state that meets the hypotheses of each statement, and of each of its clauses -/

theorem witness_TakesUseTheTurn :
    takenRequest (asked 0 (ask 1#8 1 0) base) = some (0, ask 1#8 1 0) ∧ base.chosen = none
      ∧ (asked 0 (ask 1#8 1 0) base).chosen ≠ none
      ∧ ({ base with chosen := some .timer } : State).chosen = some .timer
      ∧ eligible { base with chosen := some .timer } .timer = false := by decide +kernel

theorem witness_EveryStepKeeps :
    let s := { asked 0 (ask 2#8 2 0) (held 1 .exclusive 0 []) with pending := [.tick] }
    LockLaw s ∧ TokenLaw s ∧ PortLaw s ∧ RegisterLaw s
      ∧ step s = .next { s with pending := [], now := 10101, tickPos := 0 } := by
  unfold LockLaw TokenLaw PortLaw RegisterLaw
  refine ⟨by decide +kernel, by decide +kernel, by decide +kernel, ⟨by decide +kernel, by decide +kernel, by decide +kernel,
    by decide +kernel, ?_, by decide +kernel⟩, rfl⟩
  intro k; cases k <;> decide +kernel

theorem witness_RotationBoundsEveryWait :
    let ok : Member → Bool := fun m => decide (m = .port 2 ∨ m = .sweep)
    (List.replicate 5 ok).length = 5 ∧ (∀ f ∈ List.replicate 5 ok, f (.port 2) = true ∧ f (innerMember 3) = true)
      ∧ (List.replicate 20 ok).length = 20 ∧ ∀ f ∈ List.replicate 20 ok, f (innerMember 3) = true := by decide +kernel

/-- The hypotheses every clause of a stage shares, and one clause of each stage. -/
theorem witness_AdmissionStagesRefuseInOrder :
    let r := ask 2#8 1 0
    let free := fun s => takenRequest s = some (0, r) ∧ stage1 r = some .acquire ∧ s.tag (senderOf 0 r) r.tag = .free
    let s := asked 0 r base
    let in_ := fun (x : AgentState) => setAgentState 1 x s
    (free (in_ .disabled) ∧ ((in_ .disabled).agent 1).state = .disabled)
      ∧ (free (in_ .fencing) ∧ ((in_ .fencing).agent 1).state = .fencing)
      ∧ (free (in_ .fenced) ∧ ((in_ .fenced).agent 1).state = .fenced)
      ∧ (free (updAgent 1 (fun g => { g with epoch := 2#16 }) s))
      ∧ (free { s with part := .halted } ∧ free { s with part := .aborting } ∧ free { s with part := .quiescing })
      ∧ (free { s with domains := State.reset.domains }
          ∧ lookupDomain { s with domains := State.reset.domains } r.key = none)
      ∧ (let r0 := ask 2#8 0 0
         let s0 := asked 0 r0 base
         takenRequest s0 = some (0, r0) ∧ stage1 r0 = some .acquire ∧ s0.tag 0 0 = .free
           ∧ lookupDomain s0 r0.key = some 0 ∧ (s0.domain 0).agents.getLsbD 0 = false)
      ∧ (let rx := { ask 2#8 1 0 with key := 0x2000#64 }
         let sx := asked 0 rx base
         takenRequest sx = some (0, rx) ∧ stage1 rx = some .acquire ∧ lookupDomain sx rx.key = some 1
           ∧ (sx.domain 1).modes = 1#2 ∧ rx.mode = 1#8) := by
  dsimp only; and_intros <;> decide +kernel

/-- Kind codes 0 and 10, just outside the kinds; the largest handle number out of range; a tag that is not FREE. -/
theorem witness_MalformedAndBusyRequests :
    (∀ k ∈ ([0#8, 10#8] : List Byte), takenRequest (asked 0 (ask k 1 0) base) = some (0, ask k 1 0) ∧ kindOf k = none)
      ∧ (let r := { ask 3#8 1 0 with leaseNum := 8192#16 }
         takenRequest (asked 0 r base) = some (0, r) ∧ kindOf r.kind = some .release ∧ fieldsInRange r .release = false
           ∧ base.tag (senderOf 0 r) r.tag = .free)
      ∧ (let s := setTag 1 0 .waiting (asked 0 (ask 3#8 1 0) base)
         takenRequest s = some (0, ask 3#8 1 0) ∧ fieldsInRange (ask 3#8 1 0) .release = true
           ∧ s.tag (senderOf 0 (ask 3#8 1 0)) 0 ≠ .free) := by decide +kernel

theorem witness_JoinAndQueryReport :
    Admitted (asked 0 (ask 1#8 1 0) base) 0 (ask 1#8 1 0) .join
      ∧ (Admitted (asked 0 (ask 9#8 1 0) base) 0 (ask 9#8 1 0) .query
        ∧ recordOfKey (asked 0 (ask 9#8 1 0) base) 0x1000#64 = none)
      ∧ Admitted (asked 0 (ask 9#8 1 0) (held 1 .shared 0 [])) 0 (ask 9#8 1 0) .query
      ∧ (recordOfKey (asked 0 (ask 9#8 1 0) (held 1 .shared 0 [])) 0x1000#64).isSome = true := by
  unfold Admitted; decide +kernel

theorem witness_KeepaliveMovesTheKeepaliveTick :
    Admitted (asked 0 (ask 5#8 1 0) (held 1 .shared 0 [])) 0 (ask 5#8 1 0) .keepalive := by
  unfold Admitted; decide +kernel

/-- Lease ticks 0, and lease ticks above the domain's lease max. -/
theorem witness_RenewMovesTheDeadline :
    ([0#16, 1000#16, 1001#16] : List (BitVec 16)).all (fun n =>
      let r := { ask 4#8 1 0 with leaseTicks := n }
      let s := asked 0 r (held 1 .shared 0 [])
      tablesOk s && admits s 0 r .renew
        && decide ((liveLease s 0 0#8).map (fun l => (l.agent, l.record)) = some (senderOf 0 r, 0))
        && (tableGet s.records 0).isSome) = true := by decide +kernel

theorem witness_HandleTestRefusesOtherLeases :
    (∀ k ∈ ([3#8, 4#8, 6#8, 7#8] : List Byte), ∀ a ∈ ([1, 2] : List Slot),
      let r := ask k a 0
      let s := asked 0 r (held 1 .shared 0 [])
      takenRequest s = some (0, r) ∧ (stage1 r).isSome = true ∧ tagIsBusy s 0 r = false
        ∧ (stage1 r).bind (fun k => stageFailure s (senderOf 0 r) k r) = none)
      ∧ liveLease (held 1 .shared 0 []) 0 1#8 = none
      ∧ (liveLease (held 1 .shared 0 []) 0 0#8).map (fun l => l.agent) = some 1 := by decide +kernel

/-- Held by the sender; waited on by the sender; held X by another with wait ticks 0; and with the queue at its limit. -/
theorem witness_AcquireAnswersThatTakeNothing :
    let r1 := ask 2#8 1 0
    let r9 := ask 2#8 1 0
    let admitted := fun p r s => takenRequest s = some (p, r) ∧ stage1 r = some .acquire ∧ tagIsBusy s p r = false
      ∧ stageFailure s (senderOf p r) .acquire r = none
    let s1 := asked 0 r1 (held 1 .shared 0 [])
    let s9 := asked 1 r9 (queued .exclusive)
    let s2 := asked 0 (ask 2#8 2 0) (held 1 .exclusive 0 [])
    let r3 := { ask 2#8 2 0 with waitTicks := 1#16 }
    let s3 := asked 0 r3 (queued .exclusive)
    (admitted 0 r1 s1 ∧ (recordOfKey s1 r1.key).bind (fun e => heldLease s1 1 e.2) = some 0)
      ∧ (admitted 1 r9 s9 ∧ (recordOfKey s9 r9.key).map (fun e => (heldLease s9 9 e.2, waitsOn s9 9 e.2)) = some (none, true))
      ∧ (admitted 0 (ask 2#8 2 0) s2 ∧ (recordOfKey s2 0x1000#64).map (fun e =>
          (heldLease s2 2 e.2, waitsOn s2 2 e.2, compatible .shared e.2)) = some (none, false, false))
      ∧ (admitted 0 r3 s3 ∧ (recordOfKey s3 0x1000#64).map (fun e => (heldLease s3 2 e.2, waitsOn s3 2 e.2, e.2.queue.length))
          = some (none, false, 1) ∧ (s3.domain 0).queueLimit.toNat = 1) := by
  dsimp only; and_intros <;> decide +kernel

/-- A lease pool with that many entries in use. -/
def crowded (n : Nat) (s : State) : State := { s with leases := List.replicate n (0, .reserved 0 0) }

theorem crowded_leases (n : Nat) (s : State) : (crowded n s).leases.length = n := List.length_replicate ..

/-- A spent quota; a pool at SHED; and a full lease pool, with no record of the key. -/
theorem witness_AcquireRefusedForResources :
    let r := ask 2#8 1 0
    let s := asked 0 r base
    (admits s 0 r .acquire = true ∧ admits (crowded 8192 s) 0 r .acquire = true ∧ recordOfKey s r.key = none)
      ∧ ((updAgent 1 (fun g => { g with quota := 0 }) s).agent 1).quota ≤ quotaCount s 1
      ∧ ((updPool .lockTable (fun x => { x with level := .shed }) s).pool .lockTable).level = .shed
      ∧ ¬ (s.agent 1).quota ≤ quotaCount s 1 ∧ 8192 ≤ (crowded 8192 s).leases.length := by
  refine ⟨by decide +kernel, by decide +kernel, by decide +kernel, by decide +kernel, ?_⟩
  exact Nat.le_of_eq (crowded_leases _ _).symm

/-- An ACQUIRE that would join the holders, and one that would wait: the clauses' own conditions. -/
theorem witness_AcquireRefusedForResources_of_a_record :
    let r := ask 2#8 2 0
    let s := asked 0 r (held 1 .shared 0 [])
    let rx := { ask 2#8 2 0 with mode := 2#8, waitTicks := 1#16 }
    let sx := asked 0 rx (held 1 .shared 0 [])
    let sees := fun (s : State) (r : Request) (m : Mode) => (recordOfKey s r.key).map fun e =>
      (heldLease s 2 e.2, waitsOn s 2 e.2, e.2.slot, e.2.queue, compatible m e.2)
    (admits s 0 r .acquire = true ∧ modeOfByte r.mode = some .shared ∧ sees s r .shared = some (none, false, none, [], true))
      ∧ (admits sx 0 rx .acquire = true ∧ modeOfByte rx.mode = some .exclusive ∧ rx.waitTicks ≠ 0#16
        ∧ sees sx rx .exclusive = some (none, false, none, [], false) ∧ (sx.domain 0).queueLimit.toNat = 1)
      ∧ ¬ (s.agent 2).quota ≤ quotaCount s 2
      ∧ ((updPool .waitPool (fun x => { x with level := .shed }) sx).pool .waitPool).level = .shed := by
  dsimp only; and_intros <;> decide +kernel

theorem witness_AcquireCreatesARecord :
    let r := ask 2#8 1 0
    let s := asked 0 r base
    Admitted s 0 r .acquire ∧ modeOfByte r.mode = some .shared ∧ recordOfKey s r.key = none ∧ lookupDomain s r.key = some 0
      ∧ grantLeft s ∧ quotaCount s (senderOf 0 r) < (s.agent (senderOf 0 r)).quota
      ∧ (s.pool .leasePool).level ≠ .shed ∧ (s.pool .lockTable).level ≠ .shed
      ∧ s.leases.length < 8192 ∧ s.records.length < 4096
      ∧ lowestFree s.records 4096 = some 0 ∧ lowestFree s.leases 8192 = some 0 := by
  unfold Admitted grantLeft; dsimp only; and_intros <;> decide +kernel

theorem witness_AcquireJoinsTheHolders :
    let r := ask 2#8 2 0
    let s := asked 0 r (held 1 .shared 0 [])
    tablesOk s = true ∧ Admitted s 0 r .acquire ∧ r.mode = 1#8
      ∧ recordOfKey s r.key = some (0, ⟨0x1000#64, 0, .shared, [⟨0, 0#8⟩], [], none, 4000#64⟩)
      ∧ heldLease s (senderOf 0 r) ⟨0x1000#64, 0, .shared, [⟨0, 0#8⟩], [], none, 4000#64⟩ = none
      ∧ grantLeft s ∧ quotaCount s (senderOf 0 r) < (s.agent (senderOf 0 r)).quota
      ∧ (s.pool .leasePool).level ≠ .shed ∧ s.leases.length < 8192 ∧ lowestFree s.leases 8192 = some 1 := by
  unfold Admitted grantLeft; dsimp only; and_intros <;> decide +kernel

theorem witness_AcquireWaitsInTheQueue :
    let r := { ask 2#8 2 0 with waitTicks := 65535#16 }
    let s := asked 0 r (held 1 .exclusive 0 [])
    tablesOk s = true ∧ Admitted s 0 r .acquire ∧ modeOfByte r.mode = some .shared
      ∧ (recordOfKey s r.key).map (fun e => (heldLease s (senderOf 0 r) e.2, waitsOn s (senderOf 0 r) e.2,
          compatible .shared e.2, e.2.queue.length)) = some (none, false, false, 0)
      ∧ r.waitTicks ≠ 0#16 ∧ (s.domain 0).queueLimit.toNat = 1
      ∧ quotaCount s (senderOf 0 r) < (s.agent (senderOf 0 r)).quota
      ∧ (s.pool .leasePool).level ≠ .shed ∧ (s.pool .waitPool).level ≠ .shed
      ∧ s.leases.length < 8192 ∧ s.waits.length < 2048
      ∧ lowestFree s.waits 2048 = some 0 ∧ lowestFree s.leases 8192 = some 1 := by
  unfold Admitted; dsimp only; and_intros <;> decide +kernel

theorem witness_ReleaseRetiresTheRecord :
    let r := ask 3#8 1 0
    let s := asked 0 r (held 1 .exclusive 0 [])
    tablesOk s = true ∧ Admitted s 0 r .release ∧ s.part = .running ∧ fenceJobPresent s (senderOf 0 r) = false
      ∧ (liveLease s 0 0#8).map (fun l => (l.agent, l.record)) = some (senderOf 0 r, 0)
      ∧ (tableGet s.records 0).map (fun e => (e.holders, e.queue, e.slot)) = some ([⟨0, 0#8⟩], [], none) := by
  unfold Admitted; dsimp only; and_intros <;> decide +kernel

/-- The grant that draws the end value, and a counter already there; no command in flight, and one in flight. -/
theorem witness_TokenEndAbortsThePart :
    let r := ask 2#8 1 0
    let s := asked 0 r { base with token := 0xFFFFFFFFFFFFFFFE#64 }
    (admits s 0 r .acquire = true ∧ s.mbox.state = .idle)
      ∧ admits { s with token := 0xFFFFFFFFFFFFFFFF#64 } 0 r .acquire = true
      ∧ ({ commanded 7#8 [] s with chosen := some (.port 0) } : State).mbox.state = .pending
      ∧ modeOfByte r.mode = some .shared ∧ recordOfKey s r.key = none ∧ lookupDomain s r.key = some 0
      ∧ quotaCount s (senderOf 0 r) < (s.agent (senderOf 0 r)).quota
      ∧ (s.pool .leasePool).level ≠ .shed ∧ (s.pool .lockTable).level ≠ .shed
      ∧ s.leases.length < 8192 ∧ s.records.length < 4096
      ∧ lowestFree s.records 4096 = some 0 ∧ lowestFree s.leases 8192 = some 0 := by
  dsimp only; and_intros <;> decide +kernel

/-- The head of a batch draws the end value, the next is refused; and a grantable upgrade finds the counter at its end. -/
theorem witness_TokenEndAbortsThePart_in_an_evaluation :
    let r := ask 3#8 1 0
    let b := batch
    let s := asked 0 r { b with
      token := 0xFFFFFFFFFFFFFFFE#64, waits := b.waits.take 2, leases := b.leases.take 3,
      records := b.records.map fun e => (e.1, { e.2 with queue := [0, 1] }) }
    let t := asked 2 release512 { section512 with token := 0xFFFFFFFFFFFFFFFF#64 }
    (tablesOk s = true ∧ admits s 0 r .release = true ∧ s.part = .running ∧ fenceJobPresent s 1 = false
        ∧ (liveLease s 0 0#8).map (fun l => (l.agent, l.record)) = some (1, 0)
        ∧ (tableGet s.records 0).map (fun e => (e.holders, e.queue, e.slot)) = some ([⟨0, 0#8⟩], [0, 1], none)
        ∧ (tableGet s.waits 0).map (fun e => (e.record, e.mode, e.agent, e.reserved)) = some (0, .shared, 9, 1)
        ∧ (tableGet s.waits 1).map (fun e => (e.record, e.mode, e.agent, e.reserved)) = some (0, .shared, 17, 2)
        ∧ tableGet s.leases 1 = some (.reserved 9 0) ∧ tableGet s.leases 2 = some (.reserved 17 1)
        ∧ s.mbox.state = .idle)
      ∧ (tablesOk t = true ∧ admits t 2 release512 .release = true ∧ fenceJobPresent t 22 = false
        ∧ (leaseAt t 600).map (fun l => l.agent) = some 9) := by
  dsimp only; and_intros <;> decide +kernel

/-- The quiesce job ended, and still listed. -/
theorem witness_LastReleaseHaltsAQuiescedPart :
    [[], [Job.quiesce 0 true]].all (fun jobs =>
      let r := ask 3#8 1 0
      let s := { asked 0 r (held 1 .exclusive 0 []) with part := .quiescing, sweep := jobs }
      tablesOk s && admits s 0 r .release && !s.sweep.any (isFenceJobOf (senderOf 0 r))
        && decide (s.leases = [(0, .inUse ⟨1, 0, .exclusive, 4000#64, 100, 10000⟩)]) && decide (genOf s 0 = r.gen)
        && decide (s.records = [(0, ⟨0x1000#64, 0, .exclusive, [⟨0, 0#8⟩], [], none, 4000#64⟩)])) = true := by
  decide +kernel

/-- An upgrade in the slot, its tag cancelled, and its lease released. -/
theorem witness_UpgradeLeavesTheSlot :
    let s := setTag 1 2 .upgrading (shared (some upgrade1))
    let c := asked 0 (ask 8#8 1 0) s
    let t := asked 0 (ask 3#8 1 0) s
    (tablesOk c = true ∧ admits c 0 (ask 8#8 1 0) .cancel = true ∧ c.part = .running
        ∧ c.tag 1 (targetTag (ask 8#8 1 0)) = .upgrading ∧ upgradeOfTag c 1 (targetTag (ask 8#8 1 0)) = some 0
        ∧ (tableGet c.records 0).map (fun e => (e.slot, e.queue, decide (e.holders ≠ []))) = some (some upgrade1, [], true))
      ∧ (tablesOk t = true ∧ admits t 0 (ask 3#8 1 0) .release = true ∧ fenceJobPresent t 1 = false
        ∧ (liveLease t 0 0#8).map (fun l => (l.agent, l.record)) = some (1, 0) ∧ upgrade1.lease = ⟨0, 0#8⟩
        ∧ (tableGet t.records 0).map (fun e => (e.slot, e.queue, decide (e.holders.erase upgrade1.lease ≠ [])))
            = some (some upgrade1, [], true)) := by
  dsimp only; and_intros <;> decide +kernel

theorem witness_ReleaseHandsOverToTheQueueHead :
    let r := ask 3#8 1 0
    let s := asked 0 r (queued .exclusive)
    tablesOk s = true ∧ Admitted s 0 r .release ∧ s.part = .running ∧ fenceJobPresent s (senderOf 0 r) = false
      ∧ (liveLease s 0 0#8).map (fun l => (l.agent, l.record)) = some (senderOf 0 r, 0)
      ∧ (tableGet s.records 0).map (fun e => (e.holders, e.queue, e.slot)) = some ([⟨0, 0#8⟩], [0], none)
      ∧ (tableGet s.waits 0).map (fun e => (e.record, e.mode, e.agent, e.reserved)) = some (0, .exclusive, 9, 1)
      ∧ senderOf 0 r ≠ 9 ∧ tableGet s.leases 1 = some (.reserved 9 0) ∧ grantLeft s := by
  unfold Admitted grantLeft; dsimp only; and_intros <;> decide +kernel

/-- Two S heads with an X head behind them; and the upgrade of section 5.12, granted at the evaluation. -/
theorem witness_ReleaseHandsOverToTheQueueHead_in_an_evaluation :
    let r := ask 3#8 1 0
    let s := asked 0 r batch
    let t := asked 2 release512 section512
    (tablesOk s = true ∧ admits s 0 r .release = true ∧ s.part = .running ∧ fenceJobPresent s 1 = false
        ∧ (liveLease s 0 0#8).map (fun l => (l.agent, l.record)) = some (1, 0)
        ∧ (tableGet s.records 0).map (fun e => (e.holders, e.queue, e.slot)) = some ([⟨0, 0#8⟩], [0, 1, 2], none)
        ∧ (tableGet s.waits 0).map (fun e => (e.record, e.mode, e.agent, e.reserved)) = some (0, .shared, 9, 1)
        ∧ (tableGet s.waits 1).map (fun e => (e.record, e.mode, e.agent, e.reserved)) = some (0, .shared, 17, 2)
        ∧ (tableGet s.waits 2).map (fun e => e.mode) = some .exclusive
        ∧ tableGet s.leases 1 = some (.reserved 9 0) ∧ tableGet s.leases 2 = some (.reserved 17 1)
        ∧ s.token.toNat + 2 < 18446744073709551615)
      ∧ (tablesOk t = true ∧ admits t 2 release512 .release = true ∧ t.part = .running ∧ fenceJobPresent t 22 = false
        ∧ (liveLease t 601 0#8).map (fun l => (l.agent, l.record)) = some (22, 0)
        ∧ (tableGet t.records 0).map (fun e => (e.slot.map fun u => u.lease, e.holders.erase ⟨601, 0#8⟩))
            = some (some ⟨600, 2#8⟩, [⟨600, 2#8⟩])
        ∧ (leaseAt t 600).map (fun l => l.agent) = some 9 ∧ t.token.toNat + 1 < Config.tokenEnd.toNat) := by
  dsimp only; and_intros <;> decide +kernel

theorem witness_UpgradeGrantsTheOnlyHolder :
    let r := ask 6#8 1 0
    let s := asked 0 r (held 1 .shared 0 [])
    tablesOk s = true ∧ Admitted s 0 r .upgrade
      ∧ (liveLease s 0 0#8).map (fun l => (l.agent, l.mode, l.record)) = some (senderOf 0 r, .shared, 0)
      ∧ (tableGet s.records 0).map (fun e => (e.slot, e.holders, (s.domain e.domain).upgradeAllowed))
          = some (none, [⟨0, 0#8⟩], true) ∧ grantLeft s := by
  unfold Admitted grantLeft; dsimp only; and_intros <;> decide +kernel

/-- Wait ticks 0, 1 and 65535. -/
theorem witness_UpgradeWaitsInTheSlot :
    ([0#16, 1#16, 65535#16] : List (BitVec 16)).all (fun n =>
      let r := { ask 6#8 1 0 with waitTicks := n }
      let s := asked 0 r (shared none)
      tablesOk s && admits s 0 r .upgrade
        && decide ((liveLease s 0 0#8).map (fun l => (l.agent, l.mode, l.record)) = some (senderOf 0 r, .shared, 0))
        && decide ((tableGet s.records 0).map (fun e => (e.slot, decide (e.holders ≠ [⟨0, 0#8⟩]),
            (s.domain e.domain).upgradeAllowed)) = some (none, true, true))) = true := by decide +kernel

/-- An X lease; a domain with no upgrade; this lease in the slot; another lease in the slot. -/
theorem witness_UpgradeRefusals :
    let r := ask 6#8 1 0
    let r9 := { ask 6#8 1 0 with leaseNum := 1#16 }
    let admitted := fun p r s => takenRequest s = some (p, r) ∧ stage1 r = some .upgrade ∧ tagIsBusy s p r = false
      ∧ stageFailure s (senderOf p r) .upgrade r = none
    let sees := fun s k => (liveLease s k 0#8).map fun l => (l.agent, l.mode, l.record)
    let s1 := asked 0 r (held 1 .exclusive 0 [])
    let s2 := asked 0 r (held 1 .shared 1 [])
    let s3 := asked 0 r (shared (some upgrade1))
    let s4 := asked 1 r9 (shared (some upgrade1))
    (admitted 0 r s1 ∧ sees s1 0 = some (1, .exclusive, 0))
      ∧ (admitted 0 r s2 ∧ sees s2 0 = some (1, .shared, 0) ∧ (s2.domain 1).upgradeAllowed = false)
      ∧ (admitted 0 r s3 ∧ sees s3 0 = some (1, .shared, 0))
      ∧ (admitted 1 r9 s4 ∧ sees s4 1 = some (9, .shared, 0) ∧ upgrade1.lease ≠ ⟨1, 0#8⟩) := by
  dsimp only; and_intros <;> decide +kernel

theorem witness_DowngradeSharesTheLock :
    ∀ s ∈ [held 1 .shared 0 [], held 1 .exclusive 1 [], held 1 .exclusive 0 []],
      let r := ask 7#8 1 0
      let t := asked 0 r s
      tablesOk t = true ∧ (takenRequest t = some (0, r) ∧ stage1 r = some .downgrade ∧ tagIsBusy t 0 r = false
          ∧ stageFailure t 1 .downgrade r = none)
        ∧ (liveLease t 0 0#8).map (fun l => (l.agent, l.record)) = some (senderOf 0 r, 0)
        ∧ (tableGet t.records 0).map (fun e => (e.holders, e.queue, e.slot)) = some ([⟨0, 0#8⟩], [], none) := by
  decide +kernel

/-- A queue head that wants S, with another S behind it and with an X head behind it. -/
theorem witness_DowngradeSharesTheLock_with_a_waiter :
    let r := ask 7#8 1 0
    let s := asked 0 r { batch with records := batch.records.map fun e => (e.1, { e.2 with queue := [1, 2] }) }
    tablesOk s = true ∧ admits s 0 r .downgrade = true ∧ s.part = .running
      ∧ (liveLease s 0 0#8).map (fun l => (l.agent, l.mode, l.record)) = some (1, .exclusive, 0)
      ∧ (s.domain 0).modes ≠ 1#2
      ∧ (tableGet s.records 0).map (fun e => (e.holders, e.queue, e.slot)) = some ([⟨0, 0#8⟩], [1, 2], none)
      ∧ (tableGet s.waits 1).map (fun e => (e.record, e.mode, e.agent, e.reserved)) = some (0, .shared, 17, 2)
      ∧ (tableGet s.waits 2).map (fun e => e.mode) = some .exclusive
      ∧ tableGet s.leases 2 = some (.reserved 17 1) ∧ s.token.toNat + 1 < Config.tokenEnd.toNat := by
  dsimp only; and_intros <;> decide +kernel

/-- The target REPLYING, FREE, and WAITING on a record with holders. -/
theorem witness_CancelRemovesTheWait :
    let r := ask 8#8 1 0
    let s := asked 1 r (queued .exclusive)
    let admitted := fun s => tablesOk s = true ∧ takenRequest s = some (1, r) ∧ stage1 r = some .cancel
      ∧ tagIsBusy s 1 r = false ∧ stageFailure s 9 .cancel r = none
    (admitted s ∧ s.part = .running ∧ s.tag 9 (targetTag r) = .waiting
        ∧ (waitOfTag s 9 (targetTag r)).map (fun e => (e.1, e.2.record)) = some (0, 0)
        ∧ (tableGet s.records 0).map (fun e => (e.queue, e.slot, decide (e.holders ≠ []))) = some ([0], none, true))
      ∧ (admitted (setTag 9 2 .replying s) ∧ admitted (setTag 9 2 .free s)) := by
  dsimp only; and_intros <;> decide +kernel

theorem witness_LeaseExpiryLosesTheLease :
    let s := timed (.lease 0) (held 1 .shared 0 [])
    tablesOk s = true ∧ takenTimer s = some (.lease 0)
      ∧ (leaseAt s 0).map (fun l => (l.agent, l.mode, l.record, decide (effectiveDeadline s l ≤ s.now)))
          = some (1, .shared, 0, true)
      ∧ s.part = .running ∧ (s.agent 1).state = .active ∧ fenceJobPresent s 1 = false
      ∧ (tableGet s.records 0).map (fun e => (e.holders, e.queue, e.slot)) = some ([handleOf s 0], [], none)
      ∧ (s.port (portOf 1)).link ≠ .down ∧ slotOf 1 ∉ (s.port (portOf 1)).noticeQ.map noticeSlot := by decide +kernel

theorem witness_LeaseExpiryFencesTheAgent :
    let s := timed (.lease 0) (held 1 .exclusive 1 [])
    tablesOk s = true ∧ takenTimer s = some (.lease 0)
      ∧ (leaseAt s 0).map (fun l => (l.agent, l.mode, l.record, decide (effectiveDeadline s l ≤ s.now)))
          = some (1, .exclusive, 0, true)
      ∧ s.part = .running ∧ (s.agent 1).state = .active ∧ fenceJobPresent s 1 = false
      ∧ (tableGet s.records 0).map (fun e => (e.holders, e.queue, e.slot, (s.domain e.domain).policy))
          = some ([handleOf s 0], [], none, 2#2)
      ∧ (s.agent 1).leases = handleOf s 0 :: [] ∧ ∀ g : Tag, s.tag 1 g = .free ∨ s.tag 1 g = .replying := by decide +kernel

/-- A LOST or a FENCE notice queued for the agent behind another agent's; a port that is DOWN, and one that sends. -/
theorem witness_LeaseExpiryFencesTheAgent_with_a_notice :
    let s := timed (.lease 0) (held 1 .exclusive 1 [])
    let pre := [Notice.lost 2 1 ⟨5, 0#8⟩ .expired]
    (slotOf 1 ∉ pre.map noticeSlot)
      ∧ ([Notice.lost 1 1024 ⟨6, 0#8⟩ .forced, .fence 1 7#16].all fun n =>
          decide (takenTimer (updPort 0 (fun q => { q with noticeQ := pre ++ n :: [] }) s) = some (.lease 0))) = true
      ∧ takenTimer (updPort 0 (fun q => { q with link := .down }) s) = some (.lease 0) ∧ (s.port 0).link ≠ .down
      ∧ (s.port 0).tx = none ∧ ((updPort 0 (fun q => { q with tx := some .trainAck }) s).port 0).tx ≠ none := by
  dsimp only; and_intros <;> decide +kernel

theorem witness_TimeoutsAnswerTimedOut :
    let s := timed (.wait 0) (queued .exclusive)
    let u := timed (.upgrade 0) (shared (some upgrade1))
    (tablesOk s = true ∧ takenTimer s = some (.wait 0) ∧ s.part = .running
        ∧ (tableGet s.waits 0).map (fun e => (e.record, e.deadline)) = some (0, some 10100) ∧ 10100 ≤ s.now
        ∧ (tableGet s.records 0).map (fun e => (e.queue, e.slot, decide (e.holders ≠ []))) = some ([0], none, true))
      ∧ (tablesOk u = true ∧ takenTimer u = some (.upgrade 0) ∧ u.part = .running
        ∧ (tableGet u.records 0).map (fun e => (e.queue, e.slot, decide (e.holders ≠ []))) = some ([], some upgrade1, true)
        ∧ upgrade1.deadline = some 10100 ∧ 10100 ≤ u.now ∧ (leaseAt u upgrade1.lease.num).isSome = true) := by
  decide +kernel

/-- An entry that is gone, one tick before a deadline, and an empty slot. -/
theorem witness_MovedDeadlinesAreDropped :
    let s := timed (.wait 7) base
    let t := { timed (.lease 0) (held 1 .shared 0 []) with now := 9999 }
    let u := timed (.upgrade 0) (shared none)
    (takenTimer s = some (.wait 7) ∧ isDue s (.wait 7) = false) ∧ (takenTimer t = some (.lease 0) ∧ isDue t (.lease 0) = false)
      ∧ (takenTimer u = some (.upgrade 0) ∧ isDue u (.upgrade 0) = false) := by decide +kernel

theorem witness_FenceStepReleasesTheOldestLease :
    let s := setAgentState 1 .fencing (swept (.fence 1 true) .running (held 1 .exclusive 0 []))
    tablesOk s = true ∧ takenJob s = some (.fence 1 true) ∧ s.sweep = .fence 1 true :: []
      ∧ ([] : List Job).any (isFenceJobOf 1) = false ∧ s.part = .running ∧ (s.agent 1).leases = ⟨0, 0#8⟩ :: []
      ∧ (leaseAt s 0).map (fun l => (l.agent, l.record)) = some (1, 0) ∧ handleOf s 0 = ⟨0, 0#8⟩
      ∧ (tableGet s.records 0).map (fun e => (e.holders, e.queue, e.slot)) = some ([⟨0, 0#8⟩], [], none) := by
  decide +kernel

/-- A fence step on a record that keeps another holder. -/
theorem witness_FenceStepReleasesTheOldestLease_of_a_shared_record :
    let s := setAgentState 1 .fencing (swept (.fence 1 false) .running (shared none))
    tablesOk s = true ∧ takenJob s = some (.fence 1 false) ∧ s.sweep = .fence 1 false :: [] ∧ s.part = .running
      ∧ (s.agent 1).leases = ⟨0, 0#8⟩ :: [] ∧ (leaseAt s 0).map (fun l => (l.agent, l.record)) = some (1, 0)
      ∧ handleOf s 0 = ⟨0, 0#8⟩
      ∧ (tableGet s.records 0).map (fun e => (e.holders.erase ⟨0, 0#8⟩, e.queue, e.slot)) = some ([⟨1, 0#8⟩], [], none) := by
  decide +kernel

/-- A quiesce step on an upgrade, and an abort step on a waiter of another port than the holder, with a record beyond. -/
theorem witness_sweep_goes_on :
    let s := swept (.quiesce 0 true) .quiescing (another (shared (some upgrade1)))
    let t := swept (.abort 0 true) .aborting (another (queued .exclusive))
    (tablesOk s = true ∧ takenJob s = some (.quiesce 0 true) ∧ s.sweep = .quiesce 0 true :: []
        ∧ ([] : List Job).any isQuiesceJob = false ∧ s.part = .quiescing
        ∧ (tableGet s.records 0).map (fun e => (e.queue, e.slot, decide (e.holders ≠ []))) = some ([], some upgrade1, true)
        ∧ (∀ x ∈ s.records, 0 ≤ x.1 → 0 ≤ x.1) ∧ (∃ x ∈ s.records, 0 < x.1)
        ∧ (leaseAt s upgrade1.lease.num).map (fun l => l.agent) = some 1)
      ∧ (tablesOk t = true ∧ takenJob t = some (.abort 0 true) ∧ t.sweep = [.abort 0 true] ∧ t.part = .aborting
        ∧ (tableGet t.records 0).map (fun e => (e.queue, e.slot, e.holders)) = some ([0], none, [⟨0, 0#8⟩])
        ∧ (∃ x ∈ t.records, 0 < x.1) ∧ (leaseAt t 0).map (fun l => (l.record, l.agent)) = some (0, 1)
        ∧ handleOf t 0 = ⟨0, 0#8⟩ ∧ (tableGet t.waits 0).map (fun e => (e.record, e.reserved, e.agent)) = some (0, 1, 9)
        ∧ tableGet t.leases 1 = some (.reserved 9 0) ∧ portOf 9 ≠ portOf 1) := by
  dsimp only; and_intros <;> decide +kernel

theorem witness_QuiesceStepAnswersTheWaiters :
    ∀ att ∈ [true, false],
      let s := swept (.quiesce 0 att) .quiescing (queued .exclusive)
      tablesOk s = true ∧ takenJob s = some (.quiesce 0 att) ∧ s.part = .quiescing
        ∧ s.records.map (fun e => (e.1, e.2.queue, e.2.slot, decide (e.2.holders ≠ []))) = [(0, [0], none, true)]
        ∧ (tableGet s.waits 0).map (fun e => (e.record, e.reserved, e.agent)) = some (0, 1, 9)
        ∧ tableGet s.leases 1 = some (.reserved 9 0) ∧ 2 ≤ s.leases.length := by decide +kernel

theorem witness_AbortStepEndsInHalted :
    ∀ att ∈ [true, false],
      let s := swept (.abort 0 att) .aborting (held 1 .exclusive 0 [])
      tablesOk s = true ∧ takenJob s = some (.abort 0 att) ∧ s.part = .aborting
        ∧ s.records = [(0, ⟨0x1000#64, 0, .exclusive, [⟨0, 0#8⟩], [], none, 4000#64⟩)]
        ∧ (leaseAt s 0).map (fun l => l.record) = some 0 ∧ handleOf s 0 = ⟨0, 0#8⟩ := by decide +kernel

/-- A port that has gone DOWN, with its withdrawal chosen. -/
def withdrawn (p : Port) (s : State) : State :=
  updPort p (fun q => { resetPort q.signal with heldDown := true, withdrawPending := true, enable := q.enable })
    { s with chosen := some .withdraw }

theorem witness_WithdrawFreesTagsAndWaits :
    let s := withdrawn 1 (queued .exclusive)
    tablesOk s = true ∧ takenWithdrawal s = some 1 ∧ (s.port 1).link = .down ∧ s.part = .running
      ∧ s.records.map (fun e => (e.1, e.2.queue, e.2.slot, decide (e.2.holders ≠ []))) = [(0, [0], none, true)]
      ∧ (tableGet s.waits 0).map (fun e => (e.record, portOf e.agent)) = some (0, 1) := by decide +kernel

/-- The upgrade of an agent of the port; a port that trains at once and one that does not; a lease that no wait reserves. -/
theorem witness_WithdrawFreesTagsAndWaits_of_an_upgrade :
    let s := withdrawn 0 (setTag 1 2 .upgrading (shared (some upgrade1)))
    tablesOk s = true ∧ takenWithdrawal s = some 0 ∧ (s.port 0).link = .down ∧ s.part = .running
      ∧ s.records.map (fun e => (e.1, e.2.queue, e.2.slot, decide (e.2.holders ≠ []))) = [(0, [], some upgrade1, true)]
      ∧ (leaseAt s upgrade1.lease.num).map (fun l => portOf l.agent) = some 0
      ∧ ((s.port 0).enable = true ∧ (s.port 0).signal = true)
      ∧ ((updPort 0 (fun q => { q with signal := false }) s).port 0).signal = false ∧ s.waits = [] := by decide +kernel

theorem witness_TagCompleteFreesTheTag :
    let s := updPort 0 (fun q => { q with reports := [(1, 2)] }) base
    (s.port 0).reports = (1, 2) :: [] ∧ (setTag 1 2 .replying s).tag 1 2 = .replying ∧ s.tag 1 2 ≠ .replying := by
  decide +kernel

/-- COMMAND_PLACED on an idle mailbox, an ABORT over a command in flight, and an overrun. -/
theorem witness_CommandPlacedAtTheMailbox :
    ¬ (base.mbox.state = .pending ∨ base.mbox.state = .running)
      ∧ ((commanded 7#8 [] base).mbox.state = .pending ∧ (commanded 7#8 [] base).mbox.code ≠ 8#8)
      ∧ (commanded 8#8 [] base).mbox.code = 8#8 := by decide +kernel

/-- Domain indices 0, 15 and 16, and values at the ends of their ranges. -/
theorem witness_DomainsAreSetAndReported :
    ∀ i ∈ [0, 15, 16],
      let w : List Word := [BitVec.ofNat 32 (i + 0x6100), 0, 0x1000, 0, 0xFF00, 0xFFFFFFFF, 0x00010001, 0x00010040]
      let s := { commanded 1#8 w base with part := .halted }
      takenCommand s = some 1#8 ∧ s.part = .halted ∧ bitField (argWord s 0) 0 8 = i ∧ (argDomain s).valid = true
        ∧ domainValuesOk (argDomain s) = true ∧ takenCommand (commanded 2#8 w base) = some 2#8
        ∧ domainValuesOk { argDomain s with queueLimit := 65#8 } = false
        ∧ domainValuesOk { argDomain s with queueLimit := 0#8 } = false := by decide +kernel

/-- SET_AGENT of agents 31 and 32 in HALTED and outside it, with each action and quotas 0, 1, 1024 and 1025, for an agent in
each state, with a lease and without. -/
theorem witness_SetAgentEnablesAndDisables :
    ∀ part ∈ [PartState.halted, .running, .quiescing], ∀ a ∈ [31, 32], ∀ action ∈ [0, 1, 2, 3],
      ∀ quota ∈ [0, 1, 1024, 1025],
      let s := { commanded 3#8 [BitVec.ofNat 32 (256 * action + a), BitVec.ofNat 32 quota] base with part := part }
      takenCommand s = some 3#8 ∧ bitField (argWord s 0) 0 8 = a ∧ s.part = part
        ∧ bitField (argWord s 0) 8 2 = action ∧ bitField (argWord s 1) 0 16 = quota := by decide +kernel

theorem witness_SetAgentEnablesAndDisables_agents :
    (∀ x ∈ [AgentState.disabled, .active, .fencing, .fenced],
      let s := { setAgentState 31 x (commanded 3#8 [0x11F, 1] base) with part := .halted }
      takenCommand s = some 3#8 ∧ s.part = .halted ∧ (s.agent 31).state = x)
      ∧ ((held 31 .shared 0 []).agent 31).leases ≠ []
      ∧ takenCommand (commanded 3#8 [0x21F, 1] (held 31 .shared 0 [])) = some 3#8 := by decide +kernel

/-- Agent numbers 31 and 32, lease numbers 8191 and 8192, a key with a record and one without, and codes 0 and 15. -/
theorem witness_ReportsChangeNothing :
    (∀ a ∈ [31, 32], takenCommand (commanded 4#8 [BitVec.ofNat 32 a] base) = some 4#8
        ∧ bitField (argWord (commanded 4#8 [BitVec.ofNat 32 a] base) 0) 0 8 = a)
      ∧ (∀ k ∈ [8191, 8192], takenCommand (commanded 0x0D#8 [BitVec.ofNat 32 k] base) = some 0x0D#8
        ∧ bitField (argWord (commanded 0x0D#8 [BitVec.ofNat 32 k] base) 0) 0 16 = k)
      ∧ (let s := commanded 0x0C#8 [0, 0x1000] (held 1 .shared 0 [])
         takenCommand s = some 0x0C#8 ∧ (recordOfKey s (argPair s 0 1)).isSome = true
           ∧ recordOfKey base (argPair s 0 1) = none)
      ∧ ∀ c ∈ ([0#8, 15#8] : List Byte), takenCommand (commanded c [] base) = some c := by decide +kernel

/-- A lease entry FREE, RESERVED and IN_USE on its record; a record with an upgrade and one without. -/
theorem witness_ReportsChangeNothing_of_entries :
    let s := fun k : Nat => commanded 0x0D#8 [BitVec.ofNat 32 k] (queued .exclusive)
    let t := commanded 0x0C#8 [0, 0x1000] (shared (some upgrade1))
    (∀ k ∈ [0, 1, 2], takenCommand (s k) = some 0x0D#8 ∧ bitField (argWord (s k) 0) 0 16 = k)
      ∧ tableGet (s 0).leases 2 = none ∧ tableGet (s 0).leases 1 = some (.reserved 9 0)
      ∧ tableGet (s 0).leases 0 = some (leaseOf 1 .exclusive) ∧ (tableGet (s 0).records 0).isSome = true
      ∧ takenCommand t = some 0x0C#8
      ∧ (recordOfKey t (argPair t 0 1)).map (fun e => (e.1, e.2.holders.length, e.2.queue.length, e.2.slot))
          = some (0, 2, 0, some upgrade1)
      ∧ (base.agent 31).leases.length < 65536 ∧ (base.waits.countP fun e => e.2.agent = 31) < 65536 := by
  dsimp only; and_intros <;> decide +kernel

/-- SEED with the counter's value, one less, and the end value; START with a valid domain and with none. -/
theorem witness_SeedAndStart :
    (∀ low ∈ ([3999, 4000] : List Nat), takenCommand (commanded 5#8 [0, BitVec.ofNat 32 low] base) = some 5#8
        ∧ (argPair (commanded 5#8 [0, BitVec.ofNat 32 low] base) 0 1).toNat = low)
      ∧ argPair (commanded 5#8 [0xFFFFFFFF, 0xFFFFFFFF] base) 0 1 = 0xFFFFFFFFFFFFFFFF#64
      ∧ takenCommand { commanded 5#8 [0, 4000] base with part := .halted } = some 5#8
      ∧ (∀ part ∈ [PartState.halted, .running, .quiescing, .aborting],
          takenCommand { commanded 6#8 [] base with part := part } = some 6#8)
      ∧ (base.seeded = true ∧ (base.domain 0).valid = true) ∧ State.reset.seeded = false := by decide +kernel

theorem witness_QuiesceAndAbort :
    ∀ part ∈ [PartState.halted, .running, .quiescing, .aborting],
      let s := { commanded 7#8 [] (held 1 .shared 0 []) with part := part }
      takenCommand s = some 7#8 ∧ s.sweep.any isQuiesceJob = false ∧ s.leases ≠ [] ∧ base.leases = []
        ∧ takenCommand { commanded 8#8 [] base with part := part } = some 8#8 := by decide +kernel

/-- FENCE of agents 31 and 32, in each agent state, with a lease and without. -/
theorem witness_FenceByCommand :
    let s := commanded 9#8 [31] (held 31 .shared 0 [])
    let none_ := commanded 9#8 [31] base
    (∀ t ∈ [s, none_], takenCommand t = some 9#8 ∧ t.part ≠ .aborting ∧ bitField (argWord t 0) 0 8 = 31
        ∧ (t.agent 31).state = .active ∧ fenceJobPresent t 31 = false
        ∧ ∀ g : Tag, t.tag 31 g = .free ∨ t.tag 31 g = .replying)
      ∧ ((s.agent 31).leases ≠ [] ∧ (none_.agent 31).leases = [])
      ∧ ([Notice.lost 7 1024 ⟨6, 0#8⟩ .forced, .fence 7 7#16].all fun n =>
          let t := updPort 3 (fun q => { q with noticeQ := [.fence 2 1#16] ++ n :: [] }) s
          decide (takenCommand t = some 9#8 ∧ (t.port (portOf 31)).link ≠ .down ∧ noticeSlot n = slotOf 31
            ∧ slotOf 31 ∉ [Notice.fence 2 1#16].map noticeSlot)) = true
      ∧ bitField (argWord (commanded 9#8 [32] base) 0) 0 8 = 32 := by decide +kernel

theorem witness_AdmitReturnsAFencedAgent :
    ∀ x ∈ [AgentState.fenced, .fencing, .active, .disabled],
      let s := setAgentState 31 x (commanded 0x0A#8 [31] base)
      takenCommand s = some 0x0A#8 ∧ bitField (argWord s 0) 0 8 = 31 ∧ (s.agent 31).state = x
        ∧ (s.agent 31).leases = [] := by decide +kernel

theorem witness_ForceReleaseTakesTheLock :
    let s := commanded 0x0B#8 [0, 0x1000] (held 1 .exclusive 0 [])
    tablesOk s = true ∧ takenCommand s = some 0x0B#8
      ∧ (recordOfKey s (argPair s 0 1)).map (fun e => (e.1, e.2.holders, e.2.queue, e.2.slot))
          = some (0, [⟨0, 0#8⟩], [], none)
      ∧ s.part = .running ∧ (leaseAt s 0).map (fun l => (l.record, l.agent)) = some (0, 1) ∧ handleOf s 0 = ⟨0, 0#8⟩
      ∧ (s.agent 1).state = .active ∧ fenceJobPresent s 1 = false ∧ recordOfKey base (argPair s 0 1) = none := by
  decide +kernel

/-- Counts at and beside each mark, and SET_PRESSURE for pool codes 2 and 3. -/
theorem witness_PressureLevelsFollowTheCounts :
    (∀ n ∈ [1536, 1537, 1791, 1792, 1983, 1984],
      ((updPool .waitPool (fun x => { x with published := [7, n, 9] }) base).pool .waitPool).published = [7] ++ n :: [9]
        ∧ (base.pool .waitPool).published = []
        ∧ (base.pool .waitPool).low = 1536 ∧ (base.pool .waitPool).high = 1792 ∧ (base.pool .waitPool).shed = 1984)
      ∧ takenCommand (commanded 0x0E#8 [2, 0, 1, 2048] base) = some 0x0E#8
      ∧ poolOfCode (bitField (argWord (commanded 0x0E#8 [2, 0, 1, 2048] base) 0) 0 8) = some .waitPool
      ∧ marksOk .waitPool 0 1 2048 = true ∧ marksOk .waitPool 0 1 2049 = false
      ∧ 3 ≤ bitField (argWord (commanded 0x0E#8 [3] base) 0) 0 8 := by decide +kernel

theorem witness_LinksTrainAndGoDown :
    ((base.port 0).link = .up ∧ ((updPort 0 (fun q => { q with link := .training }) base).port 0).link = .training)
      ∧ ((resetPort true).link = .down ∧ (resetPort true).heldDown = false) := by decide +kernel

/-- A CREDIT of 16 and of 17, a request against a credit, and frames of the wrong length. -/
theorem witness_ReceivedFramesAct :
    (∀ c ∈ ([0#8, 1#8, 16#8, 17#8] : List Byte), (Instr.creditReceived 0 (frameBytes 3#8 [c])).wellFormed = true
        ∧ framePayload (frameBytes 3#8 [c]) = [c])
      ∧ ((Instr.messageReceived 0 (frameBytes 4#8 (requestBytes (ask 1#8 1 0)))).wellFormed = true
        ∧ (framePayload (frameBytes 4#8 (requestBytes (ask 1#8 1 0)))).length = 24 ∧ 1 ≤ (base.port 0).ingressCredits)
      ∧ ((Instr.trainReceived 0 (frameBytes 1#8 [7#8])).wellFormed = true ∧ framePayload (frameBytes 1#8 [7#8]) ≠ [])
      ∧ (Instr.trainAckReceived 0 (frameBytes 2#8 [7#8])).wellFormed = true
      ∧ (Instr.frameCheckFailed 0 (List.replicate 29 0#8)).wellFormed = true := by decide +kernel

/-- The first and last message of a full transmitter's order: both queues hold an entry, and no credit is unsent. -/
theorem witness_TransmitterOrderAndCompletion :
    let q := { portUp with replyQ := [⟨.credit, 1, 0, .tagBusy, 3#8, {}⟩], noticeQ := [.fence 1 1#16] }
    let s := updPort 0 (fun _ => q) base
    (s.port 0).tx = none ∧ (s.port 0).link = .up ∧ (s.port 0).ackOwed = false ∧ (s.port 0).unsentReturns = 0
      ∧ 1 ≤ (s.port 0).egressCredits ∧ (s.port 0).replyQ ≠ [] ∧ (s.port 0).noticeQ ≠ [] ∧ (s.port 0).egressTurn = .reply := by
  decide +kernel

/-- A plain address next to a register with a behaviour of its own. -/
theorem witness_RegisterWritesTakeEffect :
    (Instr.registerWrite 0x1F#7 0#32).wellFormed = true ∧ (Instr.registerWrite 0x07#7 0#32).wellFormed = true
      ∧ (Instr.registerWrite 0x10#7 0#32).wellFormed = true ∧ bitField 99#32 0 16 < 100 ∧ 100 ≤ bitField 100#32 0 16 := by
  decide +kernel

end Sys2Proof.Tests
end

section
/-! The invariants of every step: the locks stay exclusive, the tokens stay distinct and never pass the counter. -/

namespace Sys2Proof.Machine

/-! ### Reset -/

/-- Settles O3: every field of the reset state, block by block. -/
theorem resetState : Obligations.ResetState := by
  unfold Obligations.ResetState
  refine ⟨rfl, rfl, rfl, fun _ => rfl, fun d => ?_, fun a => ?_, rfl, rfl, rfl, rfl, rfl, rfl, rfl, rfl, rfl, rfl, rfl,
    rfl, rfl, rfl, rfl, fun p => ?_, rfl, rfl, rfl, rfl, rfl, rfl, rfl, rfl, rfl⟩
  · simp [State.domain, State.reset, Vector.get_eq_getElem, resetDomain]
  · simp [State.agent, State.reset, Vector.get_eq_getElem, resetAgent, Config.resetQuota]
  · simp [State.port, State.reset, Vector.get_eq_getElem, resetPort]

/-- A state with no lock, no lease, no generation and no wait listed meets the lock law and the token law. -/
theorem lockLaw_tokenLaw_of_empty {s : State} (hr : s.records = []) (hl : s.leases = []) (hg : s.gens = [])
    (hw : s.waits = []) : LockLaw s ∧ TokenLaw s := by
  simp [LockLaw, TokenLaw, tablesOk, exclusiveAlone, heldTokens, hr, hl, hg, hw, tableWf]

/-- A port after reset meets its account, whatever its signal input. -/
theorem resetPort_portOk (signal : Bool) : portOk (resetPort signal) = true := by
  cases signal <;> decide

/-- Settles O5: the tables are empty, the ports DOWN and the registers at values they may hold. -/
theorem resetMeetsTheLaws : Obligations.ResetMeetsTheLaws := by
  obtain ⟨hlock, htoken⟩ := lockLaw_tokenLaw_of_empty (s := State.reset) rfl rfl rfl rfl
  refine ⟨hlock, htoken, fun p => ?_, by decide, by decide, by decide, fun a => ?_, fun k => ?_, fun _ => rfl⟩
  · have hp : State.reset.port p = resetPort false := by simp [State.port, State.reset, Vector.get_eq_getElem]
    rw [hp]; exact resetPort_portOk false
  · simp [State.agent, State.reset, Vector.get_eq_getElem, resetAgent, Config.resetQuota, Config.maxQuota]
  · cases k <;> decide

/-- What every move keeps from states whose tables are in canonical form, every command but DEVICE_RESET keeps. -/
theorem exec_keeps {P : State → Prop} (hm : ∀ s t, tablesOk s = true → Move s t → P s → P t) {c : Instr} {s t : State}
    (hc : c ≠ .deviceReset) (h : exec c s = .next t) (hs : tablesOk s = true) (hP : P s) : P t :=
  (((exec_path hc h).moves hs).keep (P := fun s => tablesOk s = true ∧ P s)
    (fun u v m hu => ⟨m.tablesOk hu.1, hm u v hu.1 m hu.2⟩) ⟨hs, hP⟩).2

/-- A step idles, resets the part, or runs another command on the part with the queue's rest. -/
theorem step_cases {s t : State} (h : step s = .next t) :
    t = s ∨ (∃ rest, s.pending = .deviceReset :: rest ∧ execDeviceReset { s with pending := rest } = .next t)
      ∨ ∃ c rest, s.pending = c :: rest ∧ c ≠ .deviceReset ∧ exec c { s with pending := rest } = .next t := by
  unfold step at h
  split at h
  · exact .inl (next_inj h).symm
  · rename_i c rest hq
    by_cases hc : c = .deviceReset
    · subst hc; exact .inr (.inl ⟨rest, hq, h⟩)
    · exact .inr (.inr ⟨c, rest, hq, hc, h⟩)

/-! ### Exclusive records -/

/-- A record in EXCLUSIVE mode has at most one holder (01, R5). -/
def LockRecord.Alone (r : LockRecord) : Prop := r.mode = .exclusive → r.holders.length ≤ 1

theorem exclusiveAlone_iff (s : State) : exclusiveAlone s = true ↔ ∀ e ∈ s.records, e.2.Alone := by
  simp [exclusiveAlone, LockRecord.Alone, imp_iff_not_or]

/-- A record written alone among records that are alone. -/
theorem alone_tableSet {t : Table LockRecord} (h : ∀ e ∈ t, e.2.Alone) (n : Nat) {r : LockRecord} (hr : r.Alone) :
    ∀ e ∈ tableSet t n r, e.2.Alone := fun e he => by
  rcases mem_tableSet he with rfl | he
  · exact hr
  · exact h e he

/-- A record's update that leaves an alone record alone. -/
theorem alone_updRecord {s : State} {n : Nat} {f : LockRecord → LockRecord} (h : ∀ e ∈ s.records, e.2.Alone)
    (hf : ∀ r, tableGet s.records n = some r → r.Alone → (f r).Alone) : ∀ e ∈ (updRecord n f s).records, e.2.Alone := by
  unfold updRecord
  split
  · rename_i r hr; exact alone_tableSet h n (hf r hr (h _ (mem_of_tableGet hr)))
  · exact h

/-- A holder joins a record that is compatible with its mode (01, R7): the record stays alone. -/
theorem alone_of_compatible {m : Mode} {r : LockRecord} (h : compatible m r = true) (k : Handle) (x : Token) :
    LockRecord.Alone { r with mode := if r.holders.isEmpty then m else r.mode, holders := r.holders ++ [k],
                              lastToken := x } := by
  intro hx
  by_cases he : r.holders = []
  · simp [he]
  · simp only [compatible, Bool.or_eq_true, List.isEmpty_iff, he, false_or, Bool.and_eq_true, decide_eq_true_iff] at h
    simp [he, h.2] at hx

/-- Every move keeps the EXCLUSIVE records alone. -/
theorem Move.exclusiveAlone {s t : State} (m : Move s t) (h : exclusiveAlone s = true) : exclusiveAlone t = true := by
  rw [exclusiveAlone_iff] at *
  cases m with
  | quiet q => rw [q.1]; exact h
  | event | flags | enables | period | raise | reserve | wait | unwait => exact h
  | quota | pool | port | lease | free => simpa using h
  | record n f s hf =>
    refine alone_updRecord h fun r _ hr hx => ?_
    obtain ⟨hmode, hlen, -⟩ := hf r
    rcases hmode with hmode | hmode
    · exact Nat.le_trans hlen (hr (hmode ▸ hx))
    · rw [hmode] at hx; cases hx
  | create key d m n s hn => exact alone_tableSet h n fun _ => Nat.zero_le _
  | retire n s => exact fun e he => h e (mem_tableErase.1 he).1
  | grant n k a m ticks s ht hk hc =>
    unfold grantLease
    split
    · exact h
    · rename_i r hr
      simp only [recompare_keeps, listLease_keeps]
      exact alone_tableSet h n (alone_of_compatible (hc r hr) _ _)
  | upgrade n k s ht hc =>
    simp only [upgradeLease, updLease_keeps]
    exact alone_updRecord h fun r hr _ _ => hc r hr

/-- Settles O6: a step idles, resets the part to empty tables, or is a chain of moves, and every move keeps the tables
in canonical form and the EXCLUSIVE records alone. -/
theorem everyStepKeepsExclusion : Obligations.EveryStepKeepsExclusion := by
  intro s t hs h
  rcases step_cases h with rfl | ⟨rest, -, h⟩ | ⟨c, rest, -, hc, h⟩
  · exact hs
  · obtain rfl := next_inj h; exact (lockLaw_tokenLaw_of_empty rfl rfl rfl rfl).1
  · exact exec_keeps (P := LockLaw) (fun u v _ m hu => ⟨m.tablesOk hu.1, m.exclusiveAlone hu.2⟩) hc h hs.1 hs

/-! ### Distinct tokens -/

/-- The token of an entry in use. -/
def LeaseSlot.token? : LeaseSlot → Option Token
  | .inUse l => some l.token
  | .reserved _ _ => none

/-- No two entries of a lease table carry one token, and none carries one above a bound. -/
def TokensBelow (t : Table LeaseSlot) (bound : Nat) : Prop :=
  (∀ j k x y l, tableGet t j = some x → tableGet t k = some y → x.token? = some l → y.token? = some l → j = k)
    ∧ ∀ k x l, tableGet t k = some x → x.token? = some l → l.toNat ≤ bound

theorem heldTokens_eq (s : State) : heldTokens s = s.leases.filterMap fun e => e.2.token?.map BitVec.toNat := by
  unfold heldTokens
  refine List.filterMap_congr fun e _ => ?_
  cases e.2 <;> rfl

/-- Distinct and bounded tokens, read number by number in a table with rising numbers. -/
theorem heldTokens_iff {s : State} (h : Rising s.leases) (bound : Nat) :
    ((heldTokens s).Pairwise (· ≠ ·) ∧ ∀ x ∈ heldTokens s, x ≤ bound) ↔ TokensBelow s.leases bound := by
  have hpair : s.leases.Pairwise (fun a b => a.1 < b.1) := List.pairwise_map.1 h
  have hnodup : s.leases.Nodup := hpair.imp fun hlt he => by simp [he] at hlt
  rw [heldTokens_eq, List.pairwise_filterMap]
  simp only [Option.map_eq_some_iff, List.mem_filterMap]
  constructor
  · rintro ⟨hd, hb⟩
    refine ⟨fun j k x y l hx hy hxl hyl => ?_, fun k x l hx hxl => hb _ ⟨_, mem_of_tableGet hx, l, hxl, rfl⟩⟩
    by_contra hjk
    have hsymm : Std.Symm fun a b : Nat × LeaseSlot => ∀ u, (∃ l, a.2.token? = some l ∧ l.toNat = u) →
        ∀ v, (∃ l, b.2.token? = some l ∧ l.toNat = v) → u ≠ v := ⟨fun a b hab u hu v hv => (hab v hv u hu).symm⟩
    exact List.Pairwise.forall hd (mem_of_tableGet hx) (mem_of_tableGet hy) (by simp [hjk]) _ ⟨l, hxl, rfl⟩ _
      ⟨l, hyl, rfl⟩ rfl
  · rintro ⟨hd, hb⟩
    refine ⟨hnodup.pairwise_of_forall_ne fun a ha b hb hab => ?_, ?_⟩
    · rintro _ ⟨x, hx, rfl⟩ _ ⟨y, hy, rfl⟩ hxy
      have hxy : x = y := BitVec.eq_of_toNat_eq hxy
      subst hxy
      have ha' := tableGet_of_mem h ha
      have hb' := tableGet_of_mem h hb
      have hn := hd _ _ _ _ x ha' hb' hx hy
      rw [hn, hb'] at ha'
      exact hab (Prod.ext hn (Option.some.inj ha').symm)
    · rintro _ ⟨⟨k, x⟩, hk, l, hl, rfl⟩
      exact hb k x l (tableGet_of_mem h hk) hl

/-- The token law, read number by number: the leases' tokens, and the records' last tokens. -/
theorem tokenLaw_iff {s : State} (h : tablesOk s = true) :
    TokenLaw s ↔ TokensBelow s.leases s.token.toNat ∧ ∀ e ∈ s.records, e.2.lastToken.toNat ≤ s.token.toNat := by
  rw [← heldTokens_iff ((tableWf_iff _ _).1 ((tablesOk_iff s).1 h).2.1).1, and_assoc]; rfl

/-- A higher bound is a bound. -/
theorem TokensBelow.mono {t : Table LeaseSlot} {b c : Nat} (h : TokensBelow t b) (hbc : b ≤ c) : TokensBelow t c :=
  ⟨h.1, fun k x l hx hl => Nat.le_trans (h.2 k x l hx hl) hbc⟩

/-- An entry freed. -/
theorem TokensBelow.erase {t : Table LeaseSlot} {b : Nat} (h : TokensBelow t b) (k : Nat) :
    TokensBelow (tableErase t k) b := by
  obtain ⟨hd, hb⟩ := h
  have old : ∀ {j x}, tableGet (tableErase t k) j = some x → tableGet t j = some x := fun {j x} hx => by
    simp only [tableGet_tableErase] at hx; split at hx
    · cases hx
    · exact hx
  exact ⟨fun j i x y l hx hy => hd j i x y l (old hx) (old hy), fun j x l hx => hb j x l (old hx)⟩

/-- An entry written whose token, if it has one, is the one it had or one above the bound. -/
theorem TokensBelow.set {t : Table LeaseSlot} {b c : Nat} (h : TokensBelow t b) (hbc : b ≤ c) {k : Nat} {x : LeaseSlot}
    (hx : ∀ l, x.token? = some l → (∃ y, tableGet t k = some y ∧ y.token? = some l) ∨ b < l.toNat ∧ l.toNat ≤ c) :
    TokensBelow (tableSet t k x) c := by
  obtain ⟨hd, hb⟩ := h
  have new : ∀ {j y l}, j ≠ k → tableGet t j = some y → y.token? = some l → x.token? ≠ some l := by
    intro j y l hj hy hl hxl
    rcases hx l hxl with ⟨z, hz, hzl⟩ | ⟨hlt, -⟩
    · exact hj (hd _ _ _ _ l hy hz hl hzl)
    · exact absurd (hb j y l hy hl) (by omega)
  simp only [TokensBelow, tableGet_tableSet]
  refine ⟨fun j i y z l hy hz hyl hzl => ?_, fun j y l hy hyl => ?_⟩
  · split at hy <;> split at hz
    · simp_all
    · cases hy; exact absurd hyl (new (by assumption) hz hzl)
    · cases hz; exact absurd hzl (new (by assumption) hy hyl)
    · exact hd _ _ _ _ l hy hz hyl hzl
  · split at hy
    · cases hy
      rcases hx l hyl with ⟨z, hz, hzl⟩ | ⟨-, hle⟩
      · exact Nat.le_trans (hb _ _ _ hz hzl) hbc
      · exact hle
    · exact Nat.le_trans (hb _ _ _ hy hyl) hbc

/-- The next token is one more, while the counter is not at its end value (02, R48). -/
theorem toNat_nextToken {x : Token} (h : x ≠ Config.tokenEnd) : (x + 1#64).toNat = x.toNat + 1 := by
  have hne : x.toNat ≠ Config.tokenEnd.toNat := fun he => h (BitVec.eq_of_toNat_eq he)
  simp only [Config.tokenEnd] at hne
  have := x.isLt
  simp only [BitVec.toNat_add, BitVec.toNat_ofNat] at *
  omega

/-- A lease's update that keeps the token or draws one above the bound. -/
theorem TokensBelow.updLease {s : State} {b c k : Nat} {f : Lease → Lease} (h : TokensBelow s.leases b) (hbc : b ≤ c)
    (hf : ∀ l, (f l).token = l.token ∨ b < (f l).token.toNat ∧ (f l).token.toNat ≤ c) :
    TokensBelow (updLease k f s).leases c := by
  unfold Machine.updLease
  split
  · rename_i l hl
    refine h.set hbc fun x hx => ?_
    cases hx
    exact (hf l).imp (fun he => ⟨_, leaseAt_eq_some.1 hl, by rw [he]; rfl⟩) id
  · exact h.mono hbc

/-- The records' last tokens are within a bound. -/
def LastTokensBelow (t : Table LockRecord) (bound : Nat) : Prop := ∀ e ∈ t, e.2.lastToken.toNat ≤ bound

theorem LastTokensBelow.set {t : Table LockRecord} {b c : Nat} (h : LastTokensBelow t b) (hbc : b ≤ c) (n : Nat)
    {r : LockRecord} (hr : r.lastToken.toNat ≤ c) : LastTokensBelow (tableSet t n r) c := fun e he => by
  rcases mem_tableSet he with rfl | he
  · exact hr
  · exact Nat.le_trans (h e he) hbc

theorem LastTokensBelow.updRecord {s : State} {b c n : Nat} {f : LockRecord → LockRecord}
    (h : LastTokensBelow s.records b) (hbc : b ≤ c)
    (hf : ∀ r, r.lastToken.toNat ≤ b → (f r).lastToken.toNat ≤ c) : LastTokensBelow (updRecord n f s).records c := by
  unfold Machine.updRecord
  split
  · rename_i r hr; exact h.set hbc n (hf r (h _ (mem_of_tableGet hr)))
  · exact fun e he => Nat.le_trans (h e he) hbc

/-- The tokens of leases and records are distinct and within the counter, which has not gone below a floor. -/
structure TokensOk (floor : Nat) (s : State) : Prop where
  leases : TokensBelow s.leases s.token.toNat
  records : LastTokensBelow s.records s.token.toNat
  counter : floor ≤ s.token.toNat

/-- Every move keeps the tokens distinct and within the counter, and the counter from going back. -/
theorem Move.tokensOk {floor : Nat} {s t : State} (m : Move s t) (h : TokensOk floor s) : TokensOk floor t := by
  obtain ⟨hl, hr, hc⟩ := h
  have same : ∀ b : Nat, b ≤ b := Nat.le_refl
  cases m with
  | quiet q => obtain ⟨qr, ql, -, -, qt, -⟩ := q; exact ⟨by rwa [ql, qt], by rwa [qr, qt], by rwa [qt]⟩
  | event | flags | enables | period | wait | unwait => exact ⟨hl, hr, hc⟩
  | quota | pool | port => exact ⟨by simpa using hl, by simpa using hr, by simpa using hc⟩
  | raise v s hv => exact ⟨hl.mono hv, fun e he => Nat.le_trans (hr e he) hv, Nat.le_trans hc hv⟩
  | record n f s hf =>
    refine ⟨by simpa using hl, ?_, by simpa using hc⟩
    simp only [updRecord_keeps]
    exact hr.updRecord (same _) fun r hr' => by rw [(hf r).2.2]; exact hr'
  | create key d m n s hn => exact ⟨hl, hr.set (same _) n (Nat.zero_le _), hc⟩
  | retire n s => exact ⟨hl, fun e he => hr e (mem_tableErase.1 he).1, hc⟩
  | grant n k a m ticks s ht hk hcomp =>
    unfold grantLease
    split
    · exact ⟨hl, hr, hc⟩
    · have hn := toNat_nextToken ht
      refine ⟨?_, ?_, ?_⟩ <;> simp only [recompare_keeps, listLease_keeps]
      · refine hl.set (by omega) fun l hx => .inr ?_
        cases hx; dsimp only; omega
      · exact hr.set (by omega) n (same _)
      · omega
  | upgrade n k s ht hcomp =>
    have hn := toNat_nextToken ht
    refine ⟨?_, ?_, ?_⟩ <;> simp only [upgradeLease, updLease_keeps, updRecord_keeps]
    · refine TokensBelow.updLease (b := s.token.toNat) (by simpa using hl) (by omega) fun l => .inr ?_
      dsimp only; omega
    · exact LastTokensBelow.updRecord (b := s.token.toNat) hr (by omega) fun r _ => same _
    · omega
  | lease k f s hf =>
    refine ⟨?_, ?_, ?_⟩ <;> simp only [updLease_keeps]
    · exact hl.updLease (same _) fun l => .inl (hf l)
    · exact hr
    · exact hc
  | reserve k a w s hk => exact ⟨hl.set (same _) fun l hx => (by cases hx), hr, hc⟩
  | free k s hk => exact ⟨hl.erase k, hr, hc⟩

/-- Settles O7: a step idles, resets the part to empty tables, or is a chain of moves, and a move that draws a token
draws the counter's next. -/
theorem everyStepKeepsTokensDistinct : Obligations.EveryStepKeepsTokensDistinct := by
  intro s t hs ht h
  rcases step_cases h with rfl | ⟨rest, hq, h⟩ | ⟨c, rest, -, hc, h⟩
  · exact ⟨ht, fun _ => Nat.le_refl _⟩
  · obtain rfl := next_inj h
    exact ⟨(lockLaw_tokenLaw_of_empty rfl rfl rfl rfl).2, fun hn => absurd (by simp [hq]) hn⟩
  · obtain ⟨hl, hr⟩ := (tokenLaw_iff hs.1).1 ht
    have hok := exec_keeps (P := TokensOk s.token.toNat) (fun u v _ m => m.tokensOk) hc h hs.1 ⟨hl, hr, Nat.le_refl _⟩
    have htab := (exec_path hc h).tablesOk hs.1
    exact ⟨(tokenLaw_iff htab).2 ⟨hok.leases, hok.records⟩, fun _ => hok.counter⟩

end Sys2Proof.Machine
end

section
/-! What the operations write, in one equation each: the view of a state is what the claims read of its tables, its
agents, its counter and its marks. -/

namespace Sys2Proof.Machine

/-- The lease of an entry in use. -/
def LeaseSlot.lease? : LeaseSlot → Option Lease
  | .inUse l => some l
  | .reserved _ _ => none

/-- What claims read of the tables, the agents, the counter and the marks. -/
@[ext]
structure View where
  record : Nat → Option LockRecord
  lease : Nat → Option LeaseSlot
  gen : Nat → Byte
  wait : Nat → Option WaitEntry
  agent : Agent → AgentRec
  token : Token
  marked : TimedEntry → Prop

/-- The view of a state. -/
def view (s : State) : View :=
  { record := fun n => tableGet s.records n, lease := fun k => tableGet s.leases k,
    gen := fun k => (tableGet s.gens k).getD 0#8, wait := fun w => tableGet s.waits w,
    agent := fun a => s.agents.get a, token := s.token, marked := fun e => e ∈ s.marks }

/-- One record written or retired. -/
@[simp] def View.setRecord (v : View) (n : Nat) (r : Option LockRecord) : View :=
  { v with record := Function.update v.record n r }

/-- One lease entry written or freed. -/
@[simp] def View.setLease (v : View) (k : Nat) (x : Option LeaseSlot) : View :=
  { v with lease := Function.update v.lease k x }

/-- One generation advanced (02, R29). -/
@[simp] def View.bumpGen (v : View) (k : Nat) : View := { v with gen := Function.update v.gen k (v.gen k + 1#8) }

/-- One wait entry written or freed. -/
@[simp] def View.setWait (v : View) (w : Nat) (e : Option WaitEntry) : View :=
  { v with wait := Function.update v.wait w e }

/-- One agent's record changed. -/
@[simp] def View.setAgent (v : View) (a : Agent) (f : AgentRec → AgentRec) : View :=
  { v with agent := Function.update v.agent a (f (v.agent a)) }

/-- One tag set. -/
@[simp] def View.setTag (v : View) (a : Agent) (t : Tag) (x : TagState) : View :=
  v.setAgent a fun g => { g with tags := g.tags.set t.val x t.isLt }

/-- One entry marked or not. -/
@[simp] def View.setMark (v : View) (e : TimedEntry) (due : Prop) : View :=
  { v with marked := Function.update v.marked e due }

/-- The counter at a value. -/
@[simp] def View.setToken (v : View) (x : Token) : View := { v with token := x }

/-- The lease in use at a number. -/
def View.leaseAt (v : View) (k : Nat) : Option Lease := (v.lease k).bind LeaseSlot.lease?

/-- The deadline watched for an entry (07, Table 7-1). -/
def View.deadline (v : View) : TimedEntry → Option Nat
  | .upgrade n => (v.record n).bind fun r => r.slot.bind fun u => u.deadline
  | .wait w => (v.wait w).bind fun e => e.deadline
  | .lease k => (v.leaseAt k).map fun l => max l.ownDeadline ((v.agent l.agent).keepalive + l.duration)

/-- A time has reached the deadline watched for an entry. -/
def View.Due (v : View) (now : Nat) (e : TimedEntry) : Prop := ∃ d, v.deadline e = some d ∧ d ≤ now

theorem leaseAt_eq_view (s : State) (k : Nat) : leaseAt s k = (view s).leaseAt k := by
  unfold leaseAt View.leaseAt view
  split
  · rename_i l h; simp [h, LeaseSlot.lease?]
  · rename_i h
    dsimp only
    cases hx : tableGet s.leases k with
    | none => rfl
    | some x =>
      cases x with
      | reserved a w => rfl
      | inUse l => exact absurd hx (h l)

/-- What an entry's deadline is, and whether it has been reached, depends on the view and the time alone. -/
theorem isDue_iff_view (s : State) (e : TimedEntry) : isDue s e = true ↔ (view s).Due s.now e := by
  have hd : deadlineOf s e = (view s).deadline e := by
    cases e with
    | upgrade n | wait w => rfl
    | lease k => simp only [deadlineOf, View.deadline, leaseAt_eq_view]; rfl
  unfold isDue View.Due
  rw [hd]
  cases (view s).deadline e <;> simp

/-! A state's reads are those of its view. -/

theorem record_of_view {t : State} {v : View} (h : view t = v) (n : Nat) : tableGet t.records n = v.record n := h ▸ rfl

theorem lease_of_view {t : State} {v : View} (h : view t = v) (k : Nat) : tableGet t.leases k = v.lease k := h ▸ rfl

theorem leaseAt_of_view {t : State} {v : View} (h : view t = v) (k : Nat) : leaseAt t k = v.leaseAt k :=
  h ▸ leaseAt_eq_view t k

theorem gen_of_view {t : State} {v : View} (h : view t = v) (k : Nat) : genOf t k = v.gen k := h ▸ rfl

theorem wait_of_view {t : State} {v : View} (h : view t = v) (w : Nat) : tableGet t.waits w = v.wait w := h ▸ rfl

theorem agent_of_view {t : State} {v : View} (h : view t = v) (a : Agent) : t.agent a = v.agent a := h ▸ rfl

theorem token_of_view {t : State} {v : View} (h : view t = v) : t.token = v.token := h ▸ rfl

/-- The reads of a state whose view is known. -/
theorem reads_of_view {t : State} {v : View} (h : view t = v) :
    (∀ n, tableGet t.records n = v.record n) ∧ (∀ k, tableGet t.leases k = v.lease k)
      ∧ (∀ k, leaseAt t k = v.leaseAt k) ∧ (∀ k, genOf t k = v.gen k) ∧ (∀ w, tableGet t.waits w = v.wait w)
      ∧ (∀ a, t.agent a = v.agent a) ∧ t.token = v.token :=
  ⟨record_of_view h, lease_of_view h, leaseAt_of_view h, gen_of_view h, wait_of_view h, agent_of_view h,
    token_of_view h⟩

/-- Marks compared, read off the two views. -/
theorem marksCompared_iff_view (s t : State) (l : List TimedEntry) :
    MarksCompared s t l ↔ (∀ e ∈ l, (view t).marked e ↔ (view t).Due t.now e)
      ∧ ∀ e, e ∉ l → ((view t).marked e ↔ (view s).marked e) := by
  simp only [MarksCompared, isDue_iff_view]; rfl

/-! ### Operations that the view does not see -/

@[simp] theorem view_withHanded (l : List Port) (s : State) : view (withHanded l s) = view s := rfl

@[simp] theorem view_offerTimer (s : State) : view (offerTimer s) = view s := by simp [view]

@[simp] theorem view_publishCounts (b s : State) : view (publishCounts b s) = view s := by simp [view]

@[simp] theorem view_tokenEndReached (s : State) : view (tokenEndReached s) = view s := by simp [view]

@[simp] theorem view_completeCmd (res : CmdResult) (ws : List Word) (s : State) :
    view (completeCmd res ws s) = view s := by simp [view]

@[simp] theorem view_quiesceHalt (b s : State) : view (quiesceHalt b s) = view s := by simp [view]

/-! ### One write each -/

/-- An agent's record changed. -/
theorem view_updAgent (a : Agent) (f : AgentRec → AgentRec) (s : State) :
    view (updAgent a f s) = (view s).setAgent a f := by
  have h : (fun b => (updAgent a f s).agents.get b)
      = Function.update (fun b => s.agents.get b) a (f (s.agents.get a)) := by
    funext b; rw [Function.update_apply]; exact updAgent_agent a b f s
  simp [view, h]

@[simp] theorem view_setTag (a : Agent) (t : Tag) (x : TagState) (s : State) :
    view (setTag a t x s) = (view s).setTag a t x := view_updAgent ..

@[simp] theorem view_listLease (a : Agent) (h : Handle) (s : State) :
    view (listLease a h s) = (view s).setAgent a fun g => { g with leases := g.leases ++ [h] } := view_updAgent ..

@[simp] theorem view_unlistLease (a : Agent) (h : Handle) (s : State) :
    view (unlistLease a h s) = (view s).setAgent a fun g => { g with leases := g.leases.erase h } := view_updAgent ..

@[simp] theorem view_setAgentState (a : Agent) (x : AgentState) (s : State) :
    view (setAgentState a x s) = (view s).setAgent a fun g => { g with state := x } := view_updAgent ..

/-- A tag answered moves to REPLYING (06, Table 6-6). -/
@[simp] theorem view_answerTag (a : Agent) (t : Tag) (kind : Byte) (st : Status) (c : Content) (s : State) :
    view (answerTag a t kind st c s) = (view s).setTag a t .replying := by
  rw [← view_setTag]; simp [answerTag, view]

@[simp] theorem view_reply (a : Agent) (r : Request) (st : Status) (c : Content) (s : State) :
    view (reply a r st c s) = (view s).setTag a r.tag .replying := view_answerTag ..

/-- A lease entry freed, its generation advanced (02, R29). -/
@[simp] theorem view_freeLeaseEntry (k : Nat) (s : State) :
    view (freeLeaseEntry k s) = ((view s).setLease k none).bumpGen k := by
  ext1 <;> try simp [view]
  · funext j; simp [freeLeaseEntry, advanceGen, Function.update_apply]
  · funext j
    by_cases hg : (tableGet s.gens k).getD 0#8 + 1#8 = 0#8 <;> by_cases hj : j = k <;>
      simp [freeLeaseEntry, advanceGen, genOf, hg, hj]

/-- A mark removed (07, R131). -/
@[simp] theorem view_unmark (e : TimedEntry) (s : State) : view (unmark e s) = (view s).setMark e False := by
  ext1 <;> try simp [view]
  funext x; by_cases hx : x = e <;> simp [unmark, hx]

/-- An entry compared has a mark exactly if it is due (07, R131). -/
@[simp] theorem view_recompare (e : TimedEntry) (s : State) :
    view (recompare e s) = (view s).setMark e ((view s).Due s.now e) := by
  have h : ∀ x, x ∈ (recompare e s).marks ↔ Function.update (view s).marked e ((view s).Due s.now e) x := by
    intro x
    rw [← isDue_iff_view, recompare]
    by_cases hx : x = e
    · subst hx
      by_cases hd : isDue s x = true
      · by_cases hm : x ∈ s.marks <;> simp [hd, mark, hm]
      · simp [hd, unmark]
    · rw [Function.update_of_ne hx]
      by_cases hd : isDue s e = true
      · by_cases hm : e ∈ s.marks <;> simp [hd, mark, hm, hx, view]
      · simp [hd, unmark, hx, view]
  ext1 <;> try simp [view]
  funext x; exact propext (h x)

/-- A record written. -/
@[simp] theorem view_setRecords (n : Nat) (r : LockRecord) (s : State) :
    view { s with records := tableSet s.records n r } = (view s).setRecord n (some r) := by
  ext1 <;> try simp [view]
  funext m; simp [Function.update_apply]

/-- A record retired. -/
@[simp] theorem view_eraseRecords (n : Nat) (s : State) :
    view { s with records := tableErase s.records n } = (view s).setRecord n none := by
  ext1 <;> try simp [view]
  funext m; simp [Function.update_apply]

/-- A lease entry written. -/
@[simp] theorem view_setLeases (k : Nat) (x : LeaseSlot) (s : State) :
    view { s with leases := tableSet s.leases k x } = (view s).setLease k (some x) := by
  ext1 <;> try simp [view]
  funext m; simp [Function.update_apply]

/-- A wait entry freed. -/
@[simp] theorem view_eraseWaits (w : Nat) (s : State) :
    view { s with waits := tableErase s.waits w } = (view s).setWait w none := by
  ext1 <;> try simp [view]
  funext m; simp [Function.update_apply]

/-- A listed record changed. -/
theorem view_updRecord {n : Nat} {r : LockRecord} {s : State} (h : (view s).record n = some r)
    (f : LockRecord → LockRecord) : view (updRecord n f s) = (view s).setRecord n (some (f r)) := by
  have hg : tableGet s.records n = some r := h
  rw [← view_setRecords, updRecord, hg]

/-- A lease in use changed. -/
theorem view_updLease {k : Nat} {l : Lease} {s : State} (h : (view s).leaseAt k = some l) (f : Lease → Lease) :
    view (updLease k f s) = (view s).setLease k (some (.inUse (f l))) := by
  rw [← leaseAt_eq_view] at h
  rw [← view_setLeases, updLease, h]

/-! ### Grants and ends of leases -/

/-- A grant in a listed record (01, R9, R10, R16, R25; 02, R32). -/
theorem view_grantLease {n : Nat} {r : LockRecord} {s : State} (h : (view s).record n = some r) (k : Nat) (a : Agent)
    (m : Mode) (ticks : Nat) :
    let dur := leaseDuration (s.domain r.domain) ticks
    view (grantLease n k a m ticks s)
      = (((((view s).setToken (s.token + 1#64)).setRecord n (some
            { r with mode := if r.holders.isEmpty then m else r.mode, holders := r.holders ++ [handleOf s k],
                     lastToken := s.token + 1#64 })).setLease k
            (some (.inUse ⟨a, n, m, s.token + 1#64, dur, s.now + dur⟩))).setAgent a
            fun g => { g with leases := g.leases ++ [handleOf s k] }).setMark (.lease k)
            (max (s.now + dur) (((view s).agent a).keepalive + dur) ≤ s.now) := by
  have hg : tableGet s.records n = some r := h
  intro dur
  have hv : ∀ (r' : LockRecord) (x : LeaseSlot),
      view { s with token := s.token + 1#64, records := tableSet s.records n r', leases := tableSet s.leases k x }
        = (((view s).setToken (s.token + 1#64)).setRecord n (some r')).setLease k (some x) := fun r' x => by
    ext1 <;> try simp [view]
    all_goals funext m; simp [Function.update_apply]
  simp only [grantLease, hg, view_recompare, view_listLease, hv]
  simp [View.Due, View.deadline, View.leaseAt, LeaseSlot.lease?, dur]

end Sys2Proof.Machine
end

section
/-! How leases, waits and upgrades leave a record, how one is granted, and what a grant evaluation then does: the view
after each, and the replies each hands over (chapters 1 to 3). -/

namespace Sys2Proof.Machine

/-- What changes neither a port nor what the item has handed over leaves the answers that follow. -/
theorem Answers.after {s t u : State} {l : List (Agent × Reply)} (h : Answers t u l) (hp : t.ports = s.ports)
    (hh : t.handed = s.handed) : Answers s u l := (Answers.none hp hh).trans h

/-- An answer to a tag hands over its one reply (05, R88). -/
theorem answerTag_answerTo (a : Agent) (t : Tag) (kind : Byte) (st : Status) (c : Content) (s : State) :
    Answers s (answerTag a t kind st c s) [(a, answerTo a t kind st c)] := answerTag_answers a t kind st c s

/-- A request's answer hands over its one reply (05, R86). -/
theorem reply_answers (a : Agent) (r : Request) (st : Status) (c : Content) (s : State) :
    Answers s (reply a r st c s) [(a, replyTo a r st c)] := answerTag_answers a r.tag r.kind st c s

/-- The end of a lease of a listed record (02, R38). -/
theorem view_endLease {k : Nat} {l : Lease} {r : LockRecord} {s : State} (hl : leaseAt s k = some l)
    (hr : tableGet s.records l.record = some r) :
    view (endLease k s) = (((((view s).setRecord l.record
        (some { r with holders := r.holders.erase (handleOf s k) })).setAgent l.agent
        fun g => { g with leases := g.leases.erase (handleOf s k) }).setMark (.lease k) False).setLease k none).bumpGen
        k := by
  simp only [endLease, hl, view_freeLeaseEntry, view_unmark, view_unlistLease, view_updRecord (s := s) (r := r) hr]

theorem endLease_answers (k : Nat) (s : State) : Answers s (endLease k s) [] := .none (by simp) (by simp)

/-- A wait entry of a listed record leaves its queue (03, R56). -/
theorem view_dequeueWait (w : Nat) {e : WaitEntry} {r : LockRecord} {s : State}
    (hr : tableGet s.records e.record = some r) :
    view (dequeueWait w e s) = (((view s).setWait w none).setRecord e.record
        (some { r with queue := r.queue.erase w })).setMark (.wait w) False := by
  have hr' : (view { s with waits := tableErase s.waits w }).record e.record = some r := hr
  simp only [dequeueWait, view_unmark, view_updRecord hr', view_eraseWaits]

/-- A wait entry of a listed record is removed and answered (03, R56). -/
theorem view_removeWait {w : Nat} {e : WaitEntry} {r : LockRecord} {s : State} (hw : tableGet s.waits w = some e)
    (hr : tableGet s.records e.record = some r) (st : Status) :
    view (removeWait w (some st) s) = ((((((view s).setWait w none).setRecord e.record
        (some { r with queue := r.queue.erase w })).setMark (.wait w) False).setLease e.reserved none).bumpGen
        e.reserved).setTag e.agent e.tag .replying := by
  simp only [removeWait, hw, view_answerTag, view_freeLeaseEntry, view_dequeueWait w hr]

theorem removeWait_answers {w : Nat} {e : WaitEntry} {s : State} (hw : tableGet s.waits w = some e) (st : Status) :
    Answers s (removeWait w (some st) s) [(e.agent, answerTo e.agent e.tag 2#8 st {})] := by
  simp only [removeWait, hw]
  exact (answerTag_answerTo _ _ _ _ _ _).after (by simp) (by simp)

/-- An upgrade of a lease in use leaves its slot and is answered (01, R22). -/
theorem view_dropUpgrade {n : Nat} {r : LockRecord} {u : Upgrade} {l : Lease} {s : State}
    (hr : tableGet s.records n = some r) (hu : r.slot = some u) (hl : leaseAt s u.lease.num = some l) (st : Status) :
    view (dropUpgrade n (some st) s) = (((view s).setRecord n (some { r with slot := none })).setMark
        (.upgrade n) False).setTag l.agent u.tag .replying := by
  simp only [dropUpgrade, hr, Option.bind_some, hu, upgradeAgent, hl, Option.map_some, view_answerTag, view_unmark,
    view_updRecord (s := s) (r := r) hr]

theorem dropUpgrade_answers {n : Nat} {r : LockRecord} {u : Upgrade} {l : Lease} {s : State}
    (hr : tableGet s.records n = some r) (hu : r.slot = some u) (hl : leaseAt s u.lease.num = some l) (st : Status) :
    Answers s (dropUpgrade n (some st) s)
      [(l.agent, answerTo l.agent u.tag 6#8 st { num := BitVec.ofNat 16 u.lease.num, gen := u.lease.gen })] := by
  simp only [dropUpgrade, hr, Option.bind_some, hu, upgradeAgent, hl, Option.map_some]
  exact (answerTag_answerTo _ _ _ _ _ _).after (by simp) (by simp)

/-- A record without an upgrade has none to drop. -/
theorem dropUpgrade_empty {n : Nat} {r : LockRecord} {s : State} (hr : tableGet s.records n = some r)
    (hu : r.slot = none) (ans : Option Status) : dropUpgrade n ans s = s := by
  simp [dropUpgrade, hr, hu]

/-- A lease in use of a listed record is upgraded with the next token (01, R15, R20). -/
theorem view_upgradeLease {n k : Nat} {r : LockRecord} {l : Lease} {s : State} (hr : tableGet s.records n = some r)
    (hl : leaseAt s k = some l) :
    view (upgradeLease n k s) = (((view s).setToken (s.token + 1#64)).setRecord n
        (some { r with mode := .exclusive, lastToken := s.token + 1#64 })).setLease k
        (some (.inUse { l with mode := .exclusive, token := s.token + 1#64 })) := by
  have hl' : (view s).leaseAt k = some l := leaseAt_eq_view s k ▸ hl
  have hv := view_updRecord (s := { s with token := s.token + 1#64 }) (n := n) (r := r) hr
    fun r => { r with mode := .exclusive, lastToken := s.token + 1#64 }
  have hk := view_updLease (k := k) (l := l) (by rw [hv]; exact hl')
    fun l => { l with mode := .exclusive, token := s.token + 1#64 }
  rw [upgradeLease, hk, hv]; rfl

/-- The pending upgrade of a lease in use is granted (01, R15). -/
theorem view_grantUpgrade {n : Nat} {r : LockRecord} {u : Upgrade} {l : Lease} {s : State}
    (hr : tableGet s.records n = some r) (hl : leaseAt s u.lease.num = some l) :
    view (grantUpgrade n u s) = (((((view s).setRecord n
          (some { r with slot := none, mode := .exclusive, lastToken := s.token + 1#64 })).setMark (.upgrade n)
          False).setToken (s.token + 1#64)).setLease u.lease.num
        (some (.inUse { l with mode := .exclusive, token := s.token + 1#64 }))).setTag l.agent u.tag .replying
      ∧ Answers s (grantUpgrade n u s) [(l.agent, answerTo l.agent u.tag 6#8 .granted
          { num := BitVec.ofNat 16 u.lease.num, gen := u.lease.gen, mode := 2#8, token := s.token + 1#64,
            ticks := BitVec.ofNat 16 l.duration })] := by
  let s1 := unmark (.upgrade n) (updRecord n (fun r => { r with slot := none }) s)
  have hv1 : view s1 = ((view s).setRecord n (some { r with slot := none })).setMark (.upgrade n) False := by
    simp only [s1, view_unmark, view_updRecord (s := s) (r := r) hr]
  have hr1 : tableGet s1.records n = some { r with slot := none } := by
    simp [record_of_view hv1]
  have hl1 : leaseAt s1 u.lease.num = some l := by
    rw [← hl]; exact leaseAt_congr (by simp [s1]) _
  have ht1 : s1.token = s.token := by simp [s1]
  have hv2 := view_upgradeLease hr1 hl1
  have hl2 : leaseAt (upgradeLease n u.lease.num s1) u.lease.num
      = some { l with mode := .exclusive, token := s.token + 1#64 } := by
    simp [leaseAt_of_view hv2, View.leaseAt, LeaseSlot.lease?, ht1]
  have hg : grantUpgrade n u s = answerTag l.agent u.tag upgradeKind .granted
      (grantContent u.lease { l with mode := .exclusive, token := s.token + 1#64 }) (upgradeLease n u.lease.num s1) := by
    simp only [grantUpgrade]; rw [hl2]
  rw [hg]
  refine ⟨?_, (answerTag_answerTo _ _ _ _ _ _).after (by simp [s1]) (by simp [s1])⟩
  rw [view_answerTag, hv2, hv1, ht1]
  simp

/-- The GRANTED reply to a lease in use. -/
theorem answerGranted_of_lease {k : Nat} {l : Lease} {s : State} (h : leaseAt s k = some l) (a : Agent) (t : Tag)
    (kind : Byte) : answerGranted a t kind k s = answerTag a t kind .granted (grantContent (handleOf s k) l) s := by
  simp only [answerGranted, h]

/-- A lease granted in a listed record is in use, with the next token (01, R25). -/
theorem leaseAt_grantLease {n : Nat} {r : LockRecord} {s : State} (h : tableGet s.records n = some r) (k : Nat)
    (a : Agent) (m : Mode) (ticks : Nat) :
    leaseAt (grantLease n k a m ticks s) k = some ⟨a, n, m, s.token + 1#64, leaseDuration (s.domain r.domain) ticks,
      s.now + leaseDuration (s.domain r.domain) ticks⟩ := by
  rw [leaseAt_of_view (view_grantLease h k a m ticks)]; simp [View.leaseAt, LeaseSlot.lease?]

/-- The view after the grant of a wait as a holder of a record, with the token and the duration given, at a time
(01, R16; 02, R32). -/
def grantedView (n w : Nat) (e : WaitEntry) (r : LockRecord) (h : Handle) (x : Token) (dur now : Nat) (v : View) :
    View :=
  ((((((v.setWait w none).setMark (.wait w) False).setToken x).setRecord n (some
    { r with mode := if r.holders.isEmpty then e.mode else r.mode, holders := r.holders ++ [h],
             queue := r.queue.erase w, lastToken := x })).setLease e.reserved
    (some (.inUse ⟨e.agent, n, e.mode, x, dur, now + dur⟩))).setAgent e.agent
    fun g => { g with leases := g.leases ++ [h], tags := g.tags.set e.tag.val .replying e.tag.isLt }).setMark
    (.lease e.reserved) (max (now + dur) ((v.agent e.agent).keepalive + dur) ≤ now)

/-- A grant empties no lease list. -/
theorem grantedView_leases {n w : Nat} {e : WaitEntry} {r : LockRecord} {h : Handle} {x : Token} {dur now : Nat}
    {v : View} {a : Agent} (ha : (v.agent a).leases ≠ []) :
    ((grantedView n w e r h x dur now v).agent a).leases ≠ [] := by
  by_cases hae : a = e.agent
  · subst hae; simp [grantedView]
  · simpa [grantedView, hae] using ha

/-- The reply that a granted wait is given. -/
def grantedReply (e : WaitEntry) (h : Handle) (x : Token) (dur : Nat) : Reply :=
  answerTo e.agent e.tag 2#8 .granted
    { num := BitVec.ofNat 16 h.num, gen := h.gen, mode := BitVec.ofNat 8 (modeCode e.mode), token := x,
      ticks := BitVec.ofNat 16 dur }

/-- A queue head of a listed record is granted (01, R16). -/
theorem view_grantWait {n w : Nat} {r : LockRecord} {e : WaitEntry} {s : State} (hr : tableGet s.records n = some r)
    (hn : e.record = n) :
    let dur := leaseDuration (s.domain r.domain) e.leaseTicks
    let h := handleOf s e.reserved
    view (grantWait n w e s) = grantedView n w e r h (s.token + 1#64) dur s.now (view s)
      ∧ Answers s (grantWait n w e s) [(e.agent, grantedReply e h (s.token + 1#64) dur)] := by
  subst hn
  intro dur h
  have hv1 := view_dequeueWait w hr
  have hr1 : tableGet (dequeueWait w e s).records e.record = some { r with queue := r.queue.erase w } := by
    simp [record_of_view hv1]
  have hd1 : ∀ d, (dequeueWait w e s).domain d = s.domain d := domain_congr (by simp)
  have hg1 : ∀ k, genOf (dequeueWait w e s) k = genOf s k := genOf_congr (by simp)
  have hl := leaseAt_grantLease hr1 e.reserved e.agent e.mode e.leaseTicks
  have hh : ∀ k, handleOf (grantLease e.record e.reserved e.agent e.mode e.leaseTicks (dequeueWait w e s)) k
      = handleOf s k := fun k => by simp only [handleOf, Handle.mk.injEq, true_and]; exact genOf_congr (by simp) k
  simp only [grantWait, answerGranted_of_lease hl, hh]
  refine ⟨?_, ?_⟩
  · rw [view_answerTag, view_grantLease hr1, hv1]
    simp [handleOf, hd1, hg1, dur, h, grantedView]
  · simp only [hd1, dequeueWait_keeps]
    exact (answerTag_answerTo _ _ _ _ _ _).after (by simp) (by simp)

/-! ### Grant evaluation -/

/-- A record with no upgrade has its queue evaluated, and is retired with no holder left (01, R16, R17). -/
theorem evaluateRecord_of_no_upgrade {n : Nat} {r : LockRecord} {s : State} (hr : tableGet s.records n = some r)
    (hs : r.slot = none) : evaluateRecord n s = retireRecord n (grantHeads n r.queue s) := by
  simp only [evaluateRecord, hr, hs, evaluateQueue]

/-- A head that is not compatible, or is no wait entry, ends the grants (01, R16). -/
theorem grantHeads_stop {n : Nat} {q : List Nat} {s : State}
    (h : ∀ w e r, q.head? = some w → tableGet s.waits w = some e → tableGet s.records n = some r →
      compatible e.mode r = false) : grantHeads n q s = s := by
  cases q with
  | nil => rfl
  | cons w rest =>
    unfold grantHeads
    split
    · rename_i r e hr he; simp [h w e r rfl he hr]
    · rfl

/-- A compatible head is granted, before the counter's end value (01, R16). -/
theorem grantHeads_grant {n w : Nat} {rest : List Nat} {r : LockRecord} {e : WaitEntry} {s : State}
    (hr : tableGet s.records n = some r) (he : tableGet s.waits w = some e) (hc : compatible e.mode r = true)
    (ht : s.token ≠ Config.tokenEnd) : grantHeads n (w :: rest) s = grantHeads n rest (grantWait n w e s) := by
  rw [grantHeads]; simp [hr, he, hc, ht]

/-- A compatible head is answered HALTED, at the counter's end value (01, R26). -/
theorem grantHeads_halted {n w : Nat} {rest : List Nat} {r : LockRecord} {e : WaitEntry} {s : State}
    (hr : tableGet s.records n = some r) (he : tableGet s.waits w = some e) (hc : compatible e.mode r = true)
    (ht : s.token = Config.tokenEnd) :
    grantHeads n (w :: rest) s = grantHeads n rest (removeWait w (some .halted) s) := by
  rw [grantHeads]; simp [hr, he, hc, ht]

/-- A record with holders is not retired (01, R17). -/
theorem retireRecord_of_holders {n : Nat} {r : LockRecord} {s : State} (hr : tableGet s.records n = some r)
    (hh : r.holders ≠ []) : retireRecord n s = s := by
  simp [retireRecord, hr, hh]

/-- A record with no holder is retired (01, R17). -/
theorem retireRecord_of_no_holder {n : Nat} {r : LockRecord} {s : State} (hr : tableGet s.records n = some r)
    (hh : r.holders = []) : retireRecord n s = { s with records := tableErase s.records n } := by
  simp [retireRecord, hr, hh]

/-- Without a grant that reaches the end value an evaluation is all there is (02, R48). -/
theorem withTokenEnd_of_token {f : State → State} {s : State}
    (h : s.token = Config.tokenEnd ∨ (f s).token ≠ Config.tokenEnd) : withTokenEnd f s = f s := by
  unfold withTokenEnd; dsimp only; split
  · rename_i hc; exact absurd hc (by rcases h with h | h <;> simp [h])
  · rfl

/-- A grant that reaches the end value is followed by the token end (02, R48). -/
theorem withTokenEnd_of_end {f : State → State} {s : State} (h : s.token ≠ Config.tokenEnd)
    (hf : (f s).token = Config.tokenEnd) : withTokenEnd f s = tokenEndReached (f s) := by
  simp [withTokenEnd, h, hf]

/-- An evaluation of a record with no upgrade and no one queued retires it if it has no holder, and does nothing else
(01, R17). -/
theorem evaluate_no_waiter {n : Nat} {r : LockRecord} {s : State} (hr : tableGet s.records n = some r)
    (hs : r.slot = none) (hq : r.queue = []) : evaluate n s = retireRecord n s := by
  have he : evaluateRecord n s = retireRecord n s := by rw [evaluateRecord_of_no_upgrade hr hs, hq, grantHeads]
  rw [evaluate, withTokenEnd_of_token (by rw [he]; simpa using em _), he]

theorem view_retireRecord {n : Nat} {r : LockRecord} {s : State} (hr : tableGet s.records n = some r)
    (hh : r.holders = []) : view (retireRecord n s) = (view s).setRecord n none := by
  rw [retireRecord_of_no_holder hr hh, view_eraseRecords]

theorem retireRecord_answers (n : Nat) (s : State) : Answers s (retireRecord n s) [] := .none (by simp) (by simp)

/-- The next token of a counter that has a grant left. -/
theorem grantLeft_token {s : State} (h : grantLeft s) :
    s.token ≠ Config.tokenEnd ∧ s.token + 1#64 ≠ Config.tokenEnd ∧ (s.token + 1#64).toNat = s.token.toNat + 1 := by
  have hne : s.token ≠ Config.tokenEnd := fun he => by simp [grantLeft, he] at h
  have hn := toNat_nextToken hne
  exact ⟨hne, fun he => by rw [he] at hn; unfold grantLeft at h; omega, hn⟩

/-- A record without an upgrade that is left with a holder has been evaluated when its heads have (01, R16). -/
theorem evaluateRecord_of_heads {n : Nat} {r r' : LockRecord} {s t : State} (hr : tableGet s.records n = some r)
    (hs : r.slot = none) (hheads : grantHeads n r.queue s = t) (hr' : tableGet t.records n = some r')
    (hh : r'.holders ≠ []) : evaluateRecord n s = t := by
  rw [evaluateRecord_of_no_upgrade hr hs, hheads, retireRecord_of_holders hr' hh]

/-- With no token end reached, an evaluation is its heads' (01, R16; 02, R48). -/
theorem evaluate_of_heads {n : Nat} {r r' : LockRecord} {s t : State} (hr : tableGet s.records n = some r)
    (hs : r.slot = none) (hheads : grantHeads n r.queue s = t) (hr' : tableGet t.records n = some r')
    (hh : r'.holders ≠ []) (ht : t.token ≠ Config.tokenEnd) : evaluate n s = t := by
  have he := evaluateRecord_of_heads hr hs hheads hr' hh
  rw [evaluate, withTokenEnd_of_token (.inr (by rw [he]; exact ht)), he]

/-- A record whose holders exclude the next head, if it still waits, has no one granted (01, R16). -/
theorem grantHeads_blocked {n : Nat} {q : List Nat} {r : LockRecord} {s : State} (hr : tableGet s.records n = some r)
    (hh : r.holders ≠ [])
    (h : r.mode = .exclusive ∨ ∀ w e, q.head? = some w → tableGet s.waits w = some e → e.mode = .exclusive) :
    grantHeads n q s = s := by
  refine grantHeads_stop fun w e r' hw he hr' => ?_
  obtain rfl : r = r' := Option.some.inj (hr.symm.trans hr')
  rcases h with h | h
  · simp [compatible, hh, h]
  · simp [compatible, hh, h w e hw he]

/-- A head that is compatible with a record is granted, and the heads behind it are not, where the record is then
EXCLUSIVE or the next head wants X (01, R16). -/
theorem evaluate_grants_head {n w : Nat} {rest : List Nat} {r : LockRecord} {e : WaitEntry} {s : State}
    (hr : tableGet s.records n = some r) (hs : r.slot = none) (hq : r.queue = w :: rest)
    (he : tableGet s.waits w = some e) (hn : e.record = n) (hc : compatible e.mode r = true) (ht : grantLeft s)
    (hrest : e.mode = .exclusive
      ∨ ∀ w2 e2, rest.head? = some w2 → tableGet s.waits w2 = some e2 → e2.mode = .exclusive) :
    evaluate n s = grantWait n w e s := by
  obtain ⟨hv, -⟩ := view_grantWait (w := w) hr hn
  obtain ⟨ht0, ht1, -⟩ := grantLeft_token ht
  have hr' := record_of_view hv n
  simp only [grantedView, View.setMark, View.setAgent, View.setLease, View.setRecord, Function.update_self] at hr'
  refine evaluate_of_heads hr hs ?_ hr' (by simp) (by rw [token_of_view hv]; exact ht1)
  rw [hq, grantHeads_grant hr he hc ht0]
  refine grantHeads_blocked hr' (by simp) (hrest.imp (fun hx => ?_) fun hx w2 e2 hw2 he2 => hx w2 e2 hw2 ?_)
  · by_cases hh : r.holders = []
    · simp [hh, hx]
    · simp [compatible, hh, hx] at hc
  · rw [wait_of_view hv] at he2
    by_cases hww : w2 = w
    · simp [grantedView, hww] at he2
    · simpa [grantedView, hww, view] using he2

/-- An evaluation that grants the pending upgrade of the only holder (01, R15). -/
theorem evaluate_grants_upgrade {n : Nat} {r : LockRecord} {u : Upgrade} {l : Lease} {s : State}
    (hr : tableGet s.records n = some r) (hs : r.slot = some u) (hh : r.holders = [u.lease])
    (hl : leaseAt s u.lease.num = some l) (ht : grantLeft s) : evaluate n s = grantUpgrade n u s := by
  obtain ⟨hv, -⟩ := view_grantUpgrade hr hl
  obtain ⟨ht0, ht1, -⟩ := grantLeft_token ht
  have hev : evaluateRecord n s = grantUpgrade n u s := by
    simp only [evaluateRecord, hr, hs, hh, if_true, ht0, if_false]
  rw [evaluate, withTokenEnd_of_token (.inr (by rw [hev, token_of_view hv]; exact ht1)), hev]

/-- At the counter's end value the pending upgrade of the only holder is answered HALTED instead, here with no one
queued (01, R26). -/
theorem evaluate_halts_upgrade {n : Nat} {r : LockRecord} {u : Upgrade} {l : Lease} {s : State}
    (hr : tableGet s.records n = some r) (hs : r.slot = some u) (hh : r.holders = [u.lease]) (hq : r.queue = [])
    (hl : leaseAt s u.lease.num = some l) (ht : s.token = Config.tokenEnd) :
    evaluate n s = dropUpgrade n (some .halted) s := by
  have hr' : tableGet (dropUpgrade n (some .halted) s).records n = some { r with slot := none } := by
    rw [record_of_view (view_dropUpgrade hr hs hl .halted)]; simp
  have hev : evaluateRecord n s = dropUpgrade n (some .halted) s := by
    simp only [evaluateRecord, hr, hs, hh, if_true, ht]
    rw [evaluateQueue, hr']; simp only [hq, grantHeads]
    exact retireRecord_of_holders hr' (by simp [hh])
  rw [evaluate, withTokenEnd_of_token (.inl ht), hev]

/-! ### The reads of a state, off its view -/

section
variable (s : State)

@[simp] theorem view_record (n : Nat) : (view s).record n = tableGet s.records n := rfl

@[simp] theorem view_lease (k : Nat) : (view s).lease k = tableGet s.leases k := rfl

@[simp] theorem view_leaseAt (k : Nat) : (view s).leaseAt k = leaseAt s k := (leaseAt_eq_view s k).symm

@[simp] theorem view_gen (k : Nat) : (view s).gen k = genOf s k := rfl

@[simp] theorem view_wait (w : Nat) : (view s).wait w = tableGet s.waits w := rfl

@[simp] theorem view_agent (a : Agent) : (view s).agent a = s.agent a := rfl

@[simp] theorem view_token : (view s).token = s.token := rfl

@[simp] theorem view_marked (e : TimedEntry) : (view s).marked e = (e ∈ s.marks) := rfl

end

end Sys2Proof.Machine
end

section
/-! How a request's item begins and ends: what its behaviour works on, and what the claims read when it is over. -/

namespace Sys2Proof.Machine

/-! ### The start of an item -/

/-- A state that a take has changed in the ports, the arbiter and what the item has handed over alone. -/
def Taken (s v : State) : Prop :=
  v = { s with ports := v.ports, chosen := v.chosen, outer := v.outer, inner := v.inner, handed := v.handed }

/-- The state on which an admitted request's behaviour works (04, R75; log entry 3). -/
def startRequest (p : Port) (r : Request) (s : State) : State := noteHanded p (withHanded [] (beginRequest p r s))

theorem startRequest_taken (p : Port) (r : Request) (s : State) : Taken s (startRequest p r s) := by
  unfold Taken startRequest; apply State.ext <;> simp

/-- The take of a request changes the ports, the arbiter and what is in hand alone. -/
@[simp] theorem startRequest_keeps (p : Port) (r : Request) (s : State) :
    (startRequest p r s).now = s.now ∧ (startRequest p r s).tickPeriod = s.tickPeriod ∧
    (startRequest p r s).tickPos = s.tickPos ∧ (startRequest p r s).marks = s.marks ∧
    (startRequest p r s).offered = s.offered ∧ (startRequest p r s).records = s.records ∧
    (startRequest p r s).leases = s.leases ∧ (startRequest p r s).gens = s.gens ∧
    (startRequest p r s).waits = s.waits ∧ (startRequest p r s).domains = s.domains ∧
    (startRequest p r s).agents = s.agents ∧ (startRequest p r s).token = s.token ∧
    (startRequest p r s).seeded = s.seeded ∧ (startRequest p r s).part = s.part ∧
    (startRequest p r s).sweep = s.sweep ∧ (startRequest p r s).outer = (beginRequest p r s).outer ∧
    (startRequest p r s).inner = (beginRequest p r s).inner ∧
    (startRequest p r s).chosen = (beginRequest p r s).chosen ∧ (startRequest p r s).pools = s.pools ∧
    (startRequest p r s).mbox = s.mbox ∧ (startRequest p r s).args = s.args ∧ (startRequest p r s).res = s.res ∧
    (startRequest p r s).events = s.events ∧ (startRequest p r s).eventEnable = s.eventEnable ∧
    (startRequest p r s).nowLatch = s.nowLatch ∧ (startRequest p r s).spiData = s.spiData ∧
    (startRequest p r s).freeDraws = s.freeDraws ∧ (startRequest p r s).pending = s.pending := by
  simp [startRequest, withHanded]

theorem startRequest_ports (p : Port) (r : Request) (s : State) :
    (startRequest p r s).ports = (beginRequest p r s).ports := by simp [startRequest]

/-- The state on which a sweep step works. -/
def startSweep (s : State) : State := withHanded [] (beginTake id s)

/-- The take of a sweep step changes the arbiter and what is in hand alone. -/
@[simp] theorem startSweep_keeps (s : State) :
    (startSweep s).now = s.now ∧ (startSweep s).tickPeriod = s.tickPeriod ∧ (startSweep s).tickPos = s.tickPos ∧
    (startSweep s).marks = s.marks ∧ (startSweep s).offered = s.offered ∧ (startSweep s).records = s.records ∧
    (startSweep s).leases = s.leases ∧ (startSweep s).gens = s.gens ∧ (startSweep s).waits = s.waits ∧
    (startSweep s).domains = s.domains ∧ (startSweep s).agents = s.agents ∧ (startSweep s).token = s.token ∧
    (startSweep s).seeded = s.seeded ∧ (startSweep s).part = s.part ∧ (startSweep s).sweep = s.sweep ∧
    (startSweep s).outer = (beginTake id s).outer ∧ (startSweep s).inner = (beginTake id s).inner ∧
    (startSweep s).chosen = (beginTake id s).chosen ∧ (startSweep s).pools = s.pools ∧ (startSweep s).ports = s.ports ∧
    (startSweep s).mbox = s.mbox ∧ (startSweep s).args = s.args ∧ (startSweep s).res = s.res ∧
    (startSweep s).events = s.events ∧ (startSweep s).eventEnable = s.eventEnable ∧
    (startSweep s).nowLatch = s.nowLatch ∧ (startSweep s).spiData = s.spiData ∧ (startSweep s).handed = [] ∧
    (startSweep s).freeDraws = s.freeDraws ∧ (startSweep s).pending = s.pending := by
  simp [startSweep, withHanded, beginTake_eq]

/-- The take of a sweep step, compared with the state before it. -/
@[simp] theorem beginTake_keeps (s : State) :
    (beginTake id s).now = s.now ∧ (beginTake id s).tickPeriod = s.tickPeriod ∧ (beginTake id s).tickPos = s.tickPos ∧
    (beginTake id s).marks = s.marks ∧ (beginTake id s).offered = s.offered ∧ (beginTake id s).records = s.records ∧
    (beginTake id s).leases = s.leases ∧ (beginTake id s).gens = s.gens ∧ (beginTake id s).waits = s.waits ∧
    (beginTake id s).domains = s.domains ∧ (beginTake id s).agents = s.agents ∧ (beginTake id s).token = s.token ∧
    (beginTake id s).seeded = s.seeded ∧ (beginTake id s).part = s.part ∧ (beginTake id s).sweep = s.sweep ∧
    (beginTake id s).pools = s.pools ∧ (beginTake id s).ports = s.ports ∧ (beginTake id s).mbox = s.mbox ∧
    (beginTake id s).args = s.args ∧ (beginTake id s).res = s.res ∧ (beginTake id s).events = s.events ∧
    (beginTake id s).eventEnable = s.eventEnable ∧ (beginTake id s).nowLatch = s.nowLatch ∧
    (beginTake id s).spiData = s.spiData ∧ (beginTake id s).handed = s.handed ∧
    (beginTake id s).freeDraws = s.freeDraws ∧ (beginTake id s).pending = s.pending := by
  simp [beginTake_eq]

theorem startSweep_taken (s : State) : Taken s (startSweep s) := by
  unfold Taken startSweep; apply State.ext <;> simp [beginTake_eq]

section
variable {s v : State} (h : Taken s v)
include h

/-- A read of a state that the take has not changed. -/
theorem Taken.read {β : Sort*} (f : State → β)
    (hf : ∀ ports chosen outer inner handed, f { s with ports := ports, chosen := chosen, outer := outer,
                                                        inner := inner, handed := handed } = f s) : f v = f s := by
  rw [h]; exact hf ..

theorem Taken.view : view v = view s := h.read Machine.view fun _ _ _ _ _ => rfl

theorem Taken.now : v.now = s.now := h.read State.now fun _ _ _ _ _ => rfl

theorem Taken.token : v.token = s.token := h.read State.token fun _ _ _ _ _ => rfl

theorem Taken.records : v.records = s.records := h.read State.records fun _ _ _ _ _ => rfl

theorem Taken.leases : v.leases = s.leases := h.read State.leases fun _ _ _ _ _ => rfl

theorem Taken.waits : v.waits = s.waits := h.read State.waits fun _ _ _ _ _ => rfl

theorem Taken.agent (a : Agent) : v.agent a = s.agent a :=
  h.read (State.agent · a) fun _ _ _ _ _ => rfl

theorem Taken.domain (d : Fin 16) : v.domain d = s.domain d :=
  h.read (State.domain · d) fun _ _ _ _ _ => rfl

theorem Taken.tag (a : Agent) (t : Tag) : v.tag a t = s.tag a t :=
  h.read (State.tag · a t) fun _ _ _ _ _ => rfl

theorem Taken.leaseAt (k : Nat) : leaseAt v k = leaseAt s k :=
  h.read (Machine.leaseAt · k) fun _ _ _ _ _ => rfl

theorem Taken.genOf (k : Nat) : genOf v k = genOf s k :=
  h.read (Machine.genOf · k) fun _ _ _ _ _ => rfl

theorem Taken.handleOf (k : Nat) : handleOf v k = handleOf s k :=
  h.read (Machine.handleOf · k) fun _ _ _ _ _ => rfl

theorem Taken.liveLease (k : Nat) (g : Byte) : liveLease v k g = liveLease s k g :=
  h.read (Machine.liveLease · k g) fun _ _ _ _ _ => rfl

theorem Taken.inSlot (k : Nat) (l : Lease) : inSlot v k l = inSlot s k l :=
  h.read (Machine.inSlot · k l) fun _ _ _ _ _ => rfl

theorem Taken.upgradeOfTag (a : Agent) (t : Tag) : upgradeOfTag v a t = upgradeOfTag s a t :=
  h.read (Machine.upgradeOfTag · a t) fun _ _ _ _ _ => rfl

theorem Taken.lookupDomain (key : Key) : lookupDomain v key = lookupDomain s key :=
  h.read (Machine.lookupDomain · key) fun _ _ _ _ _ => rfl

theorem Taken.immediateDecision (a : Agent) (key : Key) (m : Mode) (w : Nat) :
    immediateDecision v a key m w = immediateDecision s a key m w :=
  h.read (Machine.immediateDecision · a key m w) fun _ _ _ _ _ => rfl

theorem Taken.poolCount (k : Pool) : poolCount v k = poolCount s k :=
  h.read (Machine.poolCount · k) fun _ _ _ _ _ => by cases k <;> rfl

theorem Taken.resourceFailure (a : Agent) (d : Decision) : resourceFailure v a d = resourceFailure s a d :=
  h.read (Machine.resourceFailure · a d) fun _ _ _ _ _ => by cases d <;> rfl

end

/-! ### The end of an item -/

/-- The part when an item is over whose work has left `u`: the clock has offered, the counts are published, and nothing
is in hand (07, R133; 08, R143). -/
def endItem (s u : State) : State := withHanded s.handed (publishCounts s (offerTimer u))

@[simp] theorem view_endItem (s u : State) : view (endItem s u) = view u := by simp [endItem]

/-- The end of an item leaves what the view reads. -/
theorem endItem_tables (s u : State) :
    (endItem s u).records = u.records ∧ (endItem s u).leases = u.leases ∧ (endItem s u).gens = u.gens ∧
    (endItem s u).waits = u.waits ∧ (endItem s u).agents = u.agents ∧ (endItem s u).token = u.token ∧
    (endItem s u).marks = u.marks := by
  simp [endItem]

/-- Besides, the end of an item changes the offer, the published counts and what is in hand alone. -/
@[simp] theorem endItem_keeps (s u : State) :
    (endItem s u).now = u.now ∧ (endItem s u).tickPeriod = u.tickPeriod ∧ (endItem s u).tickPos = u.tickPos ∧
    (endItem s u).domains = u.domains ∧ (endItem s u).seeded = u.seeded ∧ (endItem s u).part = u.part ∧
    (endItem s u).sweep = u.sweep ∧ (endItem s u).outer = u.outer ∧ (endItem s u).inner = u.inner ∧
    (endItem s u).chosen = u.chosen ∧ (endItem s u).ports = u.ports ∧ (endItem s u).mbox = u.mbox ∧
    (endItem s u).args = u.args ∧ (endItem s u).res = u.res ∧ (endItem s u).events = u.events ∧
    (endItem s u).eventEnable = u.eventEnable ∧ (endItem s u).nowLatch = u.nowLatch ∧
    (endItem s u).spiData = u.spiData ∧ (endItem s u).handed = s.handed ∧ (endItem s u).freeDraws = u.freeDraws ∧
    (endItem s u).pending = u.pending := by
  simp [endItem, withHanded]

/-- An item that changes no count publishes none (08, R143). -/
theorem endItem_pools {s u : State} (hp : u.pools = s.pools) (h : ∀ k, poolCount u k = poolCount s k) :
    (endItem s u).pools = s.pools := by
  have hc : ∀ k, poolCount (offerTimer u) k = poolCount s k := fun k => by rw [← h k]; cases k <;> simp [poolCount]
  simp [endItem, publishCounts_quiet hc, hp]

/-- The offer that stood at the take stands; one is made only while the part serves (07, R133). -/
theorem endItem_offerStands {b s u : State} (ho : u.offered = b.offered) : OfferStands b (endItem s u) := by
  have hoff : (endItem s u).offered = (offerTimer u).offered := by simp [endItem]
  have hserve : serving (endItem s u) = serving u := by simp [serving, endItem]
  unfold OfferStands
  rw [hoff, hserve, ← ho]
  unfold offerTimer
  constructor <;> intro h <;> simp [h]

/-- Each count changed is published in its own pool (08, R143). -/
theorem publishPool_pool (b s : State) (j k : Pool) :
    (publishPool b j s).pool k = if k = j ∧ poolCount s k ≠ poolCount b k
      then { s.pool k with published := (s.pool k).published ++ [poolCount s k] } else s.pool k := by
  unfold publishPool
  by_cases hk : k = j
  · subst hk; by_cases hc : poolCount s k = poolCount b k <;> simp [hc]
  · split <;> simp [hk]

@[simp] theorem publishPool_poolCount (b s : State) (j k : Pool) : poolCount (publishPool b j s) k = poolCount s k := by
  cases k <;> simp [poolCount]

@[simp] theorem offerTimer_poolCount (s : State) (k : Pool) : poolCount (offerTimer s) k = poolCount s k := by
  cases k <;> simp [poolCount]

/-- The counts are published as the item has left them (08, R143). -/
theorem endItem_countsPublished {s u : State} (hp : u.pools = s.pools) : CountsPublished s (endItem s u) := by
  intro k
  have hend : (endItem s u).pool k = (publishCounts s (offerTimer u)).pool k := by
    cases k <;> simp [State.pool, endItem]
  have hcount : poolCount (endItem s u) k = poolCount u k := by cases k <;> simp [poolCount, endItem]
  have hoffer : (offerTimer u).pool k = s.pool k := by cases k <;> simp [State.pool, hp]
  rw [hend, hcount, publishCounts]
  simp only [publishPool_pool, publishPool_poolCount, offerTimer_poolCount, hoffer]
  by_cases hc : poolCount u k = poolCount s k
  · simp [hc]
  · cases k <;> simp [hc]

/-- Of jobs that are no fence job of an agent none ends in an item that empties no other agent's lease list
(06, R121). -/
theorem foldl_endFenceJob_absent {b u : State} {a : Agent} {l : List Job} (hj : l.any (isFenceJobOf a) = false)
    (hl : ∀ x, x ≠ a → (b.agent x).leases ≠ [] → (u.agent x).leases ≠ []) : l.foldl (endFenceJob b) u = u := by
  induction l with
  | nil => rfl
  | cons j rest ih =>
    rw [List.any_cons, Bool.or_eq_false_iff] at hj
    have hstep : endFenceJob b u j = u := by
      cases j with
      | fence x att =>
        have hx : x ≠ a := fun he => by simp [isFenceJobOf, he] at hj
        exact if_neg fun hc => hl x hx hc.1 hc.2
      | quiesce | abort => rfl
    rw [List.foldl_cons, hstep, ih hj.2]

/-- No fence job of an agent is listed: no fence job ends in an item that empties no other agent's lease list
(06, R121). -/
theorem endFenceJobs_absent {b u : State} {a : Agent} (hj : u.sweep.any (isFenceJobOf a) = false)
    (hl : ∀ x, x ≠ a → (b.agent x).leases ≠ [] → (u.agent x).leases ≠ []) : endFenceJobs b u = u :=
  foldl_endFenceJob_absent hj hl

/-- The end of an item in which no fence job ends. -/
theorem finishItem_of_no_fence {s u : State} (hf : endFenceJobs s u = u) :
    withHanded s.handed (finishItem s u) = endItem s (quiesceHalt s u) := by
  simp [finishItem, hf, endItem]

/-! ### Requests -/

/-- An admitted request's item in which no fence job ends, when its behaviour is known. -/
theorem exec_request_halting {s u : State} {p : Port} {r : Request} {k : Kind} (h : Admitted s p r k)
    (hu : behaviourOf k (senderOf p r) r (startRequest p r s) = u) (hf : endFenceJobs s u = u) :
    exec (rowOf k) s = .next (endItem s (quiesceHalt s u)) := by
  rw [exec_admitted h, ← finishItem_of_no_fence hf, ← hu]; rfl

/-- An admitted request's item in which no fence job ends and no quiesced part halts. -/
theorem exec_request {s u : State} {p : Port} {r : Request} {k : Kind} (h : Admitted s p r k)
    (hu : behaviourOf k (senderOf p r) r (startRequest p r s) = u) (hf : endFenceJobs s u = u)
    (hq : quiesceHalt s u = u) : exec (rowOf k) s = .next (endItem s u) := by
  rw [exec_request_halting h hu hf, hq]

/-- The replies of an item that a request began, from the answers of its behaviour. -/
theorem repliesHanded_of_answers {s u t : State} {p : Port} {r : Request} {l : List (Agent × Reply)}
    (h : Answers (startRequest p r s) u l) (ht : t.ports = u.ports) : RepliesHanded (beginRequest p r s) t p l := by
  intro q
  have hq := (h q).2
  have hs : (startRequest p r s).port q = (beginRequest p r s).port q := port_congr (by simp [startRequest]) q
  have hm : (q ∈ (startRequest p r s).handed) ↔ q = p := by simp [startRequest, withHanded]
  rw [hs] at hq
  rw [port_congr ht]
  simpa only [hm] using hq

theorem repliesHanded_endItem {s u : State} {p : Port} {r : Request} {l : List (Agent × Reply)}
    (h : Answers (startRequest p r s) u l) : RepliesHanded (beginRequest p r s) (endItem s u) p l :=
  repliesHanded_of_answers h (by simp)

/-- What a request that is answered at once and changes nothing else leaves. -/
theorem answeredOnly_of_reply (s : State) (p : Port) (r : Request) (st : Status) (c : Content) :
    AnsweredOnly s p r st c
      (withHanded s.handed (finishItem s (reply (senderOf p r) r st c (startRequest p r s)))) := by
  have hv := startRequest_taken p r s
  have hview : view (reply (senderOf p r) r st c (startRequest p r s))
      = (view s).setTag (senderOf p r) r.tag .replying := by rw [view_reply, hv.view]
  have hleases : ∀ x, ((reply (senderOf p r) r st c (startRequest p r s)).agent x).leases = (s.agent x).leases := by
    intro x
    rw [agent_of_view hview]
    by_cases hx : x = senderOf p r
    · subst hx; simp
    · simp [hx]
  have hfin : withHanded s.handed (finishItem s (reply (senderOf p r) r st c (startRequest p r s)))
      = endItem s (reply (senderOf p r) r st c (startRequest p r s)) := by
    have hcount : ∀ k, poolCount (reply (senderOf p r) r st c (startRequest p r s)) k = poolCount s k := fun k => by
      cases k <;> simp [poolCount]
    rw [finishItem_quiet hleases (by simp) (by simp) hcount, endItem, publishCounts_quiet fun k => by simp [hcount]]
  rw [hfin]
  have hpools : (endItem s (reply (senderOf p r) r st c (startRequest p r s))).pools = s.pools :=
    endItem_pools (by simp) fun k => by cases k <;> simp [poolCount]
  refine ⟨?_, endItem_offerStands (by simp), ⟨?_, fun x hx => ?_⟩,
    repliesHanded_of_answers (reply_answers _ _ _ _ _) (by simp)⟩
  · apply State.ext <;> simp [hpools, endItem_tables]
  · rw [agent_of_view ((view_endItem ..).trans hview)]
    simp [State.agent, view]
  · rw [agent_of_view ((view_endItem ..).trans hview)]
    simp [State.agent, view, hx]

/-- An admitted request whose behaviour is a reply is answered and changes nothing else. -/
theorem exec_answeredOnly {s : State} {p : Port} {r : Request} {k : Kind} (h : Admitted s p r k) {st : Status}
    {c : Content} (hb : behaviourOf k (senderOf p r) r (startRequest p r s)
      = reply (senderOf p r) r st c (startRequest p r s)) :
    ∃ t, exec (rowOf k) s = .next t ∧ AnsweredOnly s p r st c t := by
  refine ⟨_, exec_admitted h, ?_⟩
  have hb' : behaviourOf k (senderOf p r) r (noteHanded p (withHanded [] (beginRequest p r s)))
      = reply (senderOf p r) r st c (startRequest p r s) := hb
  rw [hb']; exact answeredOnly_of_reply s p r st c

/-- A part that passes stage 5 for an ACQUIRE or an UPGRADE is RUNNING (04, R80). -/
theorem Admitted.running {s : State} {p : Port} {r : Request} {k : Kind} (h : Admitted s p r k)
    (hk : k = .acquire ∨ k = .upgrade) : s.part = .running := by
  obtain ⟨-, -, -, hst⟩ := h
  unfold stageFailure at hst
  split at hst
  · cases hst
  · cases hst
  · cases hst
  · split at hst
    · cases hst
    · rcases hk with rfl | rfl <;> cases hp : s.part <;> simp [stage5, hp] at hst ⊢

/-- An admitted request that names a live lease of its sender acts on it (05, R92). -/
theorem withLease_startRequest {s : State} {p : Port} {r : Request} {l : Lease}
    (behave : Agent → Request → Lease → State → State) (hl : liveLease s r.leaseNum.toNat r.gen = some l)
    (ha : l.agent = senderOf p r) :
    withLease behave (senderOf p r) r (startRequest p r s) = behave (senderOf p r) r l (startRequest p r s) := by
  simp [withLease, namedLease, (startRequest_taken p r s).liveLease, hl, ha]

/-- A live lease is in use under its handle's generation (02, R29). -/
theorem liveLease_eq_some {s : State} {k : Nat} {g : Byte} {l : Lease} :
    liveLease s k g = some l ↔ genOf s k = g ∧ leaseAt s k = some l := by
  unfold liveLease; split <;> simp_all

end Sys2Proof.Machine
end

section
/-! The marks of an item, operation by operation: the entries that each operation has compared (07, R131), all others
keeping their mark and their deadline. -/

namespace Sys2Proof.Machine

/-- From the first state to the second the entries listed have been compared; any other keeps its mark and its
deadline. -/
def Compares (s t : State) (l : List TimedEntry) : Prop :=
  t.now = s.now ∧ (∀ e ∈ l, (view t).marked e ↔ (view t).Due t.now e)
    ∧ ∀ e, e ∉ l → ((view t).marked e ↔ (view s).marked e) ∧ (view t).deadline e = (view s).deadline e

/-- The entries compared by two acts in a row. -/
theorem Compares.trans {s t u : State} {l m : List TimedEntry} (h : Compares s t l) (h' : Compares t u m) :
    Compares s u (l ++ m) := by
  obtain ⟨hn, hl, ho⟩ := h
  obtain ⟨hn', hl', ho'⟩ := h'
  refine ⟨hn'.trans hn, fun e he => ?_, fun e he => ?_⟩
  · by_cases hm : e ∈ m
    · exact hl' e hm
    · obtain ⟨hmark, hdead⟩ := ho' e hm
      rw [hmark, hl e ((List.mem_append.1 he).resolve_right hm), View.Due, View.Due, hdead, hn']
  · simp only [List.mem_append, not_or] at he
    exact ⟨(ho' e he.2).1.trans (ho e he.1).1, (ho' e he.2).2.trans (ho e he.1).2⟩

/-- What leaves the view and the time compares no entry. -/
theorem Compares.none {s t : State} (hv : view t = view s) (hn : t.now = s.now) : Compares s t [] :=
  ⟨hn, by simp, fun e _ => by rw [hv]; exact ⟨Iff.rfl, rfl⟩⟩

/-- The marks of a state that an item's acts and its end have left. -/
theorem Compares.marksCompared {s u t : State} {l : List TimedEntry} (h : Compares s u l) (hv : view t = view u)
    (hn : t.now = u.now) : MarksCompared s t l := by
  rw [marksCompared_iff_view, hv, hn]
  exact ⟨h.2.1, fun e he => (h.2.2 e he).1⟩

/-! ### The deadlines that one write leaves -/

section
variable (v : View)

theorem View.deadline_setMark (x : TimedEntry) (due : Prop) : (v.setMark x due).deadline = v.deadline := by
  funext e; cases e <;> rfl

theorem View.deadline_setToken (x : Token) : (v.setToken x).deadline = v.deadline := by funext e; cases e <;> rfl

theorem View.deadline_bumpGen (k : Nat) : (v.bumpGen k).deadline = v.deadline := by funext e; cases e <;> rfl

theorem View.deadline_setAgent {a : Agent} {f : AgentRec → AgentRec}
    (hf : (f (v.agent a)).keepalive = (v.agent a).keepalive) : (v.setAgent a f).deadline = v.deadline := by
  have hk : ∀ x, ((v.setAgent a f).agent x).keepalive = (v.agent x).keepalive := fun x => by
    by_cases hx : x = a
    · subst hx; simp [hf]
    · simp [hx]
  funext e
  cases e with
  | upgrade n | wait w => rfl
  | lease k => simp only [View.deadline, hk]; rfl

theorem View.deadline_setTag (a : Agent) (t : Tag) (x : TagState) : (v.setTag a t x).deadline = v.deadline :=
  v.deadline_setAgent rfl

theorem View.deadline_setLease {k : Nat} {e : TimedEntry} (x : Option LeaseSlot) (he : e ≠ .lease k) :
    (v.setLease k x).deadline e = v.deadline e := by
  cases e with
  | upgrade n | wait w => rfl
  | lease j =>
    have hj : j ≠ k := fun h => he (by rw [h])
    simp [View.deadline, View.leaseAt, hj]

/-- A lease in use whose deadlines are kept has the same deadline. -/
theorem View.deadline_setLease_kept {k : Nat} {l : Lease} (l' : Lease) (hl : v.leaseAt k = some l)
    (ha : l'.agent = l.agent) (hd : l'.duration = l.duration) (ho : l'.ownDeadline = l.ownDeadline) :
    (v.setLease k (some (.inUse l'))).deadline = v.deadline := by
  funext e
  by_cases he : e = .lease k
  · subst he; simp only [View.deadline, hl]; simp [View.leaseAt, LeaseSlot.lease?, ha, hd, ho]
  · exact View.deadline_setLease _ _ he

theorem View.deadline_setWait {w : Nat} {e : TimedEntry} (x : Option WaitEntry) (he : e ≠ .wait w) :
    (v.setWait w x).deadline e = v.deadline e := by
  cases e with
  | upgrade n | lease k => rfl
  | wait j =>
    have hj : j ≠ w := fun h => he (by rw [h])
    simp [View.deadline, hj]

/-- A record written with its slot as it was moves no deadline; its upgrade's alone otherwise. -/
theorem View.deadline_setRecord {n : Nat} {e : TimedEntry} {r : Option LockRecord}
    (h : r.bind LockRecord.slot = (v.record n).bind LockRecord.slot ∨ e ≠ .upgrade n) :
    (v.setRecord n r).deadline e = v.deadline e := by
  cases e with
  | wait w | lease k => rfl
  | upgrade j =>
    by_cases hj : j = n
    · subst hj
      have hs := h.resolve_right fun he => he rfl
      have hd : ∀ x : Option LockRecord, (x.bind fun r => r.slot.bind fun u => u.deadline)
          = (x.bind LockRecord.slot).bind fun u => u.deadline := fun x => by cases x <;> rfl
      simp [View.deadline, hd, hs]
    · simp [View.deadline, hj]

end

/-! ### The operations -/

theorem answerTag_compares (a : Agent) (t : Tag) (kind : Byte) (st : Status) (c : Content) (s : State) :
    Compares s (answerTag a t kind st c s) [] := by
  refine ⟨by simp, by simp, fun e _ => ?_⟩
  rw [view_answerTag, View.deadline_setTag]
  exact ⟨Iff.rfl, rfl⟩

theorem reply_compares (a : Agent) (r : Request) (st : Status) (c : Content) (s : State) :
    Compares s (reply a r st c s) [] := answerTag_compares a r.tag r.kind st c s

theorem endLease_compares {k : Nat} {l : Lease} {r : LockRecord} {s : State} (hl : leaseAt s k = some l)
    (hr : tableGet s.records l.record = some r) : Compares s (endLease k s) [.lease k] := by
  have hv := view_endLease hl hr
  refine ⟨by simp, fun e he => ?_, fun e he => ?_⟩
  · obtain rfl := List.mem_singleton.1 he
    rw [hv]; simp [View.Due, View.deadline, View.leaseAt]
  · have hk : e ≠ .lease k := fun h => he (by simp [h])
    rw [hv, View.deadline_bumpGen, View.deadline_setLease _ _ hk, View.deadline_setMark, View.deadline_setAgent _ rfl,
      View.deadline_setRecord _ (.inl (by simp [hr]))]
    simp [hk]

theorem retireRecord_compares {n : Nat} {r : LockRecord} {s : State} (hr : tableGet s.records n = some r)
    (hs : r.slot = none) : Compares s (retireRecord n s) [] := by
  by_cases hh : r.holders = []
  · refine ⟨by simp, by simp, fun e _ => ?_⟩
    rw [view_retireRecord hr hh, View.deadline_setRecord _ (.inl (by simp [hr, hs]))]
    exact ⟨Iff.rfl, rfl⟩
  · rw [retireRecord_of_holders hr hh]; exact .none rfl rfl

theorem removeWait_compares {w n : Nat} {a : Agent} {e : WaitEntry} {r : LockRecord} {s : State}
    (hw : tableGet s.waits w = some e) (hr : tableGet s.records e.record = some r)
    (hres : tableGet s.leases e.reserved = some (.reserved a n)) (st : Status) :
    Compares s (removeWait w (some st) s) [.wait w] := by
  have hv := view_removeWait hw hr st
  have hdead : ∀ x, x ≠ .wait w → (view (removeWait w (some st) s)).deadline x = (view s).deadline x := fun x hx => by
    have hset : ∀ v : View, v.lease e.reserved = some (.reserved a n) →
        (v.setLease e.reserved none).deadline x = v.deadline x := fun v hv => by
      by_cases hk : x = .lease e.reserved
      · subst hk; simp [View.deadline, View.leaseAt, hv, LeaseSlot.lease?]
      · exact View.deadline_setLease _ _ hk
    rw [hv, View.deadline_setTag, View.deadline_bumpGen, hset _ (by simp [hres]), View.deadline_setMark,
      View.deadline_setRecord _ (.inl (by simp [hr])), View.deadline_setWait _ _ hx]
  refine ⟨by simp, fun x hx => ?_, fun x hx => ?_⟩
  · obtain rfl := List.mem_singleton.1 hx
    rw [hv]; simp [View.Due, View.deadline]
  · have hk : x ≠ .wait w := fun h => hx (by simp [h])
    exact ⟨by rw [hv]; simp [hk], hdead x hk⟩

theorem dropUpgrade_compares {n : Nat} {r : LockRecord} {u : Upgrade} {l : Lease} {s : State}
    (hr : tableGet s.records n = some r) (hu : r.slot = some u) (hl : leaseAt s u.lease.num = some l) (st : Status) :
    Compares s (dropUpgrade n (some st) s) [.upgrade n] := by
  have hv := view_dropUpgrade hr hu hl st
  refine ⟨by simp, fun e he => ?_, fun e he => ?_⟩
  · obtain rfl := List.mem_singleton.1 he
    rw [hv]; simp [View.Due, View.deadline]
  · have hk : e ≠ .upgrade n := fun h => he (by simp [h])
    rw [hv, View.deadline_setTag, View.deadline_setMark, View.deadline_setRecord _ (.inr hk)]
    simp [hk]

theorem grantUpgrade_compares {n : Nat} {r : LockRecord} {u : Upgrade} {l : Lease} {s : State}
    (hr : tableGet s.records n = some r) (hl : leaseAt s u.lease.num = some l) :
    Compares s (grantUpgrade n u s) [.upgrade n] := by
  obtain ⟨hv, -⟩ := view_grantUpgrade hr hl
  refine ⟨by simp, fun e he => ?_, fun e he => ?_⟩
  · obtain rfl := List.mem_singleton.1 he
    rw [hv]; simp [View.Due, View.deadline]
  · have hk : e ≠ .upgrade n := fun h => he (by simp [h])
    rw [hv, View.deadline_setTag,
      View.deadline_setLease_kept (l := l) _ { l with mode := .exclusive, token := s.token + 1#64 }
        (by exact (view_leaseAt s _).trans hl) rfl rfl rfl,
      View.deadline_setToken, View.deadline_setMark, View.deadline_setRecord _ (.inr hk)]
    simp [hk]

/-- The deadlines that the grant of a wait leaves: but for the wait's and its lease's, all. -/
theorem grantedView_deadline {n w : Nat} {e : WaitEntry} {r : LockRecord} {h : Handle} {x : Token} {dur now : Nat}
    {v : View} (hr : v.record n = some r) {y : TimedEntry} (hw : y ≠ .wait w) (hk : y ≠ .lease e.reserved) :
    (grantedView n w e r h x dur now v).deadline y = v.deadline y := by
  rw [grantedView, View.deadline_setMark, View.deadline_setAgent _ rfl, View.deadline_setLease _ _ hk,
    View.deadline_setRecord _ (.inl (by simp [hr])), View.deadline_setToken, View.deadline_setMark,
    View.deadline_setWait _ _ hw]

theorem grantWait_compares {n w : Nat} {r : LockRecord} {e : WaitEntry} {s : State} (hr : tableGet s.records n = some r)
    (hn : e.record = n) : Compares s (grantWait n w e s) [.wait w, .lease e.reserved] := by
  obtain ⟨hv, -⟩ := view_grantWait (w := w) hr hn
  refine ⟨by simp, fun y hy => ?_, fun y hy => ?_⟩
  · rw [hv]
    rcases List.mem_pair.1 hy with rfl | rfl
    · simp [grantedView, View.Due, View.deadline]
    · simp [grantedView, View.Due, View.deadline, View.leaseAt, LeaseSlot.lease?]
  · simp only [List.mem_pair, not_or] at hy
    rw [hv, grantedView_deadline (by exact hr) hy.1 hy.2]
    simp [grantedView, hy.1, hy.2]

theorem grantLease_compares {n : Nat} {r : LockRecord} {s : State} (hr : tableGet s.records n = some r) (k : Nat)
    (a : Agent) (m : Mode) (ticks : Nat) : Compares s (grantLease n k a m ticks s) [.lease k] := by
  have hv := view_grantLease hr k a m ticks
  refine ⟨by simp, fun e he => ?_, fun e he => ?_⟩
  · obtain rfl := List.mem_singleton.1 he
    rw [hv]; simp [View.Due, View.deadline, View.leaseAt, LeaseSlot.lease?]
  · have hk : e ≠ .lease k := fun h => he (by simp [h])
    rw [hv, View.deadline_setMark, View.deadline_setAgent _ rfl, View.deadline_setLease _ _ hk,
      View.deadline_setRecord _ (.inl (by simp [hr])), View.deadline_setToken]
    simp [hk]

end Sys2Proof.Machine
end

section
/-! Requests that are answered at once and change nothing else: ACQUIRE's and UPGRADE's refusals (chapters 1 and 4). -/

namespace Sys2Proof.Machine

/-! ### ACQUIRE up to its outcome -/

/-- An admitted ACQUIRE asks for a mode (04, Table 4-3). -/
theorem Admitted.acquireMode {s : State} {p : Port} {r : Request} (h : Admitted s p r .acquire) :
    ∃ m, modeOfByte r.mode = some m := by
  obtain ⟨-, h1, -⟩ := h
  unfold stage1 at h1
  split at h1
  · split at h1
    · rename_i hf; cases h1; exact Option.isSome_iff_exists.1 hf
    · cases h1
  · cases h1

section
variable {s : State} {p : Port} {r : Request} {m : Mode} {d : Decision} (hm : modeOfByte r.mode = some m)
  (hd : immediateDecision s (senderOf p r) r.key m r.waitTicks.toNat = d)
include hm hd

/-- An outcome that takes nothing is carried out without the resource checks (01, R8, R12). -/
theorem acquire_takes_nothing (ht : takesResources d = false) :
    behaviourOf .acquire (senderOf p r) r (startRequest p r s) = carryOut (senderOf p r) r m d (startRequest p r s) := by
  simp [behaviourOf, acquireBehaviour, hm, (startRequest_taken p r s).immediateDecision, hd, ht]

/-- An outcome that fails a resource check is answered with that check's status (04, R74, R82, R83). -/
theorem acquire_refused {st : Status} (ht : takesResources d = true)
    (hf : resourceFailure s (senderOf p r) d = some st) :
    behaviourOf .acquire (senderOf p r) r (startRequest p r s) = reply (senderOf p r) r st {} (startRequest p r s) := by
  have hv := startRequest_taken p r s
  simp [behaviourOf, acquireBehaviour, hm, hv.immediateDecision, hd, ht, hv.resourceFailure, hf]

/-- An outcome that passes the resource checks is carried out (01, R9 to R11). -/
theorem acquire_carried_out (ht : takesResources d = true) (hf : resourceFailure s (senderOf p r) d = none) :
    behaviourOf .acquire (senderOf p r) r (startRequest p r s) = carryOut (senderOf p r) r m d (startRequest p r s) := by
  have hv := startRequest_taken p r s
  simp [behaviourOf, acquireBehaviour, hm, hv.immediateDecision, hd, ht, hv.resourceFailure, hf]

/-- An ACQUIRE whose outcome takes resources is answered QUOTA, SHED or FULL, in this order (04, R74, R82, R83). -/
theorem acquire_resources (h : Admitted s p r .acquire) (ht : takesResources d = true) :
    let spent := (s.agent (senderOf p r)).quota ≤ quotaCount s (senderOf p r)
    let shedding := ∃ k ∈ neededPools d, (s.pool k).level = .shed
    let full := ∃ k ∈ neededPools d, poolCapacity k ≤ poolCount s k
    (spent → ∃ t, exec .acquire s = .next t ∧ AnsweredOnly s p r .quota {} t)
      ∧ (¬ spent → shedding → ∃ t, exec .acquire s = .next t ∧ AnsweredOnly s p r .shed {} t)
      ∧ (¬ spent → ¬ shedding → full → ∃ t, exec .acquire s = .next t ∧ AnsweredOnly s p r .full {} t) := by
  intro spent shedding full
  have refused : ∀ st, resourceFailure s (senderOf p r) d = some st →
      ∃ t, exec .acquire s = .next t ∧ AnsweredOnly s p r st {} t :=
    fun st hf => exec_answeredOnly h (acquire_refused hm hd ht hf)
  refine ⟨fun h1 => refused _ ?_, fun h1 h2 => refused _ ?_, fun h1 h2 h3 => refused _ ?_⟩
  · simp only [resourceFailure]; rw [if_pos h1]
  · simp only [resourceFailure]; rw [if_neg h1, if_pos (by simpa [shedding] using h2)]
  · simp only [resourceFailure]
    rw [if_neg h1, if_neg (by simpa [shedding] using h2), if_pos (by simpa [full] using h3)]

end

/-- The quota and every pool that an outcome needs suffice (04, R74, R82, R83). -/
theorem resourceFailure_none {s : State} {a : Agent} {d : Decision} (hq : quotaCount s a < (s.agent a).quota)
    (hshed : ∀ k ∈ neededPools d, (s.pool k).level ≠ .shed)
    (hfull : ∀ k ∈ neededPools d, poolCount s k < poolCapacity k) :
    resourceFailure s a d = none := by
  unfold resourceFailure
  rw [if_neg (by omega), if_neg (by simpa using hshed), if_neg (by simpa using hfull)]

/-! ### The immediate decision (01, R8) -/

/-- A key with no record has one created. -/
theorem immediateDecision_create {s : State} {key : Key} (h : recordOfKey s key = none) (a : Agent) (m : Mode)
    (w : Nat) : immediateDecision s a key m w = .create := by simp [immediateDecision, h]

section
variable {s : State} {a : Agent} {key : Key} {n : Nat} {rec : LockRecord} (hr : recordOfKey s key = some (n, rec))
include hr

/-- A holder of the record holds it already. -/
theorem immediateDecision_held {k : Nat} (hh : heldLease s a rec = some k) (m : Mode) (w : Nat) :
    immediateDecision s a key m w = .alreadyHeld k := by simp [immediateDecision, hr, hh]

variable (hh : heldLease s a rec = none)
include hh

/-- A waiter on the record waits already. -/
theorem immediateDecision_waiting (hw : waitsOn s a rec = true) (m : Mode) (w : Nat) :
    immediateDecision s a key m w = .alreadyWaiting := by simp [immediateDecision, hr, hh, hw]

variable (hw : waitsOn s a rec = false)
include hw

/-- A record that no one waits on and whose holders are compatible is joined. -/
theorem immediateDecision_join {m : Mode} (hfree : rec.slot = none ∧ rec.queue = [] ∧ compatible m rec = true)
    (w : Nat) : immediateDecision s a key m w = .joinHolders n := by
  simp [immediateDecision, hr, hh, hw, hfree.1, hfree.2.1, hfree.2.2]

variable {m : Mode} (hfree : ¬ (rec.slot = none ∧ rec.queue = [] ∧ compatible m rec = true))
include hfree

/-- A request that cannot be granted and will not wait is in conflict. -/
theorem immediateDecision_conflict : immediateDecision s a key m 0 = .conflict := by
  simp only [immediateDecision, hr, hh, hw]; simp [hfree]

variable {w : Nat} (hwait : w ≠ 0)
include hwait

/-- A request that would wait in a full queue. -/
theorem immediateDecision_queueLimit (hq : (s.domain rec.domain).queueLimit.toNat ≤ rec.queue.length) :
    immediateDecision s a key m w = .queueLimit := by
  simp only [immediateDecision, hr, hh, hw]; simp [hfree, hwait, hq]

/-- A request that waits in the queue. -/
theorem immediateDecision_enqueue (hq : rec.queue.length < (s.domain rec.domain).queueLimit.toNat) :
    immediateDecision s a key m w = .enqueue n := by
  simp only [immediateDecision, hr, hh, hw]; simp [hfree, hwait, Nat.not_le.2 hq]

end

/-- Wait ticks other than 0 are a positive number. -/
theorem toNat_ne_zero {n : Nat} {x : BitVec n} (h : x ≠ 0#n) : x.toNat ≠ 0 :=
  fun he => h (BitVec.eq_of_toNat_eq (by simpa using he))

/-- Settles O21: each of the four decisions is answered, in the order in which the immediate decision tests them. -/
theorem acquireAnswersThatTakeNothing : Obligations.AcquireAnswersThatTakeNothing := by
  intro s p r n rec m h hm hr a free
  refine ⟨fun k l hk hl => ?_, fun hk hw => ?_, fun hk hw hf ht => ?_, fun hk hw hf ht hq => ?_⟩
  · refine exec_answeredOnly h ?_
    rw [acquire_takes_nothing hm (immediateDecision_held hr hk m _) rfl]
    have hv := startRequest_taken p r s
    simp [carryOut, hv.leaseAt, hl, leaseContent, handleOf, hv.genOf]
  · exact exec_answeredOnly h (acquire_takes_nothing hm (immediateDecision_waiting hr hk hw m _) rfl)
  · refine exec_answeredOnly h (acquire_takes_nothing hm (d := .conflict) ?_ rfl)
    rw [ht]; exact immediateDecision_conflict hr hk hw hf
  · exact exec_answeredOnly h
      (acquire_takes_nothing hm (immediateDecision_queueLimit hr hk hw hf (toNat_ne_zero ht) hq) rfl)

/-- Settles O22: the three checks in their order, for the pools that creating, joining and waiting need. -/
theorem acquireRefusedForResources : Obligations.AcquireRefusedForResources := by
  intro s p r h a spent refused leaseShed
  refine ⟨fun hr => ?_, fun n rec m hm hr hk hw => ?_⟩
  · obtain ⟨m, hm⟩ := h.acquireMode
    simpa [refused, spent, leaseShed, a, neededPools, poolCapacity, poolCount, Config.leaseCapacity, Config.lockCapacity]
      using acquire_resources hm (immediateDecision_create hr a m _) h rfl
  · intro joins
    refine ⟨fun hj => ?_, fun hj ht hq => ?_⟩
    · simpa [refused, spent, leaseShed, a, neededPools, poolCapacity, poolCount, Config.leaseCapacity]
        using acquire_resources hm (immediateDecision_join hr hk hw hj _) h rfl
    · simpa [refused, spent, leaseShed, a, neededPools, poolCapacity, poolCount, Config.leaseCapacity,
        Config.waitCapacity]
        using acquire_resources hm (immediateDecision_enqueue hr hk hw hj (toNat_ne_zero ht) hq) h rfl

/-! ### UPGRADE up to its outcome (01, R19) -/

/-- An UPGRADE of a live lease of the sender, in S and on a listed record whose domain allows upgrades. -/
theorem upgrade_on_record {s : State} {p : Port} {r : Request} {l : Lease} {rec : LockRecord}
    (hl : liveLease s r.leaseNum.toNat r.gen = some l) (ha : l.agent = senderOf p r) (hm : l.mode = .shared)
    (hr : tableGet s.records l.record = some rec) (hd : (s.domain rec.domain).upgradeAllowed = true) :
    behaviourOf .upgrade (senderOf p r) r (startRequest p r s)
      = upgradeOnRecord (senderOf p r) r l rec (startRequest p r s) := by
  have hv := startRequest_taken p r s
  rw [behaviourOf, withLease_startRequest upgradeLive hl ha]
  simp [upgradeLive, hm, hr, hv.domain, hd]

/-- Settles O33: the tests of an UPGRADE in their order. -/
theorem upgradeRefusals : Obligations.UpgradeRefusals := by
  intro s p r l rec h hl ha hr answered
  have hv := startRequest_taken p r s
  refine ⟨fun hm => exec_answeredOnly h ?_, fun hm hd => exec_answeredOnly h ?_,
    fun u hm hd hu => ⟨fun he => ?_, fun he => ?_⟩⟩
  · rw [behaviourOf, withLease_startRequest upgradeLive hl ha]
    simp [upgradeLive, hm]
  · rw [behaviourOf, withLease_startRequest upgradeLive hl ha]
    simp [upgradeLive, hm, hr, hv.domain, hd]
  all_goals
    refine exec_answeredOnly h ?_
    rw [upgrade_on_record hl ha hm hr hd]
    simp [upgradeOnRecord, hu, he, namedLease]

end Sys2Proof.Machine
end

section
/-! RELEASE: the lease ends, DONE is placed, and the record is evaluated (02, R38; 05, R93). -/

namespace Sys2Proof.Machine

/-- RELEASE's own acts, before the evaluation, on the state given: the lease ends and DONE is placed. -/
def released (a : Agent) (r : Request) (l : Lease) (v : State) : State :=
  reply a r .done (leaseContent ⟨namedLease r, r.gen⟩ l.mode l.token) (endLease (namedLease r) v)

/-- The reply to a RELEASE. -/
def releaseReply (a : Agent) (r : Request) (l : Lease) : Reply :=
  replyTo a r .done { num := r.leaseNum, gen := r.gen, mode := BitVec.ofNat 8 (modeCode l.mode), token := l.token }

/-- The view after RELEASE's own acts. -/
def releasedView (a : Agent) (r : Request) (l : Lease) (rec : LockRecord) (v : View) : View :=
  (((((v.setRecord l.record (some { rec with holders := rec.holders.erase ⟨r.leaseNum.toNat, r.gen⟩ })).setAgent a
    fun g => { g with leases := g.leases.erase ⟨r.leaseNum.toNat, r.gen⟩ }).setMark (.lease r.leaseNum.toNat)
    False).setLease r.leaseNum.toNat none).bumpGen r.leaseNum.toNat).setTag a r.tag .replying

theorem released_answers (a : Agent) (r : Request) (l : Lease) (v : State) :
    Answers v (released a r l v) [(a, releaseReply a r l)] := by
  have h : Answers v (released a r l v) [(a, replyTo a r .done (leaseContent ⟨namedLease r, r.gen⟩ l.mode l.token))] :=
    (endLease_answers (namedLease r) v).trans (reply_answers _ _ _ _ _)
  simpa [leaseContent, namedLease, releaseReply] using h

theorem released_compares {v : State} {l : Lease} {rec : LockRecord} (a : Agent) (r : Request)
    (hk : leaseAt v r.leaseNum.toNat = some l) (hr : tableGet v.records l.record = some rec) :
    Compares v (released a r l v) [.lease r.leaseNum.toNat] :=
  (endLease_compares hk hr).trans (reply_compares ..)

/-- What RELEASE's own acts leave alone. -/
@[simp] theorem released_keeps (a : Agent) (r : Request) (l : Lease) (v : State) :
    (released a r l v).now = v.now ∧ (released a r l v).tickPeriod = v.tickPeriod ∧
    (released a r l v).tickPos = v.tickPos ∧ (released a r l v).offered = v.offered ∧
    (released a r l v).waits = v.waits ∧ (released a r l v).domains = v.domains ∧
    (released a r l v).token = v.token ∧ (released a r l v).seeded = v.seeded ∧ (released a r l v).part = v.part ∧
    (released a r l v).sweep = v.sweep ∧ (released a r l v).outer = v.outer ∧ (released a r l v).inner = v.inner ∧
    (released a r l v).chosen = v.chosen ∧ (released a r l v).pools = v.pools ∧ (released a r l v).mbox = v.mbox ∧
    (released a r l v).args = v.args ∧ (released a r l v).res = v.res ∧ (released a r l v).events = v.events ∧
    (released a r l v).eventEnable = v.eventEnable ∧ (released a r l v).nowLatch = v.nowLatch ∧
    (released a r l v).spiData = v.spiData ∧ (released a r l v).pending = v.pending := by
  simp [released]

/-- RELEASE's own acts on a lease in use under the handle named, of a listed record. -/
theorem view_released {v : State} {a : Agent} {r : Request} {l : Lease} {rec : LockRecord}
    (hk : leaseAt v r.leaseNum.toNat = some l) (hg : genOf v r.leaseNum.toNat = r.gen) (ha : l.agent = a)
    (hr : tableGet v.records l.record = some rec) :
    view (released a r l v) = releasedView a r l rec (view v) := by
  have hh : handleOf v r.leaseNum.toNat = ⟨r.leaseNum.toNat, r.gen⟩ := by rw [handleOf, hg]
  rw [released, view_reply, namedLease, view_endLease hk hr, hh, ha]
  rfl

section
variable {s : State} {p : Port} {r : Request} {l : Lease} {rec : LockRecord}
  (hl : liveLease s r.leaseNum.toNat r.gen = some l) (ha : l.agent = senderOf p r)
  (hr : tableGet s.records l.record = some rec)
include hl ha hr

/-- An admitted RELEASE's own acts. -/
theorem view_released_start :
    view (released (senderOf p r) r l (startRequest p r s)) = releasedView (senderOf p r) r l rec (view s) := by
  have hv := startRequest_taken p r s
  obtain ⟨hg, hk⟩ := liveLease_eq_some.1 hl
  rw [view_released (by rw [hv.leaseAt, hk]) (by rw [hv.genOf, hg]) ha (by rw [hv.records, hr]), hv.view]

omit ha in
/-- An admitted RELEASE's own acts have compared the lease that ends. -/
theorem released_start_compares :
    Compares s (released (senderOf p r) r l (startRequest p r s)) [.lease r.leaseNum.toNat] := by
  have hv := startRequest_taken p r s
  exact (Compares.none hv.view hv.now).trans (released_compares _ _ ((hv.leaseAt _).trans (liveLease_eq_some.1 hl).2)
    (by rw [hv.records, hr]))

theorem released_record : tableGet (released (senderOf p r) r l (startRequest p r s)).records l.record
    = some { rec with holders := rec.holders.erase ⟨r.leaseNum.toNat, r.gen⟩ } := by
  rw [record_of_view (view_released_start hl ha hr)]; simp [releasedView]

/-- RELEASE's own acts leave the other handles (02, R29). -/
theorem released_handleOf {j : Nat} (hj : j ≠ r.leaseNum.toNat) :
    handleOf (released (senderOf p r) r l (startRequest p r s)) j = handleOf s j := by
  rw [handleOf, gen_of_view (view_released_start hl ha hr)]; simp [releasedView, hj, handleOf]

/-- RELEASE's own acts leave the other leases. -/
theorem released_leaseAt {j : Nat} (hj : j ≠ r.leaseNum.toNat) :
    leaseAt (released (senderOf p r) r l (startRequest p r s)) j = leaseAt s j := by
  rw [leaseAt_of_view (view_released_start hl ha hr)]; simp [releasedView, View.leaseAt, hj, leaseAt_eq_view]

/-- A RELEASE of a lease that is not upgrading evaluates its record after its own acts (02, R38). -/
theorem release_evaluates (hs : ∀ u, rec.slot = some u → u.lease ≠ ⟨r.leaseNum.toNat, r.gen⟩) :
    behaviourOf .release (senderOf p r) r (startRequest p r s)
      = evaluate l.record (released (senderOf p r) r l (startRequest p r s)) := by
  have hv := startRequest_taken p r s
  obtain ⟨hg, -⟩ := liveLease_eq_some.1 hl
  have hslot : inSlot (startRequest p r s) (namedLease r) l = false := by
    rw [hv.inSlot, inSlot, hr, Option.bind_some]
    cases hu : rec.slot with
    | none => rfl
    | some u => simpa [handleOf, namedLease, hg] using hs u hu
  rw [behaviourOf, withLease_startRequest releaseLease hl ha, releaseLease, hslot]; rfl

end

/-- RELEASE's own acts leave the domains. -/
theorem released_domain (s : State) (p : Port) (r : Request) (l : Lease) (d : Fin 16) :
    (released (senderOf p r) r l (startRequest p r s)).domain d = s.domain d :=
  (domain_congr (by simp) d).trans ((startRequest_taken p r s).domain d)

/-- RELEASE's own acts empty no other agent's lease list. -/
theorem releasedView_leases {a x : Agent} {r : Request} {l : Lease} {rec : LockRecord} {v : View} (hx : x ≠ a) :
    ((releasedView a r l rec v).agent x).leases = (v.agent x).leases := by simp [releasedView, hx]

/-- The numbers of a lease in use and of a reserved entry differ. -/
theorem ne_of_reserved {s : State} {k j w : Nat} {a : Agent} {l : Lease} (hk : leaseAt s k = some l)
    (hj : tableGet s.leases j = some (.reserved a w)) : j ≠ k := fun he => by
  rw [he, leaseAt_eq_some.1 hk] at hj; cases hj

/-- An admitted request's item in a RUNNING part that lists no fence job of the agent whose leases may end. -/
theorem exec_request_running {s u : State} {p : Port} {r : Request} {k : Kind} (h : Admitted s p r k)
    (hu : behaviourOf k (senderOf p r) r (startRequest p r s) = u) (hpart : u.part = .running)
    (hsweep : u.sweep = s.sweep) (hfence : fenceJobPresent s (senderOf p r) = false)
    (hleases : ∀ x, x ≠ senderOf p r → (s.agent x).leases ≠ [] → (u.agent x).leases ≠ []) :
    exec (rowOf k) s = .next (endItem s u) :=
  exec_request h hu (endFenceJobs_absent (by rw [hsweep]; exact hfence) hleases)
    (quiesceHalt_running (by rw [hpart]; simp))

/-! ### The last holder's RELEASE -/

/-- Settles O27: the lease ends, DONE is placed, and the evaluation retires the record. -/
theorem releaseRetiresTheRecord : Obligations.ReleaseRetiresTheRecord := by
  intro s p r l rec hok h hpart hfence hl ha hr hh hq hs
  dsimp only
  have hrec := released_record hl ha hr
  have hnone : rec.holders.erase ⟨r.leaseNum.toNat, r.gen⟩ = [] := by simp [hh]
  have hu := (release_evaluates hl ha hr (by simp [hs])).trans (evaluate_no_waiter hrec hs hq)
  have hV := view_retireRecord hrec hnone
  have hA := (released_answers (senderOf p r) r l (startRequest p r s)).trans (retireRecord_answers l.record _)
  have hM := (released_start_compares hl hr).trans (retireRecord_compares hrec hs)
  rw [view_released_start hl ha hr] at hV
  have reads := reads_of_view ((view_endItem s _).trans hV)
  refine ⟨_, exec_request_running h hu (by simp [hpart]) (by simp) hfence fun x hx => ?_, ?_,
    endItem_offerStands (by simp), ?_, fun j hj => ?_, ?_, fun j hj => ?_, ?_, fun j hj => ?_, ?_,
    fun x hx => ?_, ?_, endItem_countsPublished (by simp), repliesHanded_of_answers hA (by simp)⟩
  · rw [agent_of_view hV]; exact (releasedView_leases hx).symm ▸ id
  · apply State.ext <;> simp [endItem_tables]
  · simp [reads]
  · simp [reads, releasedView, hj]
  · simp [reads, releasedView]
  · simp [reads, releasedView, hj]
  · simp [reads, releasedView]
  · simp [reads, releasedView, hj]
  · simp [reads, releasedView]
  · simp [reads, releasedView, hx]
  · exact hM.marksCompared (view_endItem s _) (by simp)

theorem endLease_leases {k : Nat} {l : Lease} {s : State} (h : leaseAt s k = some l) :
    (endLease k s).leases = tableErase s.leases k := by simp [endLease, h, freeLeaseEntry]

/-- A part that a last lease leaves, and in which no quiesce job goes on, halts (11, R187). -/
theorem quiesceHalt_of_last {s u : State} (hs : s.leases ≠ []) (hp : u.part = .quiescing) (hu : u.leases = []) :
    quiesceHalt s u = if u.sweep.any isQuiesceJob then u else enterHalted u := by
  cases hj : u.sweep.any isQuiesceJob <;> simp [quiesceHalt, quiesceOver, poolCount, hs, hp, hu, hj]

/-- Settles O28: the RELEASE leaves no lease, and the item's end then halts the part unless the quiesce job goes on. -/
theorem lastReleaseHaltsAQuiescedPart : Obligations.LastReleaseHaltsAQuiescedPart := by
  intro s p r l rec hok h hpart hfence hleases hg ha hr hh hq hs
  dsimp only
  have hv := startRequest_taken p r s
  have hk : leaseAt s r.leaseNum.toNat = some l := by simp [leaseAt, hleases, tableGet]
  have hl := liveLease_eq_some.2 ⟨hg, hk⟩
  have hrec := released_record hl ha hr
  have hnone : rec.holders.erase ⟨r.leaseNum.toNat, r.gen⟩ = [] := by simp [hh]
  have hu := (release_evaluates hl ha hr (by simp [hs])).trans (evaluate_no_waiter hrec hs hq)
  have hV := view_retireRecord hrec hnone
  have hA := (released_answers (senderOf p r) r l (startRequest p r s)).trans (retireRecord_answers l.record _)
  have hM := (released_start_compares hl hr).trans (retireRecord_compares hrec hs)
  rw [view_released_start hl ha hr] at hV
  have hempty : (released (senderOf p r) r l (startRequest p r s)).leases = [] := by
    have hend := endLease_leases ((hv.leaseAt _).trans hk)
    rw [hv.leases, hleases] at hend
    simpa [released, namedLease, tableErase] using hend
  have hhalt := quiesceHalt_of_last (s := s)
    (u := retireRecord l.record (released (senderOf p r) r l (startRequest p r s)))
    (by simp [hleases]) (by simp [hpart]) (by simp [hempty])
  simp only [retireRecord_keeps, released_keeps, startRequest_keeps] at hhalt
  have hT := ((view_endItem s _).trans (view_quiesceHalt s _)).trans hV
  have reads := reads_of_view hT
  refine ⟨_, exec_request_halting h hu (endFenceJobs_absent (a := senderOf p r)
    (by simpa using hfence) fun x hx => ?_), ?_, ?_, ?_, ?_,
    fun j hj => ?_, ?_, fun j hj => ?_, ?_, fun x hx => ?_, ?_, endItem_countsPublished (by simp),
    repliesHanded_of_answers hA (by simp)⟩
  · rw [agent_of_view hV]; exact (releasedView_leases hx).symm ▸ id
  · rw [hhalt]
    cases s.sweep.any isQuiesceJob <;>
      apply State.ext <;> simp [endItem_tables, hempty, hpart, enterHalted, postEvent, atBit, eventBit]
  · intro hj
    rw [hhalt, hj]
    simp [endItem, offerTimer, serving, enterHalted, postEvent]
  · intro hj
    rw [hhalt, if_pos (by simpa using hj)]
    exact endItem_offerStands (by simp)
  · simp [reads]
  · simp [reads, releasedView, hj]
  · simp [reads, releasedView, hg]
  · simp [reads, releasedView, hj]
  · simp [reads, releasedView]
  · simp [reads, releasedView, hx]
  · exact hM.marksCompared ((view_endItem s _).trans (view_quiesceHalt s _)) (by simp)

end Sys2Proof.Machine
end

section
/-! RELEASE and the grants of the evaluation after it (02, R15, R16, R38). -/

namespace Sys2Proof.Machine

/-- Two tokens can be drawn before the counter's end value. -/
theorem tokens_of_two {x : Token} (h : x.toNat + 2 < 18446744073709551615) :
    x ≠ Config.tokenEnd ∧ x + 1#64 ≠ Config.tokenEnd ∧ x + 2#64 ≠ Config.tokenEnd
      ∧ (x + 2#64).toNat = x.toNat + 2 := by
  simp only [Config.tokenEnd]
  refine ⟨?_, ?_, ?_, ?_⟩ <;> bv_omega

section
variable {s : State} {p : Port} {r : Request} {l : Lease} {rec : LockRecord} {w : Nat} {rest : List Nat} {e : WaitEntry}
  (hl : liveLease s r.leaseNum.toNat r.gen = some l) (ha : l.agent = senderOf p r)
  (hr : tableGet s.records l.record = some rec) (hn : e.record = l.record)
  (hres : tableGet s.leases e.reserved = some (.reserved e.agent w))
include hl ha hr hn hres

/-- The grant of a waiter after RELEASE's own acts. -/
theorem view_released_grantWait :
    let v := released (senderOf p r) r l (startRequest p r s)
    let dur := leaseDuration (s.domain rec.domain) e.leaseTicks
    view (grantWait l.record w e v) = grantedView l.record w e
        { rec with holders := rec.holders.erase ⟨r.leaseNum.toNat, r.gen⟩ } (handleOf s e.reserved) (s.token + 1#64) dur
        s.now (releasedView (senderOf p r) r l rec (view s))
      ∧ Answers (startRequest p r s) (grantWait l.record w e v) [(senderOf p r, releaseReply (senderOf p r) r l),
          (e.agent, grantedReply e (handleOf s e.reserved) (s.token + 1#64) dur)] := by
  have hv := startRequest_taken p r s
  obtain ⟨hV, hA⟩ := view_grantWait (w := w) (released_record hl ha hr) hn
  have hA := (released_answers (senderOf p r) r l (startRequest p r s)).trans hA
  rw [view_released_start hl ha hr] at hV
  have hne := ne_of_reserved (liveLease_eq_some.1 hl).2 hres
  simp only [released_handleOf hl ha hr hne, released_domain, released_keeps, hv.token, hv.now] at hV hA
  exact ⟨hV, hA⟩

omit hres in
theorem released_grantWait_compares :
    Compares s (grantWait l.record w e (released (senderOf p r) r l (startRequest p r s)))
      [.lease r.leaseNum.toNat, .wait w, .lease e.reserved] :=
  (released_start_compares hl hr).trans (grantWait_compares (released_record hl ha hr) hn)

theorem released_grantWait_wait {w2 : Nat} (hw : w2 ≠ w) :
    tableGet (grantWait l.record w e (released (senderOf p r) r l (startRequest p r s))).waits w2
      = tableGet s.waits w2 := by
  rw [wait_of_view (view_released_grantWait hl ha hr hn hres).1]; simp [grantedView, releasedView, hw]

theorem released_grantWait_lease {j : Nat} (hj : j ≠ r.leaseNum.toNat) (hj' : j ≠ e.reserved) :
    tableGet (grantWait l.record w e (released (senderOf p r) r l (startRequest p r s))).leases j
      = tableGet s.leases j := by
  rw [lease_of_view (view_released_grantWait hl ha hr hn hres).1]; simp [grantedView, releasedView, hj, hj']

theorem released_grantWait_handleOf {j : Nat} (hj : j ≠ r.leaseNum.toNat) :
    handleOf (grantWait l.record w e (released (senderOf p r) r l (startRequest p r s))) j = handleOf s j := by
  rw [handleOf, gen_of_view (view_released_grantWait hl ha hr hn hres).1]
  simp [grantedView, releasedView, hj, handleOf]

/-- The first waiter granted after the only holder's RELEASE is the record's only holder (01, R16). -/
theorem released_grantWait_record (hh : rec.holders = [⟨r.leaseNum.toNat, r.gen⟩]) (hq : rec.queue = w :: rest) :
    tableGet (grantWait l.record w e (released (senderOf p r) r l (startRequest p r s))).records l.record
      = some { rec with mode := e.mode, holders := [handleOf s e.reserved], queue := rest,
                        lastToken := s.token + 1#64 } := by
  rw [record_of_view (view_released_grantWait hl ha hr hn hres).1]
  simp [grantedView, hh, hq]

end

/-- The state after a RELEASE whose evaluation grants two heads. -/
def releasedToTwo (a : Agent) (r : Request) (l : Lease) (w1 w2 : Nat) (e1 e2 : WaitEntry) (v : State) : State :=
  grantWait l.record w2 e2 (grantWait l.record w1 e1 (released a r l v))

/-- The view after a RELEASE by the only holder whose evaluation grants two heads. -/
def releasedToTwoView (s : State) (a : Agent) (r : Request) (l : Lease) (rec : LockRecord) (w1 w2 : Nat)
    (rest : List Nat) (e1 e2 : WaitEntry) : View :=
  grantedView l.record w2 e2
    { rec with mode := e1.mode, holders := [handleOf s e1.reserved], queue := w2 :: rest, lastToken := s.token + 1#64 }
    (handleOf s e2.reserved) (s.token + 2#64) (leaseDuration (s.domain rec.domain) e2.leaseTicks) s.now
    (grantedView l.record w1 e1 { rec with holders := rec.holders.erase ⟨r.leaseNum.toNat, r.gen⟩ }
      (handleOf s e1.reserved) (s.token + 1#64) (leaseDuration (s.domain rec.domain) e1.leaseTicks) s.now
      (releasedView a r l rec (view s)))

section
variable {s : State} {p : Port} {r : Request} {l : Lease} {rec : LockRecord} {w1 w2 : Nat} {rest : List Nat}
  {e1 e2 : WaitEntry}
  (hl : liveLease s r.leaseNum.toNat r.gen = some l) (ha : l.agent = senderOf p r)
  (hr : tableGet s.records l.record = some rec) (hh : rec.holders = [⟨r.leaseNum.toNat, r.gen⟩])
  (hq : rec.queue = w1 :: w2 :: rest)
  (hn1 : e1.record = l.record) (hres1 : tableGet s.leases e1.reserved = some (.reserved e1.agent w1))
  (hn2 : e2.record = l.record) (hres2 : tableGet s.leases e2.reserved = some (.reserved e2.agent w2))
include hl ha hr hh hq hn1 hres1 hn2 hres2

theorem view_releasedToTwo :
    view (releasedToTwo (senderOf p r) r l w1 w2 e1 e2 (startRequest p r s))
      = releasedToTwoView s (senderOf p r) r l rec w1 w2 rest e1 e2
      ∧ Answers (startRequest p r s) (releasedToTwo (senderOf p r) r l w1 w2 e1 e2 (startRequest p r s))
        [(senderOf p r, releaseReply (senderOf p r) r l),
          (e1.agent, grantedReply e1 (handleOf s e1.reserved) (s.token + 1#64)
            (leaseDuration (s.domain rec.domain) e1.leaseTicks)),
          (e2.agent, grantedReply e2 (handleOf s e2.reserved) (s.token + 2#64)
            (leaseDuration (s.domain rec.domain) e2.leaseTicks))]
      ∧ Compares s (releasedToTwo (senderOf p r) r l w1 w2 e1 e2 (startRequest p r s))
        [.lease r.leaseNum.toNat, .wait w1, .lease e1.reserved, .wait w2, .lease e2.reserved] := by
  obtain ⟨hV1, hA1⟩ := view_released_grantWait hl ha hr hn1 hres1
  have hrec1 := released_grantWait_record hl ha hr hn1 hres1 hh hq
  have htok1 : (grantWait l.record w1 e1 (released (senderOf p r) r l (startRequest p r s))).token = s.token + 1#64 := by
    rw [token_of_view hV1]; rfl
  have hdom1 : ∀ d, (grantWait l.record w1 e1 (released (senderOf p r) r l (startRequest p r s))).domain d
      = s.domain d := fun d => (domain_congr (by simp) d).trans (released_domain s p r l d)
  obtain ⟨hV, hA2⟩ := view_grantWait (w := w2) hrec1 hn2
  have hA := hA1.trans hA2
  rw [hV1] at hV
  simp only [released_grantWait_handleOf hl ha hr hn1 hres1 (ne_of_reserved (liveLease_eq_some.1 hl).2 hres2), htok1,
    hdom1, grantWait_keeps, released_keeps, startRequest_keeps, BitVec.add_assoc,
    show 1#64 + 1#64 = 2#64 from rfl] at hV hA
  exact ⟨hV, hA, (released_grantWait_compares hl ha hr hn1).trans (grantWait_compares hrec1 hn2)⟩

/-- The heads that a RELEASE by the only holder leaves are granted while they want S (01, R16). -/
theorem release_grants_two (hs : rec.slot = none) (hww : w1 ≠ w2) (hw1 : tableGet s.waits w1 = some e1)
    (hw2 : tableGet s.waits w2 = some e2) (hm1 : e1.mode = .shared) (hm2 : e2.mode = .shared)
    (hrest : ∀ w3 e3, rest.head? = some w3 → tableGet s.waits w3 = some e3 → e3.mode = .exclusive)
    (ht : s.token.toNat + 2 < 18446744073709551615) :
    behaviourOf .release (senderOf p r) r (startRequest p r s)
      = releasedToTwo (senderOf p r) r l w1 w2 e1 e2 (startRequest p r s) := by
  obtain ⟨ht0, ht1, ht2, -⟩ := tokens_of_two ht
  have hrec := released_record hl ha hr
  have hrec1 := released_grantWait_record hl ha hr hn1 hres1 hh hq
  obtain ⟨hV1, -⟩ := view_released_grantWait hl ha hr hn1 hres1
  obtain ⟨hV, -, -⟩ := view_releasedToTwo hl ha hr hh hq hn1 hres1 hn2 hres2
  have hrec2 := record_of_view hV l.record
  simp only [releasedToTwoView, grantedView, View.setMark, View.setAgent, View.setLease, View.setRecord,
    Function.update_self] at hrec2
  refine (release_evaluates hl ha hr (by simp [hs])).trans
    (evaluate_of_heads hrec hs ?_ hrec2 (by simp) (by rw [token_of_view hV]; exact ht2))
  dsimp only
  rw [hq, grantHeads_grant (e := e1) hrec (by simp [hw1]) (by simp [compatible, hh]) (by simpa using ht0),
    grantHeads_grant hrec1 ((released_grantWait_wait hl ha hr hn1 hres1 hww.symm).trans hw2)
      (by simp [compatible, hm1, hm2]) (by rw [token_of_view hV1]; exact ht1)]
  refine grantHeads_blocked hrec2 (by simp) (.inr fun w3 e3 h3 hw3 => hrest w3 e3 h3 ?_)
  replace hw3 := (wait_of_view hV w3).symm.trans hw3
  by_cases h32 : w3 = w2
  · simp [h32, releasedToTwoView, grantedView] at hw3
  · by_cases h31 : w3 = w1
    · simp [h31, hww, releasedToTwoView, grantedView] at hw3
    · simpa [releasedToTwoView, grantedView, releasedView, h31, h32] using hw3

end

/-- Settles O29: after RELEASE's own acts the evaluation grants the X head, the two S heads, or the pending upgrade. -/
theorem releaseHandsOverToTheQueueHead : Obligations.ReleaseHandsOverToTheQueueHead := by
  refine ⟨?_, ?_, ?_⟩
  · intro s p r l rec w rest e hok h hpart hfence hl ha hr hh hq hs hw hn hm hea hres ht
    dsimp only
    have hne := ne_of_reserved (liveLease_eq_some.1 hl).2 hres
    have hu := (release_evaluates hl ha hr (by simp [hs])).trans (evaluate_grants_head (released_record hl ha hr) hs hq
      (e := e) (by simp [hw]) hn (by simp [compatible, hh]) (by simpa [grantLeft] using ht) (.inl hm))
    obtain ⟨hV, hA⟩ := view_released_grantWait hl ha hr hn hres
    have reads := reads_of_view ((view_endItem s _).trans hV)
    obtain ⟨-, -, htok⟩ := grantLeft_token ht
    refine ⟨_, exec_request_running h hu (by simp [hpart]) (by simp) hfence fun x hx hx' => ?_, ?_,
      endItem_offerStands (by simp), ?_, ?_, fun j hj => ?_, ?_, ?_, fun j hj hj' => ?_, ?_,
      fun j hj => ?_, ?_, fun j hj => ?_, ?_, ?_, fun x hx hx' => ?_, ?_, endItem_countsPublished (by simp), ?_⟩
    · rw [agent_of_view hV]; exact grantedView_leases (by rwa [releasedView_leases hx])
    · apply State.ext <;> simp [endItem_tables]
    · simpa [reads, grantedView] using htok
    · simp [reads, grantedView, hm, hq, hh, handleOf]
    · simp [reads, grantedView, releasedView, hj]
    · simp [reads, grantedView, releasedView, hne.symm]
    · simp [reads, grantedView, hm, View.leaseAt, LeaseSlot.lease?, leaseDuration]
    · simp [reads, grantedView, releasedView, hj, hj']
    · simp [reads, grantedView, releasedView]
    · simp [reads, grantedView, releasedView, hj]
    · simp [reads, grantedView]
    · simp [reads, grantedView, releasedView, hj]
    · simp [reads, grantedView, releasedView, hea.symm]
    · simp [reads, grantedView, releasedView, hea, handleOf]
    · simp [reads, grantedView, releasedView, hx, hx']
    · exact (released_grantWait_compares hl ha hr hn).marksCompared (view_endItem s _) (by simp)
    · have hR := repliesHanded_endItem hA
      simpa [reads, grantedView, releaseReply, grantedReply, hm, modeCode, leaseDuration, handleOf] using hR
  · intro s p r l rec w1 w2 rest e1 e2 hok h hpart hfence hl ha hr hh hq hs hww hw1 hn1 hm1 hea1 hres1 hw2 hn2 hm2 hea2
      hres2 heae hrest ht
    dsimp only
    have hne1 := ne_of_reserved (liveLease_eq_some.1 hl).2 hres1
    have hne2 := ne_of_reserved (liveLease_eq_some.1 hl).2 hres2
    have hne12 : e1.reserved ≠ e2.reserved := fun he => by
      rw [he, hres2] at hres1; simp [heae.symm] at hres1
    obtain ⟨-, -, -, htok⟩ := tokens_of_two ht
    have hu := release_grants_two hl ha hr hh hq hn1 hres1 hn2 hres2 hs hww hw1 hw2 hm1 hm2 hrest ht
    obtain ⟨hV, hA, hM⟩ := view_releasedToTwo hl ha hr hh hq hn1 hres1 hn2 hres2
    have hT := (view_endItem s _).trans hV
    have reads := reads_of_view hT
    refine ⟨_, exec_request_running h hu (by simp [releasedToTwo, hpart]) (by simp [releasedToTwo]) hfence
        fun x hx hx' => ?_, ?_,
      endItem_offerStands (by simp [releasedToTwo]), htok ▸ congrArg BitVec.toNat (token_of_view hT), ?_,
      fun j hj => ?_, ?_, ?_, ?_, fun j hj hj1 hj2 => ?_, ?_, fun j hj => ?_, ?_, ?_, fun j hj1 hj2 => ?_, ?_, ?_, ?_,
      fun x hx hx1 hx2 => ?_, hM.marksCompared (view_endItem s _) (by simp [releasedToTwo]),
      endItem_countsPublished (by simp [releasedToTwo]),
      by simpa [releaseReply, grantedReply, hm1, hm2, modeCode, leaseDuration, handleOf] using repliesHanded_endItem hA⟩
    · rw [agent_of_view hV]; exact grantedView_leases (grantedView_leases (by rwa [releasedView_leases hx]))
    · apply State.ext <;> simp [endItem_tables, releasedToTwo]
    all_goals simp only [reads, releasedToTwoView]
    · simp [grantedView, hm1, handleOf]
    · simp [grantedView, releasedView, hj]
    · simp [grantedView, releasedView, hne1.symm, hne2.symm]
    · simp [grantedView, hm1, View.leaseAt, LeaseSlot.lease?, leaseDuration, hne12]
    · simp [grantedView, hm2, View.leaseAt, LeaseSlot.lease?, leaseDuration]
    · simp [grantedView, releasedView, hj, hj1, hj2]
    · simp [grantedView, releasedView]
    · simp [grantedView, releasedView, hj]
    · simp [grantedView, hww]
    · simp [grantedView]
    · simp [grantedView, releasedView, hj1, hj2]
    · simp [grantedView, releasedView, hea1.symm, hea2.symm]
    · simp [grantedView, releasedView, hea1, heae, handleOf]
    · simp [grantedView, releasedView, hea2, heae.symm, handleOf]
    · simp [grantedView, releasedView, hx, hx1, hx2]
  · intro s p r l lu rec u hok h hpart hfence hl ha hr hs hh hnum hlu hlua ht
    dsimp only
    have hrec := released_record hl ha hr
    have hlu' := (released_leaseAt hl ha hr hnum).trans hlu
    have hu := (release_evaluates hl ha hr fun u' hu' he => by
      rw [hs] at hu'; cases hu'; simp [he] at hnum).trans
      (evaluate_grants_upgrade hrec hs hh hlu' (by simpa [grantLeft] using ht))
    obtain ⟨hV, hA⟩ := view_grantUpgrade hrec hlu'
    have hA := (released_answers (senderOf p r) r l (startRequest p r s)).trans hA
    have hM := (released_start_compares hl hr).trans (grantUpgrade_compares hrec hlu')
    rw [view_released_start hl ha hr] at hV
    simp only [released_keeps, startRequest_keeps] at hV hA
    have reads := reads_of_view ((view_endItem s _).trans hV)
    obtain ⟨-, -, htok⟩ := grantLeft_token ht
    refine ⟨_, exec_request_running h hu (by simp [hpart]) (by simp) hfence fun x hx => ?_, ?_,
      endItem_offerStands (by simp), ?_, ?_, fun j hj => ?_, ?_, ?_, fun j hj hj' => ?_, ?_, fun j hj => ?_, ?_, ?_,
      fun x hx hx' => ?_, ?_, endItem_countsPublished (by simp), ?_⟩
    · rw [agent_of_view hV]
      by_cases hxl : x = lu.agent
      · subst hxl; simp [releasedView, hx]
      · simp [releasedView, hx, hxl]
    · apply State.ext <;> simp [endItem_tables]
    · simpa [reads] using htok
    · simp [reads, hh]
    · simp [reads, releasedView, hj]
    · simp [reads, releasedView, hnum.symm]
    · simp [reads, View.leaseAt, LeaseSlot.lease?]
    · simp [reads, releasedView, hj, hj']
    · simp [reads, releasedView]
    · simp [reads, releasedView, hj]
    · simp [reads, releasedView, hlua.symm]
    · simp [reads, releasedView, hlua]
    · simp [reads, releasedView, hx, hx']
    · exact hM.marksCompared (view_endItem s _) (by simp)
    · have hR := repliesHanded_endItem hA
      simpa [reads, releaseReply] using hR

end Sys2Proof.Machine
end

section
/-! ACQUIRE granted at once, and ACQUIRE that waits (01, R9 to R11). -/

namespace Sys2Proof.Machine

/-! ### A lease granted to a request -/

/-- The view after a lease granted to a request at once, with the token and the duration given, at a time
(01, R9, R10). -/
def requestedView (n k : Nat) (a : Agent) (r : Request) (m : Mode) (rec : LockRecord) (h : Handle) (x : Token)
    (dur now : Nat) (v : View) : View :=
  ((((v.setToken x).setRecord n (some
    { rec with mode := if rec.holders.isEmpty then m else rec.mode, holders := rec.holders ++ [h],
               lastToken := x })).setLease k (some (.inUse ⟨a, n, m, x, dur, now + dur⟩))).setAgent a
    fun g => { g with leases := g.leases ++ [h], tags := g.tags.set r.tag.val .replying r.tag.isLt }).setMark (.lease k)
    (max (now + dur) ((v.agent a).keepalive + dur) ≤ now)

/-- The GRANTED reply to a request. -/
def requestedReply (a : Agent) (r : Request) (m : Mode) (h : Handle) (x : Token) (dur : Nat) : Reply :=
  replyTo a r .granted
    { num := BitVec.ofNat 16 h.num, gen := h.gen, mode := BitVec.ofNat 8 (modeCode m), token := x,
      ticks := BitVec.ofNat 16 dur }

/-- A grant empties no lease list. -/
theorem requestedView_leases {n k : Nat} {a x : Agent} {r : Request} {m : Mode} {rec : LockRecord} {h : Handle}
    {y : Token} {dur now : Nat} {v : View} (hx : (v.agent x).leases ≠ []) :
    ((requestedView n k a r m rec h y dur now v).agent x).leases ≠ [] := by
  by_cases hxa : x = a
  · subst hxa; simp [requestedView]
  · simpa [requestedView, hxa] using hx

/-- A lease granted to a request in a listed record. -/
theorem view_grantRequest {n : Nat} {rec : LockRecord} {v : State} (hr : tableGet v.records n = some rec) (a : Agent)
    (r : Request) (m : Mode) (k : Nat) :
    let dur := leaseDuration (v.domain rec.domain) r.leaseTicks.toNat
    let h := handleOf v k
    view (grantRequest a r m n k v) = requestedView n k a r m rec h (v.token + 1#64) dur v.now (view v)
      ∧ Answers v (grantRequest a r m n k v) [(a, requestedReply a r m h (v.token + 1#64) dur)]
      ∧ Compares v (grantRequest a r m n k v) [.lease k] := by
  intro dur h
  have hh : handleOf (grantLease n k a m r.leaseTicks.toNat v) k = h := by
    simp only [handleOf, Handle.mk.injEq, true_and, h]; exact genOf_congr (by simp) k
  rw [grantRequest, answerGranted_of_lease (leaseAt_grantLease hr k a m _), hh]
  refine ⟨?_, (answerTag_answerTo _ _ _ _ _ _).after (by simp) (by simp),
    (grantLease_compares hr k a m _).trans (answerTag_compares ..)⟩
  rw [view_answerTag, view_grantLease hr]
  simp [requestedView, handleOf, dur, h]

/-- What a lease granted to a request leaves alone. -/
@[simp] theorem grantRequest_keeps (a : Agent) (r : Request) (m : Mode) (n k : Nat) (v : State) :
    (grantRequest a r m n k v).now = v.now ∧ (grantRequest a r m n k v).tickPeriod = v.tickPeriod ∧
    (grantRequest a r m n k v).tickPos = v.tickPos ∧ (grantRequest a r m n k v).offered = v.offered ∧
    (grantRequest a r m n k v).gens = v.gens ∧ (grantRequest a r m n k v).waits = v.waits ∧
    (grantRequest a r m n k v).domains = v.domains ∧ (grantRequest a r m n k v).seeded = v.seeded ∧
    (grantRequest a r m n k v).part = v.part ∧ (grantRequest a r m n k v).sweep = v.sweep ∧
    (grantRequest a r m n k v).outer = v.outer ∧ (grantRequest a r m n k v).inner = v.inner ∧
    (grantRequest a r m n k v).chosen = v.chosen ∧ (grantRequest a r m n k v).pools = v.pools ∧
    (grantRequest a r m n k v).mbox = v.mbox ∧ (grantRequest a r m n k v).args = v.args ∧
    (grantRequest a r m n k v).res = v.res ∧ (grantRequest a r m n k v).events = v.events ∧
    (grantRequest a r m n k v).eventEnable = v.eventEnable ∧ (grantRequest a r m n k v).nowLatch = v.nowLatch ∧
    (grantRequest a r m n k v).spiData = v.spiData ∧ (grantRequest a r m n k v).pending = v.pending := by
  simp [grantRequest]

/-- The duration of a lease granted to a request (02, R32). -/
theorem leaseDuration_toNat (d : Domain) (x : BitVec 16) :
    leaseDuration d x.toNat = if x = 0#16 then d.leaseDefault.toNat else min x.toNat d.leaseMax.toNat := by
  by_cases hx : x = 0#16
  · simp [hx, leaseDuration]
  · rw [leaseDuration, if_neg (toNat_ne_zero hx), if_neg hx]

/-- A request's grant is made while the counter has one left (02, R48). -/
theorem grantNow_of_token {a : Agent} {r : Request} {f : State → State} {v : State} (ht : grantLeft v)
    (hf : (f v).token = v.token + 1#64) : grantNow a r f v = f v := by
  obtain ⟨h0, h1, -⟩ := grantLeft_token ht
  rw [grantNow, if_neg h0, withTokenEnd_of_token (.inr (by rw [hf]; exact h1))]

/-- An admitted request's item that empties no lease list, in a part that is then not QUIESCING. -/
theorem exec_request_growing {s u : State} {p : Port} {r : Request} {k : Kind} (h : Admitted s p r k)
    (hu : behaviourOf k (senderOf p r) r (startRequest p r s) = u) (hpart : u.part ≠ .quiescing)
    (hleases : ∀ x, (s.agent x).leases ≠ [] → (u.agent x).leases ≠ []) : exec (rowOf k) s = .next (endItem s u) :=
  exec_request h hu (endFenceJobs_quiet hleases) (quiesceHalt_running hpart)

/-! ### ACQUIRE of an absent key -/

/-- The record that an ACQUIRE creates, before its first holder (01, R3). -/
def emptyRecord (key : Key) (d : Fin 16) (m : Mode) : LockRecord :=
  { key := key, domain := d, mode := m, holders := [], queue := [], slot := none, lastToken := 0 }

/-- The grant of an ACQUIRE that creates its record. -/
def created (a : Agent) (r : Request) (m : Mode) (d : Fin 16) (n k : Nat) (v : State) : State :=
  grantRequest a r m n k (newRecord r.key d m n v)

/-- The view after an admitted ACQUIRE that has created its record. -/
def createdView (s : State) (a : Agent) (r : Request) (m : Mode) (d : Fin 16) (n k : Nat) : View :=
  requestedView n k a r m (emptyRecord r.key d m) (handleOf s k) (s.token + 1#64)
    (leaseDuration (s.domain d) r.leaseTicks.toNat) s.now ((view s).setRecord n (some (emptyRecord r.key d m)))

theorem view_created {s : State} (p : Port) (r : Request) (m : Mode) (d : Fin 16) {n : Nat} (k : Nat)
    (hn : tableGet s.records n = none) :
    view (created (senderOf p r) r m d n k (startRequest p r s)) = createdView s (senderOf p r) r m d n k
      ∧ Answers (startRequest p r s) (created (senderOf p r) r m d n k (startRequest p r s))
        [(senderOf p r, requestedReply (senderOf p r) r m (handleOf s k) (s.token + 1#64)
          (leaseDuration (s.domain d) r.leaseTicks.toNat))]
      ∧ Compares s (created (senderOf p r) r m d n k (startRequest p r s)) [.lease k] := by
  have hv := startRequest_taken p r s
  have hnew : view (newRecord r.key d m n (startRequest p r s))
      = (view s).setRecord n (some (emptyRecord r.key d m)) := by
    rw [newRecord, view_setRecords, hv.view]; rfl
  have hrec : tableGet (newRecord r.key d m n (startRequest p r s)).records n = some (emptyRecord r.key d m) := by
    rw [record_of_view hnew]; simp
  have hh : handleOf (newRecord r.key d m n (startRequest p r s)) k = handleOf s k := hv.handleOf k
  have hd : (newRecord r.key d m n (startRequest p r s)).domain d = s.domain d := hv.domain d
  have htok : (newRecord r.key d m n (startRequest p r s)).token = s.token := hv.token
  have hnow : (newRecord r.key d m n (startRequest p r s)).now = s.now := hv.now
  have hmade : Compares s (newRecord r.key d m n (startRequest p r s)) [] :=
    ⟨hnow, by simp, fun e _ => by
      rw [hnew, View.deadline_setRecord _ (.inl (by simp [hn, emptyRecord]))]; exact ⟨Iff.rfl, rfl⟩⟩
  obtain ⟨hV, hA, hM⟩ := view_grantRequest hrec (senderOf p r) r m k
  rw [hnew] at hV
  simp only [hh, htok, hnow, emptyRecord, hd] at hV hA
  exact ⟨hV, hA.after rfl rfl, hmade.trans hM⟩

section
variable {s : State} {p : Port} {r : Request} {m : Mode} {d : Fin 16} {n k : Nat}
  (hm : modeOfByte r.mode = some m) (hr : recordOfKey s r.key = none) (hd : lookupDomain s r.key = some d)
  (hq : quotaCount s (senderOf p r) < (s.agent (senderOf p r)).quota)
  (hls : (s.pool .leasePool).level ≠ .shed) (hts : (s.pool .lockTable).level ≠ .shed)
  (hlc : s.leases.length < 8192) (htc : s.records.length < 4096)
  (hn : lowestFree s.records 4096 = some n) (hk : lowestFree s.leases 8192 = some k)
include hm hr hd hq hls hts hlc htc hn hk

/-- An ACQUIRE of an absent key that no resource check refuses creates its record (01, R9). -/
theorem acquire_creates : behaviourOf .acquire (senderOf p r) r (startRequest p r s)
    = grantNow (senderOf p r) r (created (senderOf p r) r m d n k) (startRequest p r s) := by
  have hv := startRequest_taken p r s
  rw [acquire_carried_out hm (immediateDecision_create hr _ m _) rfl
    (resourceFailure_none hq (by simp [neededPools, hls, hts]) (by simp [neededPools, poolCapacity, poolCount, hlc, htc,
      Config.leaseCapacity, Config.lockCapacity]))]
  simp only [carryOut, grantCreating, hv.lookupDomain, hd, hv.records, hv.leases, Config.lockCapacity, hn,
    Config.leaseCapacity, hk]
  rfl

end

/-- What the grant of an ACQUIRE that creates its record leaves alone. -/
@[simp] theorem created_keeps (a : Agent) (r : Request) (m : Mode) (d : Fin 16) (n k : Nat) (v : State) :
    (created a r m d n k v).now = v.now ∧ (created a r m d n k v).tickPeriod = v.tickPeriod ∧
    (created a r m d n k v).tickPos = v.tickPos ∧ (created a r m d n k v).offered = v.offered ∧
    (created a r m d n k v).gens = v.gens ∧ (created a r m d n k v).waits = v.waits ∧
    (created a r m d n k v).domains = v.domains ∧ (created a r m d n k v).seeded = v.seeded ∧
    (created a r m d n k v).part = v.part ∧ (created a r m d n k v).sweep = v.sweep ∧
    (created a r m d n k v).outer = v.outer ∧ (created a r m d n k v).inner = v.inner ∧
    (created a r m d n k v).chosen = v.chosen ∧ (created a r m d n k v).pools = v.pools ∧
    (created a r m d n k v).mbox = v.mbox ∧ (created a r m d n k v).args = v.args ∧
    (created a r m d n k v).res = v.res ∧ (created a r m d n k v).events = v.events ∧
    (created a r m d n k v).eventEnable = v.eventEnable ∧ (created a r m d n k v).nowLatch = v.nowLatch ∧
    (created a r m d n k v).spiData = v.spiData ∧ (created a r m d n k v).pending = v.pending := by
  simp [created, newRecord]

/-- Settles O23: the immediate decision creates the record, no resource check refuses it, and its first holder is
granted. -/
theorem acquireCreatesARecord : Obligations.AcquireCreatesARecord := by
  intro s p r m d n k h hm hr hd ht hq hls hts hlc htc hn hk
  dsimp only
  have hv := startRequest_taken p r s
  obtain ⟨hV, hA, hM⟩ := view_created p r m d k (lowestFree_spec hn).1
  have hu := (acquire_creates hm hr hd hq hls hts hlc htc hn hk).trans
    (grantNow_of_token (by simpa [grantLeft] using ht) (by rw [token_of_view hV, hv.token]; rfl))
  have reads := reads_of_view ((view_endItem s _).trans hV)
  refine ⟨_, exec_request_growing h hu (by simp [h.running (.inl rfl)]) fun x hx => ?_, ?_,
    endItem_offerStands (by simp), ?_, ?_, fun j hj => ?_, ?_, fun j hj => ?_, ?_, fun x hx => ?_, hM.marksCompared (view_endItem s _) (by simp),
    endItem_countsPublished (by simp), ?_⟩
  · rw [agent_of_view hV]; exact requestedView_leases hx
  · apply State.ext <;> simp [endItem_tables]
  all_goals simp only [reads, createdView]
  · simpa [requestedView] using (grantLeft_token ht).2.2
  · simp [requestedView, emptyRecord, handleOf]
  · simp [requestedView, hj]
  · simp [requestedView, View.leaseAt, LeaseSlot.lease?, leaseDuration_toNat]
  · simp [requestedView, hj]
  · simp [requestedView, handleOf]
  · simp [requestedView, hx]
  · simpa [requestedView, requestedReply, leaseDuration_toNat, handleOf] using repliesHanded_endItem hA

/-! ### ACQUIRE that joins the holders -/

/-- Settles O24: the immediate decision joins the holders, no resource check refuses it, and the lease is granted. -/
theorem acquireJoinsTheHolders : Obligations.AcquireJoinsTheHolders := by
  intro s p r n k rec hok h hm hr hmode hh hq hs hheld ht hquota hls hlc hk
  dsimp only
  have hv := startRequest_taken p r s
  have hm' : modeOfByte r.mode = some .shared := by simp [hm, modeOfByte]
  have hrec : tableGet (startRequest p r s).records n = some rec := by rw [hv.records]; exact recordOfKey_get hok hr
  obtain ⟨hV, hA, hM⟩ := view_grantRequest hrec (senderOf p r) r .shared k
  have hbeh : behaviourOf .acquire (senderOf p r) r (startRequest p r s)
      = grantNow (senderOf p r) r (grantRequest (senderOf p r) r .shared n k) (startRequest p r s) := by
    rw [acquire_carried_out hm' (immediateDecision_join hr hheld (by simp [waitsOn, hq])
      ⟨hs, hq, by simp [compatible, hmode]⟩ _) rfl (resourceFailure_none hquota (by simp [neededPools, hls])
      (by simp [neededPools, poolCapacity, poolCount, hlc, Config.leaseCapacity]))]
    simp only [carryOut, grantJoining, hv.leases, Config.leaseCapacity, hk]
  have hu := hbeh.trans (grantNow_of_token (by simpa [grantLeft] using ht) (by rw [token_of_view hV]; rfl))
  have hM := (Compares.none hv.view hv.now).trans hM
  simp only [hv.view, hv.handleOf, hv.token, hv.now, hv.domain] at hV hA
  have reads := reads_of_view ((view_endItem s _).trans hV)
  refine ⟨_, exec_request_growing h hu (by simp [h.running (.inl rfl)]) fun x hx => ?_, ?_,
    endItem_offerStands (by simp), ?_, ?_, fun j hj => ?_, ?_, fun j hj => ?_, ?_, fun x hx => ?_, hM.marksCompared (view_endItem s _) (by simp),
    endItem_countsPublished (by simp), ?_⟩
  · rw [agent_of_view hV]; exact requestedView_leases hx
  · apply State.ext <;> simp [endItem_tables]
  all_goals simp only [reads]
  · simpa [requestedView] using (grantLeft_token ht).2.2
  · simp [requestedView, hh, handleOf]
  · simp [requestedView, hj]
  · simp [requestedView, View.leaseAt, LeaseSlot.lease?, leaseDuration_toNat]
  · simp [requestedView, hj]
  · simp [requestedView, handleOf]
  · simp [requestedView, hx]
  · simpa [requestedView, requestedReply, leaseDuration_toNat, handleOf, modeCode] using repliesHanded_endItem hA

/-! ### ACQUIRE that waits -/

/-- The view after a request has entered the queue of a record (01, R11; 03, R54, R55). -/
def queuedView (n w : Nat) (rec : LockRecord) (e : WaitEntry) (now : Nat) (v : View) : View :=
  ((((v.setRecord n (some { rec with queue := rec.queue ++ [w] })).setWait w (some e)).setLease e.reserved
    (some (.reserved e.agent w))).setTag e.agent e.tag .waiting).setMark (.wait w) (∃ x, e.deadline = some x ∧ x ≤ now)

/-- The wait entry of a request (03, Table 3-1). -/
def waitEntryOf (a : Agent) (r : Request) (m : Mode) (n k : Nat) (dom : Domain) (now : Nat) : WaitEntry :=
  { record := n, agent := a, tag := r.tag, mode := m, leaseTicks := r.leaseTicks.toNat, reserved := k,
    deadline := waitDeadline dom now r.waitTicks.toNat }

/-- The deadline of a wait (03, Table 3-2). -/
theorem waitDeadline_eq (d : Domain) (now ticks : Nat) : waitDeadline d now ticks
    = if ticks = 65535 ∧ d.waitCap.toNat = 65535 then none else some (now + min ticks d.waitCap.toNat) := rfl

/-- A request enters the queue of a listed record. -/
theorem view_enqueue {n w k : Nat} {rec : LockRecord} {v : State} (hr : tableGet v.records n = some rec)
    (hw : lowestFree v.waits 2048 = some w) (hk : lowestFree v.leases 8192 = some k) (a : Agent)
    (r : Request) (m : Mode) :
    view (enqueue a r m n v) = queuedView n w rec (waitEntryOf a r m n k (v.domain rec.domain) v.now) v.now (view v) := by
  have hset : ∀ (rec' : LockRecord) (e : WaitEntry) (x : LeaseSlot),
      view { v with records := tableSet v.records n rec', waits := tableSet v.waits w e,
                    leases := tableSet v.leases k x }
        = (((view v).setRecord n (some rec')).setWait w (some e)).setLease k (some x) := fun rec' e x => by
    ext1 <;> try simp [view]
    all_goals funext j; simp [Function.update_apply]
  simp only [enqueue, hr, Config.waitCapacity, hw, Config.leaseCapacity, hk, view_recompare, view_setTag, hset]
  simp [queuedView, waitEntryOf, View.Due, View.deadline]

theorem enqueue_compares {n w k : Nat} {rec : LockRecord} {v : State} (hr : tableGet v.records n = some rec)
    (hw : lowestFree v.waits 2048 = some w) (hk : lowestFree v.leases 8192 = some k) (a : Agent)
    (r : Request) (m : Mode) :
    Compares v (enqueue a r m n v) [.wait w] := by
  have hv := view_enqueue hr hw hk a r m
  have hnow : (enqueue a r m n v).now = v.now := by
    simp [enqueue, hr, Config.waitCapacity, hw, Config.leaseCapacity, hk]
  have hreserve : ∀ (u : View) (x : TimedEntry), u.lease k = none →
      (u.setLease k (some (.reserved a w))).deadline x = u.deadline x := fun u x hu => by
    by_cases hx : x = .lease k
    · subst hx; simp [View.deadline, View.leaseAt, hu, LeaseSlot.lease?]
    · exact View.deadline_setLease _ _ hx
  refine ⟨hnow, fun e he => ?_, fun e he => ?_⟩
  · obtain rfl := List.mem_singleton.1 he
    rw [hv, hnow]; simp [queuedView, View.Due, View.deadline]
  · have hk' : e ≠ .wait w := fun h => he (by simp [h])
    rw [hv, queuedView, View.deadline_setMark, View.deadline_setTag, waitEntryOf,
      hreserve _ _ (by simpa using (lowestFree_spec hk).1), View.deadline_setWait _ _ hk',
      View.deadline_setRecord _ (.inl (by simp [hr]))]
    simp [hk']

/-- Entering a queue changes the tables, the agent's tag and the marks alone. -/
theorem enqueue_keeps {n w k : Nat} {rec : LockRecord} {v : State} (hr : tableGet v.records n = some rec)
    (hw : lowestFree v.waits 2048 = some w) (hk : lowestFree v.leases 8192 = some k) (a : Agent)
    (r : Request) (m : Mode) :
    enqueue a r m n v = { v with records := (enqueue a r m n v).records, leases := (enqueue a r m n v).leases,
                                 waits := (enqueue a r m n v).waits, agents := (enqueue a r m n v).agents,
                                 marks := (enqueue a r m n v).marks } := by
  apply State.ext <;> simp [enqueue, hr, Config.waitCapacity, hw, Config.leaseCapacity, hk]

/-- Settles O25: the immediate decision waits, no resource check refuses it, and the request enters the queue. -/
theorem acquireWaitsInTheQueue : Obligations.AcquireWaitsInTheQueue := by
  intro s p r m n w k rec hok h hm hr hheld hwaits hfree hticks hlimit hquota hls hws hlc hwc hw hk
  dsimp only
  have hv := startRequest_taken p r s
  have hrec : tableGet (startRequest p r s).records n = some rec := by rw [hv.records]; exact recordOfKey_get hok hr
  have hw' : lowestFree (startRequest p r s).waits 2048 = some w := by rw [hv.waits, hw]
  have hk' : lowestFree (startRequest p r s).leases 8192 = some k := by rw [hv.leases, hk]
  have hu : behaviourOf .acquire (senderOf p r) r (startRequest p r s)
      = enqueue (senderOf p r) r m n (startRequest p r s) :=
    acquire_carried_out hm (immediateDecision_enqueue hr hheld hwaits hfree (toNat_ne_zero hticks) hlimit) rfl
      (resourceFailure_none hquota (by simp [neededPools, hls, hws]) (by simp [neededPools, poolCapacity, poolCount, hlc,
        hwc, Config.leaseCapacity, Config.waitCapacity]))
  have hV := view_enqueue hrec hw' hk' (senderOf p r) r m
  have hM := (Compares.none hv.view hv.now).trans (enqueue_compares hrec hw' hk' (senderOf p r) r m)
  have hkeep := enqueue_keeps hrec hw' hk' (senderOf p r) r m
  simp only [hv.view, hv.now, hv.domain] at hV
  have reads := reads_of_view ((view_endItem s _).trans hV)
  have hpart : (enqueue (senderOf p r) r m n (startRequest p r s)).part = .running := by
    rw [hkeep]; simp [h.running (.inl rfl)]
  refine ⟨_, exec_request_growing h hu (by simp [hpart]) fun x hx => ?_, ?_, endItem_offerStands (by rw [hkeep]; simp),
    ?_, fun j hj => ?_, ?_, fun j hj => ?_, ?_, fun j hj => ?_, ⟨?_, fun x hx => ?_⟩,
    hM.marksCompared (view_endItem s _) (by simp), endItem_countsPublished (by rw [hkeep]; simp)⟩
  · rw [agent_of_view hV]
    by_cases hxa : x = senderOf p r
    · subst hxa; simpa [queuedView, waitEntryOf] using hx
    · simpa [queuedView, waitEntryOf, hxa] using hx
  · apply State.ext <;> simp [endItem_tables] <;> rw [hkeep] <;> simp [startRequest_ports]
  all_goals simp only [reads]
  · simp [queuedView]
  · simp [queuedView, hj]
  · simp [queuedView, waitEntryOf, waitDeadline_eq]
  · simp [queuedView, hj]
  · simp [queuedView, waitEntryOf]
  · simp [queuedView, waitEntryOf, hj]
  · simp [queuedView, waitEntryOf, State.agent]
  · simp [queuedView, waitEntryOf, State.agent, hx]

end Sys2Proof.Machine
end

section
/-! UPGRADE, DOWNGRADE and what leaves the slot (01, R19 to R24). -/

namespace Sys2Proof.Machine

/-! ### Counts that stay -/

/-- A record changed leaves the number of records. -/
theorem updRecord_records_length {v : State} (hok : Rising v.records) (n : Nat) (f : LockRecord → LockRecord) :
    (updRecord n f v).records.length = v.records.length := by
  unfold updRecord
  split
  · rename_i rec hr; exact length_tableSet_of_get hok hr _
  · rfl

/-- A lease changed leaves the number of lease entries. -/
theorem updLease_leases_length {v : State} (hok : Rising v.leases) (k : Nat) (f : Lease → Lease) :
    (updLease k f v).leases.length = v.leases.length := by
  unfold updLease
  split
  · rename_i l hl; exact length_tableSet_of_get hok (leaseAt_eq_some.1 hl) _
  · rfl

/-- The counts of a state with as many records, leases and waits. -/
theorem poolCounts_of_lengths {s u : State} (hr : u.records.length = s.records.length)
    (hl : u.leases.length = s.leases.length) (hw : u.waits.length = s.waits.length) (k : Pool) :
    poolCount u k = poolCount s k := by cases k <;> assumption

/-! ### UPGRADE by the only holder -/

/-- The grant of an UPGRADE at once (01, R20). -/
def upgraded (a : Agent) (r : Request) (l : Lease) (v : State) : State :=
  answerGranted a r.tag r.kind (namedLease r) (upgradeLease l.record (namedLease r) v)

/-- The view after the grant of an UPGRADE at once. -/
def upgradedView (a : Agent) (r : Request) (l : Lease) (rec : LockRecord) (x : Token) (v : View) : View :=
  (((v.setToken x).setRecord l.record (some { rec with mode := .exclusive, lastToken := x })).setLease r.leaseNum.toNat
    (some (.inUse { l with mode := .exclusive, token := x }))).setTag a r.tag .replying

theorem view_upgraded {v : State} {r : Request} {l : Lease} {rec : LockRecord}
    (hl : liveLease v r.leaseNum.toNat r.gen = some l) (hr : tableGet v.records l.record = some rec) (a : Agent) :
    view (upgraded a r l v) = upgradedView a r l rec (v.token + 1#64) (view v)
      ∧ Answers v (upgraded a r l v) [(a, replyTo a r .granted
        { num := r.leaseNum, gen := r.gen, mode := 2#8, token := v.token + 1#64,
          ticks := BitVec.ofNat 16 l.duration })] := by
  obtain ⟨hg, hk⟩ := liveLease_eq_some.1 hl
  have hV := view_upgradeLease hr hk
  have hlease : leaseAt (upgradeLease l.record r.leaseNum.toNat v) r.leaseNum.toNat
      = some { l with mode := .exclusive, token := v.token + 1#64 } := by
    simp [leaseAt_of_view hV, View.leaseAt, LeaseSlot.lease?]
  have hh : handleOf (upgradeLease l.record r.leaseNum.toNat v) r.leaseNum.toNat = ⟨r.leaseNum.toNat, r.gen⟩ := by
    simp only [handleOf, Handle.mk.injEq, true_and]; exact (genOf_congr (by simp) _).trans hg
  rw [upgraded, namedLease, answerGranted_of_lease hlease, hh]
  have hc : grantContent ⟨r.leaseNum.toNat, r.gen⟩ { l with mode := .exclusive, token := v.token + 1#64 }
      = { num := r.leaseNum, gen := r.gen, mode := 2#8, token := v.token + 1#64,
          ticks := BitVec.ofNat 16 l.duration } := by
    simp [grantContent, leaseContent, modeCode]
  rw [hc]
  exact ⟨by rw [view_answerTag, hV]; rfl, (answerTag_answerTo _ _ _ _ _ _).after (by simp) (by simp)⟩

/-- What the grant of an UPGRADE at once leaves alone. -/
@[simp] theorem upgraded_keeps (a : Agent) (r : Request) (l : Lease) (v : State) :
    (upgraded a r l v).now = v.now ∧ (upgraded a r l v).tickPeriod = v.tickPeriod ∧
    (upgraded a r l v).tickPos = v.tickPos ∧ (upgraded a r l v).marks = v.marks ∧
    (upgraded a r l v).offered = v.offered ∧ (upgraded a r l v).gens = v.gens ∧ (upgraded a r l v).waits = v.waits ∧
    (upgraded a r l v).domains = v.domains ∧ (upgraded a r l v).seeded = v.seeded ∧
    (upgraded a r l v).part = v.part ∧ (upgraded a r l v).sweep = v.sweep ∧ (upgraded a r l v).outer = v.outer ∧
    (upgraded a r l v).inner = v.inner ∧ (upgraded a r l v).chosen = v.chosen ∧ (upgraded a r l v).pools = v.pools ∧
    (upgraded a r l v).mbox = v.mbox ∧ (upgraded a r l v).args = v.args ∧ (upgraded a r l v).res = v.res ∧
    (upgraded a r l v).events = v.events ∧ (upgraded a r l v).eventEnable = v.eventEnable ∧
    (upgraded a r l v).nowLatch = v.nowLatch ∧ (upgraded a r l v).spiData = v.spiData ∧
    (upgraded a r l v).pending = v.pending := by
  simp [upgraded]

theorem upgraded_poolCount {v : State} (hrec : Rising v.records) (hlease : Rising v.leases) (a : Agent) (r : Request)
    (l : Lease) (k : Pool) : poolCount (upgraded a r l v) k = poolCount v k := by
  refine poolCounts_of_lengths ?_ ?_ (by simp) k
  · simpa [upgraded, upgradeLease] using updRecord_records_length (v := { v with token := v.token + 1#64 }) hrec _ _
  · simpa [upgraded, upgradeLease] using updLease_leases_length (v := updRecord l.record
      (fun r => { r with mode := .exclusive, lastToken := v.token + 1#64 }) { v with token := v.token + 1#64 })
      (by simpa using hlease) (namedLease r) fun l => { l with mode := .exclusive, token := v.token + 1#64 }

/-- The tables of records and of leases in canonical form. -/
theorem tables_rising {s : State} (hok : tablesOk s = true) : Rising s.records ∧ Rising s.leases := by
  obtain ⟨hrec, hlease, -⟩ := (tablesOk_iff s).1 hok
  exact ⟨((tableWf_iff _ _).1 hrec).1, ((tableWf_iff _ _).1 hlease).1⟩

/-- Settles O30: an UPGRADE by the only holder is granted at once, with a grant left. -/
theorem upgradeGrantsTheOnlyHolder : Obligations.UpgradeGrantsTheOnlyHolder := by
  intro s p r l rec hok h hl ha hm hr hd hs hh ht
  dsimp only
  have hv := startRequest_taken p r s
  obtain ⟨hrec, hlease⟩ := tables_rising hok
  obtain ⟨hV, hA⟩ := view_upgraded ((hv.liveLease ..).trans hl) (by rw [hv.records, hr]) (senderOf p r)
  have hu : behaviourOf .upgrade (senderOf p r) r (startRequest p r s)
      = upgraded (senderOf p r) r l (startRequest p r s) := by
    rw [upgrade_on_record hl ha hm hr hd]
    simp only [upgradeOnRecord, hs, hh, namedLease, if_true]
    exact grantNow_of_token (f := upgraded (senderOf p r) r l) (by simpa [grantLeft] using ht)
      (by rw [token_of_view hV]; rfl)
  simp only [hv.view, hv.token] at hV hA
  have reads := reads_of_view ((view_endItem s _).trans hV)
  have hcount := upgraded_poolCount (v := startRequest p r s) (by simpa using hrec) (by simpa using hlease)
    (senderOf p r) r l
  refine ⟨_, exec_request_growing h hu (by simp [h.running (.inr rfl)]) fun x hx => ?_, ?_,
    endItem_offerStands (by simp), ?_, ?_, fun j hj => ?_, ?_, fun j hj => ?_, ⟨?_, fun x hx => ?_⟩, ?_⟩
  · rw [agent_of_view hV]
    by_cases hxa : x = senderOf p r
    · subst hxa; simpa [upgradedView] using hx
    · simpa [upgradedView, hxa] using hx
  · have hpools := endItem_pools (s := s) (u := upgraded (senderOf p r) r l (startRequest p r s)) (by simp)
      fun k => (hcount k).trans (hv.poolCount k)
    apply State.ext <;> simp [endItem_tables, hpools]
  all_goals simp only [reads]
  · simpa [upgradedView] using (grantLeft_token ht).2.2
  · simp [upgradedView]
  · simp [upgradedView, hj]
  · simp [upgradedView, View.leaseAt, LeaseSlot.lease?]
  · simp [upgradedView, hj]
  · simp [upgradedView, State.agent]
  · simp [upgradedView, State.agent, hx]
  · simpa [upgradedView] using repliesHanded_endItem hA

/-! ### UPGRADE that enters the slot -/

/-- An UPGRADE that waits in its record's slot (01, R21). -/
def slotted (a : Agent) (r : Request) (l : Lease) (rec : LockRecord) (v : State) : State :=
  recompare (.upgrade l.record)
    (setTag a r.tag .upgrading
      (updRecord l.record (fun x =>
        { x with slot := some { lease := ⟨namedLease r, r.gen⟩, tag := r.tag,
                                deadline := waitDeadline (v.domain rec.domain) v.now r.waitTicks.toNat } }) v))

/-- What entering the slot leaves alone. -/
@[simp] theorem slotted_keeps (a : Agent) (r : Request) (l : Lease) (rec : LockRecord) (v : State) :
    (slotted a r l rec v).now = v.now ∧ (slotted a r l rec v).tickPeriod = v.tickPeriod ∧
    (slotted a r l rec v).tickPos = v.tickPos ∧ (slotted a r l rec v).offered = v.offered ∧
    (slotted a r l rec v).leases = v.leases ∧ (slotted a r l rec v).gens = v.gens ∧
    (slotted a r l rec v).waits = v.waits ∧ (slotted a r l rec v).domains = v.domains ∧
    (slotted a r l rec v).token = v.token ∧ (slotted a r l rec v).seeded = v.seeded ∧
    (slotted a r l rec v).part = v.part ∧ (slotted a r l rec v).sweep = v.sweep ∧
    (slotted a r l rec v).outer = v.outer ∧ (slotted a r l rec v).inner = v.inner ∧
    (slotted a r l rec v).chosen = v.chosen ∧ (slotted a r l rec v).pools = v.pools ∧
    (slotted a r l rec v).ports = v.ports ∧ (slotted a r l rec v).mbox = v.mbox ∧
    (slotted a r l rec v).args = v.args ∧ (slotted a r l rec v).res = v.res ∧
    (slotted a r l rec v).events = v.events ∧ (slotted a r l rec v).eventEnable = v.eventEnable ∧
    (slotted a r l rec v).nowLatch = v.nowLatch ∧ (slotted a r l rec v).spiData = v.spiData ∧
    (slotted a r l rec v).freeDraws = v.freeDraws ∧ (slotted a r l rec v).pending = v.pending := by
  simp [slotted]

theorem view_slotted {v : State} {l : Lease} {rec : LockRecord} (hr : tableGet v.records l.record = some rec) (a : Agent)
    (r : Request) :
    let u : Upgrade := { lease := ⟨r.leaseNum.toNat, r.gen⟩, tag := r.tag,
                         deadline := waitDeadline (v.domain rec.domain) v.now r.waitTicks.toNat }
    view (slotted a r l rec v) = (((view v).setRecord l.record (some { rec with slot := some u })).setTag a r.tag
        .upgrading).setMark (.upgrade l.record) (∃ x, u.deadline = some x ∧ x ≤ v.now)
      ∧ Compares v (slotted a r l rec v) [.upgrade l.record] := by
  intro u
  have hV : view (slotted a r l rec v) = (((view v).setRecord l.record (some { rec with slot := some u })).setTag a r.tag
      .upgrading).setMark (.upgrade l.record) (∃ x, u.deadline = some x ∧ x ≤ v.now) := by
    simp only [slotted, view_recompare, view_setTag, view_updRecord (s := v) (r := rec) hr]
    simp [View.Due, View.deadline, namedLease, u]
  refine ⟨hV, by simp, fun e he => ?_, fun e he => ?_⟩
  · obtain rfl := List.mem_singleton.1 he
    rw [hV]; simp [View.Due, View.deadline]
  · have hk : e ≠ .upgrade l.record := fun h => he (by simp [h])
    rw [hV, View.deadline_setMark, View.deadline_setTag, View.deadline_setRecord _ (.inr hk)]
    simp [hk]

/-- Settles O31: an UPGRADE beside other holders is in conflict, or enters the slot. -/
theorem upgradeWaitsInTheSlot : Obligations.UpgradeWaitsInTheSlot := by
  intro s p r l rec hok h hl ha hm hr hd hs hh
  dsimp only
  have hv := startRequest_taken p r s
  have hrec : tableGet (startRequest p r s).records l.record = some rec := by rw [hv.records, hr]
  refine ⟨fun ht => exec_answeredOnly h ?_, fun ht => ?_⟩
  · rw [upgrade_on_record hl ha hm hr hd]
    simp [upgradeOnRecord, hs, hh, namedLease, ht]
  · have hu : behaviourOf .upgrade (senderOf p r) r (startRequest p r s)
        = slotted (senderOf p r) r l rec (startRequest p r s) := by
      rw [upgrade_on_record hl ha hm hr hd]
      simp [upgradeOnRecord, hs, hh, namedLease, ht, slotted]
    obtain ⟨hV, hM⟩ := view_slotted hrec (senderOf p r) r
    have hM := (Compares.none hv.view hv.now).trans hM
    simp only [hv.view, hv.now, hv.domain] at hV
    have reads := reads_of_view ((view_endItem s _).trans hV)
    have hpools : (endItem s (slotted (senderOf p r) r l rec (startRequest p r s))).pools = s.pools :=
      endItem_pools (by simp) (poolCounts_of_lengths (by
        simpa [slotted] using
          updRecord_records_length (v := startRequest p r s) (by simpa using (tables_rising hok).1) _ _)
        (by simp) (by simp))
    refine ⟨_, exec_request_growing h hu (by simp [h.running (.inr rfl)]) fun x hx => ?_, ?_,
      endItem_offerStands (by simp), ?_, fun j hj => ?_, ⟨?_, fun x hx => ?_⟩,
      hM.marksCompared (view_endItem s _) (by simp)⟩
    · rw [agent_of_view hV]
      by_cases hxa : x = senderOf p r
      · subst hxa; simpa using hx
      · simpa [hxa] using hx
    · apply State.ext <;> simp [endItem_tables, hpools, startRequest_ports]
    all_goals simp only [reads]
    · simp [waitDeadline_eq]
    · simp [hj]
    · simp [State.agent]
    · simp [State.agent, hx]

end Sys2Proof.Machine
end

section
/-! DOWNGRADE, and upgrades that leave their slot without a grant (01, R22 to R24). -/

namespace Sys2Proof.Machine

/-- An admitted request's item that empties no lease list and leaves the part, its jobs and its counts. -/
theorem exec_request_steady {s u : State} {p : Port} {r : Request} {k : Kind} (h : Admitted s p r k)
    (hu : behaviourOf k (senderOf p r) r (startRequest p r s) = u) (hpart : u.part = s.part) (hsweep : u.sweep = s.sweep)
    (hcount : ∀ k, poolCount u k = poolCount s k) (hleases : ∀ x, (s.agent x).leases ≠ [] → (u.agent x).leases ≠ []) :
    exec (rowOf k) s = .next (endItem s u) :=
  exec_request h hu (endFenceJobs_quiet hleases) (quiesceHalt_quiet fun hq => by
    simpa [quiesceOver, hpart, hsweep, hcount .leasePool] using hq)

/-- A record with holders, no upgrade and no one queued has nothing to evaluate (01, R16, R17). -/
theorem evaluate_idle {n : Nat} {rec : LockRecord} {v : State} (hr : tableGet v.records n = some rec)
    (hs : rec.slot = none) (hq : rec.queue = []) (hh : rec.holders ≠ []) : evaluate n v = v := by
  rw [evaluate_no_waiter hr hs hq, retireRecord_of_holders hr hh]

/-! ### DOWNGRADE -/

/-- DOWNGRADE's own acts, before the evaluation (01, R24; 05, R98). -/
def downgraded (a : Agent) (r : Request) (l : Lease) (v : State) : State :=
  reply a r .done (leaseContent ⟨namedLease r, r.gen⟩ .shared l.token)
    (updRecord l.record (fun x => { x with mode := .shared })
      (updLease (namedLease r) (fun x => { x with mode := .shared }) v))

/-- The view after DOWNGRADE's own acts. -/
def downgradedView (a : Agent) (r : Request) (l : Lease) (rec : LockRecord) (v : View) : View :=
  ((v.setLease r.leaseNum.toNat (some (.inUse { l with mode := .shared }))).setRecord l.record
    (some { rec with mode := .shared })).setTag a r.tag .replying

/-- What DOWNGRADE's own acts leave alone. -/
@[simp] theorem downgraded_keeps (a : Agent) (r : Request) (l : Lease) (v : State) :
    (downgraded a r l v).now = v.now ∧ (downgraded a r l v).tickPeriod = v.tickPeriod ∧
    (downgraded a r l v).tickPos = v.tickPos ∧ (downgraded a r l v).marks = v.marks ∧
    (downgraded a r l v).offered = v.offered ∧ (downgraded a r l v).gens = v.gens ∧
    (downgraded a r l v).waits = v.waits ∧ (downgraded a r l v).domains = v.domains ∧
    (downgraded a r l v).token = v.token ∧ (downgraded a r l v).seeded = v.seeded ∧
    (downgraded a r l v).part = v.part ∧ (downgraded a r l v).sweep = v.sweep ∧
    (downgraded a r l v).outer = v.outer ∧ (downgraded a r l v).inner = v.inner ∧
    (downgraded a r l v).chosen = v.chosen ∧ (downgraded a r l v).pools = v.pools ∧
    (downgraded a r l v).mbox = v.mbox ∧ (downgraded a r l v).args = v.args ∧ (downgraded a r l v).res = v.res ∧
    (downgraded a r l v).events = v.events ∧ (downgraded a r l v).eventEnable = v.eventEnable ∧
    (downgraded a r l v).nowLatch = v.nowLatch ∧ (downgraded a r l v).spiData = v.spiData ∧
    (downgraded a r l v).pending = v.pending := by
  simp [downgraded]

/-- DOWNGRADE's own acts on a lease in use of a listed record. -/
theorem view_downgraded {v : State} {r : Request} {l : Lease} {rec : LockRecord}
    (hk : leaseAt v r.leaseNum.toNat = some l) (hr : tableGet v.records l.record = some rec) (a : Agent) :
    view (downgraded a r l v) = downgradedView a r l rec (view v)
      ∧ Answers v (downgraded a r l v)
        [(a, replyTo a r .done { num := r.leaseNum, gen := r.gen, mode := 1#8, token := l.token })]
      ∧ Compares v (downgraded a r l v) [] := by
  have hk' : (view v).leaseAt r.leaseNum.toNat = some l := (view_leaseAt v _).trans hk
  have hr' : (view (updLease r.leaseNum.toNat (fun x => { x with mode := .shared }) v)).record l.record = some rec := by
    simpa using hr
  have hV : view (downgraded a r l v) = downgradedView a r l rec (view v) := by
    simp only [downgraded, namedLease, view_reply, view_updRecord hr', view_updLease hk']; rfl
  have hc : leaseContent ⟨namedLease r, r.gen⟩ .shared l.token
      = { num := r.leaseNum, gen := r.gen, mode := 1#8, token := l.token } := by
    simp [leaseContent, namedLease, modeCode]
  have hA : Answers v (downgraded a r l v)
      [(a, replyTo a r .done (leaseContent ⟨namedLease r, r.gen⟩ .shared l.token))] :=
    (reply_answers _ _ _ _ _).after (by simp) (by simp)
  refine ⟨hV, hc ▸ hA, by simp, by simp, fun e _ => ?_⟩
  rw [hV, downgradedView, View.deadline_setTag, View.deadline_setRecord _ (.inl (by simp [hr])),
    View.deadline_setLease_kept (l := l) _ { l with mode := .shared } hk' rfl rfl rfl]
  exact ⟨Iff.rfl, rfl⟩

theorem downgraded_poolCount {v : State} (hrec : Rising v.records) (hlease : Rising v.leases) (a : Agent) (r : Request)
    (l : Lease) (k : Pool) : poolCount (downgraded a r l v) k = poolCount v k := by
  refine poolCounts_of_lengths ?_ ?_ (by simp) k
  · simpa [downgraded] using updRecord_records_length
      (v := updLease (namedLease r) (fun x => { x with mode := .shared }) v) (by simpa using hrec) l.record
      fun x => { x with mode := .shared }
  · simpa [downgraded] using updLease_leases_length hlease (namedLease r) fun x => { x with mode := .shared }

/-- An admitted DOWNGRADE of an X lease, in a domain that allows S, evaluates its record after its own acts. -/
theorem downgrade_evaluates {s : State} {p : Port} {r : Request} {l : Lease} {rec : LockRecord}
    (hl : liveLease s r.leaseNum.toNat r.gen = some l) (ha : l.agent = senderOf p r)
    (hr : tableGet s.records l.record = some rec) (hm : l.mode = .exclusive) (hd : (s.domain rec.domain).modes ≠ 1#2) :
    behaviourOf .downgrade (senderOf p r) r (startRequest p r s)
      = evaluate l.record (downgraded (senderOf p r) r l (startRequest p r s)) := by
  have hv := startRequest_taken p r s
  rw [behaviourOf, withLease_startRequest downgradeLease hl ha]
  simp [downgradeLease, hm, hr, hv.domain, xOnly, hd, downgraded]

/-- DOWNGRADE's own acts keep the lease lists. -/
theorem downgradedView_leases (a x : Agent) (r : Request) (l : Lease) (rec : LockRecord) (v : View) :
    ((downgradedView a r l rec v).agent x).leases = (v.agent x).leases := by
  by_cases hxa : x = a
  · subst hxa; simp [downgradedView]
  · simp [downgradedView, hxa]

/-- The grant of a wait frees no lease entry. -/
@[simp] theorem grantWait_gens (n w : Nat) (e : WaitEntry) (v : State) : (grantWait n w e v).gens = v.gens := by
  simp [grantWait]

/-- Settles O34: the refusals; DOWNGRADE's own acts, which leave an idle record or one whose head is granted. -/
theorem downgradeSharesTheLock : Obligations.DowngradeSharesTheLock := by
  intro s p r l rec hok h hl ha hr
  dsimp only
  have hv := startRequest_taken p r s
  obtain ⟨hrec, hlease⟩ := tables_rising hok
  have hk := (liveLease_eq_some.1 hl).2
  obtain ⟨hV, hA, hM⟩ := view_downgraded ((hv.leaseAt _).trans hk) (by rw [hv.records, hr]) (senderOf p r)
  have hrecord : tableGet (downgraded (senderOf p r) r l (startRequest p r s)).records l.record
      = some { rec with mode := .shared } := by rw [record_of_view hV]; simp [downgradedView]
  refine ⟨fun hm => exec_answeredOnly h ?_, fun hm hd => exec_answeredOnly h ?_, fun hm hd hh hq hs => ?_,
    fun w rest e hm hd hpart hh hq hs hw hn hem hea hres hrest ht => ?_⟩
  · rw [behaviourOf, withLease_startRequest downgradeLease hl ha]; simp [downgradeLease, hm]
  · rw [behaviourOf, withLease_startRequest downgradeLease hl ha]
    simp [downgradeLease, hm, hr, hv.domain, xOnly, hd]
  · have hu := (downgrade_evaluates hl ha hr hm hd).trans (evaluate_idle hrecord hs hq hh)
    have hcount : ∀ k, poolCount (downgraded (senderOf p r) r l (startRequest p r s)) k = poolCount s k := fun k =>
      (downgraded_poolCount (by simpa using hrec) (by simpa using hlease) _ r l k).trans (hv.poolCount k)
    have hpools := endItem_pools (by simp) hcount
    rw [hv.view] at hV
    have reads := reads_of_view ((view_endItem s _).trans hV)
    refine ⟨_, exec_request_steady h hu (by simp) (by simp) hcount fun x hx => ?_, ?_, endItem_offerStands (by simp),
      ?_, fun j hj => ?_, ?_, fun j hj => ?_, ⟨?_, fun x hx => ?_⟩, repliesHanded_endItem hA⟩
    · rw [agent_of_view hV, downgradedView_leases]; exact hx
    · apply State.ext <;> simp [endItem_tables, hpools]
    all_goals simp only [reads]
    · simp [downgradedView]
    · simp [downgradedView, hj]
    · simp [downgradedView, View.leaseAt, LeaseSlot.lease?]
    · simp [downgradedView, hj]
    · simp [downgradedView, State.agent]
    · simp [downgradedView, State.agent, hx]
  · have hne := ne_of_reserved hk hres
    have hu := (downgrade_evaluates hl ha hr hm hd).trans (evaluate_grants_head (e := e) hrecord hs hq (by simp [hw]) hn
      (by simp [compatible, hem]) (by simpa [grantLeft] using ht)
      (.inr fun w2 e2 h2 hw2 => hrest w2 e2 h2 (by simpa using hw2)))
    obtain ⟨hV', hA'⟩ := view_grantWait (w := w) hrecord hn
    have hM := (Compares.none hv.view hv.now).trans (hM.trans (grantWait_compares (w := w) hrecord hn))
    have hhandle : handleOf (downgraded (senderOf p r) r l (startRequest p r s)) e.reserved = handleOf s e.reserved := by
      rw [handleOf, gen_of_view hV]; exact hv.handleOf _
    have hdom : (downgraded (senderOf p r) r l (startRequest p r s)).domain rec.domain = s.domain rec.domain :=
      (domain_congr (by simp) _).trans (hv.domain _)
    have hA := hA.trans hA'
    rw [hV, hv.view] at hV'
    simp only [hhandle, hdom, downgraded_keeps, startRequest_keeps] at hV' hA
    have reads := reads_of_view ((view_endItem s _).trans hV')
    refine ⟨_, exec_request_growing h hu (by simp [hpart]) fun x hx => ?_, ?_, endItem_offerStands (by simp),
      ?_, ?_, fun j hj => ?_, ?_, ?_, fun j hj hj' => ?_, ?_, fun j hj => ?_, ?_, ?_, fun x hx hx' => ?_,
      hM.marksCompared (view_endItem s _) (by simp), endItem_countsPublished (by simp), ?_⟩
    · rw [agent_of_view hV']; exact grantedView_leases (by rwa [downgradedView_leases])
    · apply State.ext <;> simp [endItem_tables]
    all_goals simp only [reads]
    · simpa [grantedView] using (grantLeft_token ht).2.2
    · simp [grantedView, hq, handleOf, hem]
    · simp [grantedView, downgradedView, hj]
    · simp [grantedView, downgradedView, View.leaseAt, LeaseSlot.lease?, hne.symm]
    · simp [grantedView, View.leaseAt, LeaseSlot.lease?, hem, leaseDuration]
    · simp [grantedView, downgradedView, hj, hj']
    · simp [grantedView]
    · simp [grantedView, downgradedView, hj]
    · simp [grantedView, downgradedView, hea.symm]
    · simp [grantedView, downgradedView, hea, handleOf]
    · simp [grantedView, downgradedView, hx, hx']
    · simpa [grantedView, grantedReply, hem, modeCode, leaseDuration, handleOf] using repliesHanded_endItem hA

/-! ### Upgrades that leave the slot -/

/-- A tag's upgrade is in the slot of the record found for it, and its lease is the agent's (03, R59). -/
theorem upgradeOfTag_spec {s : State} (hok : tablesOk s = true) {a : Agent} {g : Tag} {n : Nat} {rec : LockRecord}
    {u : Upgrade} (h : upgradeOfTag s a g = some n) (hr : tableGet s.records n = some rec) (hs : rec.slot = some u) :
    u.tag = g ∧ ∃ l, leaseAt s u.lease.num = some l ∧ l.agent = a := by
  obtain ⟨⟨m, rec'⟩, hf, rfl⟩ := Option.map_eq_some_iff.1 h
  have hget := tableGet_of_mem (tables_rising hok).1 (List.mem_of_find?_eq_some hf)
  obtain rfl : rec' = rec := Option.some.inj (hget.symm.trans hr)
  have hfound := List.find?_some hf
  simp only [hs, decide_eq_true_eq, upgradeAgent, Option.map_eq_some_iff] at hfound
  exact hfound

/-- An upgrade dropped leaves the counts. -/
theorem dropUpgrade_records_length {v : State} (hok : Rising v.records) (n : Nat) (ans : Option Status) :
    (dropUpgrade n ans v).records.length = v.records.length := by
  unfold dropUpgrade
  split
  · rfl
  · split <;> simp [updRecord_records_length hok]

/-- The reply to an upgrade that is cancelled (05, Table 5-3). -/
def cancelledReply (a : Agent) (u : Upgrade) : Reply :=
  answerTo a u.tag 6#8 .cancelled { num := BitVec.ofNat 16 u.lease.num, gen := u.lease.gen }

/-- CANCEL of an upgrade, before the evaluation (01, R23; 03, R59). -/
def upgradeCancelled (a : Agent) (r : Request) (n : Nat) (v : State) : State :=
  reply a r .done {} (dropUpgrade n (some .cancelled) v)

/-- What the CANCEL of an upgrade leaves alone. -/
@[simp] theorem upgradeCancelled_keeps (a : Agent) (r : Request) (n : Nat) (v : State) :
    (upgradeCancelled a r n v).now = v.now ∧ (upgradeCancelled a r n v).tickPeriod = v.tickPeriod ∧
    (upgradeCancelled a r n v).tickPos = v.tickPos ∧ (upgradeCancelled a r n v).offered = v.offered ∧
    (upgradeCancelled a r n v).leases = v.leases ∧ (upgradeCancelled a r n v).gens = v.gens ∧
    (upgradeCancelled a r n v).waits = v.waits ∧ (upgradeCancelled a r n v).domains = v.domains ∧
    (upgradeCancelled a r n v).token = v.token ∧ (upgradeCancelled a r n v).seeded = v.seeded ∧
    (upgradeCancelled a r n v).part = v.part ∧ (upgradeCancelled a r n v).sweep = v.sweep ∧
    (upgradeCancelled a r n v).outer = v.outer ∧ (upgradeCancelled a r n v).inner = v.inner ∧
    (upgradeCancelled a r n v).chosen = v.chosen ∧ (upgradeCancelled a r n v).pools = v.pools ∧
    (upgradeCancelled a r n v).mbox = v.mbox ∧ (upgradeCancelled a r n v).args = v.args ∧
    (upgradeCancelled a r n v).res = v.res ∧ (upgradeCancelled a r n v).events = v.events ∧
    (upgradeCancelled a r n v).eventEnable = v.eventEnable ∧ (upgradeCancelled a r n v).nowLatch = v.nowLatch ∧
    (upgradeCancelled a r n v).spiData = v.spiData ∧ (upgradeCancelled a r n v).pending = v.pending := by
  simp [upgradeCancelled]

section
variable {v : State} {n : Nat} {rec : LockRecord} {u : Upgrade} {l : Lease} (hr : tableGet v.records n = some rec)
  (hs : rec.slot = some u) (hl : leaseAt v u.lease.num = some l)
include hr hs hl

theorem view_upgradeCancelled (a : Agent) (r : Request) :
    view (upgradeCancelled a r n v) = ((((view v).setRecord n (some { rec with slot := none })).setMark (.upgrade n)
        False).setTag l.agent u.tag .replying).setTag a r.tag .replying
      ∧ Answers v (upgradeCancelled a r n v) [(l.agent, cancelledReply l.agent u), (a, replyTo a r .done {})]
      ∧ Compares v (upgradeCancelled a r n v) [.upgrade n] :=
  ⟨by rw [upgradeCancelled, view_reply, view_dropUpgrade hr hs hl],
    (dropUpgrade_answers hr hs hl .cancelled).trans (reply_answers _ _ _ _ _),
    (dropUpgrade_compares hr hs hl .cancelled).trans (reply_compares ..)⟩

end

/-- A CANCEL takes an upgrade from its slot. -/
theorem cancel_leaves_slot {s : State} {p : Port} {r : Request} {n : Nat} {rec : LockRecord} {u : Upgrade} {l : Lease}
    (htag : s.tag (senderOf p r) (targetTag r) = .upgrading) (hof : upgradeOfTag s (senderOf p r) (targetTag r) = some n)
    (hr : tableGet s.records n = some rec) (hs : rec.slot = some u) (hl : leaseAt s u.lease.num = some l)
    (hq : rec.queue = []) (hh : rec.holders ≠ []) :
    behaviourOf .cancel (senderOf p r) r (startRequest p r s)
      = upgradeCancelled (senderOf p r) r n (startRequest p r s) := by
  have hv := startRequest_taken p r s
  obtain ⟨hV, -⟩ := view_upgradeCancelled (v := startRequest p r s) (by rw [hv.records, hr]) hs ((hv.leaseAt _).trans hl)
    (senderOf p r) r
  have hrec : tableGet (upgradeCancelled (senderOf p r) r n (startRequest p r s)).records n
      = some { rec with slot := none } := by rw [record_of_view hV]; simp
  rw [behaviourOf, cancelBehaviour, hv.tag, htag]
  simp only [hv.upgradeOfTag, hof]
  exact evaluate_idle hrec rfl hq hh

/-- RELEASE of an upgrading lease, before the evaluation (01, R22; 02, R38). -/
def upgradeReleased (a : Agent) (r : Request) (l : Lease) (v : State) : State :=
  released a r l (dropUpgrade l.record (some .cancelled) v)

/-- What the RELEASE of an upgrading lease leaves alone. -/
@[simp] theorem upgradeReleased_keeps (a : Agent) (r : Request) (l : Lease) (v : State) :
    (upgradeReleased a r l v).now = v.now ∧ (upgradeReleased a r l v).tickPeriod = v.tickPeriod ∧
    (upgradeReleased a r l v).tickPos = v.tickPos ∧ (upgradeReleased a r l v).offered = v.offered ∧
    (upgradeReleased a r l v).waits = v.waits ∧ (upgradeReleased a r l v).domains = v.domains ∧
    (upgradeReleased a r l v).token = v.token ∧ (upgradeReleased a r l v).seeded = v.seeded ∧
    (upgradeReleased a r l v).part = v.part ∧ (upgradeReleased a r l v).sweep = v.sweep ∧
    (upgradeReleased a r l v).outer = v.outer ∧ (upgradeReleased a r l v).inner = v.inner ∧
    (upgradeReleased a r l v).chosen = v.chosen ∧ (upgradeReleased a r l v).pools = v.pools ∧
    (upgradeReleased a r l v).mbox = v.mbox ∧ (upgradeReleased a r l v).args = v.args ∧
    (upgradeReleased a r l v).res = v.res ∧ (upgradeReleased a r l v).events = v.events ∧
    (upgradeReleased a r l v).eventEnable = v.eventEnable ∧ (upgradeReleased a r l v).nowLatch = v.nowLatch ∧
    (upgradeReleased a r l v).spiData = v.spiData ∧ (upgradeReleased a r l v).pending = v.pending := by
  simp [upgradeReleased]

/-- The view after the RELEASE of an upgrading lease. -/
def upgradeReleasedView (a : Agent) (r : Request) (l : Lease) (rec : LockRecord) (u : Upgrade) (v : View) : View :=
  releasedView a r l { rec with slot := none }
    (((v.setRecord l.record (some { rec with slot := none })).setMark (.upgrade l.record) False).setTag a u.tag
      .replying)

section
variable {s : State} {p : Port} {r : Request} {l : Lease} {rec : LockRecord} {u : Upgrade}
  (hl : liveLease s r.leaseNum.toNat r.gen = some l) (ha : l.agent = senderOf p r)
  (hr : tableGet s.records l.record = some rec) (hs : rec.slot = some u) (hul : u.lease = ⟨r.leaseNum.toNat, r.gen⟩)
include hl ha hr hs hul

theorem view_upgradeReleased :
    view (upgradeReleased (senderOf p r) r l (startRequest p r s))
        = upgradeReleasedView (senderOf p r) r l rec u (view s)
      ∧ Answers (startRequest p r s) (upgradeReleased (senderOf p r) r l (startRequest p r s))
        [(senderOf p r, cancelledReply (senderOf p r) u), (senderOf p r, releaseReply (senderOf p r) r l)]
      ∧ Compares s (upgradeReleased (senderOf p r) r l (startRequest p r s))
        [.upgrade l.record, .lease r.leaseNum.toNat] := by
  have hv := startRequest_taken p r s
  obtain ⟨hg, hk⟩ := liveLease_eq_some.1 hl
  have hrec : tableGet (startRequest p r s).records l.record = some rec := by rw [hv.records, hr]
  have hlu : leaseAt (startRequest p r s) u.lease.num = some l := by rw [hul, hv.leaseAt, hk]
  have hdrop := view_dropUpgrade hrec hs hlu .cancelled
  have hrec' : tableGet (dropUpgrade l.record (some .cancelled) (startRequest p r s)).records l.record
      = some { rec with slot := none } := by rw [record_of_view hdrop]; simp
  have hk' : leaseAt (dropUpgrade l.record (some .cancelled) (startRequest p r s)) r.leaseNum.toNat = some l := by
    rw [leaseAt_congr (by simp : _ = (startRequest p r s).leases), hv.leaseAt, hk]
  have hg' : genOf (dropUpgrade l.record (some .cancelled) (startRequest p r s)) r.leaseNum.toNat = r.gen := by
    rw [genOf_congr (by simp : _ = (startRequest p r s).gens), hv.genOf, hg]
  have hA := dropUpgrade_answers hrec hs hlu .cancelled
  rw [ha] at hA
  refine ⟨?_, hA.trans (released_answers _ _ _ _), (Compares.none hv.view hv.now).trans
    ((dropUpgrade_compares hrec hs hlu .cancelled).trans (released_compares _ _ hk' hrec'))⟩
  rw [upgradeReleased, view_released hk' hg' ha hrec', hdrop, hv.view, ha]; rfl

/-- An admitted RELEASE of an upgrading lease, on a record that other holders keep, finds nothing to evaluate. -/
theorem release_of_upgrading (hq : rec.queue = []) (hh : rec.holders.erase u.lease ≠ []) :
    behaviourOf .release (senderOf p r) r (startRequest p r s)
      = upgradeReleased (senderOf p r) r l (startRequest p r s) := by
  have hv := startRequest_taken p r s
  obtain ⟨hV, -⟩ := view_upgradeReleased hl ha hr hs hul
  have hslot : inSlot (startRequest p r s) (namedLease r) l = true := by
    obtain ⟨hg, -⟩ := liveLease_eq_some.1 hl
    rw [hv.inSlot, inSlot, hr, Option.bind_some, hs]
    simp [handleOf, namedLease, hul, hg]
  have hrec : tableGet (upgradeReleased (senderOf p r) r l (startRequest p r s)).records l.record
      = some { rec with slot := none, holders := rec.holders.erase u.lease } := by
    rw [record_of_view hV]; simp [upgradeReleasedView, releasedView, hul]
  rw [behaviourOf, withLease_startRequest releaseLease hl ha, releaseLease, hslot]
  exact evaluate_idle hrec rfl hq hh

end

/-- Settles O32: the upgrade is answered CANCELLED and leaves the slot, then the request is DONE; the evaluation finds
the record idle. -/
theorem upgradeLeavesTheSlot : Obligations.UpgradeLeavesTheSlot := by
  refine ⟨?_, ?_⟩
  · intro s p r n rec u hok h hpart htag hof hr hs hq hh
    dsimp only
    have hv := startRequest_taken p r s
    obtain ⟨hutag, l, hl, ha⟩ := upgradeOfTag_spec hok hof hr hs
    obtain ⟨hV, hA, hM⟩ := view_upgradeCancelled (v := startRequest p r s) (by rw [hv.records, hr]) hs
      ((hv.leaseAt _).trans hl) (senderOf p r) r
    have hM := (Compares.none hv.view hv.now).trans hM
    have hu := cancel_leaves_slot htag hof hr hs hl hq hh
    have hcount : ∀ k, poolCount (upgradeCancelled (senderOf p r) r n (startRequest p r s)) k = poolCount s k :=
      poolCounts_of_lengths (by simpa [upgradeCancelled] using
        dropUpgrade_records_length (v := startRequest p r s) (by simpa using (tables_rising hok).1) n _)
        (by simp) (by simp)
    have hpools := endItem_pools (by simp) hcount
    rw [hv.view, ha] at hV
    rw [ha] at hA
    have reads := reads_of_view ((view_endItem s _).trans hV)
    refine ⟨_, exec_request_steady h hu (by simp) (by simp) hcount fun x hx => ?_, ?_, endItem_offerStands (by simp),
      ?_, fun j hj => ?_, ?_, fun x hx => ?_, hM.marksCompared (view_endItem s _) (by simp), ?_⟩
    · rw [agent_of_view hV]
      by_cases hxa : x = senderOf p r
      · subst hxa; simpa using hx
      · simpa [hxa] using hx
    · apply State.ext <;> simp [endItem_tables, hpools]
    · simp [reads]
    · simp [reads, hj]
    · simp [reads, hutag]
    · simp [reads, hx]
    · simpa [hutag, cancelledReply, answerTo] using repliesHanded_endItem hA
  · intro s p r l rec u hok h hpart hfence hl ha hr hs hul hq hh
    dsimp only
    obtain ⟨hV, hA, hM⟩ := view_upgradeReleased hl ha hr hs hul
    have hu := release_of_upgrading hl ha hr hs hul hq hh
    have reads := reads_of_view ((view_endItem s _).trans hV)
    refine ⟨_, exec_request_running h hu (by simp [hpart]) (by simp) hfence fun x hx hx' => ?_, ?_,
      endItem_offerStands (by simp), ?_, fun j hj => ?_, ?_, fun j hj => ?_, ?_, fun j hj => ?_, ?_,
      fun x hx => ?_, hM.marksCompared (view_endItem s _) (by simp), endItem_countsPublished (by simp),
      by simpa [cancelledReply, releaseReply, answerTo] using repliesHanded_endItem hA⟩
    · rw [agent_of_view hV, upgradeReleasedView, releasedView_leases hx]; simpa [hx] using hx'
    · apply State.ext <;> simp [endItem_tables]
    all_goals simp only [reads, upgradeReleasedView]
    · simp [releasedView, hul]
    · simp [releasedView, hj]
    · simp [releasedView]
    · simp [releasedView, hj]
    · simp [releasedView]
    · simp [releasedView, hj]
    · simp [releasedView, hul]
    · simp [releasedView, hx]

end Sys2Proof.Machine
end

section
/-! The token end (02, R48; 01, R26). -/

namespace Sys2Proof.Machine

/-- The mailbox can take the automatic ABORT: a command is in flight that is no ABORT, or none is (11, R189, R193). -/
def TakesAutoAbort (v : State) : Prop :=
  ((v.mbox.state = .pending ∨ v.mbox.state = .running) ∧ v.mbox.code ≠ 8#8) ∨ v.mbox.state = .idle ∨ v.mbox.state = .done

/-- What the token end changes in a RUNNING part (02, R48; 11, R189; log entry 16). -/
theorem tokenEndReached_running {v : State} (hp : v.part = .running) (hm : TakesAutoAbort v) :
    (tokenEndReached v).seeded = false ∧ (tokenEndReached v).part = .aborting
      ∧ (tokenEndReached v).sweep = [.abort 0 false]
      ∧ (tokenEndReached v).events = (if (v.mbox.state = .pending ∨ v.mbox.state = .running) ∧ v.mbox.code ≠ 8#8
          then v.events ||| 0x2C#32 else v.events ||| 0x28#32)
      ∧ (tokenEndReached v).mbox
        = { v.mbox with state := .pending, code := 8#8, auto := true, abortEnded := false } := by
  rcases hm with ⟨hst, hcode⟩ | hidle
  · rcases hst with hst | hst <;>
      simp [tokenEndReached, postEvent, hp, placeAutoAbort, startAbort, hst, hcode, abortCode, supersede, detach, atBit,
        eventBit, BitVec.or_assoc]
  · rcases hidle with hst | hst <;>
      simp [tokenEndReached, postEvent, hp, placeAutoAbort, startAbort, hst, abortCode, atBit, eventBit, BitVec.or_assoc]

/-- Where only the abort job is listed no fence job ends (06, R121). -/
theorem endFenceJobs_abort {s u : State} {n : Nat} {b : Bool} (h : u.sweep = [.abort n b]) : endFenceJobs s u = u := by
  rw [endFenceJobs, h]; rfl

/-- The clock makes no offer for a part that does not serve (07, R133). -/
theorem endItem_offered {s u : State} (h : u.part = .aborting) : (endItem s u).offered = u.offered := by
  simp [endItem, offerTimer, serving, h]

/-- The token end hands over no reply. -/
theorem tokenEndReached_answers (v : State) : Answers v (tokenEndReached v) [] := .none (by simp) (by simp)

theorem tokenEndReached_compares (v : State) : Compares v (tokenEndReached v) [] := .none (by simp) (by simp)

/-- An admitted request's item in which the last token of a RUNNING part is drawn. -/
theorem exec_request_at_end {s u : State} {p : Port} {r : Request} {k : Kind} (h : Admitted s p r k)
    (hu : behaviourOf k (senderOf p r) r (startRequest p r s) = tokenEndReached u) (hp : u.part = .running)
    (hm : TakesAutoAbort u) : exec (rowOf k) s = .next (endItem s (tokenEndReached u)) := by
  obtain ⟨-, hpart, hsweep, -⟩ := tokenEndReached_running hp hm
  exact exec_request h hu (endFenceJobs_abort hsweep) (quiesceHalt_running (by simp [hpart]))

/-- A request's grant that draws the last token is followed by the token end (02, R48). -/
theorem grantNow_of_end {a : Agent} {r : Request} {f : State → State} {v : State} (ht : v.token ≠ Config.tokenEnd)
    (hf : (f v).token = Config.tokenEnd) : grantNow a r f v = tokenEndReached (f v) := by
  rw [grantNow, if_neg ht, withTokenEnd_of_end ht hf]

/-- An evaluation of a record with no upgrade in which the last token is drawn is followed by the token end (02, R48). -/
theorem evaluate_of_end {n : Nat} {r r' : LockRecord} {s t : State} (hr : tableGet s.records n = some r)
    (hs : r.slot = none) (hheads : grantHeads n r.queue s = t) (hr' : tableGet t.records n = some r')
    (hh : r'.holders ≠ []) (hne : s.token ≠ Config.tokenEnd) (ht : t.token = Config.tokenEnd) :
    evaluate n s = tokenEndReached t := by
  have he := evaluateRecord_of_heads hr hs hheads hr' hh
  rw [evaluate, withTokenEnd_of_end hne (by rw [he]; exact ht), he]

/-! ### A head granted with the last token, and the next answered HALTED -/

/-- The state after a RELEASE whose evaluation grants one head and halts the next, before the token end (01, R26). -/
def releasedToOne (a : Agent) (r : Request) (l : Lease) (w1 w2 : Nat) (e1 : WaitEntry) (v : State) : State :=
  removeWait w2 (some .halted) (grantWait l.record w1 e1 (released a r l v))

/-- What such a RELEASE leaves alone. -/
@[simp] theorem releasedToOne_keeps (a : Agent) (r : Request) (l : Lease) (w1 w2 : Nat) (e1 : WaitEntry) (v : State) :
    (releasedToOne a r l w1 w2 e1 v).now = v.now ∧ (releasedToOne a r l w1 w2 e1 v).tickPeriod = v.tickPeriod ∧
    (releasedToOne a r l w1 w2 e1 v).tickPos = v.tickPos ∧ (releasedToOne a r l w1 w2 e1 v).offered = v.offered ∧
    (releasedToOne a r l w1 w2 e1 v).domains = v.domains ∧ (releasedToOne a r l w1 w2 e1 v).seeded = v.seeded ∧
    (releasedToOne a r l w1 w2 e1 v).part = v.part ∧ (releasedToOne a r l w1 w2 e1 v).sweep = v.sweep ∧
    (releasedToOne a r l w1 w2 e1 v).outer = v.outer ∧ (releasedToOne a r l w1 w2 e1 v).inner = v.inner ∧
    (releasedToOne a r l w1 w2 e1 v).chosen = v.chosen ∧ (releasedToOne a r l w1 w2 e1 v).pools = v.pools ∧
    (releasedToOne a r l w1 w2 e1 v).mbox = v.mbox ∧ (releasedToOne a r l w1 w2 e1 v).args = v.args ∧
    (releasedToOne a r l w1 w2 e1 v).res = v.res ∧ (releasedToOne a r l w1 w2 e1 v).events = v.events ∧
    (releasedToOne a r l w1 w2 e1 v).eventEnable = v.eventEnable ∧
    (releasedToOne a r l w1 w2 e1 v).nowLatch = v.nowLatch ∧
    (releasedToOne a r l w1 w2 e1 v).spiData = v.spiData ∧ (releasedToOne a r l w1 w2 e1 v).pending = v.pending := by
  simp [releasedToOne]

/-- The view after such a RELEASE, of two heads with no one behind them. -/
def releasedToOneView (s : State) (a : Agent) (r : Request) (l : Lease) (rec : LockRecord) (w1 w2 : Nat)
    (e1 e2 : WaitEntry) : View :=
  ((((((grantedView l.record w1 e1 { rec with holders := rec.holders.erase ⟨r.leaseNum.toNat, r.gen⟩ }
    (handleOf s e1.reserved) (s.token + 1#64) (leaseDuration (s.domain rec.domain) e1.leaseTicks) s.now
    (releasedView a r l rec (view s))).setWait w2 none).setRecord l.record (some
      { rec with mode := e1.mode, holders := [handleOf s e1.reserved], queue := [],
                 lastToken := s.token + 1#64 })).setMark (.wait w2) False).setLease e2.reserved none).bumpGen
    e2.reserved).setTag e2.agent e2.tag .replying

section
variable {s : State} {p : Port} {r : Request} {l : Lease} {rec : LockRecord} {w1 w2 : Nat} {e1 e2 : WaitEntry}
  (hl : liveLease s r.leaseNum.toNat r.gen = some l) (ha : l.agent = senderOf p r)
  (hr : tableGet s.records l.record = some rec) (hh : rec.holders = [⟨r.leaseNum.toNat, r.gen⟩])
  (hq : rec.queue = [w1, w2]) (hww : w1 ≠ w2)
  (hn1 : e1.record = l.record) (hres1 : tableGet s.leases e1.reserved = some (.reserved e1.agent w1))
  (hw2 : tableGet s.waits w2 = some e2) (hn2 : e2.record = l.record)
  (hres2 : tableGet s.leases e2.reserved = some (.reserved e2.agent w2)) (hne : e1.reserved ≠ e2.reserved)
include hl ha hr hh hq hww hn1 hres1 hw2 hn2 hres2 hne

omit hres2 hne in
theorem view_releasedToOne :
    view (releasedToOne (senderOf p r) r l w1 w2 e1 (startRequest p r s))
      = releasedToOneView s (senderOf p r) r l rec w1 w2 e1 e2 := by
  obtain ⟨hV1, -⟩ := view_released_grantWait hl ha hr hn1 hres1
  have hrec1 := (congrArg (tableGet _) hn2).trans (released_grantWait_record hl ha hr hn1 hres1 hh hq)
  have hwait := (released_grantWait_wait hl ha hr hn1 hres1 hww.symm).trans hw2
  rw [releasedToOne, view_removeWait hwait hrec1, hV1, hn2, List.erase_cons_head, releasedToOneView]

omit hh hq hn2 hres2 hne in
theorem releasedToOne_answers :
    Answers (startRequest p r s) (releasedToOne (senderOf p r) r l w1 w2 e1 (startRequest p r s))
        [(senderOf p r, releaseReply (senderOf p r) r l),
          (e1.agent, grantedReply e1 (handleOf s e1.reserved) (s.token + 1#64)
            (leaseDuration (s.domain rec.domain) e1.leaseTicks)),
          (e2.agent, answerTo e2.agent e2.tag 2#8 .halted {})] := by
  obtain ⟨-, hA1⟩ := view_released_grantWait hl ha hr hn1 hres1
  have hwait := (released_grantWait_wait hl ha hr hn1 hres1 hww.symm).trans hw2
  exact hA1.trans (removeWait_answers hwait .halted)

theorem releasedToOne_compares :
    Compares s (releasedToOne (senderOf p r) r l w1 w2 e1 (startRequest p r s))
        [.lease r.leaseNum.toNat, .wait w1, .lease e1.reserved, .wait w2] := by
  have hrec1 := (congrArg (tableGet _) hn2).trans (released_grantWait_record hl ha hr hn1 hres1 hh hq)
  have hwait := (released_grantWait_wait hl ha hr hn1 hres1 hww.symm).trans hw2
  have hlease := (released_grantWait_lease hl ha hr hn1 hres1 (ne_of_reserved (liveLease_eq_some.1 hl).2 hres2)
    hne.symm).trans hres2
  exact (released_grantWait_compares hl ha hr hn1).trans (removeWait_compares hwait hrec1 hlease .halted)

omit hres2 hne in
/-- The last token is drawn for the first head, and the next, compatible with it, is answered HALTED (01, R26). -/
theorem release_halts_second (hs : rec.slot = none) (hw1 : tableGet s.waits w1 = some e1) (hm1 : e1.mode = .shared)
    (hm2 : e2.mode = .shared) (ht : s.token = 0xFFFFFFFFFFFFFFFE#64) :
    behaviourOf .release (senderOf p r) r (startRequest p r s)
      = tokenEndReached (releasedToOne (senderOf p r) r l w1 w2 e1 (startRequest p r s)) := by
  have hrec := released_record hl ha hr
  have hrec1 := released_grantWait_record hl ha hr hn1 hres1 hh hq
  have hwait := (released_grantWait_wait hl ha hr hn1 hres1 hww.symm).trans hw2
  obtain ⟨hV1, -⟩ := view_released_grantWait hl ha hr hn1 hres1
  have hV := view_releasedToOne hl ha hr hh hq hww hn1 hres1 hw2 hn2
  have hrec2 : tableGet (releasedToOne (senderOf p r) r l w1 w2 e1 (startRequest p r s)).records l.record = some
      { rec with mode := e1.mode, holders := [handleOf s e1.reserved], queue := [], lastToken := s.token + 1#64 } := by
    rw [record_of_view hV]; simp [releasedToOneView]
  have htok : (released (senderOf p r) r l (startRequest p r s)).token ≠ Config.tokenEnd := by
    simp [ht, Config.tokenEnd]
  refine (release_evaluates hl ha hr (by simp [hs])).trans (evaluate_of_end hrec hs ?_ hrec2 (by simp) htok
    (by rw [token_of_view hV, releasedToOneView]; simp [grantedView, ht, Config.tokenEnd]))
  dsimp only
  rw [hq, grantHeads_grant (e := e1) hrec (by simp [hw1]) (by simp [compatible, hh]) htok,
    grantHeads_halted hrec1 hwait (by simp [compatible, hm1, hm2])
      (by rw [token_of_view hV1]; simp [grantedView, ht, Config.tokenEnd])]
  rfl

end

/-- Two reserved lease entries of two agents differ. -/
theorem reserved_ne {s : State} {j k : Nat} {a b : Agent} {w x : Nat} (hj : tableGet s.leases j = some (.reserved a w))
    (hk : tableGet s.leases k = some (.reserved b x)) (h : a ≠ b) : j ≠ k := fun he => by
  rw [he, hk] at hj; simp [h.symm] at hj

/-! ### ACQUIRE at the token end -/

section
variable {s : State} {p : Port} {r : Request} {m : Mode} {d : Fin 16} {n k : Nat} (h : Admitted s p r .acquire)
  (hm : modeOfByte r.mode = some m) (hr : recordOfKey s r.key = none) (hd : lookupDomain s r.key = some d)
  (hq : quotaCount s (senderOf p r) < (s.agent (senderOf p r)).quota)
  (hls : (s.pool .leasePool).level ≠ .shed) (hts : (s.pool .lockTable).level ≠ .shed)
  (hlc : s.leases.length < 8192) (htc : s.records.length < 4096)
  (hn : lowestFree s.records 4096 = some n) (hk : lowestFree s.leases 8192 = some k)
include h hm hr hd hq hls hts hlc htc hn hk

/-- At the counter's end value an ACQUIRE of an absent key is answered HALTED (01, R26). -/
theorem exec_acquire_halted (ht : s.token = 0xFFFFFFFFFFFFFFFF#64) :
    ∃ t, exec .acquire s = .next t ∧ AnsweredOnly s p r .halted {} t :=
  exec_answeredOnly h ((acquire_creates hm hr hd hq hls hts hlc htc hn hk).trans (by
    simp [grantNow, ht, Config.tokenEnd]))

/-- An ACQUIRE of an absent key that draws the last token (02, R48). -/
theorem exec_acquire_at_end (ht : s.token = 0xFFFFFFFFFFFFFFFE#64) (hmb : TakesAutoAbort s) :
    exec .acquire s
      = .next (endItem s (tokenEndReached (created (senderOf p r) r m d n k (startRequest p r s)))) := by
  obtain ⟨hV, -⟩ := view_created p r m d k (lowestFree_spec hn).1
  refine exec_request_at_end h ((acquire_creates hm hr hd hq hls hts hlc htc hn hk).trans (grantNow_of_end
    (by simp [ht, Config.tokenEnd]) ?_)) (by simp [h.running (.inl rfl)]) (by simpa [TakesAutoAbort] using hmb)
  rw [token_of_view hV, createdView]; simp [requestedView, ht, Config.tokenEnd]

end

/-- Settles O26: the grant or the evaluation that draws the last token is followed by the token end; at the end value
the request, the next head or the upgrade is answered HALTED. -/
theorem tokenEndAbortsThePart : Obligations.TokenEndAbortsThePart := by
  refine ⟨?_, ?_, ?_⟩
  · intro s p r m d n k h hm hr hd hq hls hts hlc htc hn hk
    dsimp only
    refine ⟨fun ht => exec_acquire_halted h hm hr hd hq hls hts hlc htc hn hk ht, fun ht hmb => ?_⟩
    obtain ⟨hV, hA, hM⟩ := view_created p r m d k (lowestFree_spec hn).1
    have hA := hA.trans (tokenEndReached_answers _)
    have hM := hM.trans (tokenEndReached_compares _)
    obtain ⟨hseed, hpart, hsweep, hevents, hmbox⟩ := tokenEndReached_running
      (v := created (senderOf p r) r m d n k (startRequest p r s)) (by simp [h.running (.inl rfl)])
      (by simpa [TakesAutoAbort] using hmb)
    have hview := (view_endItem s _).trans ((view_tokenEndReached _).trans hV)
    have reads := reads_of_view hview
    have htok : (created (senderOf p r) r m d n k (startRequest p r s)).token = 0xFFFFFFFFFFFFFFFF#64 := by
      rw [token_of_view hV, createdView]; simp [requestedView, ht]
    refine ⟨_, exec_acquire_at_end h hm hr hd hq hls hts hlc htc hn hk ht hmb, ?_, ?_, ?_, fun j hj => ?_, ?_,
      fun j hj => ?_, ?_, fun x hx => ?_, hM.marksCompared (view_endItem s _) (by simp),
      endItem_countsPublished (by simp), ?_⟩
    · apply State.ext <;> simp [endItem_tables, endItem_offered, hseed, hpart, hsweep, hmbox, htok]
    · simp [hevents]
    all_goals simp only [reads, createdView]
    · simp [requestedView, emptyRecord, handleOf]
    · simp [requestedView, hj]
    · simp [requestedView, View.leaseAt, LeaseSlot.lease?, leaseDuration_toNat]
    · simp [requestedView, hj]
    · simp [requestedView, handleOf]
    · simp [requestedView, hx]
    · simpa [requestedView, requestedReply, leaseDuration_toNat, handleOf] using repliesHanded_endItem hA
  · intro s p r l rec w1 w2 e1 e2 hok h hpart hfence hl ha hr hh hq hs hww hw1 hn1 hm1 hea1 hres1 hw2 hn2 hm2 hea2 hres2
      heae ht
    dsimp only
    intro hmb
    have hne1 := ne_of_reserved (liveLease_eq_some.1 hl).2 hres1
    have hne2 := ne_of_reserved (liveLease_eq_some.1 hl).2 hres2
    have hne := reserved_ne hres1 hres2 heae
    have hu := release_halts_second hl ha hr hh hq hww hn1 hres1 hw2 hn2 hs hw1 hm1 hm2 ht
    have hV := view_releasedToOne hl ha hr hh hq hww hn1 hres1 hw2 hn2
    have hA := (releasedToOne_answers hl ha hr hww hn1 hres1 hw2).trans (tokenEndReached_answers _)
    have hM := (releasedToOne_compares hl ha hr hh hq hww hn1 hres1 hw2 hn2 hres2 hne).trans (tokenEndReached_compares _)
    obtain ⟨hseed, hpart', hsweep, hevents, hmbox⟩ := tokenEndReached_running
      (v := releasedToOne (senderOf p r) r l w1 w2 e1 (startRequest p r s)) (by simp [hpart])
      (by simpa [TakesAutoAbort] using hmb)
    have reads := reads_of_view ((view_endItem s _).trans ((view_tokenEndReached _).trans hV))
    have htok : (releasedToOne (senderOf p r) r l w1 w2 e1 (startRequest p r s)).token = 0xFFFFFFFFFFFFFFFF#64 := by
      rw [token_of_view hV, releasedToOneView]; simp [grantedView, ht]
    refine ⟨_, exec_request_at_end h hu (by simp [hpart]) (by simpa [TakesAutoAbort] using hmb), ?_, ?_, ?_,
      fun j hj => ?_, ?_, ?_, ?_, fun j hj hj1 hj2 => ?_, ?_, ?_, fun j hj hj2 => ?_, ?_, ?_, fun j hj1 hj2 => ?_, ?_, ?_,
      ?_, fun x hx hx1 hx2 => ?_, hM.marksCompared (view_endItem s _) (by simp), endItem_countsPublished (by simp), ?_⟩
    · apply State.ext <;> simp [endItem_tables, endItem_offered, hseed, hpart', hsweep, hmbox, htok]
    · simp [hevents]
    all_goals simp only [reads, releasedToOneView]
    · simp [grantedView, hm1, handleOf]
    · simp [grantedView, releasedView, hj]
    · simp [grantedView, releasedView, hne1.symm, hne2.symm]
    · simp
    · simp [grantedView, hm1, View.leaseAt, LeaseSlot.lease?, leaseDuration, hne]
    · simp [grantedView, releasedView, hj, hj1, hj2]
    · simp [grantedView, releasedView, hne2.symm]
    · simp [grantedView, releasedView, hne2]
    · simp [grantedView, releasedView, hj, hj2]
    · simp [grantedView, hww]
    · simp
    · simp [grantedView, releasedView, hj1, hj2]
    · simp [grantedView, releasedView, hea1.symm, hea2.symm]
    · simp [grantedView, releasedView, hea1, heae, handleOf]
    · simp [grantedView, releasedView, hea2, heae.symm]
    · simp [grantedView, releasedView, hx, hx1, hx2]
    · simpa [grantedView, releaseReply, grantedReply, hm1, modeCode, leaseDuration, handleOf]
        using repliesHanded_endItem hA
  · intro s p r l lu rec u hok h hpart hfence hl ha hr hs hh hnum hlu hlua hq ht
    dsimp only
    have hrec := released_record hl ha hr
    have hlu' := (released_leaseAt hl ha hr hnum).trans hlu
    have hu := (release_evaluates hl ha hr fun u' hu' he => by
      rw [hs] at hu'; cases hu'; simp [he] at hnum).trans
      (evaluate_halts_upgrade hrec hs hh hq hlu' (by simp [ht, Config.tokenEnd]))
    have hV := view_dropUpgrade hrec hs hlu' .halted
    have hA := (released_answers (senderOf p r) r l (startRequest p r s)).trans
      (dropUpgrade_answers hrec hs hlu' .halted)
    have hM := (released_start_compares hl hr).trans (dropUpgrade_compares hrec hs hlu' .halted)
    rw [view_released_start hl ha hr] at hV
    have reads := reads_of_view ((view_endItem s _).trans hV)
    refine ⟨_, exec_request_running h hu (by simp [hpart]) (by simp) hfence fun x hx => ?_, ?_,
      endItem_offerStands (by simp), ?_, fun j hj => ?_, ?_, fun j hj => ?_, ?_, fun j hj => ?_, ?_, ?_,
      fun x hx hx' => ?_, hM.marksCompared (view_endItem s _) (by simp), endItem_countsPublished (by simp),
      by simpa [releaseReply] using repliesHanded_endItem hA⟩
    · rw [agent_of_view hV]
      by_cases hxl : x = lu.agent
      · subst hxl; simp [releasedView, hx]
      · simp [releasedView, hx, hxl]
    · apply State.ext <;> simp [endItem_tables]
    all_goals simp only [reads]
    · simp [hh]
    · simp [releasedView, hj]
    · simp [releasedView]
    · simp [releasedView, hj]
    · simp [releasedView]
    · simp [releasedView, hj]
    · simp [releasedView, hlua.symm]
    · simp [releasedView, hlua]
    · simp [releasedView, hx, hx']

end Sys2Proof.Machine
end

section
/-! Steps of the fence job (06, R120, R121). -/

namespace Sys2Proof.Machine

/-- A step of a fence job at the head of the sweep list is a work item (06, R120). -/
theorem exec_fenceStep {s : State} {a : Agent} {att : Bool} (h : takenJob s = some (.fence a att)) :
    exec .fenceStep s = .next (withHanded s.handed (finishItem s (fenceStep a (startSweep s)))) := by
  have harm : exec .fenceStep s = execFenceStep s := rfl
  rw [harm, execFenceStep, h]; rfl

/-! ### The end of a fence job -/

/-- A fence job of an agent ends (06, R121). -/
def fenceEnded (a : Agent) (att : Bool) (u : State) : State :=
  let t := setAgentState a .fenced { u with sweep := u.sweep.filter fun j => !isFenceJobOf a j }
  if att then completeCmd .ok [BitVec.setWidth 32 (t.agent a).epoch] t else t

/-- The view after the end of a fence job. -/
@[simp] theorem view_fenceEnded (a : Agent) (att : Bool) (u : State) :
    view (fenceEnded a att u) = (view u).setAgent a fun g => { g with state := .fenced } := by
  have hv : view (setAgentState a .fenced { u with sweep := u.sweep.filter fun j => !isFenceJobOf a j })
      = (view u).setAgent a fun g => { g with state := .fenced } := view_setAgentState ..
  unfold fenceEnded
  cases att <;> simp [hv]

theorem fenceEnded_leases (a x : Agent) (att : Bool) (u : State) :
    ((fenceEnded a att u).agent x).leases = (u.agent x).leases := by
  rw [agent_of_view (view_fenceEnded a att u)]
  by_cases hx : x = a
  · subst hx; simp
  · simp [hx]

/-- A fence job at the head of the list, the agent's only one, ends if its agent has no lease left (06, R121). -/
theorem endFenceJobs_head {b u : State} {a : Agent} {att : Bool} {jobs : List Job} (hs : u.sweep = .fence a att :: jobs)
    (hj : jobs.any (isFenceJobOf a) = false) (hb : (b.agent a).leases ≠ [])
    (hl : ∀ x, x ≠ a → (u.agent x).leases = (b.agent x).leases) :
    endFenceJobs b u = if (u.agent a).leases = [] then fenceEnded a att u else u := by
  have hstep : endFenceJob b u (.fence a att) = if (u.agent a).leases = [] then fenceEnded a att u else u := by
    simp only [endFenceJob, ne_eq, hb, not_false_eq_true, true_and, fenceEnded]
  rw [endFenceJobs, hs, List.foldl_cons, hstep]
  refine foldl_endFenceJob_absent hj fun x hx hx' => ?_
  rw [← hl x hx] at hx'
  split
  · rwa [fenceEnded_leases]
  · exact hx'

/-- What the end of a fence job leaves alone. -/
@[simp] theorem fenceEnded_keeps (a : Agent) (att : Bool) (u : State) :
    (fenceEnded a att u).now = u.now ∧ (fenceEnded a att u).tickPeriod = u.tickPeriod ∧
    (fenceEnded a att u).tickPos = u.tickPos ∧ (fenceEnded a att u).offered = u.offered ∧
    (fenceEnded a att u).waits = u.waits ∧ (fenceEnded a att u).domains = u.domains ∧
    (fenceEnded a att u).token = u.token ∧ (fenceEnded a att u).seeded = u.seeded ∧
    (fenceEnded a att u).part = u.part ∧ (fenceEnded a att u).outer = u.outer ∧
    (fenceEnded a att u).inner = u.inner ∧ (fenceEnded a att u).chosen = u.chosen ∧
    (fenceEnded a att u).pools = u.pools ∧ (fenceEnded a att u).ports = u.ports ∧
    (fenceEnded a att u).args = u.args ∧ (fenceEnded a att u).eventEnable = u.eventEnable ∧
    (fenceEnded a att u).nowLatch = u.nowLatch ∧ (fenceEnded a att u).spiData = u.spiData ∧
    (fenceEnded a att u).freeDraws = u.freeDraws ∧ (fenceEnded a att u).pending = u.pending ∧
    (fenceEnded a att u).sweep = u.sweep.filter fun j => !isFenceJobOf a j := by
  unfold fenceEnded; cases att <;> simp

/-- An attached FENCE completes OK with the agent's epoch at the end of its job; else the mailbox stays (06, R121). -/
theorem fenceEnded_mailbox (a : Agent) (att : Bool) (u : State) :
    (att = true → Completes u (fenceEnded a att u) .ok [BitVec.setWidth 32 (u.agent a).epoch])
      ∧ (att = false → (fenceEnded a att u).mbox = u.mbox ∧ (fenceEnded a att u).res = u.res
        ∧ (fenceEnded a att u).events = u.events) := by
  have hep : ((setAgentState a .fenced { u with sweep := u.sweep.filter fun j => !isFenceJobOf a j }).agent a).epoch
      = (u.agent a).epoch := by
    have hv := view_setAgentState a .fenced { u with sweep := u.sweep.filter fun j => !isFenceJobOf a j }
    rw [agent_of_view hv]; simp [State.agent]
  refine ⟨fun h => ?_, fun h => ?_⟩
  · simp [fenceEnded, h, hep, Completes, completeCmd, postEvent, atBit, eventBit]
  · simp [fenceEnded, h]

/-! ### The step -/

/-- A step of a fence job, on a record with no upgrade and no one queued, before the item's end (06, R120). -/
def fenceStepped (k : Nat) (l : Lease) (v : State) : State := retireRecord l.record (endLease k v)

/-- What the step leaves alone. -/
@[simp] theorem fenceStepped_keeps (k : Nat) (l : Lease) (v : State) :
    (fenceStepped k l v).now = v.now ∧ (fenceStepped k l v).tickPeriod = v.tickPeriod ∧
    (fenceStepped k l v).tickPos = v.tickPos ∧ (fenceStepped k l v).offered = v.offered ∧
    (fenceStepped k l v).waits = v.waits ∧ (fenceStepped k l v).domains = v.domains ∧
    (fenceStepped k l v).token = v.token ∧ (fenceStepped k l v).seeded = v.seeded ∧
    (fenceStepped k l v).part = v.part ∧ (fenceStepped k l v).sweep = v.sweep ∧
    (fenceStepped k l v).outer = v.outer ∧ (fenceStepped k l v).inner = v.inner ∧
    (fenceStepped k l v).chosen = v.chosen ∧ (fenceStepped k l v).pools = v.pools ∧
    (fenceStepped k l v).ports = v.ports ∧ (fenceStepped k l v).mbox = v.mbox ∧
    (fenceStepped k l v).args = v.args ∧ (fenceStepped k l v).res = v.res ∧
    (fenceStepped k l v).events = v.events ∧ (fenceStepped k l v).eventEnable = v.eventEnable ∧
    (fenceStepped k l v).nowLatch = v.nowLatch ∧ (fenceStepped k l v).spiData = v.spiData ∧
    (fenceStepped k l v).freeDraws = v.freeDraws ∧ (fenceStepped k l v).pending = v.pending := by
  simp [fenceStepped]

/-- The view after the step. -/
def fenceSteppedView (h : Handle) (l : Lease) (rec : LockRecord) (v : View) : View :=
  ((((v.setRecord l.record (if rec.holders.erase h = [] then none
    else some { rec with holders := rec.holders.erase h })).setAgent l.agent
    fun g => { g with leases := g.leases.erase h }).setMark (.lease h.num) False).setLease h.num none).bumpGen h.num

section
variable {v : State} {h : Handle} {l : Lease} {rec : LockRecord} (hl : leaseAt v h.num = some l)
  (hh : handleOf v h.num = h) (hr : tableGet v.records l.record = some rec) (hs : rec.slot = none)
include hl hh hr

theorem endLease_record : tableGet (endLease h.num v).records l.record
    = some { rec with holders := rec.holders.erase h } := by
  rw [record_of_view (view_endLease hl hr), hh]; simp

include hs

theorem view_fenceStepped : view (fenceStepped h.num l v) = fenceSteppedView h l rec (view v)
    ∧ Compares v (fenceStepped h.num l v) [.lease h.num] := by
  have hend := endLease_record hl hh hr
  refine ⟨?_, (endLease_compares hl hr).trans (retireRecord_compares hend hs)⟩
  rw [fenceStepped, fenceSteppedView]
  by_cases he : rec.holders.erase h = []
  · rw [view_retireRecord hend he, view_endLease hl hr, if_pos he, hh]; simp
  · rw [retireRecord_of_holders hend he, view_endLease hl hr, if_neg he, hh]

end

/-- The step of a fence job releases the agent's oldest lease (06, R120). -/
theorem fenceStep_oldest {v : State} {a : Agent} {h : Handle} {others : List Handle} {l : Lease} {rec : LockRecord}
    (hlist : (v.agent a).leases = h :: others) (hl : leaseAt v h.num = some l) (hh : handleOf v h.num = h)
    (hr : tableGet v.records l.record = some rec) (hs : rec.slot = none) (hq : rec.queue = []) :
    fenceStep a v = fenceStepped h.num l v := by
  rw [fenceStep, hlist]
  simp only [hl]
  exact evaluate_no_waiter (endLease_record hl hh hr) hs hq

/-- The end of a fence job compares no entry. -/
theorem fenceEnded_compares (a : Agent) (att : Bool) (u : State) : Compares u (fenceEnded a att u) [] := by
  refine ⟨by simp, by simp, fun e _ => ?_⟩
  rw [view_fenceEnded, View.deadline_setAgent _ rfl]
  exact ⟨Iff.rfl, rfl⟩

/-- What the step leaves once the fence job has ended, if it has: the agent has the leases given left. -/
def fenceOutcome (others : List Handle) (a : Agent) (att : Bool) (u : State) : State :=
  if others = [] then fenceEnded a att u else u

/-- What the end of the step leaves alone. -/
@[simp] theorem fenceOutcome_keeps (others : List Handle) (a : Agent) (att : Bool) (u : State) :
    (fenceOutcome others a att u).now = u.now ∧ (fenceOutcome others a att u).tickPeriod = u.tickPeriod ∧
    (fenceOutcome others a att u).tickPos = u.tickPos ∧ (fenceOutcome others a att u).offered = u.offered ∧
    (fenceOutcome others a att u).waits = u.waits ∧ (fenceOutcome others a att u).domains = u.domains ∧
    (fenceOutcome others a att u).token = u.token ∧ (fenceOutcome others a att u).seeded = u.seeded ∧
    (fenceOutcome others a att u).part = u.part ∧ (fenceOutcome others a att u).outer = u.outer ∧
    (fenceOutcome others a att u).inner = u.inner ∧ (fenceOutcome others a att u).chosen = u.chosen ∧
    (fenceOutcome others a att u).pools = u.pools ∧ (fenceOutcome others a att u).ports = u.ports ∧
    (fenceOutcome others a att u).args = u.args ∧ (fenceOutcome others a att u).eventEnable = u.eventEnable ∧
    (fenceOutcome others a att u).nowLatch = u.nowLatch ∧ (fenceOutcome others a att u).spiData = u.spiData ∧
    (fenceOutcome others a att u).freeDraws = u.freeDraws ∧ (fenceOutcome others a att u).pending = u.pending := by
  unfold fenceOutcome; split <;> simp

theorem fenceOutcome_sweep (others : List Handle) (a : Agent) (att : Bool) (u : State) :
    (fenceOutcome others a att u).sweep
      = if others = [] then u.sweep.filter fun j => !isFenceJobOf a j else u.sweep := by
  unfold fenceOutcome; split <;> simp

theorem view_fenceOutcome (others : List Handle) (a : Agent) (att : Bool) (u : State) :
    view (fenceOutcome others a att u)
        = (view u).setAgent a (fun g => { g with state := if others = [] then .fenced else g.state })
      ∧ Compares u (fenceOutcome others a att u) [] := by
  have hsame : (view u).setAgent a (fun g => g) = view u := by simp only [View.setAgent, Function.update_eq_self]
  by_cases he : others = []
  · simp only [fenceOutcome, if_pos he]; exact ⟨view_fenceEnded a att u, fenceEnded_compares a att u⟩
  · simp only [fenceOutcome, if_neg he]; exact ⟨hsame.symm, .none rfl rfl⟩

/-- The mailbox after the step: an attached FENCE completes at its job's end, and else it stays (06, R121). -/
theorem fenceOutcome_mailbox (others : List Handle) (a : Agent) (att : Bool) (u : State) :
    (others = [] ∧ att = true → Completes u (fenceOutcome others a att u) .ok [BitVec.setWidth 32 (u.agent a).epoch])
      ∧ (¬ (others = [] ∧ att = true) → (fenceOutcome others a att u).mbox = u.mbox
        ∧ (fenceOutcome others a att u).res = u.res ∧ (fenceOutcome others a att u).events = u.events) := by
  obtain ⟨hatt, hnot⟩ := fenceEnded_mailbox a att u
  unfold fenceOutcome
  split
  · rename_i he
    exact ⟨fun h => hatt h.2, fun h => hnot (by simpa [he] using h)⟩
  · rename_i he
    exact ⟨fun h => absurd h.1 he, fun _ => ⟨rfl, rfl, rfl⟩⟩

section
variable {s : State} {a : Agent} {att : Bool} {jobs : List Job} {h : Handle} {others : List Handle} {l : Lease}
  {rec : LockRecord} (htaken : takenJob s = some (.fence a att)) (hsweep : s.sweep = .fence a att :: jobs)
  (hjobs : jobs.any (isFenceJobOf a) = false) (hpart : s.part = .running) (hlist : (s.agent a).leases = h :: others)
  (hl : leaseAt s h.num = some l) (ha : l.agent = a) (hh : handleOf s h.num = h)
  (hr : tableGet s.records l.record = some rec) (hs : rec.slot = none)
include hl hh hr hs

theorem view_fenceStep :
    view (fenceStepped h.num l (startSweep s)) = fenceSteppedView h l rec (view s)
      ∧ Compares s (fenceStepped h.num l (startSweep s)) [.lease h.num] := by
  have hv := startSweep_taken s
  obtain ⟨hV, hM⟩ := view_fenceStepped ((hv.leaseAt _).trans hl) ((hv.handleOf _).trans hh) (by rw [hv.records, hr]) hs
  rw [hv.view] at hV
  exact ⟨hV, (Compares.none hv.view hv.now).trans hM⟩

include htaken hsweep hjobs hpart hlist ha

/-- A FENCE_STEP on a record with no upgrade and no one queued. -/
theorem exec_fenceStep_oldest (hq : rec.queue = []) : exec .fenceStep s
    = .next (endItem s (fenceOutcome others a att (fenceStepped h.num l (startSweep s)))) := by
  have hv := startSweep_taken s
  obtain ⟨hV, -⟩ := view_fenceStep hl hh hr hs
  have hstep := fenceStep_oldest (a := a) (by rw [hv.agent, hlist]) ((hv.leaseAt _).trans hl) ((hv.handleOf _).trans hh)
    (by rw [hv.records, hr]) hs hq
  have hleases : ((fenceStepped h.num l (startSweep s)).agent a).leases = others := by
    rw [agent_of_view hV]; simp [fenceSteppedView, ha, hlist]
  have hend := endFenceJobs_head (b := s) (u := fenceStepped h.num l (startSweep s)) (by simpa using hsweep) hjobs
    (by simp [hlist]) fun x hx => by rw [agent_of_view hV]; simp [fenceSteppedView, ha, hx]
  rw [hleases] at hend
  have hhalt : quiesceHalt s (fenceOutcome others a att (fenceStepped h.num l (startSweep s))) = _ :=
    quiesceHalt_running (by simp [hpart])
  rw [exec_fenceStep htaken, hstep, finishItem, hend, ← fenceOutcome, hhalt, endItem]

end

/-- Settles O40: the step releases the oldest lease; the item's end ends the job if it was the last. -/
theorem fenceStepReleasesTheOldestLease : Obligations.FenceStepReleasesTheOldestLease := by
  intro s a att jobs h others l rec hok htaken hsweep hjobs hpart hlist hl ha hh hr hq hs
  dsimp only
  obtain ⟨hV, hM⟩ := view_fenceStep hl hh hr hs
  obtain ⟨hVo, hMo⟩ := view_fenceOutcome others a att (fenceStepped h.num l (startSweep s))
  rw [hV] at hVo
  obtain ⟨hdone, hstays⟩ := fenceOutcome_mailbox others a att (fenceStepped h.num l (startSweep s))
  have hepoch : ((fenceStepped h.num l (startSweep s)).agent a).epoch = (s.agent a).epoch := by
    rw [agent_of_view hV]; simp [fenceSteppedView, ha]
  have reads := reads_of_view ((view_endItem s _).trans hVo)
  refine ⟨_, exec_fenceStep_oldest htaken hsweep hjobs hpart hlist hl ha hh hr hs hq, ?_, by simp,
    endItem_offerStands (by simp), ?_, fun j hj => ?_, ?_, fun j hj => ?_, ?_, fun j hj => ?_, ?_, fun x hx => ?_,
    (hM.trans hMo).marksCompared (view_endItem s _) (by simp), endItem_countsPublished (by simp), ?_, fun he => ?_,
    fun he => ?_⟩
  · apply State.ext <;> simp [endItem_tables]
  · simp [reads, fenceSteppedView]
  · simp [reads, fenceSteppedView, hj]
  · simp [reads, fenceSteppedView]
  · simp [reads, fenceSteppedView, hj]
  · simp [reads, fenceSteppedView]
  · simp [reads, fenceSteppedView, hj]
  · simp [reads, fenceSteppedView, ha, hlist]
  · simp [reads, fenceSteppedView, ha, hx]
  · have hkept : jobs.filter (fun j => !isFenceJobOf a j) = jobs := List.filter_eq_self.2 fun j hj => by
      simpa using List.any_eq_false.1 hjobs j hj
    have hdrop : s.sweep.filter (fun j => !isFenceJobOf a j) = jobs := by
      rw [hsweep, List.filter_cons_of_neg (by simp [isFenceJobOf]), hkept]
    simp [fenceOutcome_sweep, hdrop]
  · simpa [Completes, hepoch] using hdone he
  · simpa using hstays he

end Sys2Proof.Machine
end

section
/-! Steps of the quiesce job (03, R64; 11, R186). -/

namespace Sys2Proof.Machine

/-- A step of the quiesce job at the head of the sweep list is a work item (11, R186). -/
theorem exec_quiesceStep {s : State} {n : Nat} {att : Bool} (h : takenJob s = some (.quiesce n att)) :
    exec .quiesceStep s = .next (withHanded s.handed (finishItem s (quiesceStep n att (startSweep s)))) := by
  have harm : exec .quiesceStep s = execQuiesceStep s := rfl
  rw [harm, execQuiesceStep, h]; rfl

/-- The job taken is listed. -/
theorem takenJob_mem {s : State} {j : Job} (h : takenJob s = some j) : j ∈ s.sweep := by
  unfold takenJob at h
  split at h
  · exact List.mem_of_mem_head? h
  · cases h

/-- A sweep step that empties no lease list and leaves no quiesced part without a lease. -/
theorem finishItem_sweep {s u : State} (hleases : ∀ x, (u.agent x).leases = (s.agent x).leases)
    (hover : quiesceOver u = false) : withHanded s.handed (finishItem s u) = endItem s u := by
  rw [finishItem_of_no_fence (endFenceJobs_quiet fun x hx => by rwa [hleases]),
    quiesceHalt_quiet fun hq => by simp [hover] at hq]

/-- The one reply of a sweep step is queued as the port's queue stands (10, R173). -/
theorem repliesQueued_of_answers {s u t : State} {a : Agent} {x : Reply} (h : Answers (startSweep s) u [(a, x)])
    (ht : t.ports = u.ports) : RepliesQueued s t (portOf a) [x] := by
  have hport : ∀ q, (startSweep s).port q = s.port q := port_congr (by simp)
  have hcase : ∀ q, if (s.port q).link = .down then t.port q = s.port q
      else RepliesTaken false (s.port q) (if portOf a = q then [x] else []) (t.port q) := fun q => by
    have hq := (h q).2
    rw [hport, ← port_congr ht] at hq
    by_cases ha : portOf a = q <;> simpa [ha] using hq
  refine ⟨?_, fun q hq => ?_⟩
  · have hq := hcase (portOf a)
    split
    · rename_i hd; simpa [hd] using hq
    · rename_i hd
      rw [if_neg hd, if_pos rfl] at hq
      obtain ⟨n, hn, ht⟩ := hq
      rw [hn (.inl rfl)] at ht; exact ht
  · have hq' := hcase q
    rw [if_neg (Ne.symm hq)] at hq'
    split at hq'
    · exact hq'
    · exact hq'

/-- The lowest-numbered record at or above a number (11, R186). -/
theorem recordFrom_lowest {v : State} (hok : Rising v.records) {n m : Nat} {rec : LockRecord}
    (hr : tableGet v.records m = some rec) (hn : n ≤ m) (hlow : ∀ x ∈ v.records, n ≤ x.1 → m ≤ x.1) :
    recordFrom v n = some (m, rec) := by
  have hmem := mem_of_tableGet hr
  have hsome : (recordFrom v n).isSome := by
    rw [recordFrom, List.find?_isSome]; exact ⟨_, hmem, by simpa using hn⟩
  obtain ⟨x, hx⟩ := Option.isSome_iff_exists.1 hsome
  obtain ⟨hxn, as, bs, hsplit, hbefore⟩ := List.find?_eq_some_iff_append.1 hx
  have hin : (m, rec) ∈ as ++ x :: bs := hsplit ▸ hmem
  rw [hx]
  rcases List.mem_append.1 hin with hm | hm
  · simpa [hn] using hbefore _ hm
  rcases List.mem_cons.1 hm with rfl | hm
  · rfl
  · have hlt : x.1 < m := by
      rw [Rising, hsplit, List.map_append, List.map_cons] at hok
      exact (List.pairwise_cons.1 (List.pairwise_append.1 hok).2.1).1 m (List.mem_map.2 ⟨_, hm, rfl⟩)
    have hle := hlow x (hsplit ▸ by simp) (by simpa using hxn)
    omega

/-! ### The end of the quiesce job -/

/-- What the end of the quiesce job leaves alone. -/
@[simp] theorem endQuiesceJob_keeps (att : Bool) (u : State) :
    (endQuiesceJob att u).now = u.now ∧ (endQuiesceJob att u).tickPeriod = u.tickPeriod ∧
    (endQuiesceJob att u).tickPos = u.tickPos ∧ (endQuiesceJob att u).marks = u.marks ∧
    (endQuiesceJob att u).offered = u.offered ∧ (endQuiesceJob att u).records = u.records ∧
    (endQuiesceJob att u).leases = u.leases ∧ (endQuiesceJob att u).gens = u.gens ∧
    (endQuiesceJob att u).waits = u.waits ∧ (endQuiesceJob att u).domains = u.domains ∧
    (endQuiesceJob att u).agents = u.agents ∧ (endQuiesceJob att u).token = u.token ∧
    (endQuiesceJob att u).seeded = u.seeded ∧ (endQuiesceJob att u).part = u.part ∧
    (endQuiesceJob att u).outer = u.outer ∧ (endQuiesceJob att u).inner = u.inner ∧
    (endQuiesceJob att u).chosen = u.chosen ∧ (endQuiesceJob att u).pools = u.pools ∧
    (endQuiesceJob att u).ports = u.ports ∧ (endQuiesceJob att u).args = u.args ∧
    (endQuiesceJob att u).eventEnable = u.eventEnable ∧ (endQuiesceJob att u).nowLatch = u.nowLatch ∧
    (endQuiesceJob att u).spiData = u.spiData ∧ (endQuiesceJob att u).freeDraws = u.freeDraws ∧
    (endQuiesceJob att u).pending = u.pending ∧
    (endQuiesceJob att u).sweep = u.sweep.filter fun j => !isQuiesceJob j := by
  unfold endQuiesceJob; cases att <;> simp

/-- The view does not see the end of the quiesce job. -/
@[simp] theorem view_endQuiesceJob (att : Bool) (u : State) : view (endQuiesceJob att u) = view u := by simp [view]

/-- An attached QUIESCE completes OK at the end of its job, here with a lease left; else the mailbox stays (11, R186). -/
theorem endQuiesceJob_mailbox {u : State} (hl : u.leases ≠ []) (att : Bool) :
    (att = true → Completes u (endQuiesceJob att u) .ok [2#32, BitVec.ofNat 32 u.leases.length])
      ∧ (att = false → (endQuiesceJob att u).mbox = u.mbox ∧ (endQuiesceJob att u).res = u.res
        ∧ (endQuiesceJob att u).events = u.events) := by
  refine ⟨fun h => ?_, fun h => ?_⟩
  · simp [h, endQuiesceJob, Completes, completeCmd, postEvent, atBit, eventBit, poolCount, hl, partCode]
  · simp [h, endQuiesceJob]

/-! ### The visit of a record with a waiter -/

section
variable {v : State} {n m w : Nat} {att : Bool} {rec : LockRecord} {e : WaitEntry} (hrecords : v.records = [(m, rec)])
  (hw : tableGet v.waits w = some e) (hn : e.record = m) (hq : rec.queue = [w]) (hs : rec.slot = none)
include hrecords hw hn

theorem removeWait_records (st : Status) :
    (removeWait w (some st) v).records = [(m, { rec with queue := rec.queue.erase w })] := by
  simp [removeWait, hw, dequeueWait, updRecord, hn, hrecords, tableGet, tableSet]

include hq hs

/-- The visit of the only record, with one waiter, ends the quiesce job (03, R64; 11, R186). -/
theorem quiesceStep_waiter (hle : n ≤ m) (hh : rec.holders ≠ []) (hjob : v.sweep.any isQuiesceJob = true) :
    quiesceStep n att v = endQuiesceJob att (removeWait w (some .quiesced) v) := by
  have hr : tableGet v.records m = some rec := by simp [hrecords, tableGet]
  have hleft := removeWait_records hrecords hw hn .quiesced
  have hvisit : quiesceVisit m rec v = removeWait w (some .quiesced) v := by
    rw [quiesceVisit, dropUpgrade_empty hr hs, clearQueue, hq]
    refine evaluate_idle (rec := { rec with queue := rec.queue.erase w }) ?_ hs (by simp [hq]) hh
    simp [hleft, tableGet]
  have hfrom : recordFrom v n = some (m, rec) := by simp [recordFrom, hrecords, hle]
  rw [quiesceStep, hfrom]
  simp only [hvisit, quiesceAdvance]
  simp [hjob, recordFrom, hleft]

end

/-! ### The visit of a record with an upgrade -/

/-- The visit of a record with an upgrade and no waiter, where a higher-numbered record exists, moves the job on
(03, R64; 11, R186). -/
theorem quiesceStep_upgrade {v : State} (hok : Rising v.records) {n m : Nat} {att : Bool} {rec : LockRecord} {u : Upgrade}
    {l : Lease} (hr : tableGet v.records m = some rec) (hn : n ≤ m) (hlow : ∀ x ∈ v.records, n ≤ x.1 → m ≤ x.1)
    (hmore : ∃ x ∈ v.records, m < x.1) (hq : rec.queue = []) (hs : rec.slot = some u) (hh : rec.holders ≠ [])
    (hl : leaseAt v u.lease.num = some l) (hjob : v.sweep.any isQuiesceJob = true) :
    quiesceStep n att v = setQuiesceNext (m + 1) (dropUpgrade m (some .quiesced) v) := by
  have hV := view_dropUpgrade hr hs hl .quiesced
  have hvisit : quiesceVisit m rec v = dropUpgrade m (some .quiesced) v := by
    rw [quiesceVisit, clearQueue, hq]
    exact evaluate_idle (rec := { rec with slot := none }) (by simp [record_of_view hV]) rfl hq hh
  have hnext : (recordFrom (dropUpgrade m (some .quiesced) v) (m + 1)).isSome = true := by
    obtain ⟨x, hx, hlt⟩ := hmore
    have hget : tableGet (dropUpgrade m (some .quiesced) v).records x.1 = some x.2 := by
      rw [record_of_view hV]; simpa [Nat.ne_of_gt hlt] using tableGet_of_mem hok hx
    rw [recordFrom, List.find?_isSome]
    exact ⟨_, mem_of_tableGet hget, by simpa using hlt⟩
  rw [quiesceStep, recordFrom_lowest hok hr hn hlow]
  simp only [hvisit, quiesceAdvance, hnext]
  simp [hjob]

/-- A state in which the quiesce job at the head of the list has moved on to a number (11, R186). -/
def quiesceMoved (k : Nat) (att : Bool) (jobs : List Job) (u : State) : State :=
  { u with sweep := .quiesce k att :: jobs }

/-- The quiesce job's next number moves on, and no other job changes (11, R186). -/
theorem setQuiesceNext_eq {u : State} {n k : Nat} {att : Bool} {jobs : List Job} (hs : u.sweep = .quiesce n att :: jobs)
    (hj : jobs.any isQuiesceJob = false) : setQuiesceNext k u = quiesceMoved k att jobs u := by
  rw [setQuiesceNext, quiesceMoved, hs, List.map_cons]
  congr 2
  refine (List.map_congr_left fun j hm => ?_).trans (List.map_id jobs)
  cases j with
  | quiesce m b => exact absurd (List.any_eq_false.1 hj _ hm) (by simp [isQuiesceJob])
  | fence | abort => rfl

/-- A removed wait's reserved lease entry leaves the lease pool (02, R29). -/
theorem removeWait_leases_length {v : State} (hok : Rising v.leases) {w : Nat} {e : WaitEntry} {x : LeaseSlot}
    (hw : tableGet v.waits w = some e) (hres : tableGet v.leases e.reserved = some x) (st : Status) :
    (removeWait w (some st) v).leases.length + 1 = v.leases.length := by
  have hleases : (removeWait w (some st) v).leases = tableErase v.leases e.reserved := by
    simp [removeWait, hw, freeLeaseEntry]
  rw [hleases, length_tableErase hok hres]

/-- The item's first answer draws no free value: no port it hands something to has been handed anything before
(09, R157; log entry 3). -/
theorem answerTag_freeDraws {v : State} (hv : v.handed = []) (a : Agent) (t : Tag) (kind : Byte) (st : Status)
    (c : Content) : (answerTag a t kind st c v).freeDraws = v.freeDraws := by
  unfold answerTag placeReply handPort
  split <;> simp [portGoesOn, hv]

theorem removeWait_freeDraws {v : State} (hv : v.handed = []) {w : Nat} {e : WaitEntry}
    (hw : tableGet v.waits w = some e) (st : Status) : (removeWait w (some st) v).freeDraws = v.freeDraws := by
  simp [removeWait, hw, answerTag_freeDraws, hv]

theorem dropUpgrade_freeDraws {v : State} (hv : v.handed = []) (n : Nat) (st : Status) :
    (dropUpgrade n (some st) v).freeDraws = v.freeDraws := by
  unfold dropUpgrade
  split
  · rfl
  · dsimp only
    cases upgradeAgent v _ <;> simp [answerTag_freeDraws, hv]

/-- Membership in the marks, off the view. -/
theorem marks_of_view {t : State} {v : View} (h : view t = v) (e : TimedEntry) : e ∈ t.marks ↔ v.marked e := h ▸ Iff.rfl

/-- An answered tag moves, and nothing else of an agent. -/
theorem tagMoves_of_view {s t : State} {v : View} {a : Agent} {g : Tag} {x : TagState} (h : view t = v.setTag a g x)
    (hv : v.agent = (view s).agent) : TagMoves s t a g x := by
  refine ⟨?_, fun b hb => ?_⟩
  · rw [agent_of_view h]; simp [hv]
  · rw [agent_of_view h]; simp [hv, hb]

/-- An answered tag leaves the lease lists. -/
theorem TagMoves.leases {s t : State} {a : Agent} {g : Tag} {x : TagState} (h : TagMoves s t a g x) (b : Agent) :
    (t.agent b).leases = (s.agent b).leases := by
  by_cases hb : b = a
  · rw [hb, h.1]
  · rw [h.2 b hb]

/-- Settles O41: the visit answers the wait or the upgrade; the job ends at the last record and else moves on. -/
theorem quiesceStepAnswersTheWaiters : Obligations.QuiesceStepAnswersTheWaiters := by
  refine ⟨?_, ?_⟩
  · intro s n m w att rec e hok htaken hpart hrecords hle hq hs hh hw hn hres hlen
    dsimp only
    have hv := startSweep_taken s
    have hr : tableGet s.records m = some rec := by simp [hrecords, tableGet]
    have hrecords' : (startSweep s).records = [(m, rec)] := hv.records.trans hrecords
    have hw' : tableGet (startSweep s).waits w = some e := by rw [hv.waits, hw]
    have hstep := quiesceStep_waiter (att := att) hrecords' hw' hn hq hs hle hh
      (List.any_eq_true.2 ⟨_, by simpa using takenJob_mem htaken, rfl⟩)
    have hV := view_removeWait (r := rec) hw' (by rw [hv.records, hn, hr]) .quiesced
    rw [hv.view] at hV
    have hA := removeWait_answers hw' .quiesced
    have hcount := removeWait_leases_length (v := startSweep s) (by simpa using (tables_rising hok).2) hw'
      (by rw [hv.leases]; exact hres) .quiesced
    rw [hv.leases] at hcount
    have hlast := removeWait_records hrecords' hw' hn .quiesced
    have htag : TagMoves s (removeWait w (some .quiesced) (startSweep s)) e.agent e.tag .replying :=
      tagMoves_of_view hV rfl
    have hT := (view_endItem s _).trans ((view_endQuiesceJob att _).trans hV)
    have reads := reads_of_view hT
    have hleft : (removeWait w (some .quiesced) (startSweep s)).leases ≠ [] := fun he => by
      simp only [he, List.length_nil] at hcount; omega
    obtain ⟨hdone, hstays⟩ := endQuiesceJob_mailbox hleft att
    have hover : quiesceOver (endQuiesceJob att (removeWait w (some .quiesced) (startSweep s))) = false := by
      simp [quiesceOver, poolCount, hleft]
    have hexec := exec_quiesceStep htaken
    rw [hstep, finishItem_sweep (fun x => ?_) hover] at hexec
    refine ⟨_, hexec, ?_, endItem_offerStands (by simp), ?_, ?_, fun j hj => ?_, ?_, fun j hj => ?_, ?_, fun j hj => ?_,
      tagMoves_of_view hT rfl, ?_, fun x hx => ?_, endItem_countsPublished (by simp),
      repliesQueued_of_answers hA (by simp), by simp, fun ha => ?_, fun ha => ?_⟩
    · apply State.ext <;> simp [endItem_tables, removeWait_freeDraws, hw]
    · simp [endItem_tables, hlast, hq]
    · simp [reads]
    · simp [reads, hj]
    · simp [reads]
    · simp [reads, hj]
    · simp [reads]
    · simp [reads, hj]
    · rw [marks_of_view hT]; simp
    · rw [marks_of_view hT]; simp [hx]
    · have hlen' : (removeWait w (some .quiesced) (startSweep s)).leases.length = s.leases.length - 1 := by omega
      simpa [Completes, hlen'] using hdone ha
    · simpa using hstays ha
    · rw [agent_of_view ((view_endQuiesceJob att _).trans hV), ← agent_of_view hV, htag.leases]
  · intro s n m att jobs rec u l hok htaken hsweep hjobs hpart hr hn hlow hmore hq hs hh hl
    dsimp only
    have hv := startSweep_taken s
    have hr' : tableGet (startSweep s).records m = some rec := by rw [hv.records, hr]
    have hl' := (hv.leaseAt _).trans hl
    have hrising : Rising (startSweep s).records := by simpa using (tables_rising hok).1
    have hstep := quiesceStep_upgrade (att := att) hrising hr' hn (by simpa using hlow) (by simpa using hmore) hq hs hh
      hl' (by simp [hsweep, isQuiesceJob])
    have hV := view_dropUpgrade hr' hs hl' .quiesced
    rw [hv.view] at hV
    have hA := dropUpgrade_answers hr' hs hl' .quiesced
    have hM := (Compares.none hv.view hv.now).trans (dropUpgrade_compares hr' hs hl' .quiesced)
    have hcount : ∀ k, poolCount (dropUpgrade m (some .quiesced) (startSweep s)) k = poolCount s k :=
      poolCounts_of_lengths ((dropUpgrade_records_length hrising m _).trans (by simp)) (by simp) (by simp)
    rw [setQuiesceNext_eq (u := dropUpgrade m (some .quiesced) (startSweep s)) (by simpa using hsweep) hjobs] at hstep
    have htag : TagMoves s (dropUpgrade m (some .quiesced) (startSweep s)) l.agent u.tag .replying :=
      tagMoves_of_view hV rfl
    have hT : view (endItem s (quiesceMoved (m + 1) att jobs (dropUpgrade m (some .quiesced) (startSweep s)))) = _ :=
      (view_endItem ..).trans hV
    have hover : quiesceOver (quiesceMoved (m + 1) att jobs (dropUpgrade m (some .quiesced) (startSweep s))) = false := by
      simp [quiesceOver, quiesceMoved, isQuiesceJob]
    have hexec := exec_quiesceStep htaken
    rw [hstep, finishItem_sweep (by exact htag.leases) hover] at hexec
    have reads := reads_of_view hT
    have hpools := endItem_pools (s := s)
      (u := quiesceMoved (m + 1) att jobs (dropUpgrade m (some .quiesced) (startSweep s))) (by simp [quiesceMoved]) hcount
    refine ⟨_, hexec, ?_, endItem_offerStands (by simp [quiesceMoved]), ?_, fun j hj => ?_, tagMoves_of_view hT rfl,
      hM.marksCompared (hT.trans hV.symm) (by simp [quiesceMoved]), repliesQueued_of_answers hA (by simp [quiesceMoved])⟩
    · apply State.ext <;> simp [endItem_tables, hpools] <;> simp [quiesceMoved, dropUpgrade_freeDraws]
    · simp [reads]
    · simp [reads, hj]

end Sys2Proof.Machine
end

section
/-! The account of the ingress credits and the notices of every port, which every step keeps (10, R169, R171, R174). -/

namespace Sys2Proof.Machine

/-- A state with the ports of one whose ports keep their accounts. -/
theorem PortLaw.of_ports {s t : State} (h : PortLaw s) (hp : t.ports = s.ports) : PortLaw t := fun p => by
  rw [port_congr hp]; exact h p

/-- Every move keeps the accounts: of the moves only a port's own change touches a port, and it keeps that port's. -/
theorem Move.portLaw {s t : State} (m : Move s t) (h : PortLaw s) : PortLaw t := by
  cases m with
  | quiet q => obtain ⟨-, -, -, -, -, hports, -⟩ := q; exact h.of_ports hports
  | port p f s hf =>
    intro q
    rw [updPort_port]
    split
    · exact hf (h p)
    · exact h q
  | event | flags | enables | period | quota | pool | raise | record | create | retire | grant | upgrade | lease
    | reserve | free | wait | unwait => exact h.of_ports (by simp [newRecord])

/-- Settles O8: a step idles, resets every port, or is a chain of moves, and every move keeps the accounts. -/
theorem everyStepKeepsThePortAccounts : Obligations.EveryStepKeepsThePortAccounts := by
  intro s t hlock hport h
  rcases step_cases h with rfl | ⟨rest, -, h⟩ | ⟨c, rest, -, hc, h⟩
  · exact hport
  · obtain rfl := next_inj h
    intro p
    rw [State.port, Vector.get_eq_getElem, Vector.getElem_map]
    exact resetPort_portOk _
  · exact exec_keeps (fun _ _ _ m => m.portLaw) hc h hlock.1 hport

end Sys2Proof.Machine
end

section
/-! RENEW (02, R33, R36; 05, R94). -/

namespace Sys2Proof.Machine

/-- RENEW's acts on a lease whose record is listed: its duration and own deadline, its mark, and the reply. -/
def renewed (a : Agent) (r : Request) (l : Lease) (dur : Nat) (v : State) : State :=
  reply a r .done { leaseContent ⟨namedLease r, r.gen⟩ l.mode l.token with ticks := BitVec.ofNat 16 dur }
    (recompare (.lease (namedLease r))
      (updLease (namedLease r) (fun l => { l with duration := dur, ownDeadline := v.now + dur }) v))

/-- The view after RENEW's acts. -/
def renewedView (a : Agent) (r : Request) (l : Lease) (dur now : Nat) (v : View) : View :=
  ((v.setLease r.leaseNum.toNat (some (.inUse { l with duration := dur, ownDeadline := now + dur }))).setMark
    (.lease r.leaseNum.toNat) (max (now + dur) ((v.agent l.agent).keepalive + dur) ≤ now)).setTag a r.tag .replying

/-- What RENEW's acts leave alone. -/
@[simp] theorem renewed_keeps (a : Agent) (r : Request) (l : Lease) (dur : Nat) (v : State) :
    (renewed a r l dur v).now = v.now ∧ (renewed a r l dur v).tickPeriod = v.tickPeriod ∧
    (renewed a r l dur v).tickPos = v.tickPos ∧ (renewed a r l dur v).offered = v.offered ∧
    (renewed a r l dur v).records = v.records ∧ (renewed a r l dur v).gens = v.gens ∧
    (renewed a r l dur v).waits = v.waits ∧ (renewed a r l dur v).domains = v.domains ∧
    (renewed a r l dur v).token = v.token ∧ (renewed a r l dur v).seeded = v.seeded ∧
    (renewed a r l dur v).part = v.part ∧ (renewed a r l dur v).sweep = v.sweep ∧
    (renewed a r l dur v).outer = v.outer ∧ (renewed a r l dur v).inner = v.inner ∧
    (renewed a r l dur v).chosen = v.chosen ∧ (renewed a r l dur v).pools = v.pools ∧
    (renewed a r l dur v).mbox = v.mbox ∧ (renewed a r l dur v).args = v.args ∧
    (renewed a r l dur v).res = v.res ∧
    (renewed a r l dur v).events = v.events ∧ (renewed a r l dur v).eventEnable = v.eventEnable ∧
    (renewed a r l dur v).nowLatch = v.nowLatch ∧ (renewed a r l dur v).spiData = v.spiData ∧
    (renewed a r l dur v).pending = v.pending := by
  simp [renewed]

section
variable {v : State} {r : Request} {l : Lease} (hk : leaseAt v r.leaseNum.toNat = some l)
include hk

/-- RENEW's acts on a lease in use. -/
theorem view_renewed (a : Agent) (dur : Nat) :
    view (renewed a r l dur v) = renewedView a r l dur v.now (view v) := by
  have hk' : (view v).leaseAt r.leaseNum.toNat = some l := (view_leaseAt v _).trans hk
  simp only [renewed, namedLease, view_reply, view_recompare, view_updLease hk', updLease_keeps]
  simp [renewedView, View.Due, View.deadline, View.leaseAt, LeaseSlot.lease?]

theorem renewed_compares (a : Agent) (dur : Nat) : Compares v (renewed a r l dur v) [.lease r.leaseNum.toNat] := by
  have hv := view_renewed hk a dur
  refine ⟨by simp, fun e he => ?_, fun e he => ?_⟩
  · obtain rfl := List.mem_singleton.1 he
    rw [hv, renewedView, View.Due, View.deadline_setTag]
    simp [View.deadline, View.leaseAt, LeaseSlot.lease?]
  · have hne : e ≠ .lease r.leaseNum.toNat := fun h => he (by simp [h])
    rw [hv, renewedView, View.deadline_setTag, View.deadline_setMark, View.deadline_setLease _ _ hne]
    simp [hne]

end

/-- RENEW hands over its one reply (05, R94). -/
theorem renewed_answers (a : Agent) (r : Request) (l : Lease) (dur : Nat) (v : State) :
    Answers v (renewed a r l dur v) [(a, replyTo a r .done
      { num := r.leaseNum, gen := r.gen, mode := BitVec.ofNat 8 (modeCode l.mode), token := l.token,
        ticks := BitVec.ofNat 16 dur })] := by
  have h : Answers v (renewed a r l dur v) [(a, replyTo a r .done
      { leaseContent ⟨namedLease r, r.gen⟩ l.mode l.token with ticks := BitVec.ofNat 16 dur })] :=
    (reply_answers _ _ _ _ _).after (by simp) (by simp)
  simpa [leaseContent, namedLease] using h

/-- The duration a renewal sets, from the request's lease ticks (02, R33). -/
theorem renewDuration_toNat (d : Domain) (current : Nat) (x : BitVec 16) : renewDuration d current x.toNat
    = if x = 0#16 then current else min x.toNat d.leaseMax.toNat := by
  by_cases hx : x = 0#16
  · simp [renewDuration, hx]
  · simp [renewDuration, hx, toNat_ne_zero hx]

/-- RENEW keeps the number of lease entries in use. -/
theorem renewed_poolCount {v : State} (hlease : Rising v.leases) (a : Agent) (r : Request) (l : Lease) (dur : Nat)
    (k : Pool) : poolCount (renewed a r l dur v) k = poolCount v k :=
  poolCounts_of_lengths (by simp) (by simpa [renewed] using updLease_leases_length hlease (namedLease r) _) (by simp) k

/-- Settles O19: RENEW's acts on the live lease, by its record's domain. -/
theorem renewMovesTheDeadline : Obligations.RenewMovesTheDeadline := by
  intro s p r l rec hok h hl ha hr
  dsimp only
  rw [← renewDuration_toNat (s.domain rec.domain)]
  generalize hdur : renewDuration (s.domain rec.domain) l.duration r.leaseTicks.toNat = dur
  have hv := startRequest_taken p r s
  have hk := (hv.leaseAt _).trans (liveLease_eq_some.1 hl).2
  have hu : behaviourOf .renew (senderOf p r) r (startRequest p r s)
      = renewed (senderOf p r) r l dur (startRequest p r s) := by
    rw [behaviourOf, withLease_startRequest renewLease hl ha]
    simp [renewLease, hr, hv.domain, hdur, renewed]
  have hV := view_renewed hk (senderOf p r) dur
  rw [hv.view, hv.now] at hV
  have hM := (Compares.none hv.view hv.now).trans (renewed_compares hk (senderOf p r) dur)
  have hcount : ∀ k, poolCount (renewed (senderOf p r) r l dur (startRequest p r s)) k = poolCount s k := fun k => by
    rw [renewed_poolCount (by simpa using (tables_rising hok).2), hv.poolCount]
  have hT := (view_endItem s _).trans hV
  have reads := reads_of_view hT
  have hpools := endItem_pools (by simp) hcount
  have htag : TagMoves s (renewed (senderOf p r) r l dur (startRequest p r s)) (senderOf p r) r.tag .replying :=
    tagMoves_of_view hV rfl
  refine ⟨_, exec_request_steady h hu (by simp) (by simp) hcount fun x hx => by rwa [htag.leases], ?_,
    endItem_offerStands (by simp), ?_, fun j hj => ?_, hM.marksCompared (view_endItem s _) (by simp), ?_,
    repliesHanded_of_answers (renewed_answers _ r l dur _) (by simp)⟩
  · apply State.ext <;> simp [endItem_tables, hpools]
  · simp [reads, renewedView, View.leaseAt, LeaseSlot.lease?]
  · simp [reads, renewedView, hj]
  · have htag' : TagMoves s _ (senderOf p r) r.tag .replying := tagMoves_of_view hT rfl
    simpa [TagMoves, State.agent] using htag'

end Sys2Proof.Machine
end

section
/-! A notice handed to a port, and the loss of a lease that leaves its record without a holder (02, R40 to R44). -/

namespace Sys2Proof.Machine

/-! ### A notice handed over -/

/-- From `s` to `t` the port of an agent takes a notice change to its queue as it stands, unless it is DOWN; no port
changes otherwise (10, R174). -/
def NoticeHanded (s t : State) (a : Agent) (f : List Notice → List Notice) : Prop :=
  ∀ q, t.port q = if q = portOf a ∧ (s.port q).link ≠ .down then { s.port q with noticeQ := f (s.port q).noticeQ }
    else s.port q

section
variable {s t : State} {a : Agent} {f : List Notice → List Notice} (h : NoticeHanded s t a f)
include h

theorem NoticeHanded.down (hd : (s.port (portOf a)).link = .down) : t.port (portOf a) = s.port (portOf a) := by
  rw [h, if_neg fun hc => hc.2 hd]

theorem NoticeHanded.up (hd : (s.port (portOf a)).link ≠ .down) :
    t.port (portOf a) = { s.port (portOf a) with noticeQ := f (s.port (portOf a)).noticeQ } := by
  rw [h, if_pos ⟨rfl, hd⟩]

theorem NoticeHanded.others {q : Port} (hq : q ≠ portOf a) : t.port q = s.port q := by rw [h, if_neg fun hc => hq hc.1]

/-- Of the agent's port nothing but the notice queue changes. -/
theorem NoticeHanded.rest :
    t.port (portOf a) = { s.port (portOf a) with noticeQ := (t.port (portOf a)).noticeQ } := by
  by_cases hd : (s.port (portOf a)).link = .down
  · rw [h.down hd]
  · rw [h.up hd]

/-- What leaves the ports before and after leaves what they take. -/
theorem NoticeHanded.of_ports {s' t' : State} (hs : s'.ports = s.ports) (ht : t'.ports = t.ports) :
    NoticeHanded s' t' a f := fun q => by rw [port_congr hs, port_congr ht]; exact h q

end

/-- A port that an item has handed nothing takes its notice change as it stands. -/
theorem placeNotice_first {a : Agent} {v : State} (hv : portOf a ∉ v.handed) (f : List Notice → List Notice) :
    NoticeHanded v (placeNotice a f v) a f ∧ (placeNotice a f v).freeDraws = v.freeDraws := by
  refine ⟨handPort_first hv _ _, ?_⟩
  unfold placeNotice handPort
  split
  · rfl
  · simp [portGoesOn_quiet hv, noteHanded]

@[simp] theorem view_placeNotice (a : Agent) (f : List Notice → List Notice) (v : State) :
    view (placeNotice a f v) = view v := by simp [view]

/-! ### The loss of a lease -/

/-- The change that a loss makes to its agent's notices: only an ACTIVE agent's is placed (02, R40, R44). -/
def lossNotice (v : State) (l : Lease) (h : Handle) (reason : LossReason) : List Notice → List Notice :=
  if (v.agent l.agent).state = .active then noticeLoss (slotOf l.agent) h reason else id

theorem lossNotice_active {v : State} {l : Lease} (ha : (v.agent l.agent).state = .active) (h : Handle)
    (reason : LossReason) : lossNotice v l h reason = noticeLoss (slotOf l.agent) h reason := if_pos ha

section
variable {v : State} {k : Nat} {l : Lease} (hl : leaseAt v k = some l) (reason : LossReason)
include hl

/-- To the view a loss is the end of the lease. -/
theorem view_loseLease : view (loseLease k reason v) = view (endLease k v) := by
  simp only [loseLease, hl]
  split <;> simp

/-- A loss in an item that has handed the agent's port nothing before. -/
theorem loseLease_notice (hv : portOf l.agent ∉ v.handed) :
    NoticeHanded v (loseLease k reason v) l.agent (lossNotice v l (handleOf v k) reason)
      ∧ (loseLease k reason v).freeDraws = v.freeDraws := by
  simp only [loseLease, hl, lossNotice]
  split
  · obtain ⟨hport, hdraws⟩ := placeNotice_first (v := endLease k v) (by simpa using hv)
      (noticeLoss (slotOf l.agent) (handleOf v k) reason)
    exact ⟨hport.of_ports (by simp) rfl, hdraws.trans (by simp)⟩
  · refine ⟨fun q => ?_, by simp⟩
    rw [port_congr (s := v) (by simp)]
    split <;> rfl

end

/-- A loss and the evaluation after it, of a record with no upgrade and no one queued. -/
def lost (k : Nat) (reason : LossReason) (l : Lease) (v : State) : State := retireRecord l.record (loseLease k reason v)

/-- What the loss leaves alone. -/
@[simp] theorem lost_keeps (k : Nat) (reason : LossReason) (l : Lease) (v : State) :
    (lost k reason l v).now = v.now ∧ (lost k reason l v).tickPeriod = v.tickPeriod ∧
    (lost k reason l v).tickPos = v.tickPos ∧ (lost k reason l v).offered = v.offered ∧
    (lost k reason l v).waits = v.waits ∧ (lost k reason l v).domains = v.domains ∧
    (lost k reason l v).token = v.token ∧ (lost k reason l v).seeded = v.seeded ∧
    (lost k reason l v).part = v.part ∧ (lost k reason l v).sweep = v.sweep ∧
    (lost k reason l v).outer = v.outer ∧ (lost k reason l v).inner = v.inner ∧
    (lost k reason l v).chosen = v.chosen ∧ (lost k reason l v).pools = v.pools ∧
    (lost k reason l v).mbox = v.mbox ∧ (lost k reason l v).args = v.args ∧ (lost k reason l v).res = v.res ∧
    (lost k reason l v).events = v.events ∧ (lost k reason l v).eventEnable = v.eventEnable ∧
    (lost k reason l v).nowLatch = v.nowLatch ∧ (lost k reason l v).spiData = v.spiData ∧
    (lost k reason l v).pending = v.pending := by
  simp [lost]

/-- The view after the loss of a record's only holder. -/
def lostView (h : Handle) (l : Lease) (v : View) : View :=
  ((((v.setRecord l.record none).setAgent l.agent
    fun g => { g with leases := g.leases.erase h }).setMark (.lease h.num) False).setLease h.num none).bumpGen h.num

/-- The loss of one agent's lease leaves the lease lists of the others. -/
theorem lostView_leases {h : Handle} {l : Lease} {v : View} {x : Agent} (hx : x ≠ l.agent) :
    (lostView h l v).agent x = v.agent x := by simp [lostView, hx]

section
variable {v : State} {h : Handle} {l : Lease} {rec : LockRecord} (hl : leaseAt v h.num = some l)
  (hh : handleOf v h.num = h) (hr : tableGet v.records l.record = some rec) (hholder : rec.holders = [h])
  (hs : rec.slot = none) (reason : LossReason)
include hl hh hr hholder

theorem loseLease_record : tableGet (loseLease h.num reason v).records l.record = some { rec with holders := [] } := by
  rw [record_of_view (view_loseLease hl reason), view_record, endLease_record hl hh hr, hholder]; simp

/-- The only holder of a record is lost and the record retired. -/
theorem view_lost : view (lost h.num reason l v) = lostView h l (view v) := by
  rw [lost, view_retireRecord (loseLease_record hl hh hr hholder reason) rfl, view_loseLease hl reason,
    view_endLease hl hr, hh]
  simp [lostView]

include hs

/-- The evaluation after the loss of a record's only holder, with no one queued, retires the record (01, R17). -/
theorem evaluate_loseLease (hq : rec.queue = []) :
    evaluate l.record (loseLease h.num reason v) = lost h.num reason l v :=
  evaluate_no_waiter (loseLease_record hl hh hr hholder reason) hs hq

theorem lost_compares : Compares v (lost h.num reason l v) [.lease h.num] :=
  ((endLease_compares hl hr).trans (Compares.none (view_loseLease hl reason) (by simp))).trans
    (retireRecord_compares (loseLease_record hl hh hr hholder reason) hs)

end

/-- A loss in an item that has handed the agent's port nothing before. -/
theorem lost_notice {v : State} {k : Nat} {l : Lease} (hl : leaseAt v k = some l) (reason : LossReason)
    (hv : portOf l.agent ∉ v.handed) :
    NoticeHanded v (lost k reason l v) l.agent (lossNotice v l (handleOf v k) reason)
      ∧ (lost k reason l v).freeDraws = v.freeDraws := by
  obtain ⟨hport, hdraws⟩ := loseLease_notice hl reason hv
  exact ⟨hport.of_ports rfl (by simp [lost]), by simpa [lost] using hdraws⟩

/-! ### The take of a TIMER item and of a command -/

/-- The state on which a TIMER item works. -/
def startTimer (e : TimedEntry) (s : State) : State := withHanded [] (beginTake (takeOffer e) s)

/-- The take of a TIMER item changes the offer and the arbiter alone. -/
@[simp] theorem beginTimer_keeps (e : TimedEntry) (s : State) :
    (beginTake (takeOffer e) s).now = s.now ∧ (beginTake (takeOffer e) s).tickPeriod = s.tickPeriod ∧
    (beginTake (takeOffer e) s).tickPos = s.tickPos ∧ (beginTake (takeOffer e) s).marks = s.marks ∧
    (beginTake (takeOffer e) s).records = s.records ∧ (beginTake (takeOffer e) s).leases = s.leases ∧
    (beginTake (takeOffer e) s).gens = s.gens ∧ (beginTake (takeOffer e) s).waits = s.waits ∧
    (beginTake (takeOffer e) s).domains = s.domains ∧ (beginTake (takeOffer e) s).agents = s.agents ∧
    (beginTake (takeOffer e) s).token = s.token ∧ (beginTake (takeOffer e) s).seeded = s.seeded ∧
    (beginTake (takeOffer e) s).part = s.part ∧ (beginTake (takeOffer e) s).sweep = s.sweep ∧
    (beginTake (takeOffer e) s).pools = s.pools ∧ (beginTake (takeOffer e) s).ports = s.ports ∧
    (beginTake (takeOffer e) s).mbox = s.mbox ∧ (beginTake (takeOffer e) s).args = s.args ∧
    (beginTake (takeOffer e) s).res = s.res ∧ (beginTake (takeOffer e) s).events = s.events ∧
    (beginTake (takeOffer e) s).eventEnable = s.eventEnable ∧ (beginTake (takeOffer e) s).nowLatch = s.nowLatch ∧
    (beginTake (takeOffer e) s).spiData = s.spiData ∧ (beginTake (takeOffer e) s).handed = s.handed ∧
    (beginTake (takeOffer e) s).freeDraws = s.freeDraws ∧ (beginTake (takeOffer e) s).pending = s.pending := by
  simp [beginTake_eq]

theorem startTimer_taken (e : TimedEntry) (s : State) :
    Taken { s with offered := (beginTake (takeOffer e) s).offered } (startTimer e s) := by
  unfold Taken startTimer; apply State.ext <;> simp

/-- The state on which a TIMER item works, compared with its take. -/
@[simp] theorem startTimer_keeps (e : TimedEntry) (s : State) :
    (startTimer e s).now = s.now ∧ (startTimer e s).tickPeriod = s.tickPeriod ∧
    (startTimer e s).tickPos = s.tickPos ∧ (startTimer e s).marks = s.marks ∧
    (startTimer e s).offered = (beginTake (takeOffer e) s).offered ∧ (startTimer e s).records = s.records ∧
    (startTimer e s).leases = s.leases ∧ (startTimer e s).gens = s.gens ∧ (startTimer e s).waits = s.waits ∧
    (startTimer e s).domains = s.domains ∧ (startTimer e s).agents = s.agents ∧ (startTimer e s).token = s.token ∧
    (startTimer e s).seeded = s.seeded ∧ (startTimer e s).part = s.part ∧ (startTimer e s).sweep = s.sweep ∧
    (startTimer e s).outer = (beginTake (takeOffer e) s).outer ∧
    (startTimer e s).inner = (beginTake (takeOffer e) s).inner ∧
    (startTimer e s).chosen = (beginTake (takeOffer e) s).chosen ∧ (startTimer e s).pools = s.pools ∧
    (startTimer e s).ports = s.ports ∧ (startTimer e s).mbox = s.mbox ∧ (startTimer e s).args = s.args ∧
    (startTimer e s).res = s.res ∧ (startTimer e s).events = s.events ∧
    (startTimer e s).eventEnable = s.eventEnable ∧ (startTimer e s).nowLatch = s.nowLatch ∧
    (startTimer e s).spiData = s.spiData ∧ (startTimer e s).handed = [] ∧
    (startTimer e s).freeDraws = s.freeDraws ∧ (startTimer e s).pending = s.pending := by
  simp [startTimer, withHanded]

/-- The state on which a command works. -/
def startCommand (s : State) : State := withHanded [] (beginCommand s)

theorem startCommand_taken (s : State) : Taken s (startCommand s) := by
  unfold Taken startCommand; apply State.ext <;> simp

/-- The take of a command changes the arbiter and what is in hand alone. -/
@[simp] theorem startCommand_keeps (s : State) :
    (startCommand s).now = s.now ∧ (startCommand s).tickPeriod = s.tickPeriod ∧
    (startCommand s).tickPos = s.tickPos ∧ (startCommand s).marks = s.marks ∧ (startCommand s).offered = s.offered ∧
    (startCommand s).records = s.records ∧ (startCommand s).leases = s.leases ∧ (startCommand s).gens = s.gens ∧
    (startCommand s).waits = s.waits ∧ (startCommand s).domains = s.domains ∧ (startCommand s).agents = s.agents ∧
    (startCommand s).token = s.token ∧ (startCommand s).seeded = s.seeded ∧ (startCommand s).part = s.part ∧
    (startCommand s).sweep = s.sweep ∧ (startCommand s).outer = (beginCommand s).outer ∧
    (startCommand s).inner = (beginCommand s).inner ∧ (startCommand s).chosen = (beginCommand s).chosen ∧
    (startCommand s).pools = s.pools ∧ (startCommand s).ports = s.ports ∧ (startCommand s).mbox = s.mbox ∧
    (startCommand s).args = s.args ∧ (startCommand s).res = s.res ∧ (startCommand s).events = s.events ∧
    (startCommand s).eventEnable = s.eventEnable ∧ (startCommand s).nowLatch = s.nowLatch ∧
    (startCommand s).spiData = s.spiData ∧ (startCommand s).handed = [] ∧
    (startCommand s).freeDraws = s.freeDraws ∧ (startCommand s).pending = s.pending := by
  simp [startCommand, withHanded]

/-- A TIMER item of a lease runs on the state its take leaves (07, R135). -/
theorem exec_leaseExpiry {s : State} {k : Nat} (h : takenTimer s = some (.lease k)) : exec .leaseExpiry s
    = .next (withHanded s.handed (finishItem s (leaseItem k (startTimer (.lease k) s)))) := by
  have harm : exec .leaseExpiry s = execLeaseExpiry s := rfl
  rw [harm, execLeaseExpiry, h]; rfl

/-- An item in a RUNNING part that lists no fence job of the agent whose leases may end. -/
theorem finishItem_running {s u : State} {a : Agent} (hpart : u.part = .running) (hsweep : u.sweep = s.sweep)
    (hfence : fenceJobPresent s a = false) (hleases : ∀ x, x ≠ a → (u.agent x).leases = (s.agent x).leases) :
    withHanded s.handed (finishItem s u) = endItem s u := by
  rw [finishItem_of_no_fence (endFenceJobs_absent (by rw [hsweep]; exact hfence) fun x hx hx' => by rwa [hleases x hx]),
    quiesceHalt_running (by rw [hpart]; simp)]

end Sys2Proof.Machine
end

section
/-! LEASE_EXPIRY (07, R135). -/

namespace Sys2Proof.Machine

section
variable {s : State} {k : Nat} {l : Lease} {rec : LockRecord} (hl : leaseAt s k = some l)
  (hr : tableGet s.records l.record = some rec) (hholder : rec.holders = [handleOf s k]) (hs : rec.slot = none)
include hl hr hholder

/-- The view when the expired lease is lost. -/
theorem view_expired :
    view (lost k .expired l (startTimer (.lease k) s)) = lostView (handleOf s k) l (view s) := by
  have hv := startTimer_taken (.lease k) s
  have hview : view (startTimer (.lease k) s) = view s := hv.view
  rw [← hview]
  exact view_lost (h := handleOf s k) ((hv.leaseAt k).trans hl) (hv.handleOf k) (by rw [hv.records]; exact hr) hholder _

include hs

/-- The lost lease has been compared. -/
theorem expired_compares : Compares s (lost k .expired l (startTimer (.lease k) s)) [.lease k] := by
  have hv := startTimer_taken (.lease k) s
  exact (Compares.none hv.view hv.now).trans (lost_compares (h := handleOf s k) ((hv.leaseAt k).trans hl)
    (hv.handleOf k) (by rw [hv.records]; exact hr) hholder hs _)

/-- A due lease, the only holder of a record with no one queued and no upgrade, is lost, and its ACTIVE agent fenced
where the lease was X and the domain's policy says so (07, R135). -/
theorem leaseItem_expires (hq : rec.queue = []) (hdue : effectiveDeadline s l ≤ s.now)
    (hactive : (s.agent l.agent).state = .active) : leaseItem k (startTimer (.lease k) s)
      = if l.mode = .exclusive ∧ (s.domain rec.domain).policy = 2#2
        then autoFence l.agent (lost k .expired l (startTimer (.lease k) s))
        else lost k .expired l (startTimer (.lease k) s) := by
  have hv := startTimer_taken (.lease k) s
  have hl' : leaseAt (startTimer (.lease k) s) k = some l := (hv.leaseAt k).trans hl
  have hr' : tableGet (startTimer (.lease k) s).records l.record = some rec := by rw [hv.records]; exact hr
  have hdeadline : effectiveDeadline (startTimer (.lease k) s) l = effectiveDeadline s l :=
    hv.read (effectiveDeadline · l) fun _ _ _ _ _ => rfl
  have hlost : evaluate l.record (loseLease k .expired (startTimer (.lease k) s))
      = lost k .expired l (startTimer (.lease k) s) :=
    evaluate_loseLease (h := handleOf s k) hl' (hv.handleOf k) hr' hholder hs _ hq
  have hslot : inSlot (startTimer (.lease k) s) k l = false := by
    rw [inSlot, hr', Option.bind_some, hs]
  have hpolicy : fencePolicy (startTimer (.lease k) s) l.record = decide ((s.domain rec.domain).policy = 2#2) := by
    simp only [fencePolicy, hr', hv.domain]; rfl
  have hstill : ((lost k .expired l (startTimer (.lease k) s)).agent l.agent).state = .active := by
    rw [agent_of_view (view_expired hl hr hholder)]; simpa [lostView] using hactive
  simp [leaseItem, hl', hdeadline, hdue, expireLease, hslot, hlost, hpolicy, hstill]

end

/-- Settles O36: the due lease is lost, its record retired, and nothing follows. -/
theorem leaseExpiryLosesTheLease : Obligations.LeaseExpiryLosesTheLease := by
  intro s k l rec hok htaken hl hdue hpart hactive hfence hr hholder hq hs hmode
  dsimp only
  have hv := startTimer_taken (.lease k) s
  have hV := view_expired hl hr hholder
  have hT := (view_endItem s _).trans hV
  have reads := reads_of_view hT
  obtain ⟨hport, hdraws⟩ := lost_notice (reason := .expired) ((hv.leaseAt k).trans hl) (by simp)
  have hnotice : NoticeHanded s (endItem s (lost k .expired l (startTimer (.lease k) s))) l.agent
      (noticeLoss (slotOf l.agent) (handleOf s k) .expired) := by
    rw [lossNotice_active (by rw [hv.agent]; exact hactive), hv.handleOf] at hport
    exact hport.of_ports (by simp) (by simp)
  have hexec := exec_leaseExpiry htaken
  rw [leaseItem_expires hl hr hholder hs hq hdue hactive,
    if_neg fun hc => hmode.elim (fun h => by simp [h] at hc) fun h => h hc.2,
    finishItem_running (a := l.agent) (by simpa using hpart) (by simp) hfence fun x hx => by
      rw [agent_of_view hV, lostView_leases hx, view_agent]] at hexec
  refine ⟨_, hexec, ?_, endItem_offerStands (by simp), ?_, fun j hj => ?_, ?_, fun j hj => ?_, ?_, fun j hj => ?_, ?_,
    fun x hx => ?_, (expired_compares hl hr hholder hs).marksCompared (view_endItem s _) (by simp),
    endItem_countsPublished (by simp), hnotice.rest, hnotice.down, fun hd h0 => ?_,
    fun pre post c h0 r0 hd hpre h0 => ?_, fun x hx => hnotice.others hx⟩
  · apply State.ext <;> simp [endItem_tables, hdraws]
  · simp [reads, lostView]
  · simp [reads, lostView, hj]
  · simp [reads, lostView, handleOf]
  · simp [reads, lostView, handleOf, hj]
  · simp [reads, lostView, handleOf]
  · simp [reads, lostView, handleOf, hj]
  · simp [reads, lostView]
  · simp [reads, lostView, hx]
  · rw [hnotice.up hd]
    exact (notice_placed h0 _ _ 0).1
  · rw [hnotice.up hd, hpre]
    exact (notice_changed h0 _ rfl post _ _ 0).1

end Sys2Proof.Machine
end

section
/-! FORCE_RELEASE (11, R195). -/

namespace Sys2Proof.Machine

/-- FORCE_RELEASE taken runs on the state its take leaves (11, R195). -/
theorem exec_forceRelease {s : State} (h : takenCommand s = some 0x0B#8) : exec .forceRelease s
    = .next (withHanded s.handed (finishItem s (forceReleaseWork 0x0B#8 (startCommand s)))) := by
  have harm : exec .forceRelease s = execForceRelease s := rfl
  rw [harm, execForceRelease, takeCommand_taken h rfl]; rfl

/-- A command whose work has left the mailbox and EVENTS completes in its take; a refusal has no result words
(11, R191). -/
theorem completes_of_completeCmd {s u t : State} {res : CmdResult} {words : List Word} (hw : res ≠ .ok → words = [])
    (hm : u.mbox = s.mbox) (he : u.events = s.events) (ht : t.mbox = (completeCmd res words u).mbox)
    (hres : t.res = (completeCmd res words u).res) (hev : t.events = (completeCmd res words u).events) :
    Completes s t res words := by
  have hwords : (if res = .ok then words else []) = words := by
    split
    · rfl
    · rename_i hr; exact (hw hr).symm
  rw [Completes, ht, hres, hev]
  simp [completeCmd, postEvent, hm, he, hwords, atBit, eventBit]

/-- An item that changes no lease list, no count and nothing of the part state, and lists a quiesce job only where one
was listed: the clock's offer is all that is left (07, R133). -/
theorem finishItem_steady {s u : State} (hleases : ∀ a, (u.agent a).leases = (s.agent a).leases)
    (hpart : u.part = s.part) (hquiesce : u.sweep.any isQuiesceJob = s.sweep.any isQuiesceJob)
    (hcount : ∀ k, poolCount u k = poolCount s k) : withHanded s.handed (finishItem s u) = endItem s u := by
  rw [finishItem_of_no_fence (endFenceJobs_quiet fun a ha => by rwa [hleases]),
    quiesceHalt_quiet fun hq => by simpa [quiesceOver, hpart, hquiesce, hcount .leasePool] using hq]

/-- A command taken completes and changes nothing else: what is left is the take and the clock's offer. -/
theorem command_reports {s : State} {c : Byte} (h : takenCommand s = some c) (res : CmdResult) (words : List Word)
    (hw : res ≠ .ok → words = []) :
    let b := beginCommand s
    let t := withHanded s.handed (finishItem s (completeTaken c res words (startCommand s)))
    t = { b with mbox := t.mbox, res := t.res, events := t.events, offered := t.offered } ∧ OfferStands b t
      ∧ Completes s t res words := by
  have hcount : ∀ k, poolCount (completeCmd res words (startCommand s)) k = poolCount s k := fun k => by
    cases k <;> simp [poolCount]
  rw [completeTaken_pending res words (by simpa using mbox_of_takenCommand h),
    finishItem_steady (fun a => by rw [agent_congr (s := s) (by simp)]) (by simp) (by simp) hcount]
  have hpools := endItem_pools (by simp) hcount
  refine ⟨?_, endItem_offerStands (by simp), completes_of_completeCmd hw (u := startCommand s) (by simp) (by simp)
    (by simp) (by simp) (by simp)⟩
  apply State.ext <;> simp [endItem_tables, hpools]

/-- FORCE_RELEASE of a record with one holder, no upgrade and no one queued (11, R195). -/
theorem forceReleaseWork_lost {v : State} {c : Byte} {h : Handle} {l : Lease} {rec : LockRecord}
    (hkey : recordOfKey v (argPair v 0 1) = some (l.record, rec)) (hl : leaseAt v h.num = some l)
    (hh : handleOf v h.num = h) (hr : tableGet v.records l.record = some rec) (hholder : rec.holders = [h])
    (hs : rec.slot = none) (hq : rec.queue = []) :
    forceReleaseWork c v = completeTaken c .ok [1#32, 0x100#32] (lost h.num .forced l v) := by
  have hlost : evaluate l.record (forceLoss l.record rec v) = lost h.num .forced l v := by
    rw [forceLoss, dropUpgrade_empty hr hs, hholder]
    exact evaluate_loseLease hl hh hr hholder hs _ hq
  have hnone : tableGet (lost h.num .forced l v).records l.record = none := by
    rw [record_of_view (view_lost hl hh hr hholder _)]; simp [lostView]
  simp [forceReleaseWork, hkey, hlost, holderCount, hnone, hholder, hs, flagAt, atBit]

/-- Settles O53: NOT_FOUND without a record; else the holder is lost, the record retired, and OK reported. -/
theorem forceReleaseTakesTheLock : Obligations.ForceReleaseTakesTheLock := by
  intro s hok htaken
  dsimp only
  have hv := startCommand_taken s
  have hkey : recordOfKey (startCommand s) (argPair (startCommand s) 0 1) = recordOfKey s (argPair s 0 1) :=
    hv.read (fun s => recordOfKey s (argPair s 0 1)) fun _ _ _ _ _ => rfl
  have hexec := exec_forceRelease htaken
  refine ⟨fun hnone => ⟨_, hexec, ?_⟩, fun n rec h l hsome hpart hholder hq hs hl hn hh hactive hfence => ?_⟩
  · have hwork : forceReleaseWork 0x0B#8 (startCommand s) = completeTaken 0x0B#8 .notFound [] (startCommand s) := by
      simp only [forceReleaseWork, hkey, hnone]
    rw [hwork]
    exact command_reports htaken .notFound [] fun _ => rfl
  · subst hn
    have hr := recordOfKey_get hok hsome
    have hl' := (hv.leaseAt _).trans hl
    have hh' := (hv.handleOf _).trans hh
    have hr' : tableGet (startCommand s).records l.record = some rec := by rw [hv.records, hr]
    have hmbox : (lost h.num .forced l (startCommand s)).mbox.state = .pending
        ∧ (lost h.num .forced l (startCommand s)).mbox.code = 0x0B#8 := by simpa using mbox_of_takenCommand htaken
    have hV := view_lost hl' hh' hr' hholder .forced
    rw [hv.view] at hV
    have hM := (Compares.none hv.view hv.now).trans (lost_compares hl' hh' hr' hholder hs .forced)
    obtain ⟨hport, hdraws⟩ := lost_notice (reason := .forced) hl' (by simp)
    rw [lossNotice_active (by rw [hv.agent]; exact hactive), hh'] at hport
    rw [forceReleaseWork_lost (hkey.trans hsome) hl' hh' hr' hholder hs hq, completeTaken_pending _ _ hmbox,
      finishItem_running (a := l.agent) (by simpa using hpart) (by simp) hfence fun x hx => by
        rw [agent_of_view ((view_completeCmd ..).trans hV), lostView_leases hx, view_agent]] at hexec
    have hT := (view_endItem s _).trans ((view_completeCmd .ok [1#32, 0x100#32] _).trans hV)
    have reads := reads_of_view hT
    have hnotice : NoticeHanded s (endItem s (completeCmd .ok [1#32, 0x100#32] (lost h.num .forced l (startCommand s))))
        l.agent (noticeLoss (slotOf l.agent) h .forced) := hport.of_ports (by simp) (by simp)
    refine ⟨_, hexec, ?_, endItem_offerStands (by simp), ?_, fun j hj => ?_, ?_, fun j hj => ?_, ?_, fun j hj => ?_, ?_,
      fun x hx => ?_, hM.marksCompared ((view_endItem s _).trans (view_completeCmd ..)) (by simp),
      endItem_countsPublished (by simp), hnotice.rest, hnotice.down, fun hd h0 => ?_, fun x hx => hnotice.others hx,
      completes_of_completeCmd (fun hok => absurd rfl hok) (u := lost h.num .forced l (startCommand s)) (by simp)
        (by simp) (by simp) (by simp) (by simp)⟩
    · apply State.ext <;> simp [endItem_tables, hdraws]
    · simp [reads, lostView]
    · simp [reads, lostView, hj]
    · simp [reads, lostView]
    · simp [reads, lostView, hj]
    · simp [reads, lostView]
    · simp [reads, lostView, hj]
    · simp [reads, lostView]
    · simp [reads, lostView, hx]
    · rw [hnotice.up hd]
      exact (notice_placed h0 _ _ 0).1

end Sys2Proof.Machine
end

section
/-! An agent without a wait and without an upgrade enters FENCING (06, R117; 02, R45). -/

namespace Sys2Proof.Machine

/-- A tag of an agent that neither waits nor upgrades is left as it is (06, R117). -/
theorem fenceTag_idle {a : Agent} {v : State} {t : Tag} (h : v.tag a t = .free ∨ v.tag a t = .replying) :
    fenceTag a v t = v := by
  unfold fenceTag
  rcases h with h | h <;> simp [h]

theorem foldl_fenceTag_idle {a : Agent} {v : State} (h : ∀ t, v.tag a t = .free ∨ v.tag a t = .replying)
    (l : List Tag) : l.foldl (fenceTag a) v = v := by
  induction l with
  | nil => rfl
  | cons t rest ih => rw [List.foldl_cons, fenceTag_idle (h t), ih]

/-- The acts that are left of entering FENCING for an agent without a wait and without an upgrade: the state, the notice
and the fence job (06, R117). -/
def fenced (a : Agent) (v : State) : State :=
  fenceJob a (placeNotice a (noticeFence (slotOf a) (v.agent a).epoch) (setAgentState a .fencing v))

theorem enterFencing_idle {a : Agent} {v : State} (h : ∀ t, v.tag a t = .free ∨ v.tag a t = .replying) :
    enterFencing a v = fenced a v := by
  have htags : ∀ t, (setAgentState a .fencing v).tag a t = v.tag a t := fun t => by
    simp [State.tag, setAgentState, updAgent_agent]
  have hepoch : ((setAgentState a .fencing v).agent a).epoch = (v.agent a).epoch := by
    simp [setAgentState, updAgent_agent]
  rw [enterFencing, foldl_fenceTag_idle fun t => by rw [htags]; exact h t]
  simp only [hepoch, fenced]

/-- What these acts leave alone. -/
@[simp] theorem fenced_keeps (a : Agent) (v : State) :
    (fenced a v).now = v.now ∧ (fenced a v).tickPeriod = v.tickPeriod ∧ (fenced a v).tickPos = v.tickPos ∧
    (fenced a v).marks = v.marks ∧ (fenced a v).offered = v.offered ∧ (fenced a v).records = v.records ∧
    (fenced a v).leases = v.leases ∧ (fenced a v).gens = v.gens ∧ (fenced a v).waits = v.waits ∧
    (fenced a v).domains = v.domains ∧ (fenced a v).token = v.token ∧ (fenced a v).seeded = v.seeded ∧
    (fenced a v).part = v.part ∧ (fenced a v).outer = v.outer ∧ (fenced a v).inner = v.inner ∧
    (fenced a v).chosen = v.chosen ∧ (fenced a v).pools = v.pools ∧ (fenced a v).mbox = v.mbox ∧
    (fenced a v).args = v.args ∧ (fenced a v).res = v.res ∧ (fenced a v).events = v.events ∧
    (fenced a v).eventEnable = v.eventEnable ∧ (fenced a v).nowLatch = v.nowLatch ∧
    (fenced a v).spiData = v.spiData ∧ (fenced a v).pending = v.pending := by
  simp [fenced]

/-- The agent's record once it has entered FENCING: FENCED at once without a lease (06, R117). -/
def fencedRecord (g : AgentRec) : AgentRec := { g with state := if g.leases = [] then .fenced else .fencing }

/-- The fence job is the agent's only without a lease list to empty (06, R117). -/
theorem fenceJob_spec {a : Agent} {v : State} (hstate : (v.agent a).state = .fencing) (hpart : v.part ≠ .aborting) :
    view (fenceJob a v) = (view v).setAgent a fencedRecord
      ∧ (fenceJob a v).sweep = if (v.agent a).leases = [] then v.sweep else v.sweep ++ [.fence a false] := by
  by_cases hl : (v.agent a).leases = []
  · rw [fenceJob, if_pos hl, if_pos hl, view_setAgentState]
    simp [fencedRecord, hl]
  · rw [fenceJob, if_neg hl, if_neg hpart, if_neg hl]
    refine ⟨?_, rfl⟩
    have hsame : fencedRecord (v.agent a) = v.agent a := by simp [fencedRecord, hl, ← hstate]
    simp only [View.setAgent, view_agent, hsame]
    simp only [← view_agent, Function.update_eq_self]
    rfl

theorem view_fenced {a : Agent} {v : State} (hpart : v.part ≠ .aborting) :
    view (fenced a v) = (view v).setAgent a fencedRecord
      ∧ (fenced a v).sweep = if (v.agent a).leases = [] then v.sweep else v.sweep ++ [.fence a false] := by
  obtain ⟨hview, hsweep⟩ := fenceJob_spec (a := a)
    (v := placeNotice a (noticeFence (slotOf a) (v.agent a).epoch) (setAgentState a .fencing v))
    (by rw [agent_of_view (view_placeNotice ..), view_setAgentState]; simp) (by simpa using hpart)
  refine ⟨?_, ?_⟩
  · rw [fenced, hview, view_placeNotice, view_setAgentState]
    simp only [View.setAgent, Function.update_idem, Function.update_self]
    rfl
  · rw [fenced, hsweep, agent_of_view (view_placeNotice ..), view_setAgentState]
    simp

/-- Entering FENCING compares no entry. -/
theorem fenced_compares {a : Agent} {v : State} (hpart : v.part ≠ .aborting) : Compares v (fenced a v) [] := by
  refine ⟨by simp, by simp, fun e _ => ?_⟩
  rw [(view_fenced hpart).1, View.deadline_setAgent _ rfl]
  exact ⟨Iff.rfl, rfl⟩

/-- The FENCE notice in an item that has handed the agent's port nothing before (02, R45). -/
theorem fenced_notice {a : Agent} {v : State} (hv : portOf a ∉ v.handed) :
    NoticeHanded v (fenced a v) a (noticeFence (slotOf a) (v.agent a).epoch)
      ∧ (fenced a v).freeDraws = v.freeDraws := by
  obtain ⟨hport, hdraws⟩ := placeNotice_first (v := setAgentState a .fencing v) (by simpa using hv)
    (noticeFence (slotOf a) (v.agent a).epoch)
  exact ⟨hport.of_ports (by simp) (by simp [fenced]), by simpa [fenced] using hdraws⟩

end Sys2Proof.Machine
end

section
/-! FENCE by command (06, R119). -/

namespace Sys2Proof.Machine

/-- FENCE taken runs on the state its take leaves (06, R119). -/
theorem exec_fence {s : State} (h : takenCommand s = some 9#8) : exec .fence s
    = .next (withHanded s.handed (finishItem s (fenceWork 9#8 (startCommand s)))) := by
  have harm : exec .fence s = execFence s := rfl
  rw [harm, execFence, takeCommand_taken h rfl]; rfl

/-- The jobs of a list that holds no fence job of an agent keep their attachments (06, R119). -/
theorem map_attachFence_absent {a : Agent} {jobs : List Job} (h : jobs.any (isFenceJobOf a) = false) :
    jobs.map (attachFence a) = jobs := by
  refine (List.map_congr_left fun j hj => ?_).trans (List.map_id jobs)
  have hnot := List.any_eq_false.1 h j hj
  cases j with
  | fence b att => simp only [isFenceJobOf, decide_eq_true_eq] at hnot; simp [attachFence, hnot]
  | quiesce | abort => rfl

/-- An attachment makes no quiesce job. -/
theorem any_isQuiesceJob_map_attachFence (a : Agent) (jobs : List Job) :
    (jobs.map (attachFence a)).any isQuiesceJob = jobs.any isQuiesceJob := by
  rw [List.any_map]
  congr 1
  funext j
  cases j with
  | fence b att => simp only [Function.comp, attachFence]; split <;> rfl
  | quiesce | abort => rfl

/-- A job of the sweep list carries the command in the mailbox (11, R191). -/
def runningWith (jobs : List Job) (v : State) : State := mailboxRunning { v with sweep := jobs }

/-- What this leaves alone. -/
@[simp] theorem runningWith_keeps (jobs : List Job) (v : State) :
    (runningWith jobs v).now = v.now ∧ (runningWith jobs v).tickPeriod = v.tickPeriod ∧
    (runningWith jobs v).tickPos = v.tickPos ∧ (runningWith jobs v).marks = v.marks ∧
    (runningWith jobs v).offered = v.offered ∧ (runningWith jobs v).records = v.records ∧
    (runningWith jobs v).leases = v.leases ∧ (runningWith jobs v).gens = v.gens ∧
    (runningWith jobs v).waits = v.waits ∧ (runningWith jobs v).domains = v.domains ∧
    (runningWith jobs v).agents = v.agents ∧ (runningWith jobs v).token = v.token ∧
    (runningWith jobs v).seeded = v.seeded ∧ (runningWith jobs v).part = v.part ∧
    (runningWith jobs v).sweep = jobs ∧ (runningWith jobs v).outer = v.outer ∧
    (runningWith jobs v).inner = v.inner ∧ (runningWith jobs v).chosen = v.chosen ∧
    (runningWith jobs v).pools = v.pools ∧ (runningWith jobs v).ports = v.ports ∧
    (runningWith jobs v).mbox = { v.mbox with state := .running } ∧ (runningWith jobs v).args = v.args ∧
    (runningWith jobs v).res = v.res ∧ (runningWith jobs v).events = v.events ∧
    (runningWith jobs v).eventEnable = v.eventEnable ∧ (runningWith jobs v).nowLatch = v.nowLatch ∧
    (runningWith jobs v).spiData = v.spiData ∧ (runningWith jobs v).handed = v.handed ∧
    (runningWith jobs v).freeDraws = v.freeDraws ∧ (runningWith jobs v).pending = v.pending := by
  simp [runningWith]; rfl

/-- A FENCE that still stands in the mailbox attaches to the agent's job (06, R119). -/
theorem attachToFenceJob_pending {c : Byte} {v : State} (h : v.mbox.state = .pending ∧ v.mbox.code = c) (a : Agent) :
    attachToFenceJob c a v = runningWith (v.sweep.map (attachFence a)) v := by
  simp [attachToFenceJob, stillCarried, h.1, h.2, runningWith]

/-- FENCE of an ACTIVE agent without a wait and without an upgrade: FENCED at once it completes, else it is attached
to the new job (06, R119). -/
def fenceCommanded (a : Agent) (v : State) : State :=
  if (v.agent a).leases = [] then completeCmd .ok [BitVec.setWidth 32 (v.agent a).epoch] (fenced a v)
  else runningWith (v.sweep ++ [.fence a true]) (fenced a v)

/-- What it leaves alone. -/
@[simp] theorem fenceCommanded_keeps (a : Agent) (v : State) :
    (fenceCommanded a v).now = v.now ∧ (fenceCommanded a v).tickPeriod = v.tickPeriod ∧
    (fenceCommanded a v).tickPos = v.tickPos ∧ (fenceCommanded a v).marks = v.marks ∧
    (fenceCommanded a v).offered = v.offered ∧ (fenceCommanded a v).records = v.records ∧
    (fenceCommanded a v).leases = v.leases ∧ (fenceCommanded a v).gens = v.gens ∧
    (fenceCommanded a v).waits = v.waits ∧ (fenceCommanded a v).domains = v.domains ∧
    (fenceCommanded a v).token = v.token ∧ (fenceCommanded a v).seeded = v.seeded ∧
    (fenceCommanded a v).part = v.part ∧ (fenceCommanded a v).outer = v.outer ∧
    (fenceCommanded a v).inner = v.inner ∧ (fenceCommanded a v).chosen = v.chosen ∧
    (fenceCommanded a v).pools = v.pools ∧ (fenceCommanded a v).ports = (fenced a v).ports ∧
    (fenceCommanded a v).args = v.args ∧ (fenceCommanded a v).eventEnable = v.eventEnable ∧
    (fenceCommanded a v).nowLatch = v.nowLatch ∧ (fenceCommanded a v).spiData = v.spiData ∧
    (fenceCommanded a v).freeDraws = (fenced a v).freeDraws ∧ (fenceCommanded a v).pending = v.pending := by
  unfold fenceCommanded; split <;> simp

section
variable {a : Agent} {v : State} (hpart : v.part ≠ .aborting)
include hpart

theorem view_fenceCommanded : view (fenceCommanded a v) = (view v).setAgent a fencedRecord := by
  rw [← (view_fenced hpart).1]
  unfold fenceCommanded
  split
  · exact view_completeCmd ..
  · rfl

theorem fenceCommanded_sweep : (fenceCommanded a v).sweep
    = if (v.agent a).leases = [] then v.sweep else v.sweep ++ [.fence a true] := by
  unfold fenceCommanded
  split
  · rename_i hl
    simp [(view_fenced hpart).2, hl]
  · rfl

/-- The work of a FENCE of an ACTIVE agent without a wait and without an upgrade (06, R119). -/
theorem fenceWork_active {c : Byte} (hmbox : v.mbox.state = .pending ∧ v.mbox.code = c) (ha : argAgent v = some a)
    (hactive : (v.agent a).state = .active) (htags : ∀ t, v.tag a t = .free ∨ v.tag a t = .replying)
    (hjob : fenceJobPresent v a = false) : fenceWork c v = fenceCommanded a v := by
  obtain ⟨hview, hsweep⟩ := view_fenced (a := a) hpart
  have hrecord : (fenced a v).agent a = fencedRecord (v.agent a) := by rw [agent_of_view hview]; simp
  have hmbox' : (fenced a v).mbox.state = .pending ∧ (fenced a v).mbox.code = c := by simpa using hmbox
  have hwork : fenceWork c v = if ((fenced a v).agent a).state = .fenced
      then completeTaken c .ok (epochWord (fenced a v) a) (fenced a v) else attachToFenceJob c a (fenced a v) := by
    simp only [fenceWork, ha, hactive, enterFencing_idle htags]
  rw [hwork, completeTaken_pending _ _ hmbox', attachToFenceJob_pending hmbox', fenceCommanded, epochWord, hrecord,
    hsweep]
  by_cases hl : (v.agent a).leases = []
  · have hword : ∀ x : BitVec 16, atBit 0 x.toNat = BitVec.setWidth 32 x := fun x => by
      simp [atBit, BitVec.ofNat_toNat]
    simp [fencedRecord, hl, hword]
  · have hjobs : v.sweep.map (attachFence a) = v.sweep := map_attachFence_absent hjob
    simp [fencedRecord, hl, hjobs, attachFence]

end

theorem fenceCommanded_counts (a : Agent) (s : State) (k : Pool) :
    poolCount (fenceCommanded a (startCommand s)) k = poolCount s k := by
  cases k <;> simp [poolCount]

/-- No job of the sweep list and no halt follows the FENCE in its item: the lease lists stay (06, R121; 11, R187). -/
theorem finishItem_fenceCommanded {a : Agent} {s : State} (hpart : s.part ≠ .aborting) :
    withHanded s.handed (finishItem s (fenceCommanded a (startCommand s)))
      = endItem s (fenceCommanded a (startCommand s)) := by
  have hpart' : (startCommand s).part ≠ .aborting := by simpa using hpart
  refine finishItem_steady (fun x => ?_) (by simp) ?_ (fenceCommanded_counts a s)
  · rw [agent_of_view (view_fenceCommanded hpart'), (startCommand_taken s).view]
    by_cases hx : x = a <;> simp [hx, fencedRecord]
  · rw [fenceCommanded_sweep hpart']
    split <;> simp [isQuiesceJob]

/-- Settles O51: FENCE in each agent state. -/
theorem fenceByCommand : Obligations.FenceByCommand := by
  intro s htaken hpart
  dsimp only
  have hv := startCommand_taken s
  have harg : argAgent (startCommand s) = argAgent s := hv.read argAgent fun _ _ _ _ _ => rfl
  have hmbox : (startCommand s).mbox.state = .pending ∧ (startCommand s).mbox.code = 9#8 := by
    simpa using mbox_of_takenCommand htaken
  refine ⟨fun hbig => ⟨_, exec_fence htaken, ?_⟩, fun a harg' => ⟨_, exec_fence htaken, fun hst => ?_, fun hst => ?_,
    fun hst => ?_, fun hst htags hjob => ?_⟩⟩
  · have hnone : argAgent (startCommand s) = none := by
      rw [harg, argAgent, agentOfNat, dif_neg (by omega)]
    simp only [fenceWork, hnone]
    exact command_reports htaken .invalid [] fun _ => rfl
  all_goals
    have hsome : argAgent (startCommand s) = some a := by
      rw [harg, argAgent, agentOfNat, dif_pos (by omega)]; simp [harg']
    have hst' := (congrArg AgentRec.state (hv.agent a)).trans hst
  · simp only [fenceWork, hsome, hst']
    exact command_reports htaken .already [] fun _ => rfl
  · simp only [fenceWork, hsome, hst']
    exact command_reports htaken .notAdmitted [] fun _ => rfl
  · have hcount : ∀ k, poolCount (runningWith (s.sweep.map (attachFence a)) (startCommand s)) k = poolCount s k :=
      fun k => by cases k <;> simp [poolCount]
    simp only [fenceWork, hsome, hst', attachToFenceJob_pending hmbox, startCommand_keeps]
    rw [finishItem_steady (fun x => by rw [agent_congr (s := s) (by simp)]) (by simp)
      (by simpa only [runningWith_keeps] using any_isQuiesceJob_map_attachFence a s.sweep) hcount]
    have hpools := endItem_pools (by simp) hcount
    apply State.ext <;> simp [endItem_tables, hpools]
  · have hpart' : (startCommand s).part ≠ .aborting := by simpa using hpart
    have hV := view_fenceCommanded (a := a) hpart'
    rw [hv.view] at hV
    have hsweep := fenceCommanded_sweep (a := a) hpart'
    rw [hv.agent] at hsweep
    obtain ⟨hport, hdraws⟩ := fenced_notice (a := a) (v := startCommand s) (by simp)
    rw [hv.agent] at hport
    rw [fenceWork_active hpart' hmbox hsome hst' (fun t => by rw [hv.tag]; exact htags t)
      (by simpa [fenceJobPresent] using hjob), finishItem_fenceCommanded hpart]
    have hT := (view_endItem s _).trans hV
    have hpools := endItem_pools (by simp) (fenceCommanded_counts a s)
    have hnotice : NoticeHanded s (endItem s (fenceCommanded a (startCommand s))) a
        (noticeFence (slotOf a) (s.agent a).epoch) := hport.of_ports (by simp) (by simp)
    refine ⟨?_, endItem_offerStands (by simp), ?_, fun x hx => ?_, fun hl => ⟨?_, ?_⟩, fun hl => ⟨?_, ?_, ?_, ?_⟩,
      hnotice.rest, hnotice.down, fun hd h0 => ?_, fun pre post n hd hpre hn h0 => ?_, fun x hx => hnotice.others hx⟩
    · apply State.ext <;> simp [endItem_tables, hpools, hdraws]
    · exact (agent_of_view hT a).trans (Function.update_self ..)
    · rw [agent_of_view hT]; simp [hx]
    · simp [hsweep, hl]
    · have hcmd : fenceCommanded a (startCommand s)
          = completeCmd .ok [BitVec.setWidth 32 (s.agent a).epoch] (fenced a (startCommand s)) := by
        rw [fenceCommanded, hv.agent, if_pos hl]
      rw [hcmd]
      exact completes_of_completeCmd (fun hok => absurd rfl hok) (u := fenced a (startCommand s)) (by simp) (by simp)
        (by simp) (by simp) (by simp)
    · simp [hsweep, hl]
    · simp [fenceCommanded, hv.agent, hl]
    · simp [fenceCommanded, hv.agent, hl]
    · simp [fenceCommanded, hv.agent, hl]
    · rw [hnotice.up hd]
      exact (notice_placed h0 ⟨0, 0⟩ .expired _).2
    · rw [hnotice.up hd, hpre]
      exact (notice_changed h0 n hn post ⟨0, 0⟩ .expired _).2

end Sys2Proof.Machine
end

section
/-! LEASE_EXPIRY of an X lease in a FENCE domain (02, R41; 07, R135). -/

namespace Sys2Proof.Machine

/-! ### A port that has been handed a loss takes a fence -/

/-- A loss of an ACTIVE agent hands its port an entry, unless the port is DOWN (02, R44; 10, R174). -/
theorem mem_handed_lost {v : State} {k : Nat} {l : Lease} (hl : leaseAt v k = some l) (reason : LossReason)
    (ha : (v.agent l.agent).state = .active) (hup : (v.port (portOf l.agent)).link ≠ .down) :
    portOf l.agent ∈ (lost k reason l v).handed := by
  obtain ⟨n, -, -, hhanded⟩ := handPort_port .notice (portOf l.agent)
    (fun q => { q with noticeQ := noticeLoss (slotOf l.agent) (handleOf v k) reason q.noticeQ }) (endLease k v)
  have hlink : ((endLease k v).port (portOf l.agent)).link ≠ .down := by rwa [port_congr (s := v) (by simp)]
  rw [if_neg hlink] at hhanded
  simp [lost, loseLease, hl, ha, placeNotice, hhanded]

/-- A port that is DOWN discards the FENCE notice (10, R174). -/
theorem fenced_down {a : Agent} {v : State} (hd : (v.port (portOf a)).link = .down) :
    (fenced a v).ports = v.ports ∧ (fenced a v).freeDraws = v.freeDraws := by
  have hlink : ((setAgentState a .fencing v).port (portOf a)).link = .down := by rwa [port_congr (s := v) (by simp)]
  simp [fenced, placeNotice, handPort, hlink]

/-- A port that the item has handed something and that holds a notice may go on by itself before it takes the FENCE
notice (09, R157; log entry 3). -/
theorem fenced_again {a : Agent} {v : State} (hup : (v.port (portOf a)).link ≠ .down) (hin : portOf a ∈ v.handed)
    (hne : (v.port (portOf a)).noticeQ ≠ []) :
    (fenced a v).freeDraws = v.freeDraws + 1
      ∧ (∃ n, (fenced a v).port (portOf a) = { transmitterSteps n (v.port (portOf a)) with
          noticeQ := noticeFence (slotOf a) (v.agent a).epoch (transmitterSteps n (v.port (portOf a))).noticeQ })
      ∧ ∀ q, q ≠ portOf a → (fenced a v).port q = v.port q := by
  have hports : (setAgentState a .fencing v).ports = v.ports := by simp
  obtain ⟨n, -, hport, -⟩ := handPort_port .notice (portOf a)
    (fun q => { q with noticeQ := noticeFence (slotOf a) (v.agent a).epoch q.noticeQ }) (setAgentState a .fencing v)
  have hfenced : (fenced a v).ports = (placeNotice a (noticeFence (slotOf a) (v.agent a).epoch)
      (setAgentState a .fencing v)).ports := by simp [fenced]
  refine ⟨?_, ⟨n, ?_⟩, fun q hq => ?_⟩
  · have htells : orderTells .notice (v.port (portOf a)) = true := by simp [orderTells, hne]
    simp [fenced, placeNotice, handPort, port_congr hports, hup, noteHanded, portGoesOn, hin, htells]
  · rw [port_congr hfenced, placeNotice, hport, port_congr hports, if_pos ⟨rfl, hup⟩]
  · rw [port_congr hfenced, placeNotice, hport, port_congr hports, if_neg fun hc => hq hc.1]

/-! ### The statements about the queue and the transmitter -/

/-- The tables of R44 and R45 (02). -/
theorem noticeTables (sl : Slot) (h : Handle) (reason : LossReason) (epoch : BitVec 16) (l : List Notice) :
    (sl ∉ l.map noticeSlot →
      noticeLoss sl h reason l = l ++ [.lost sl 1 h reason] ∧ noticeFence sl epoch l = l ++ [.fence sl epoch])
    ∧ (∀ pre post c h0 r0, l = pre ++ .lost sl c h0 r0 :: post → sl ∉ pre.map noticeSlot →
      noticeLoss sl h reason l = pre ++ .lost sl (min (c + 1) 1024) h reason :: post
        ∧ noticeFence sl epoch l = pre ++ .fence sl epoch :: post)
    ∧ ∀ pre post e0, l = pre ++ .fence sl e0 :: post → sl ∉ pre.map noticeSlot →
      noticeLoss sl h reason l = l ∧ noticeFence sl epoch l = pre ++ .fence sl epoch :: post := by
  refine ⟨fun h0 => notice_placed h0 h reason epoch, fun pre post c h1 r1 hq h0 => ?_, fun pre post e0 hq h0 => ?_⟩
  · subst hq; exact notice_changed h0 (.lost sl c h1 r1) rfl post h reason epoch
  · subst hq; exact notice_changed h0 (.fence sl e0) rfl post h reason epoch

/-- One act of a port's transmitter is what its next instruction does (10, R176, R177). -/
theorem exec_transmitterStep (s : State) (p : Port) :
    ∃ t, exec (if (s.port p).tx = none then .transmitFrame p else .transmissionComplete p) s = .next t
      ∧ t.port p = transmitterStep (s.port p) := by
  by_cases htx : (s.port p).tx = none
  · rw [if_pos htx]
    exact ⟨updPort p transmit s, rfl, by simp [updPort_port, transmit, transmitterStep, htx]⟩
  · rw [if_neg htx]
    exact ⟨updPort p completeFrame s, rfl, by simp [updPort_port, transmitterStep, htx]⟩

/-! ### The item -/

section
variable {s : State} {k : Nat} {l : Lease} {rec : LockRecord} {others : List Handle} (hpart : s.part = .running)
  (hl : leaseAt s k = some l) (hr : tableGet s.records l.record = some rec) (hholder : rec.holders = [handleOf s k])

@[simp] theorem view_postEvent (e : Event) (v : State) : view (postEvent e v) = view v := rfl

/-- The state in which a due X lease is lost and its agent fenced (07, R135). -/
def expiredFenced (k : Nat) (l : Lease) (s : State) : State :=
  postEvent .autoFence (fenced l.agent (lost k .expired l (startTimer (.lease k) s)))

include hl hr hholder

/-- An agent without a wait and without an upgrade is fenced without more (06, R117). -/
theorem autoFence_expired (htags : ∀ g, s.tag l.agent g = .free ∨ s.tag l.agent g = .replying) :
    autoFence l.agent (lost k .expired l (startTimer (.lease k) s)) = expiredFenced k l s := by
  rw [autoFence, enterFencing_idle fun g => ?_, expiredFenced]
  rw [State.tag, agent_of_view (view_expired hl hr hholder)]
  simpa [lostView, State.tag] using htags g

include hpart

theorem view_expiredFenced : view (expiredFenced k l s)
    = (lostView (handleOf s k) l (view s)).setAgent l.agent fencedRecord := by
  rw [expiredFenced, view_postEvent, (view_fenced (by simp [hpart])).1, view_expired hl hr hholder]

section
variable (hleases : (s.agent l.agent).leases = handleOf s k :: others)
include hleases

theorem expiredFenced_agent :
    (expiredFenced k l s).agent l.agent = fencedRecord { s.agent l.agent with leases := others } := by
  rw [agent_of_view (view_expiredFenced hpart hl hr hholder)]
  simp [lostView, hleases]

theorem expiredFenced_sweep : (expiredFenced k l s).sweep
    = if others = [] then s.sweep else s.sweep ++ [.fence l.agent false] := by
  obtain ⟨-, hsweep⟩ := view_fenced (a := l.agent) (v := lost k .expired l (startTimer (.lease k) s)) (by simp [hpart])
  simp [expiredFenced, hsweep, agent_of_view (view_expired hl hr hholder), lostView, hleases]

/-- No fence job ends in the item: with its lease list empty the agent has no job, else the list stays (06, R121). -/
theorem expiredFenced_jobs (hfence : fenceJobPresent s l.agent = false) :
    endFenceJobs s (expiredFenced k l s) = expiredFenced k l s := by
  have hothers : ∀ x, x ≠ l.agent → (expiredFenced k l s).agent x = s.agent x := fun x hx => by
    rw [agent_of_view (view_expiredFenced hpart hl hr hholder)]; simp [lostView, hx]
  by_cases h0 : others = []
  · refine endFenceJobs_absent (a := l.agent) ?_ fun x hx hne => by rwa [hothers x hx]
    rw [expiredFenced_sweep hpart hl hr hholder hleases, if_pos h0]
    exact hfence
  · refine endFenceJobs_quiet fun x hne => ?_
    by_cases hx : x = l.agent
    · subst hx
      rw [expiredFenced_agent hpart hl hr hholder hleases]
      exact h0
    · rwa [hothers x hx]

end

theorem expiredFenced_compares (hs : rec.slot = none) : Compares s (expiredFenced k l s) [.lease k] :=
  ((expired_compares hl hr hholder hs).trans (fenced_compares (a := l.agent) (by simp [hpart]))).trans
    (Compares.none (view_postEvent ..) ((postEvent_keeps ..).1))

end

section
variable {s : State} {k : Nat} {l : Lease} (hl : leaseAt s k = some l)
include hl

/-- The loss in its item. -/
theorem expired_notice : NoticeHanded s (lost k .expired l (startTimer (.lease k) s)) l.agent
      (lossNotice s l (handleOf s k) .expired)
    ∧ (lost k .expired l (startTimer (.lease k) s)).freeDraws = s.freeDraws := by
  have hv := startTimer_taken (.lease k) s
  obtain ⟨hport, hdraws⟩ := lost_notice (reason := .expired) ((hv.leaseAt k).trans hl) (by simp)
  rw [lossNotice, hv.agent, hv.handleOf] at hport
  exact ⟨hport.of_ports (by simp) rfl, by simpa using hdraws⟩

/-- A port that is DOWN discards the loss and the fence (10, R174). -/
theorem expiredFenced_down (hd : (s.port (portOf l.agent)).link = .down) :
    (∀ q, (expiredFenced k l s).port q = s.port q) ∧ (expiredFenced k l s).freeDraws = s.freeDraws := by
  obtain ⟨hlost, hdraws⟩ := expired_notice hl
  obtain ⟨hports, hdraws'⟩ := fenced_down (a := l.agent) (by rw [hlost.down hd]; exact hd)
  refine ⟨fun q => ?_, by simp [expiredFenced, hdraws', hdraws]⟩
  rw [expiredFenced, port_congr (s := lost k .expired l (startTimer (.lease k) s)) (by simp [hports])]
  by_cases hq : q = portOf l.agent
  · rw [hq, hlost.down hd]
  · rw [hlost.others hq]

/-- Another port takes its loss, may go on by itself, and takes its FENCE notice (02, R44, R45; 09, R157). -/
theorem expiredFenced_up {rec : LockRecord} (hr : tableGet s.records l.record = some rec)
    (hholder : rec.holders = [handleOf s k]) (hactive : (s.agent l.agent).state = .active)
    (hup : (s.port (portOf l.agent)).link ≠ .down) :
    (expiredFenced k l s).freeDraws = s.freeDraws + 1
      ∧ (∃ n, let sent := transmitterSteps n { s.port (portOf l.agent) with
            noticeQ := noticeLoss (slotOf l.agent) (handleOf s k) .expired (s.port (portOf l.agent)).noticeQ }
          (expiredFenced k l s).port (portOf l.agent)
            = { sent with noticeQ := noticeFence (slotOf l.agent) (s.agent l.agent).epoch sent.noticeQ })
      ∧ ∀ q, q ≠ portOf l.agent → (expiredFenced k l s).port q = s.port q := by
  have hv := startTimer_taken (.lease k) s
  obtain ⟨hlost, hdraws⟩ := expired_notice hl
  rw [lossNotice_active hactive] at hlost
  have hepoch : ((lost k .expired l (startTimer (.lease k) s)).agent l.agent).epoch = (s.agent l.agent).epoch := by
    rw [agent_of_view (view_expired hl hr hholder)]; simp [lostView]
  obtain ⟨hdraws', ⟨n, hport⟩, hothers⟩ := fenced_again (a := l.agent) (by rw [hlost.up hup]; exact hup)
    (mem_handed_lost ((hv.leaseAt k).trans hl) .expired (by rw [hv.agent]; exact hactive)
      (by rwa [port_congr (s := s) (by simp)]))
    (by rw [hlost.up hup]; exact noticeLoss_ne_nil _ _ _ _)
  rw [hlost.up hup, hepoch] at hport
  have hports := port_congr (t := expiredFenced k l s)
    (s := fenced l.agent (lost k .expired l (startTimer (.lease k) s))) (by simp [expiredFenced])
  exact ⟨by simp [expiredFenced, hdraws', hdraws], ⟨n, (hports _).trans hport⟩,
    fun q hq => (hports q).trans ((hothers q hq).trans (hlost.others hq))⟩

end

/-- Settles O37: the loss, then the fence, of a due X lease. -/
theorem leaseExpiryFencesTheAgent : Obligations.LeaseExpiryFencesTheAgent := by
  refine ⟨?_, noticeTables, fun s p n => ⟨rfl, ?_⟩⟩
  swap
  · obtain ⟨t, hexec, hport⟩ := exec_transmitterStep s p
    exact ⟨t, hexec, by rw [hport, transmitterSteps]⟩
  intro s k l rec others hok htaken hl hdue hpart hactive hfence hr hholder hq hs hmode hpolicy hleases htags
  dsimp only
  have hV := view_expiredFenced hpart hl hr hholder
  have hT := (view_endItem s _).trans hV
  have reads := reads_of_view hT
  have hexec := exec_leaseExpiry htaken
  rw [leaseItem_expires hl hr hholder hs hq hdue hactive, if_pos ⟨hmode, hpolicy⟩,
    autoFence_expired hl hr hholder htags,
    finishItem_of_no_fence (expiredFenced_jobs hpart hl hr hholder hleases hfence),
    quiesceHalt_running (by simp [expiredFenced, hpart])] at hexec
  refine ⟨_, hexec, ?_, endItem_offerStands (by simp [expiredFenced]), ?_, ?_, fun j hj => ?_, fun j hj => ?_, ?_,
    fun j hj => ?_, ?_, fun x hx => ?_, ?_, ?_,
    (expiredFenced_compares hpart hl hr hholder hs).marksCompared (view_endItem s _) (by simp),
    endItem_countsPublished (by simp [expiredFenced]), fun hd => ?_, fun hup => ?_, fun x hx => ?_⟩
  · apply State.ext <;> simp [endItem_tables, expiredFenced]
  · simp [reads, lostView]
  · simp [reads, lostView, handleOf]
  · simp [reads, lostView, hj]
  · simp [reads, lostView, handleOf, hj]
  · simp [reads, lostView, handleOf]
  · simp [reads, lostView, handleOf, hj]
  · rw [agent_congr (s := expiredFenced k l s) (by simp [endItem_tables]),
      expiredFenced_agent hpart hl hr hholder hleases]
    rfl
  · simp [reads, lostView, hx]
  · simpa using expiredFenced_sweep hpart hl hr hholder hleases
  · simp [expiredFenced, postEvent, atBit, eventBit]
  · obtain ⟨hports, hdraws⟩ := expiredFenced_down hl hd
    exact ⟨(port_congr (by simp) _).trans (hports _), by simpa using hdraws⟩
  · obtain ⟨hdraws, ⟨n, hport⟩, -⟩ := expiredFenced_up hl hr hholder hactive hup
    exact ⟨by simpa using hdraws, n, (port_congr (by simp) _).trans hport⟩
  · rw [port_congr (s := expiredFenced k l s) (by simp)]
    by_cases hd : (s.port (portOf l.agent)).link = .down
    · exact (expiredFenced_down hl hd).1 x
    · exact (expiredFenced_up hl hr hholder hactive hd).2.2 x hx

end Sys2Proof.Machine
end

section
/-! Steps of the abort job (02, R42; 03, R65; 11, R190). -/

namespace Sys2Proof.Machine

/-- A step of the abort job at the head of the sweep list is a work item (11, R190). -/
theorem exec_abortStep {s : State} {n : Nat} {att : Bool} (h : takenJob s = some (.abort n att)) :
    exec .abortStep s = .next (withHanded s.handed (finishItem s (abortStep n att (startSweep s)))) := by
  have harm : exec .abortStep s = execAbortStep s := rfl
  rw [harm, execAbortStep, h]; rfl

/-! ### The last acts of the abort sweep -/

/-- An agent's record once the abort sweep has ended (06, R126). -/
def fencingEnded (g : AgentRec) : AgentRec := { g with state := if g.state = .fencing then .fenced else g.state }

/-- The part at the end of the abort sweep, before its command is told (11, R190). -/
def sweepHalted (v : State) : State := enterHalted (fenceAllFencing { v with sweep := [] })

/-- What this changes: the agents, the part, the sweep list, the offer and EVENTS. -/
@[simp] theorem sweepHalted_keeps (v : State) :
    (sweepHalted v).now = v.now ∧ (sweepHalted v).tickPeriod = v.tickPeriod ∧ (sweepHalted v).tickPos = v.tickPos ∧
    (sweepHalted v).marks = v.marks ∧ (sweepHalted v).offered = none ∧ (sweepHalted v).records = v.records ∧
    (sweepHalted v).leases = v.leases ∧ (sweepHalted v).gens = v.gens ∧ (sweepHalted v).waits = v.waits ∧
    (sweepHalted v).domains = v.domains ∧ (sweepHalted v).token = v.token ∧ (sweepHalted v).seeded = v.seeded ∧
    (sweepHalted v).part = .halted ∧ (sweepHalted v).sweep = [] ∧ (sweepHalted v).outer = v.outer ∧
    (sweepHalted v).inner = v.inner ∧ (sweepHalted v).chosen = v.chosen ∧ (sweepHalted v).pools = v.pools ∧
    (sweepHalted v).ports = v.ports ∧ (sweepHalted v).mbox = v.mbox ∧ (sweepHalted v).args = v.args ∧
    (sweepHalted v).res = v.res ∧ (sweepHalted v).events = v.events ||| 8#32 ∧
    (sweepHalted v).eventEnable = v.eventEnable ∧ (sweepHalted v).nowLatch = v.nowLatch ∧
    (sweepHalted v).spiData = v.spiData ∧ (sweepHalted v).handed = v.handed ∧
    (sweepHalted v).freeDraws = v.freeDraws ∧ (sweepHalted v).pending = v.pending := by
  simp [sweepHalted, fenceAllFencing, enterHalted, postEvent, atBit, eventBit]

/-- Every agent in FENCING becomes FENCED, and nothing else of an agent changes (06, R126). -/
theorem sweepHalted_agent (v : State) (a : Agent) : (sweepHalted v).agent a = fencingEnded (v.agent a) := by
  have hget : ∀ f : AgentRec → AgentRec, (v.agents.map f).get a = f (v.agent a) := fun f => by simp [State.agent]
  refine (hget _).trans ?_
  rw [fencingEnded]
  split <;> rfl

/-- The view of the ended abort sweep (06, R126). -/
def haltedView (v : View) : View := { v with agent := fun a => fencingEnded (v.agent a) }

/-- An attached ABORT completes OK with the part state; one still in the mailbox is told that the sweep has ended
(11, R190). -/
theorem endAbort_eq (att : Bool) (v : State) : endAbort att v
    = if att then completeCmd .ok [0#32] (sweepHalted v)
      else { sweepHalted v with mbox :=
        if v.mbox.state = .pending ∧ v.mbox.code = 8#8 then { v.mbox with abortEnded := true } else v.mbox } := by
  have hmbox : (sweepHalted v).mbox = v.mbox := by simp
  cases att
  · have hend : endAbort false v = if v.mbox.state = .pending ∧ v.mbox.code = 8#8
        then { sweepHalted v with mbox := { v.mbox with abortEnded := true } } else sweepHalted v := by
      rw [← hmbox]; rfl
    rw [hend]
    by_cases hc : v.mbox.state = .pending ∧ v.mbox.code = 8#8
    · rw [if_pos hc, if_neg Bool.false_ne_true, if_pos hc]
    · rw [if_neg hc, if_neg Bool.false_ne_true, if_neg hc, ← hmbox]
  · rfl

/-- What the last acts of the abort sweep leave alone. -/
@[simp] theorem endAbort_keeps (att : Bool) (v : State) :
    (endAbort att v).now = v.now ∧ (endAbort att v).tickPeriod = v.tickPeriod ∧ (endAbort att v).tickPos = v.tickPos ∧
    (endAbort att v).marks = v.marks ∧ (endAbort att v).offered = none ∧ (endAbort att v).records = v.records ∧
    (endAbort att v).leases = v.leases ∧ (endAbort att v).gens = v.gens ∧ (endAbort att v).waits = v.waits ∧
    (endAbort att v).domains = v.domains ∧ (endAbort att v).token = v.token ∧ (endAbort att v).seeded = v.seeded ∧
    (endAbort att v).part = .halted ∧ (endAbort att v).sweep = [] ∧ (endAbort att v).outer = v.outer ∧
    (endAbort att v).inner = v.inner ∧ (endAbort att v).chosen = v.chosen ∧ (endAbort att v).pools = v.pools ∧
    (endAbort att v).ports = v.ports ∧ (endAbort att v).args = v.args ∧
    (endAbort att v).eventEnable = v.eventEnable ∧ (endAbort att v).nowLatch = v.nowLatch ∧
    (endAbort att v).spiData = v.spiData ∧ (endAbort att v).freeDraws = v.freeDraws ∧
    (endAbort att v).pending = v.pending := by
  rw [endAbort_eq]; cases att <;> simp

theorem view_endAbort (att : Bool) (v : State) : view (endAbort att v) = haltedView (view v) := by
  have hhalted : view (sweepHalted v) = haltedView (view v) := by
    have hagent : (fun a => (sweepHalted v).agents.get a) = fun a => fencingEnded (v.agents.get a) :=
      funext (sweepHalted_agent v)
    rw [view, hagent]
    simp [haltedView, view]
  rw [endAbort_eq, ← hhalted]
  cases att <;> rfl

/-- The end of the abort sweep compares no entry. -/
theorem endAbort_compares (att : Bool) (v : State) : Compares v (endAbort att v) [] := by
  refine ⟨by simp, by simp, fun e _ => ?_⟩
  rw [view_endAbort]
  exact ⟨Iff.rfl, by cases e <;> rfl⟩

/-- PART_STATE is set, and the ABORT is told (11, R190). -/
theorem endAbort_mailbox (att : Bool) (v : State) :
    (att = true → Completes { v with events := v.events ||| 8#32 } (endAbort att v) .ok [0#32])
      ∧ (att = false → (endAbort att v).res = v.res ∧ (endAbort att v).events = v.events ||| 8#32
        ∧ (endAbort att v).mbox
          = if v.mbox.state = .pending ∧ v.mbox.code = 8#8 then { v.mbox with abortEnded := true } else v.mbox) := by
  refine ⟨fun h => ?_, fun h => ?_⟩
  · simp [h, endAbort_eq, Completes, completeCmd, postEvent, atBit, eventBit]
  · simp [h, endAbort_eq]

/-! ### The record dropped -/

/-- A record with one holder and no upgrade is dropped as its queue is cleared and the holder lost (11, R190). -/
theorem abortDrop_lost {v w : State} {h : Handle} {l : Lease} {rec rec' : LockRecord}
    (hr : tableGet v.records l.record = some rec) (hs : rec.slot = none) (hholder : rec.holders = [h])
    (hw : clearQueue (some .halted) rec.queue v = w) (hl : leaseAt w h.num = some l) (hh : handleOf w h.num = h)
    (hr' : tableGet w.records l.record = some rec') (hholder' : rec'.holders = [h]) :
    abortDrop l.record rec v = lost h.num .aborted l w := by
  rw [lost, retireRecord_of_no_holder (loseLease_record hl hh hr' hholder' _) rfl, abortDrop, dropUpgrade_empty hr hs,
    hw, hholder]
  rfl

/-- A loss that places no notice leaves the port. -/
theorem NoticeHanded.of_silent_loss {s t v : State} {l : Lease} {h : Handle} {reason : LossReason}
    (hn : NoticeHanded s t l.agent (lossNotice v l h reason))
    (hc : (s.port (portOf l.agent)).link = .down ∨ (v.agent l.agent).state ≠ .active) :
    t.port (portOf l.agent) = s.port (portOf l.agent) := by
  by_cases hd : (s.port (portOf l.agent)).link = .down
  · exact hn.down hd
  · rw [hn.up hd, lossNotice, if_neg (hc.resolve_left hd)]; rfl

/-- A first notice of a loss is queued at the tail (02, R44). -/
theorem NoticeHanded.of_first_loss {s t v : State} {l : Lease} {h : Handle} {reason : LossReason}
    (hn : NoticeHanded s t l.agent (lossNotice v l h reason)) (hd : (s.port (portOf l.agent)).link ≠ .down)
    (ha : (v.agent l.agent).state = .active) (h0 : slotOf l.agent ∉ (s.port (portOf l.agent)).noticeQ.map noticeSlot) :
    (t.port (portOf l.agent)).noticeQ = (s.port (portOf l.agent)).noticeQ ++ [.lost (slotOf l.agent) 1 h reason] := by
  rw [hn.up hd, lossNotice_active ha]
  exact (notice_placed h0 h reason 0).1

/-- A table that holds nothing is empty. -/
theorem eq_nil_of_tableGet {α : Type} {l : List (Nat × α)} (h : ∀ n, tableGet l n = none) : l = [] := by
  cases l with
  | nil => rfl
  | cons x rest => exact absurd (h x.1) (by simp [tableGet])

/-- Without a listed job no fence job ends (06, R121). -/
theorem endFenceJobs_nil {s u : State} (h : u.sweep = []) : endFenceJobs s u = u := by rw [endFenceJobs, h]; rfl

/-- Marks compared at the same entries. -/
theorem marksCompared_congr {s t : State} {l m : List TimedEntry} (h : ∀ e, e ∈ l ↔ e ∈ m) (hm : MarksCompared s t l) :
    MarksCompared s t m :=
  ⟨fun e he => hm.1 e ((h e).2 he), fun e he => hm.2 e fun hl => he ((h e).1 hl)⟩

/-! ### The last record -/

section
variable {s : State} {n : Nat} {att : Bool} {rec : LockRecord} {h : Handle} {l : Lease}
  (hrecords : s.records = [(l.record, rec)]) (hn : n ≤ l.record) (hq : rec.queue = []) (hs : rec.slot = none)
  (hholder : rec.holders = [h]) (hl : leaseAt s h.num = some l) (hh : handleOf s h.num = h)
include hrecords hholder hl hh

theorem view_abortedLast :
    view (endAbort att (lost h.num .aborted l (startSweep s))) = haltedView (lostView h l (view s)) := by
  have hv := startSweep_taken s
  have hview : view (startSweep s) = view s := hv.view
  rw [view_endAbort, view_lost ((hv.leaseAt _).trans hl) ((hv.handleOf _).trans hh)
    (by rw [hv.records, hrecords]; simp [tableGet]) hholder, hview]

theorem abortedLast_records : (lost h.num .aborted l (startSweep s)).records = [] := by
  have hkeeps : (endAbort false (lost h.num .aborted l (startSweep s))).records
      = (lost h.num .aborted l (startSweep s)).records := by simp
  have hV := view_abortedLast (att := false) hrecords hholder hl hh
  refine eq_nil_of_tableGet fun j => ?_
  rw [← hkeeps, record_of_view hV]
  by_cases hj : j = l.record
  · simp [haltedView, lostView, hj]
  · simp [haltedView, lostView, hj, hrecords, tableGet, Ne.symm hj]

include hs

/-- The last record's holder is lost, and the loss compares its lease alone. -/
theorem abortedLast_compares :
    Compares s (endAbort att (lost h.num .aborted l (startSweep s))) [.lease h.num] := by
  have hv := startSweep_taken s
  exact ((Compares.none hv.view hv.now).trans (lost_compares ((hv.leaseAt _).trans hl) ((hv.handleOf _).trans hh)
    (by rw [hv.records, hrecords]; simp [tableGet]) hholder hs _)).trans (endAbort_compares ..)

include hq hn

/-- The step that drops the last record ends the sweep (11, R190). -/
theorem abortStep_last :
    abortStep n att (startSweep s) = endAbort att (lost h.num .aborted l (startSweep s)) := by
  have hv := startSweep_taken s
  have hr : tableGet (startSweep s).records l.record = some rec := by rw [hv.records, hrecords]; simp [tableGet]
  have hdrop := abortDrop_lost hr hs hholder (w := startSweep s) (by rw [hq]; rfl) ((hv.leaseAt _).trans hl)
    ((hv.handleOf _).trans hh) hr hholder
  have hfrom : recordFrom (startSweep s) n = some (l.record, rec) := by
    rw [recordFrom, hv.records, hrecords]; simp [hn]
  have hnext : recordFrom (lost h.num .aborted l (startSweep s)) (l.record + 1) = none := by
    rw [recordFrom, abortedLast_records hrecords hholder hl hh]; rfl
  simp [abortStep, hfrom, hdrop, hnext]

end

/-! ### A record with a waiter, and records after it -/

/-- A state in which the abort job has moved on to a number (11, R190). -/
def abortMoved (k : Nat) (att : Bool) (u : State) : State := { u with sweep := [.abort k att] }

section
variable {s : State} {n w : Nat} {att : Bool} {rec : LockRecord} {h : Handle} {l : Lease} {e : WaitEntry}
  (hr : tableGet s.records l.record = some rec) (hholder : rec.holders = [h]) (hs : rec.slot = none)
  (hq : rec.queue = [w]) (hl : leaseAt s h.num = some l) (hh : handleOf s h.num = h)
  (hw : tableGet s.waits w = some e) (hm : e.record = l.record)
  (hres : tableGet s.leases e.reserved = some (.reserved e.agent w))

/-- The view when the wait is answered HALTED. -/
def haltedWaitView (w : Nat) (e : WaitEntry) (rec : LockRecord) (v : View) : View :=
  (((((v.setWait w none).setRecord e.record (some { rec with queue := rec.queue.erase w })).setMark (.wait w)
    False).setLease e.reserved none).bumpGen e.reserved).setTag e.agent e.tag .replying

/-- The state in which the record's wait is answered and its holder lost (03, R65; 11, R190). -/
def aborted (w : Nat) (h : Handle) (l : Lease) (s : State) : State :=
  lost h.num .aborted l (removeWait w (some .halted) (startSweep s))

include hr hw hm

theorem view_haltedWait :
    view (removeWait w (some .halted) (startSweep s)) = haltedWaitView w e rec (view s) := by
  have hv := startSweep_taken s
  have hview : view (startSweep s) = view s := hv.view
  rw [view_removeWait (by rw [hv.waits]; exact hw) (by rw [hv.records, hm]; exact hr), hview]
  rfl

theorem haltedWait_record : tableGet (removeWait w (some .halted) (startSweep s)).records l.record
    = some { rec with queue := rec.queue.erase w } := by
  rw [record_of_view (view_haltedWait hr hw hm)]; simp [haltedWaitView, hm]

include hl hh hres

/-- The holder's lease is not the reserved entry: it stays when the wait is answered. -/
theorem haltedWait_lease : leaseAt (removeWait w (some .halted) (startSweep s)) h.num = some l
    ∧ handleOf (removeWait w (some .halted) (startSweep s)) h.num = h := by
  have hV := view_haltedWait hr hw hm
  have hne : h.num ≠ e.reserved := Ne.symm (ne_of_reserved hl hres)
  refine ⟨?_, ?_⟩
  · rw [leaseAt_of_view hV, ← hl, leaseAt_eq_view]
    simp [haltedWaitView, View.leaseAt, hne]
  · have hgen : genOf (removeWait w (some .halted) (startSweep s)) h.num = genOf s h.num := by
      rw [gen_of_view hV]; simp [haltedWaitView, hne]
    rw [handleOf, hgen]; exact hh

include hholder

theorem view_aborted : view (aborted w h l s) = lostView h l (haltedWaitView w e rec (view s)) := by
  obtain ⟨hl', hh'⟩ := haltedWait_lease hr hl hh hw hm hres
  rw [aborted, view_lost hl' hh' (haltedWait_record hr hw hm) hholder, view_haltedWait hr hw hm]

omit hholder in
/-- The reply goes to the waiter's port as its queue stands, then the notice to the holder's, another port (10, R173,
R174). -/
theorem aborted_ports (hports : portOf e.agent ≠ portOf l.agent) :
    RepliesQueued s (removeWait w (some .halted) (startSweep s)) (portOf e.agent)
        [answerTo e.agent e.tag 2#8 .halted {}]
      ∧ NoticeHanded (removeWait w (some .halted) (startSweep s)) (aborted w h l s) l.agent (lossNotice s l h .aborted)
      ∧ (aborted w h l s).freeDraws = s.freeDraws := by
  have hv := startSweep_taken s
  have hw' : tableGet (startSweep s).waits w = some e := by rw [hv.waits]; exact hw
  obtain ⟨hl', hh'⟩ := haltedWait_lease hr hl hh hw hm hres
  have hA := removeWait_answers hw' .halted
  have hfresh : portOf l.agent ∉ (removeWait w (some .halted) (startSweep s)).handed := by
    simp [(hA (portOf l.agent)).1, hports]
  obtain ⟨hport, hdraws⟩ := lost_notice hl' .aborted hfresh
  have hstate : ((removeWait w (some .halted) (startSweep s)).agent l.agent).state = (s.agent l.agent).state := by
    rw [agent_of_view (view_haltedWait hr hw hm)]
    by_cases ha : l.agent = e.agent <;> simp [haltedWaitView, ha]
  rw [lossNotice, hstate, hh'] at hport
  exact ⟨repliesQueued_of_answers hA rfl, hport, by rw [aborted, hdraws, removeWait_freeDraws (by simp) hw']; simp⟩

include hs

theorem aborted_compares : Compares s (aborted w h l s) [.wait w, .lease h.num] := by
  have hv := startSweep_taken s
  obtain ⟨hl', hh'⟩ := haltedWait_lease hr hl hh hw hm hres
  exact ((Compares.none hv.view hv.now).trans (removeWait_compares (by rw [hv.waits]; exact hw)
    (by rw [hv.records, hm]; exact hr) (by rw [hv.leases]; exact hres) _)).trans
    (lost_compares hl' hh' (haltedWait_record hr hw hm) hholder hs _)

include hq

/-- The step that drops a record below others moves the job on (11, R190). -/
theorem abortStep_waiter (hok : Rising s.records) (hn : n ≤ l.record)
    (hlow : ∀ x ∈ s.records, n ≤ x.1 → l.record ≤ x.1) (hmore : ∃ x ∈ s.records, l.record < x.1)
    (hsweep : s.sweep = [.abort n att]) :
    abortStep n att (startSweep s) = abortMoved (l.record + 1) att (aborted w h l s) := by
  have hv := startSweep_taken s
  have hr' : tableGet (startSweep s).records l.record = some rec := by rw [hv.records]; exact hr
  obtain ⟨hl', hh'⟩ := haltedWait_lease hr hl hh hw hm hres
  have hV := view_aborted hr hholder hl hh hw hm hres
  have hdrop : abortDrop l.record rec (startSweep s) = aborted w h l s :=
    abortDrop_lost hr' hs hholder (by rw [hq]; rfl) hl' hh' (haltedWait_record hr hw hm) hholder
  have hnext : (recordFrom (aborted w h l s) (l.record + 1)).isSome = true := by
    obtain ⟨x, hx, hlt⟩ := hmore
    have hget : tableGet (aborted w h l s).records x.1 = some x.2 := by
      rw [record_of_view hV]
      simpa [lostView, haltedWaitView, hm, Nat.ne_of_gt hlt] using tableGet_of_mem hok hx
    rw [recordFrom, List.find?_isSome]
    exact ⟨_, mem_of_tableGet hget, by simpa using hlt⟩
  have hjobs : (aborted w h l s).sweep = [.abort n att] := by simp [aborted, hsweep]
  rw [abortStep, recordFrom_lowest (by simpa using hok) hr' hn (by simpa using hlow)]
  simp only [hdrop, hnext, if_true, hjobs, List.tail_cons]
  rfl

end

/-- Settles O42: the step drops its record and ends the sweep at the last one. -/
theorem abortStepEndsInHalted : Obligations.AbortStepEndsInHalted := by
  refine ⟨?_, ?_⟩
  · intro s n m att rec h l hok htaken hpart hrecords hn hq hs hholder hl hm hh
    subst hm
    dsimp only
    have hv := startSweep_taken s
    obtain ⟨hport, hdraws⟩ := lost_notice (reason := .aborted) ((hv.leaseAt _).trans hl) (by simp)
    obtain ⟨hdone, hstays⟩ := endAbort_mailbox att (lost h.num .aborted l (startSweep s))
    have hexec := exec_abortStep htaken
    rw [abortStep_last hrecords hn hq hs hholder hl hh, finishItem_of_no_fence (endFenceJobs_nil (by simp)),
      quiesceHalt_running (by simp)] at hexec
    have hT := (view_endItem s _).trans (view_abortedLast (att := att) hrecords hholder hl hh)
    have reads := reads_of_view hT
    have hnotice : NoticeHanded s (endItem s (endAbort att (lost h.num .aborted l (startSweep s)))) l.agent
        (lossNotice s l h .aborted) := by
      rw [lossNotice, hv.agent, hv.handleOf, hh] at hport
      exact hport.of_ports (by simp) (by simp)
    have hlast := abortedLast_records hrecords hholder hl hh
    have hoffered : (endItem s (endAbort att (lost h.num .aborted l (startSweep s)))).offered = none := by
      simp [endItem, offerTimer, serving]
    refine ⟨_, hexec, ?_, ?_, fun j hj => ?_, ?_, fun j hj => ?_, fun x => ?_,
      (abortedLast_compares hrecords hs hholder hl hh).marksCompared (view_endItem s _) (by simp),
      endItem_countsPublished (by simp), hnotice.rest, hnotice.of_silent_loss, hnotice.of_first_loss,
      fun x hx => hnotice.others hx, fun ha => ?_, fun ha => ?_⟩
    · apply State.ext <;> simp [endItem_tables, hdraws, hlast, hoffered]
    · simp [reads, haltedView, lostView]
    · simp [reads, haltedView, lostView, hj]
    · simp [reads, haltedView, lostView]
    · simp [reads, haltedView, lostView, hj]
    · by_cases hx : x = l.agent <;> simp [reads, haltedView, lostView, fencingEnded, hx]
    · simpa [Completes] using hdone ha
    · simpa using hstays ha
  · intro s n m w att rec h l e hok htaken hsweep hpart hr hn hlow hmore hq hs hholder hl hm hh hw he hres hports
    subst hm
    dsimp only
    have hagents : e.agent ≠ l.agent := fun ha => hports (by rw [ha])
    have hrising : Rising s.records := (tables_rising hok).1
    have hne : h.num ≠ e.reserved := Ne.symm (ne_of_reserved hl hres)
    obtain ⟨hreply, hloss, hdraws⟩ := aborted_ports hr hl hh hw he hres hports
    have hexec := exec_abortStep htaken
    rw [abortStep_waiter hr hholder hs hq hl hh hw he hres hrising hn hlow hmore hsweep,
      finishItem_of_no_fence (endFenceJobs_abort rfl),
      quiesceHalt_running (by simp [abortMoved, aborted, hpart])] at hexec
    have hV : view (abortMoved (l.record + 1) att (aborted w h l s)) = _ := view_aborted hr hholder hl hh hw he hres
    have hT := (view_endItem s _).trans hV
    have reads := reads_of_view hT
    have hoffered : (endItem s (abortMoved (l.record + 1) att (aborted w h l s))).offered = s.offered := by
      rw [endItem_offered (by simp [abortMoved, aborted, hpart])]; simp [abortMoved, aborted]
    have hdraws' : (abortMoved (l.record + 1) att (aborted w h l s)).freeDraws = s.freeDraws := hdraws
    have hnotice : NoticeHanded (removeWait w (some .halted) (startSweep s))
        (endItem s (abortMoved (l.record + 1) att (aborted w h l s))) l.agent (lossNotice s l h .aborted) :=
      hloss.of_ports rfl (by simp [abortMoved])
    have hfrom := hreply.2 (portOf l.agent) (Ne.symm hports)
    have hM := aborted_compares hr hholder hs hl hh hw he hres
    refine ⟨_, hexec, ?_, ?_, fun j hj => ?_, ?_, ?_, fun j hj hj' => ?_, ?_, ?_, fun j hj hj' => ?_, ?_,
      fun j hj => ?_, ?_, ?_, fun y hy hy' => ?_, marksCompared_congr (fun x => by simp [or_comm])
        (hM.marksCompared (t := endItem s (abortMoved (l.record + 1) att (aborted w h l s)))
          ((view_endItem s _).trans rfl) (by simp [abortMoved])),
      endItem_countsPublished (by simp [abortMoved, aborted]), ?_, ?_, ?_, ?_, fun y hy hy' => ?_⟩
    · apply State.ext <;> simp [endItem_tables, hdraws', hoffered] <;> simp [abortMoved, aborted]
    · simp [reads, lostView, haltedWaitView]
    · simp [reads, lostView, haltedWaitView, he, hj]
    · simp [reads, lostView, haltedWaitView]
    · simp [reads, lostView, haltedWaitView, hne.symm]
    · simp [reads, lostView, haltedWaitView, hj, hj']
    · simp [reads, lostView, haltedWaitView, hne]
    · simp [reads, lostView, haltedWaitView, hne.symm]
    · simp [reads, lostView, haltedWaitView, hj, hj']
    · simp [reads, lostView, haltedWaitView]
    · simp [reads, lostView, haltedWaitView, hj]
    · simp [reads, lostView, haltedWaitView, hagents.symm]
    · simp [reads, lostView, haltedWaitView, hagents]
    · simp [reads, lostView, haltedWaitView, hy, hy']
    · rw [hnotice.others hports, hreply.1]
    · rw [← hfrom]; exact hnotice.rest
    · rw [← hfrom]; exact hnotice.of_silent_loss
    · rw [← hfrom]; exact hnotice.of_first_loss
    · rw [hnotice.others hy, hreply.2 y hy']

end Sys2Proof.Machine
end

section
/-! Waits and upgrades that leave a record no one else is queued on: CANCEL of a wait, WAIT_TIMEOUT and UPGRADE_TIMEOUT
(03, R56, R58, R59; 07, R136). -/

namespace Sys2Proof.Machine

/-! ### The removal of a wait, whatever answers it -/

section
variable {v : State} {w : Nat} {e : WaitEntry} {rec : LockRecord} (hw : tableGet v.waits w = some e)
include hw

/-- A wait removed leaves its record's queue, and no other record changes (03, R56). -/
theorem removeWait_records_eq (ans : Option Status) : (removeWait w ans v).records
    = (updRecord e.record (fun r => { r with queue := r.queue.erase w }) v).records := by
  have hrecords : (updRecord e.record (fun r => { r with queue := r.queue.erase w })
      { v with waits := tableErase v.waits w }).records
      = (updRecord e.record (fun r => { r with queue := r.queue.erase w }) v).records := by
    unfold updRecord; dsimp only; split <;> rfl
  cases ans <;> simp [removeWait, hw, dequeueWait, hrecords]

variable (hr : tableGet v.records e.record = some rec)
include hr

theorem removeWait_record (ans : Option Status) :
    tableGet (removeWait w ans v).records e.record = some { rec with queue := rec.queue.erase w } := by
  simp [removeWait_records_eq hw, updRecord, hr]

/-- The removal of the only waiter of a record with holders leaves nothing to evaluate (01, R16, R17). -/
theorem evaluate_removeWait (hq : rec.queue = [w]) (hs : rec.slot = none) (hh : rec.holders ≠ [])
    (ans : Option Status) : evaluate e.record (removeWait w ans v) = removeWait w ans v :=
  evaluate_idle (removeWait_record hw hr ans) hs (by simp [hq]) hh

end

/-! ### Timeouts -/

/-- A TIMER item of a wait entry runs on the state its take leaves (03, R58). -/
theorem exec_waitTimeout {s : State} {w : Nat} (h : takenTimer s = some (.wait w)) : exec .waitTimeout s
    = .next (withHanded s.handed (finishItem s (waitItem w (startTimer (.wait w) s)))) := by
  have harm : exec .waitTimeout s = execWaitTimeout s := rfl
  rw [harm, execWaitTimeout, h]; rfl

/-- A TIMER item of an upgrade slot runs on the state its take leaves (07, R136). -/
theorem exec_upgradeTimeout {s : State} {n : Nat} (h : takenTimer s = some (.upgrade n)) : exec .upgradeTimeout s
    = .next (withHanded s.handed (finishItem s (upgradeItem n (startTimer (.upgrade n) s)))) := by
  have harm : exec .upgradeTimeout s = execUpgradeTimeout s := rfl
  rw [harm, execUpgradeTimeout, h]; rfl

/-- The end of an item in a RUNNING part that has changed no lease list. -/
theorem finishItem_lists_kept {s u : State} (hpart : u.part = .running)
    (hleases : ∀ x, (u.agent x).leases = (s.agent x).leases) :
    withHanded s.handed (finishItem s u) = endItem s u := by
  rw [finishItem_of_no_fence (endFenceJobs_quiet fun x hx => by rwa [hleases]),
    quiesceHalt_running (by rw [hpart]; simp)]

/-- A wait whose deadline has come is removed and answered TIMED_OUT, here the only waiter of a record with holders
(03, R58). -/
theorem waitItem_due {v : State} {w d : Nat} {e : WaitEntry} {rec : LockRecord} (hw : tableGet v.waits w = some e)
    (hd : e.deadline = some d) (hdue : d ≤ v.now) (hr : tableGet v.records e.record = some rec) (hq : rec.queue = [w])
    (hs : rec.slot = none) (hh : rec.holders ≠ []) : waitItem w v = removeWait w (some .timedOut) v := by
  simp only [waitItem, hw, deadlineReached, hd, hdue, decide_true, if_true]
  exact evaluate_removeWait hw hr hq hs hh _

/-- An upgrade whose deadline has come leaves its slot and is answered TIMED_OUT, here on a record with holders and no
one queued (07, R136). -/
theorem upgradeItem_due {v : State} {n d : Nat} {rec : LockRecord} {u : Upgrade} {l : Lease}
    (hr : tableGet v.records n = some rec) (hs : rec.slot = some u) (hd : u.deadline = some d) (hdue : d ≤ v.now)
    (hl : leaseAt v u.lease.num = some l) (hq : rec.queue = []) (hh : rec.holders ≠ []) :
    upgradeItem n v = dropUpgrade n (some .timedOut) v := by
  have hrec := record_of_view (view_dropUpgrade hr hs hl .timedOut) n
  simp only [View.setTag, View.setAgent, View.setMark, View.setRecord, Function.update_self] at hrec
  simp only [upgradeItem, deadlineOf, hr, Option.bind_some, hs, hd, deadlineReached, hdue, decide_true, if_true]
  exact evaluate_idle hrec rfl hq hh

/-- Settles O38: the wait or the upgrade is removed and answered, and the evaluation finds the record idle. -/
theorem timeoutsAnswerTimedOut : Obligations.TimeoutsAnswerTimedOut := by
  refine ⟨?_, ?_⟩
  · intro s w d e rec hok htaken hpart hw hd hdue hr hq hs hh
    dsimp only
    have hv := startTimer_taken (.wait w) s
    have hview : view (startTimer (.wait w) s) = view s := hv.view
    have hw' : tableGet (startTimer (.wait w) s).waits w = some e := by simpa using hw
    have hr' : tableGet (startTimer (.wait w) s).records e.record = some rec := by simpa using hr
    have hV := view_removeWait hw' hr' .timedOut
    rw [hview] at hV
    have hA := removeWait_answers hw' .timedOut
    have htag : TagMoves s (removeWait w (some .timedOut) (startTimer (.wait w) s)) e.agent e.tag .replying :=
      tagMoves_of_view hV rfl
    have hT := (view_endItem s _).trans hV
    have reads := reads_of_view hT
    have hexec := exec_waitTimeout htaken
    rw [waitItem_due hw' hd (by simpa using hdue) hr' hq hs hh,
      finishItem_lists_kept (by simpa using hpart) htag.leases] at hexec
    refine ⟨_, hexec, ?_, endItem_offerStands (by simp), ?_, fun j hj => ?_, ?_, fun j hj => ?_, ?_, fun j hj => ?_, ?_,
      fun j hj => ?_, tagMoves_of_view hT rfl, ?_, fun x hx => ?_, endItem_countsPublished (by simp),
      repliesQueued_of_answers (hA.after (by simp) (by simp)) (by simp)⟩
    · apply State.ext <;> simp [endItem_tables, removeWait_freeDraws, hw]
    · simp [reads, hq]
    · simp [reads, hj]
    · simp [reads]
    · simp [reads, hj]
    · simp [reads]
    · simp [reads, hj]
    · simp [reads]
    · simp [reads, hj]
    · rw [marks_of_view hT]; simp
    · rw [marks_of_view hT]; simp [hx]
  · intro s n d rec u l hok htaken hpart hr hs hd hdue hl hq hh
    dsimp only
    have hv := startTimer_taken (.upgrade n) s
    have hview : view (startTimer (.upgrade n) s) = view s := hv.view
    have hr' : tableGet (startTimer (.upgrade n) s).records n = some rec := by simpa using hr
    have hl' : leaseAt (startTimer (.upgrade n) s) u.lease.num = some l := (hv.leaseAt _).trans hl
    have hV := view_dropUpgrade hr' hs hl' .timedOut
    rw [hview] at hV
    have hA := dropUpgrade_answers hr' hs hl' .timedOut
    have hM := (Compares.none hview (by simp)).trans (dropUpgrade_compares hr' hs hl' .timedOut)
    have hcount : ∀ k, poolCount (dropUpgrade n (some .timedOut) (startTimer (.upgrade n) s)) k = poolCount s k :=
      poolCounts_of_lengths ((dropUpgrade_records_length (by simpa using (tables_rising hok).1) n _).trans (by simp))
        (by simp) (by simp)
    have hpools := endItem_pools (by simp) hcount
    have htag : TagMoves s (dropUpgrade n (some .timedOut) (startTimer (.upgrade n) s)) l.agent u.tag .replying :=
      tagMoves_of_view hV rfl
    have hT := (view_endItem s _).trans hV
    have reads := reads_of_view hT
    have hexec := exec_upgradeTimeout htaken
    rw [upgradeItem_due hr' hs hd (by simpa using hdue) hl' hq hh,
      finishItem_lists_kept (by simpa using hpart) htag.leases] at hexec
    refine ⟨_, hexec, ?_, endItem_offerStands (by simp), ?_, fun j hj => ?_, tagMoves_of_view hT rfl,
      hM.marksCompared (view_endItem s _) (by simp),
      repliesQueued_of_answers (hA.after (by simp) (by simp)) (by simp)⟩
    · apply State.ext <;> simp [endItem_tables, hpools, dropUpgrade_freeDraws]
    · simp [reads]
    · simp [reads, hj]

/-! ### CANCEL of a wait -/

/-- A tag's wait entry is listed under its number, and is the agent's (03, R59). -/
theorem waitOfTag_spec {s : State} (hok : tablesOk s = true) {a : Agent} {g : Tag} {w : Nat} {e : WaitEntry}
    (h : waitOfTag s a g = some (w, e)) : tableGet s.waits w = some e ∧ e.agent = a ∧ e.tag = g := by
  have hwf := ((tablesOk_iff s).1 hok).2.2.2.2.1
  have hfound := List.find?_some h
  simp only [Bool.and_eq_true, decide_eq_true_eq] at hfound
  exact ⟨tableGet_of_mem ((tableWf_iff _ _).1 hwf).1 (List.mem_of_find?_eq_some h), hfound⟩

/-- CANCEL of a wait, before the evaluation (03, R59; 05, R99). -/
def waitCancelled (a : Agent) (r : Request) (w : Nat) (v : State) : State :=
  reply a r .done {} (removeWait w (some .cancelled) v)

/-- A CANCEL removes the only waiter of a record with holders. -/
theorem cancel_leaves_queue {s : State} {p : Port} {r : Request} {w : Nat} {e : WaitEntry} {rec : LockRecord}
    (htag : s.tag (senderOf p r) (targetTag r) = .waiting)
    (hof : waitOfTag s (senderOf p r) (targetTag r) = some (w, e)) (hw : tableGet s.waits w = some e)
    (hr : tableGet s.records e.record = some rec) (hq : rec.queue = [w]) (hs : rec.slot = none)
    (hh : rec.holders ≠ []) : behaviourOf .cancel (senderOf p r) r (startRequest p r s)
      = waitCancelled (senderOf p r) r w (startRequest p r s) := by
  have hv := startRequest_taken p r s
  have hof' : waitOfTag (startRequest p r s) (senderOf p r) (targetTag r) = some (w, e) := by
    rw [waitOfTag, hv.waits]; exact hof
  have hrec := removeWait_record (v := startRequest p r s) (by rw [hv.waits, hw]) (by rw [hv.records, hr])
    (some .cancelled)
  rw [behaviourOf, cancelBehaviour, hv.tag, htag]
  simp only [hof']
  exact evaluate_idle (rec := { rec with queue := rec.queue.erase w }) (by simpa using hrec) hs (by simp [hq]) hh

/-- Settles O35: the two refusals; and the wait removed and answered CANCELLED, then the CANCEL DONE. -/
theorem cancelRemovesTheWait : Obligations.CancelRemovesTheWait := by
  intro s p r hok h
  dsimp only
  have hv := startRequest_taken p r s
  refine ⟨fun htag => exec_answeredOnly h ?_, fun htag => exec_answeredOnly h ?_,
    fun w e rec hpart htag hof hr hq hs hh => ?_⟩
  · rw [behaviourOf, cancelBehaviour, hv.tag, htag]
  · rw [behaviourOf, cancelBehaviour, hv.tag, htag]
  · obtain ⟨hw, hagent, hetag⟩ := waitOfTag_spec hok hof
    have hw' : tableGet (startRequest p r s).waits w = some e := by rw [hv.waits, hw]
    have hV : view (waitCancelled (senderOf p r) r w (startRequest p r s)) = _ :=
      (view_reply ..).trans (congrArg (fun x => x.setTag (senderOf p r) r.tag .replying)
        (view_removeWait hw' (by rw [hv.records, hr]) .cancelled))
    have hA : Answers (startRequest p r s) (waitCancelled (senderOf p r) r w (startRequest p r s)) _ :=
      (removeWait_answers hw' .cancelled).trans (reply_answers _ _ _ _ _)
    rw [hv.view, hagent, hetag] at hV
    rw [hagent, hetag] at hA
    have hT := (view_endItem s _).trans hV
    have reads := reads_of_view hT
    refine ⟨_, exec_request_growing h (cancel_leaves_queue htag hof hw hr hq hs hh) (by simp [waitCancelled, hpart])
      fun x hx => ?_, ?_, endItem_offerStands (by simp [waitCancelled]), ?_, fun j hj => ?_, ?_, fun j hj => ?_, ?_,
      fun j hj => ?_, ?_, fun j hj => ?_, ?_, fun x hx => ?_, fun x hx => ?_, ?_,
      endItem_countsPublished (by simp [waitCancelled]), repliesHanded_endItem hA⟩
    · rw [agent_of_view hV]
      by_cases hxa : x = senderOf p r
      · subst hxa; simpa using hx
      · simpa [hxa] using hx
    · apply State.ext <;> simp [endItem_tables] <;> simp [waitCancelled]
    · simp [reads, hq]
    · simp [reads, hj]
    · simp [reads]
    · simp [reads, hj]
    · simp [reads]
    · simp [reads, hj]
    · simp [reads]
    · simp [reads, hj]
    · simp [reads]
    · simp [reads, hx]
    · rw [marks_of_view hT]; simp [hx]
    · rw [marks_of_view hT]; simp

end Sys2Proof.Machine
end

section
/-! What the removals and evaluations of a WITHDRAW spare: the agents of its port gain nothing, and without a token end
the part, its jobs and the mailbox stay (03, R63; 06, R116). -/

namespace Sys2Proof.Machine

/-! ### What a removal or a grant spares -/

/-- From `s` to `t`: no wait enters; lease lists grow, but not those of the port's agents; a lease whose number is not in
`R` changes at most by an upgrade's grant, and not if it is of the port; and the counter stays at its end value. -/
structure Spares (p : Port) (R : Nat → Prop) (s t : State) : Prop where
  wait : ∀ w e, tableGet t.waits w = some e → tableGet s.waits w = some e
  agent : ∀ a, ∃ gained tags, t.agent a = { s.agent a with leases := (s.agent a).leases ++ gained, tags := tags }
    ∧ (portOf a = p → gained = [])
  lease : ∀ k l, ¬ R k → leaseAt s k = some l → ∃ m x, leaseAt t k = some { l with mode := m, token := x }
    ∧ (portOf l.agent = p → m = l.mode ∧ x = l.token)
  gen : ∀ k, ¬ R k → genOf t k = genOf s k
  counter : s.token = Config.tokenEnd → t.token = Config.tokenEnd

/-- Every wait has reserved a lease entry with a number in `R`. -/
def ReservedIn (R : Nat → Prop) (s : State) : Prop := ∀ w e, tableGet s.waits w = some e → R e.reserved

section
variable {p : Port} {R : Nat → Prop} {s t u : State}

theorem Spares.trans (h : Spares p R s t) (h' : Spares p R t u) : Spares p R s u where
  wait w e hw := h.wait w e (h'.wait w e hw)
  agent a := by
    obtain ⟨g, tags, ha, hg⟩ := h.agent a
    obtain ⟨g', tags', ha', hg'⟩ := h'.agent a
    exact ⟨g ++ g', tags', by simp [ha', ha], fun hp => by simp [hg hp, hg' hp]⟩
  lease k l hk hl := by
    obtain ⟨m, x, hm, hp⟩ := h.lease k l hk hl
    obtain ⟨m', x', hm', hp'⟩ := h'.lease k _ hk hm
    exact ⟨m', x', hm', fun ha => by obtain ⟨rfl, rfl⟩ := hp ha; exact hp' ha⟩
  gen k hk := (h'.gen k hk).trans (h.gen k hk)
  counter ht := h'.counter (h.counter ht)

/-- What adds no wait and changes the agents' tags alone spares all. -/
theorem Spares.of_tags (hw : ∀ w e, tableGet t.waits w = some e → tableGet s.waits w = some e)
    (ha : ∀ a, ∃ tags, t.agent a = { s.agent a with tags := tags }) (hl : t.leases = s.leases) (hg : t.gens = s.gens)
    (ht : t.token = s.token) : Spares p R s t where
  wait := hw
  agent a := by obtain ⟨tags, h⟩ := ha a; exact ⟨[], tags, by simp [h], fun _ => rfl⟩
  lease k l _ h := ⟨l.mode, l.token, by rw [leaseAt_congr hl, h], fun _ => ⟨rfl, rfl⟩⟩
  gen k _ := genOf_congr hg k
  counter h := ht.trans h

/-- What changes none of the waits, the agents, the leases and the counter spares all. -/
theorem Spares.of_same (hw : t.waits = s.waits) (ha : t.agents = s.agents) (hl : t.leases = s.leases)
    (hg : t.gens = s.gens) (ht : t.token = s.token) : Spares p R s t :=
  .of_tags (fun w e h => by rwa [hw] at h) (fun a => ⟨(s.agent a).tags, agent_congr ha a⟩) hl hg ht

theorem Spares.refl (s : State) : Spares p R s s := .of_same rfl rfl rfl rfl rfl

theorem Spares.reservedIn (h : Spares p R s t) (hs : ReservedIn R s) : ReservedIn R t :=
  fun w e hw => hs w e (h.wait w e hw)

end

/-! ### The operations -/

section
variable {p : Port} {R : Nat → Prop} {s : State}

/-- A tag set is all that changes of an agent. -/
theorem setTag_agent_tags (a b : Agent) (g : Tag) (x : TagState) (s : State) :
    ∃ tags, (setTag a g x s).agent b = { s.agent b with tags := tags } := by
  by_cases hb : b = a
  · subst hb; exact ⟨_, by rw [setTag, updAgent_agent, if_pos rfl]⟩
  · exact ⟨(s.agent b).tags, by rw [setTag, updAgent_agent, if_neg hb]⟩

theorem setTag_spares (a : Agent) (g : Tag) (x : TagState) : Spares p R s (setTag a g x s) :=
  .of_tags (by simp) (setTag_agent_tags a · g x s) (by simp) (by simp) (by simp)

theorem answerTag_spares (a : Agent) (g : Tag) (kind : Byte) (st : Status) (c : Content) :
    Spares p R s (answerTag a g kind st c s) :=
  (setTag_spares a g .replying).trans (.of_same (by simp) (by simp [answerTag]) (by simp) (by simp) (by simp))

theorem answerGranted_spares (a : Agent) (g : Tag) (kind : Byte) (k : Nat) :
    Spares p R s (answerGranted a g kind k s) := by
  unfold answerGranted; split
  · exact answerTag_spares ..
  · exact .refl s

theorem dequeueWait_spares (w : Nat) (e : WaitEntry) : Spares p R s (dequeueWait w e s) := by
  have hwaits : (dequeueWait w e s).waits = tableErase s.waits w := by simp [dequeueWait]
  refine .of_tags (fun x f hf => ?_) (fun a => ⟨(s.agent a).tags, agent_congr (by simp) a⟩) (by simp) (by simp)
    (by simp)
  rw [hwaits, tableGet_tableErase] at hf
  split at hf
  · cases hf
  · exact hf

theorem freeLeaseEntry_spares {k : Nat} (hk : R k) : Spares p R s (freeLeaseEntry k s) := by
  have hV := view_freeLeaseEntry k s
  have hne : ∀ {j}, ¬ R j → j ≠ k := fun hj he => hj (he ▸ hk)
  refine ⟨fun w e h => by simpa using h, fun a => ⟨[], (s.agent a).tags, ?_, fun _ => rfl⟩, fun j l hj hl => ?_,
    fun j hj => ?_, fun h => by simpa using h⟩
  · simp [agent_congr (s := s) (t := freeLeaseEntry k s) (by simp)]
  · refine ⟨l.mode, l.token, ?_, fun _ => ⟨rfl, rfl⟩⟩
    rw [leaseAt_of_view hV, ← hl, leaseAt_eq_view]; simp [View.leaseAt, hne hj]
  · rw [gen_of_view hV]; simp [hne hj]

theorem grantLease_spares {n k : Nat} {a : Agent} (hk : R k) (ha : portOf a ≠ p) (ht : s.token ≠ Config.tokenEnd)
    (m : Mode) (ticks : Nat) : Spares p R s (grantLease n k a m ticks s) := by
  cases hr : tableGet s.records n with
  | none => rw [grantLease, hr]; exact .refl s
  | some r =>
    have hV := view_grantLease hr k a m ticks
    have hne : ∀ {j}, ¬ R j → j ≠ k := fun hj he => hj (he ▸ hk)
    refine ⟨fun w e h => by simpa using h, fun b => ?_, fun j l hj hl => ?_, fun j _ => genOf_congr (by simp) j,
      fun h => absurd h ht⟩
    · rw [agent_of_view hV]
      by_cases hb : b = a
      · subst hb; exact ⟨[handleOf s k], (s.agent b).tags, by simp, fun h => absurd h ha⟩
      · exact ⟨[], (s.agent b).tags, by simp [hb], fun _ => rfl⟩
    · refine ⟨l.mode, l.token, ?_, fun _ => ⟨rfl, rfl⟩⟩
      rw [leaseAt_of_view hV, ← hl, leaseAt_eq_view]; simp [View.leaseAt, hne hj]

/-- A lease changed reads as changed, and every other as before. -/
theorem leaseAt_updLease (k j : Nat) (f : Lease → Lease) (s : State) :
    leaseAt (updLease k f s) j = if j = k then (leaseAt s k).map f else leaseAt s j := by
  cases hl : leaseAt s k with
  | none =>
    rw [updLease, hl]
    by_cases hj : j = k <;> simp [hj, hl]
  | some l =>
    rw [leaseAt_of_view (view_updLease ((view_leaseAt s k).trans hl) f), leaseAt_eq_view s j]
    by_cases hj : j = k <;> simp [View.leaseAt, LeaseSlot.lease?, hj]

theorem upgradeLease_spares {n k : Nat} (hk : ∀ l, leaseAt s k = some l → portOf l.agent ≠ p)
    (ht : s.token ≠ Config.tokenEnd) : Spares p R s (upgradeLease n k s) := by
  refine ⟨fun w e h => by simpa using h, fun a => ⟨[], (s.agent a).tags, ?_, fun _ => rfl⟩, fun j l _ hl => ?_,
    fun j _ => genOf_congr (by simp) j, fun h => absurd h ht⟩
  · simp [agent_congr (s := s) (t := upgradeLease n k s) (by simp)]
  · have hsame : ∀ i f, leaseAt (updRecord n f { s with token := s.token + 1#64 }) i = leaseAt s i :=
      fun i f => leaseAt_congr (by simp) i
    simp only [upgradeLease, leaseAt_updLease, hsame]
    by_cases hj : j = k
    · subst hj; exact ⟨.exclusive, s.token + 1#64, by simp [hl], fun hp => absurd hp (hk l hl)⟩
    · exact ⟨l.mode, l.token, by simp [hj, hl], fun _ => ⟨rfl, rfl⟩⟩

theorem removeWait_spares (hR : ReservedIn R s) (w : Nat) (ans : Option Status) :
    Spares p R s (removeWait w ans s) := by
  unfold removeWait
  split
  · exact .refl s
  · rename_i e hw
    have hfreed : Spares p R s (freeLeaseEntry e.reserved (dequeueWait w e s)) :=
      (dequeueWait_spares w e).trans (freeLeaseEntry_spares (hR w e hw))
    dsimp only; split
    · exact hfreed.trans (answerTag_spares ..)
    · exact hfreed.trans (setTag_spares ..)

theorem dropUpgrade_spares (n : Nat) (ans : Option Status) : Spares p R s (dropUpgrade n ans s) := by
  unfold dropUpgrade
  split
  · exact .refl s
  · rename_i u _
    have hempty : Spares p R s (unmark (.upgrade n) (updRecord n (fun r => { r with slot := none }) s)) :=
      .of_same (by simp) (by simp) (by simp) (by simp) (by simp)
    dsimp only; split
    · exact hempty.trans (answerTag_spares ..)
    · exact hempty.trans (setTag_spares ..)
    · exact hempty

theorem grantWait_spares {n w : Nat} {e : WaitEntry} (hk : R e.reserved) (ha : portOf e.agent ≠ p)
    (ht : s.token ≠ Config.tokenEnd) : Spares p R s (grantWait n w e s) :=
  ((dequeueWait_spares w e).trans (grantLease_spares hk ha (by simpa using ht) _ _)).trans (answerGranted_spares ..)

theorem grantUpgrade_spares {n : Nat} {u : Upgrade} (hu : ∀ l, leaseAt s u.lease.num = some l → portOf l.agent ≠ p)
    (ht : s.token ≠ Config.tokenEnd) : Spares p R s (grantUpgrade n u s) := by
  have hempty : Spares p R s (unmark (.upgrade n) (updRecord n (fun r => { r with slot := none }) s)) :=
    .of_same (by simp) (by simp) (by simp) (by simp) (by simp)
  have hgrant := hempty.trans (upgradeLease_spares (n := n) (k := u.lease.num)
    (fun l hl => hu l ((leaseAt_congr (by simp) _).symm.trans hl)) (by simpa using ht))
  unfold grantUpgrade; dsimp only; split
  · exact hgrant.trans (answerTag_spares ..)
  · exact hgrant

theorem retireRecord_spares (n : Nat) : Spares p R s (retireRecord n s) :=
  .of_same (by simp) (by simp) (by simp) (by simp) (by simp)

/-! ### Grant evaluation of a record from which the port's requests are gone -/

/-- No wait of the port's agents is queued on the record. -/
def NoWaitOf (p : Port) (n : Nat) (s : State) : Prop :=
  ∀ r, tableGet s.records n = some r → ∀ w ∈ r.queue, ∀ e, tableGet s.waits w = some e → portOf e.agent ≠ p

/-- No upgrade of the port's agents is in the record's slot. -/
def NoUpgradeOf (p : Port) (n : Nat) (s : State) : Prop :=
  ∀ r u l, tableGet s.records n = some r → r.slot = some u → leaseAt s u.lease.num = some l → portOf l.agent ≠ p

theorem grantHeads_spares (n : Nat) {q : List Nat} (hR : ReservedIn R s)
    (hq : ∀ w ∈ q, ∀ e, tableGet s.waits w = some e → portOf e.agent ≠ p) : Spares p R s (grantHeads n q s) := by
  induction q generalizing s with
  | nil => exact .refl s
  | cons w rest ih =>
    have later : ∀ {t}, Spares p R s t → Spares p R s (grantHeads n rest t) := fun {t} ht =>
      ht.trans (ih (ht.reservedIn hR) fun x hx e he => hq x (List.mem_cons_of_mem _ hx) e (ht.wait x e he))
    unfold grantHeads; split
    · rename_i r e _ he
      split
      · refine later ?_
        split
        · exact removeWait_spares hR w _
        · rename_i ht; exact grantWait_spares (hR w e he) (hq w (List.mem_cons_self ..) e he) ht
      · exact .refl s
    · exact .refl s

theorem evaluateQueue_spares {n : Nat} (hR : ReservedIn R s) (hq : NoWaitOf p n s) :
    Spares p R s (evaluateQueue n s) := by
  unfold evaluateQueue; split
  · rename_i r hr; exact (grantHeads_spares n hR (hq r hr)).trans (retireRecord_spares n)
  · exact .refl s

/-- An upgrade that leaves its slot changes its record alone (01, R22). -/
theorem dropUpgrade_records_eq {n : Nat} {r : LockRecord} {u : Upgrade} (hr : tableGet s.records n = some r)
    (hs : r.slot = some u) (ans : Option Status) :
    (dropUpgrade n ans s).records = (updRecord n (fun r => { r with slot := none }) s).records := by
  simp only [dropUpgrade, hr, Option.bind_some, hs]
  split <;> simp

/-- A record whose slot is emptied is otherwise as it was (01, R22). -/
theorem dropUpgrade_record (n : Nat) (ans : Option Status) (s : State) :
    tableGet (dropUpgrade n ans s).records n = (tableGet s.records n).map fun r => { r with slot := none } := by
  cases hr : tableGet s.records n with
  | none => simp [dropUpgrade, hr]
  | some r =>
    cases hs : r.slot with
    | none => rw [dropUpgrade_empty hr hs, hr, Option.map_some, ← hs]
    | some u => simp [dropUpgrade_records_eq hr hs, updRecord, hr]

theorem evaluateRecord_spares {n : Nat} (hR : ReservedIn R s) (hq : NoWaitOf p n s) (hu : NoUpgradeOf p n s) :
    Spares p R s (evaluateRecord n s) := by
  unfold evaluateRecord; split
  · exact .refl s
  · rename_i r hr
    split
    · exact evaluateQueue_spares hR hq
    · rename_i u hs
      split
      · split
        · have hdrop : Spares p R s (dropUpgrade n (some .halted) s) := dropUpgrade_spares n _
          refine hdrop.trans (evaluateQueue_spares (hdrop.reservedIn hR) fun r' hr' w hw e he => ?_)
          rw [dropUpgrade_record, hr] at hr'
          obtain rfl := Option.some.inj hr'
          exact hq r hr w hw e (hdrop.wait w e he)
        · rename_i ht; exact grantUpgrade_spares (fun l hl => hu r u l hr hs hl) ht
      · exact .refl s

end

end Sys2Proof.Machine
end

section
/-! The affected records of a WITHDRAW, one after another (03, R63; 02, R48). -/

namespace Sys2Proof.Machine

/-! ### A chain of removals and evaluations, with the token ends it may reach -/

/-- From `s` to `t`, in the item of a WITHDRAW: what `Spares` says; unless a grant reaches the token end, SEEDED, the
jobs, the mailbox and the part stay; of the events only those of a token end are posted; and replies alone are handed
over. -/
structure Withdrawing (p : Port) (R : Nat → Prop) (s t : State) : Prop extends Spares p R s t where
  calm : s.token = t.token ∨ t.token ≠ Config.tokenEnd →
    t.seeded = s.seeded ∧ t.sweep = s.sweep ∧ t.mbox = s.mbox ∧ t.part = s.part
  events : ∀ i, i ≠ 2 → i ≠ 3 → i ≠ 5 → t.events.getLsbD i = s.events.getLsbD i
  replies : RepliesOnly s t

/-- The token end posts TOKEN_END, PART_STATE and CMD_SUPERSEDED at most (02, R48; 11, R189). -/
theorem tokenEndReached_events (s : State) {i : Nat} (h2 : i ≠ 2) (h3 : i ≠ 3) (h5 : i ≠ 5) :
    (tokenEndReached s).events.getLsbD i = s.events.getLsbD i := by
  have hauto : ∀ v : State, (placeAutoAbort v).events.getLsbD i = v.events.getLsbD i := fun v => by
    have hsuper : ∀ l, (supersede true l v).events.getLsbD i = v.events.getLsbD i := fun l => by
      rw [supersede, postEvent_events]; simp [eventBit, h2]
    unfold placeAutoAbort
    split
    · rfl
    · rfl
    all_goals
      split
      · rfl
      · exact hsuper _
  have habort : ∀ v : State, (startAbort false v).events.getLsbD i = v.events.getLsbD i := fun v => by
    rw [startAbort, postEvent_events]; simp [eventBit, h3]
  have hend : (postEvent .tokenEnd { s with seeded := false }).events.getLsbD i = s.events.getLsbD i := by
    rw [postEvent_events]; simp [eventBit, h5]
  unfold tokenEndReached
  dsimp only
  split
  · rw [hauto, habort, hend]
  · rw [hauto, habort, hend]
  · exact hend
  · exact hend

section
variable {p : Port} {R : Nat → Prop} {s t u : State}

theorem Withdrawing.trans (h : Withdrawing p R s t) (h' : Withdrawing p R t u) : Withdrawing p R s u where
  toSpares := h.toSpares.trans h'.toSpares
  calm hu := by
    have ht : s.token = t.token ∨ t.token ≠ Config.tokenEnd := by
      by_cases he : t.token = Config.tokenEnd
      · exact hu.imp (fun hs => by rw [hs, he, h'.counter he]) fun hn => absurd (h'.counter he) hn
      · exact .inr he
    have hu' : t.token = u.token ∨ u.token ≠ Config.tokenEnd := by
      by_cases he : u.token = Config.tokenEnd
      · exact .inl ((h.counter ((hu.resolve_right (absurd he)).trans he)).trans he.symm)
      · exact .inr he
    obtain ⟨hseed, hsweep, hmbox, hpart⟩ := h.calm ht
    obtain ⟨hseed', hsweep', hmbox', hpart'⟩ := h'.calm hu'
    exact ⟨hseed'.trans hseed, hsweep'.trans hsweep, hmbox'.trans hmbox, hpart'.trans hpart⟩
  events i h2 h3 h5 := (h'.events i h2 h3 h5).trans (h.events i h2 h3 h5)
  replies := h.replies.trans h'.replies

/-- An operation that leaves SEEDED, the jobs, the mailbox, the part and EVENTS. -/
theorem Withdrawing.of_spares (h : Spares p R s t) (hseed : t.seeded = s.seeded) (hsweep : t.sweep = s.sweep)
    (hmbox : t.mbox = s.mbox) (hpart : t.part = s.part) (hevents : t.events = s.events) (hreplies : RepliesOnly s t) :
    Withdrawing p R s t where
  toSpares := h
  calm _ := ⟨hseed, hsweep, hmbox, hpart⟩
  events i _ _ _ := by rw [hevents]
  replies := hreplies

theorem Withdrawing.refl (s : State) : Withdrawing p R s s :=
  .of_spares (.refl s) rfl rfl rfl rfl rfl (.refl s)

/-- A grant evaluation and the token end after it (01, R13 to R17; 02, R48). -/
theorem evaluate_withdrawing {n : Nat} (hR : ReservedIn R s) (hq : NoWaitOf p n s) (hu : NoUpgradeOf p n s) :
    Withdrawing p R s (evaluate n s) := by
  have hrecord : Withdrawing p R s (evaluateRecord n s) :=
    .of_spares (evaluateRecord_spares hR hq hu) (by simp) (by simp) (by simp) (by simp) (by simp)
      (evaluateRecord_repliesOnly n s)
  by_cases hend : s.token ≠ Config.tokenEnd ∧ (evaluateRecord n s).token = Config.tokenEnd
  · rw [evaluate, withTokenEnd_of_end hend.1 hend.2]
    have htoken : (tokenEndReached (evaluateRecord n s)).token = Config.tokenEnd := by simp [hend.2]
    exact {
      toSpares := hrecord.toSpares.trans (.of_same (by simp) (by simp) (by simp) (by simp) (by simp))
      calm := fun h => h.elim (fun he => absurd (he.trans htoken) hend.1) (absurd htoken)
      events := fun i h2 h3 h5 => (tokenEndReached_events _ h2 h3 h5).trans (hrecord.events i h2 h3 h5)
      replies := hrecord.replies.trans (.none (by simp) (by simp)) }
  · rw [evaluate, withTokenEnd_of_token (by rwa [not_and_or, not_not] at hend)]
    exact hrecord

/-! ### What removals without an answer leave of a record -/

/-- From `s` to `t` no wait and no lease comes in, and the record's queue shrinks. -/
structure Removed (n : Nat) (s t : State) : Prop where
  record : ∀ r', tableGet t.records n = some r' →
    ∃ r, tableGet s.records n = some r ∧ r'.queue ⊆ r.queue ∧ r'.slot = r.slot
  wait : ∀ w e, tableGet t.waits w = some e → tableGet s.waits w = some e
  lease : ∀ k l, leaseAt t k = some l → leaseAt s k = some l

theorem Removed.refl (n : Nat) (s : State) : Removed n s s :=
  ⟨fun r h => ⟨r, h, List.Subset.refl _, rfl⟩, fun _ _ h => h, fun _ _ h => h⟩

theorem Removed.trans {n : Nat} (h : Removed n s t) (h' : Removed n t u) : Removed n s u where
  record r'' hr'' := by
    obtain ⟨r', hr', hq', hs'⟩ := h'.record r'' hr''
    obtain ⟨r, hr, hq, hs⟩ := h.record r' hr'
    exact ⟨r, hr, fun _ hw => hq (hq' hw), hs'.trans hs⟩
  wait w e he := h.wait w e (h'.wait w e he)
  lease k l hl := h.lease k l (h'.lease k l hl)

/-- A removed wait's entry and its reserved lease entry are free (03, R56). -/
theorem removeWait_tables {w : Nat} {e : WaitEntry} (hw : tableGet s.waits w = some e) (ans : Option Status) :
    (removeWait w ans s).waits = tableErase s.waits w
      ∧ (removeWait w ans s).leases = tableErase s.leases e.reserved := by
  cases ans <;> simp [removeWait, hw, freeLeaseEntry, dequeueWait]

theorem removeWait_removed (n w : Nat) (ans : Option Status) (s : State) :
    Removed n s (removeWait w ans s) ∧ tableGet (removeWait w ans s).waits w = none := by
  cases hw : tableGet s.waits w with
  | none => rw [removeWait, hw]; exact ⟨.refl n s, hw⟩
  | some e =>
    obtain ⟨hwaits, hleases⟩ := removeWait_tables hw ans
    refine ⟨⟨fun r' hr' => ?_, fun x f hf => ?_, fun k l hl => ?_⟩, by simp [hwaits]⟩
    · rw [removeWait_records_eq hw, updRecord] at hr'
      split at hr'
      · rename_i r hr
        rw [tableGet_tableSet] at hr'
        split at hr'
        · rename_i hn
          subst hn; cases hr'
          exact ⟨r, hr, List.erase_subset, rfl⟩
        · exact ⟨r', hr', List.Subset.refl _, rfl⟩
      · exact ⟨r', hr', List.Subset.refl _, rfl⟩
    · rw [hwaits, tableGet_tableErase] at hf
      split at hf
      · cases hf
      · exact hf
    · rw [leaseAt_eq_some, hleases, tableGet_tableErase] at hl
      split at hl
      · cases hl
      · exact leaseAt_eq_some.2 hl

/-- Every wait of a list removed. -/
theorem clearQueue_removed (n : Nat) (ans : Option Status) (ws : List Nat) (s : State) :
    Removed n s (clearQueue ans ws s) ∧ ∀ w ∈ ws, tableGet (clearQueue ans ws s).waits w = none := by
  induction ws generalizing s with
  | nil => exact ⟨.refl n s, by simp⟩
  | cons w rest ih =>
    obtain ⟨hfirst, hgone⟩ := removeWait_removed n w ans s
    obtain ⟨hrest, hrests⟩ := ih (removeWait w ans s)
    refine ⟨hfirst.trans hrest, fun x hx => ?_⟩
    rcases List.mem_cons.1 hx with rfl | hx
    · refine Option.eq_none_iff_forall_not_mem.2 fun e he => ?_
      rw [hrest.wait x e he] at hgone; cases hgone
    · exact hrests x hx

theorem clearQueue_withdrawing (hR : ReservedIn R s) (ans : Option Status) (ws : List Nat) :
    Withdrawing p R s (clearQueue ans ws s) := by
  induction ws generalizing s with
  | nil => exact .refl s
  | cons w rest ih =>
    have hfirst : Withdrawing p R s (removeWait w ans s) :=
      .of_spares (removeWait_spares hR w ans) (by simp) (by simp) (by simp) (by simp) (by simp)
        (removeWait_repliesOnly w ans s)
    exact hfirst.trans (ih (hfirst.reservedIn hR))

/-! ### The records -/

/-- The requests of the port's agents on a record, removed without an answer, in the order of R63 (03, R63). -/
def requestsRemoved (p : Port) (n : Nat) (r : LockRecord) (s : State) : State :=
  clearQueue none (waitsOfPort p s r) (if upgradeOfPort p s r then dropUpgrade n none s else s)

/-- A record on which agents of the port have a request is evaluated once these are removed; any other is left
(03, R63). -/
theorem withdrawRecord_eq {n : Nat} {r : LockRecord} (hr : tableGet s.records n = some r) : withdrawRecord p s n
    = if upgradeOfPort p s r = false ∧ waitsOfPort p s r = [] then s else evaluate n (requestsRemoved p n r s) := by
  simp only [withdrawRecord, hr]; rfl

section
variable {n : Nat} {r : LockRecord} (hr : tableGet s.records n = some r)
include hr

/-- With the upgrade of an agent of the port dropped, the slot holds none. -/
theorem noUpgradeOf_dropped :
    NoUpgradeOf p n (if upgradeOfPort p s r then dropUpgrade n none s else s) := by
  intro r' u l hr' hs hl
  split at hr'
  · rw [dropUpgrade_record, hr] at hr'
    obtain rfl := Option.some.inj hr'
    cases hs
  · rename_i hup
    obtain rfl : r = r' := Option.some.inj (hr.symm.trans hr')
    intro hp
    rw [if_neg hup] at hl
    simp [upgradeOfPort, hs, upgradeAgent, hl, hp] at hup

/-- Of the requests of the port's agents none is left on the record. -/
theorem requestsRemoved_none :
    NoWaitOf p n (requestsRemoved p n r s) ∧ NoUpgradeOf p n (requestsRemoved p n r s) := by
  obtain ⟨hremoved, hgone⟩ := clearQueue_removed n none (waitsOfPort p s r)
    (if upgradeOfPort p s r then dropUpgrade n none s else s)
  refine ⟨fun r' hr' w hw e he hp => ?_, fun r' u l hr' hs hl => ?_⟩
  · obtain ⟨r1, hr1, hq, -⟩ := hremoved.record r' hr'
    have hqueue : r1.queue = r.queue := by
      split at hr1
      · rw [dropUpgrade_record, hr] at hr1
        obtain rfl := Option.some.inj hr1
        rfl
      · rw [Option.some.inj (hr.symm.trans hr1)]
    have hentry : tableGet s.waits w = some e := by
      have hleft := hremoved.wait w e he
      split at hleft
      · simpa using hleft
      · exact hleft
    have hmem : w ∈ waitsOfPort p s r :=
      List.mem_filter.2 ⟨hqueue ▸ hq hw, by simp [hentry, hp]⟩
    have hnone := hgone w hmem
    rw [requestsRemoved, hnone] at he
    cases he
  · obtain ⟨r1, hr1, -, hslot⟩ := hremoved.record r' hr'
    exact noUpgradeOf_dropped hr r1 u l hr1 (hslot ▸ hs) (hremoved.lease _ _ hl)

end

theorem requestsRemoved_withdrawing (hR : ReservedIn R s) (n : Nat) (r : LockRecord) :
    Withdrawing p R s (requestsRemoved p n r s) := by
  have hdrop : Withdrawing p R s (if upgradeOfPort p s r then dropUpgrade n none s else s) := by
    split
    · exact .of_spares (dropUpgrade_spares n none) (by simp) (by simp) (by simp) (by simp) (by simp)
        (dropUpgrade_repliesOnly n none s)
    · exact .refl s
  exact hdrop.trans (clearQueue_withdrawing (hdrop.reservedIn hR) none _)

theorem withdrawRecord_withdrawing (hR : ReservedIn R s) (n : Nat) : Withdrawing p R s (withdrawRecord p s n) := by
  cases hr : tableGet s.records n with
  | none => rw [withdrawRecord, hr]; exact .refl s
  | some r =>
    rw [withdrawRecord_eq hr]
    split
    · exact .refl s
    · have hremoved := requestsRemoved_withdrawing (p := p) hR n r
      obtain ⟨hq, hu⟩ := requestsRemoved_none (p := p) hr
      exact hremoved.trans (evaluate_withdrawing (hremoved.reservedIn hR) hq hu)

/-- The affected records, one after another. -/
theorem foldl_withdrawRecord_withdrawing (hR : ReservedIn R s) (l : List Nat) :
    Withdrawing p R s (l.foldl (withdrawRecord p) s) := by
  induction l generalizing s with
  | nil => exact .refl s
  | cons n rest ih =>
    have hfirst := withdrawRecord_withdrawing (p := p) hR n
    exact hfirst.trans (ih (hfirst.reservedIn hR))

end

end Sys2Proof.Machine
end

section
/-! The item of a WITHDRAW: its take, the port's last acts, and the statement (03, R63; 06, R116; 10, R161, R167). -/

namespace Sys2Proof.Machine

/-! ### The take of a withdrawal -/

/-- The take of a withdrawal changes the port and the arbiter alone. -/
@[simp] theorem beginWithdraw_keeps (p : Port) (s : State) :
    (beginWithdraw p s).now = s.now ∧ (beginWithdraw p s).tickPeriod = s.tickPeriod ∧
    (beginWithdraw p s).tickPos = s.tickPos ∧ (beginWithdraw p s).marks = s.marks ∧
    (beginWithdraw p s).offered = s.offered ∧ (beginWithdraw p s).records = s.records ∧
    (beginWithdraw p s).leases = s.leases ∧ (beginWithdraw p s).gens = s.gens ∧ (beginWithdraw p s).waits = s.waits ∧
    (beginWithdraw p s).domains = s.domains ∧ (beginWithdraw p s).agents = s.agents ∧
    (beginWithdraw p s).token = s.token ∧ (beginWithdraw p s).seeded = s.seeded ∧ (beginWithdraw p s).part = s.part ∧
    (beginWithdraw p s).sweep = s.sweep ∧ (beginWithdraw p s).pools = s.pools ∧ (beginWithdraw p s).mbox = s.mbox ∧
    (beginWithdraw p s).args = s.args ∧ (beginWithdraw p s).res = s.res ∧ (beginWithdraw p s).events = s.events ∧
    (beginWithdraw p s).eventEnable = s.eventEnable ∧ (beginWithdraw p s).nowLatch = s.nowLatch ∧
    (beginWithdraw p s).spiData = s.spiData ∧ (beginWithdraw p s).handed = s.handed ∧
    (beginWithdraw p s).freeDraws = s.freeDraws ∧ (beginWithdraw p s).pending = s.pending := by
  simp [beginWithdraw, beginTake_eq]

/-- The state on which a withdrawal works. -/
def startWithdraw (p : Port) (s : State) : State := withHanded [] (beginWithdraw p s)

/-- The state on which a withdrawal works, compared with its take. -/
@[simp] theorem startWithdraw_keeps (p : Port) (s : State) :
    (startWithdraw p s).now = s.now ∧ (startWithdraw p s).tickPeriod = s.tickPeriod ∧
    (startWithdraw p s).tickPos = s.tickPos ∧ (startWithdraw p s).marks = s.marks ∧
    (startWithdraw p s).offered = s.offered ∧ (startWithdraw p s).records = s.records ∧
    (startWithdraw p s).leases = s.leases ∧ (startWithdraw p s).gens = s.gens ∧ (startWithdraw p s).waits = s.waits ∧
    (startWithdraw p s).domains = s.domains ∧ (startWithdraw p s).agents = s.agents ∧
    (startWithdraw p s).token = s.token ∧ (startWithdraw p s).seeded = s.seeded ∧ (startWithdraw p s).part = s.part ∧
    (startWithdraw p s).sweep = s.sweep ∧ (startWithdraw p s).outer = (beginWithdraw p s).outer ∧
    (startWithdraw p s).inner = (beginWithdraw p s).inner ∧
    (startWithdraw p s).chosen = (beginWithdraw p s).chosen ∧ (startWithdraw p s).pools = s.pools ∧
    (startWithdraw p s).mbox = s.mbox ∧ (startWithdraw p s).args = s.args ∧ (startWithdraw p s).res = s.res ∧
    (startWithdraw p s).events = s.events ∧ (startWithdraw p s).eventEnable = s.eventEnable ∧
    (startWithdraw p s).nowLatch = s.nowLatch ∧ (startWithdraw p s).spiData = s.spiData ∧
    (startWithdraw p s).handed = [] ∧ (startWithdraw p s).freeDraws = s.freeDraws ∧
    (startWithdraw p s).pending = s.pending := by
  simp [startWithdraw, withHanded]

theorem startWithdraw_taken (p : Port) (s : State) : Taken s (startWithdraw p s) := by
  unfold Taken; apply State.ext <;> simp

/-- The withdrawal taken is no longer pending (09, R156). -/
theorem startWithdraw_port (p q : Port) (s : State) : (startWithdraw p s).port q
    = if q = p then { s.port q with withdrawPending := false } else s.port q := by
  have hports : (startWithdraw p s).ports
      = (updPort p (fun q => { q with withdrawPending := false }) (withChoice s)).ports := by
    simp [startWithdraw, beginWithdraw, beginTake_eq]
  have hchoice : ∀ x, (withChoice s).port x = s.port x := port_congr (by simp)
  rw [port_congr hports, updPort_port]
  split
  · rename_i hq; rw [hchoice, hq]
  · rw [hchoice]

/-- The engine's next withdrawal runs on the state its take leaves (10, R167). -/
theorem exec_withdraw {s : State} {p : Port} (h : takenWithdrawal s = some p) : exec .withdraw s
    = .next (withHanded s.handed (finishItem s (withdrawPort p (startWithdraw p s)))) := by
  have harm : exec .withdraw s = execWithdraw s := rfl
  rw [harm, execWithdraw, h]; rfl

/-! ### What a withdrawal leaves alone -/

/-- What removals change. -/
@[simp] theorem clearQueue_keeps (ans : Option Status) (ws : List Nat) (s : State) :
    (clearQueue ans ws s).now = s.now ∧ (clearQueue ans ws s).tickPeriod = s.tickPeriod ∧
    (clearQueue ans ws s).tickPos = s.tickPos ∧ (clearQueue ans ws s).domains = s.domains ∧
    (clearQueue ans ws s).outer = s.outer ∧ (clearQueue ans ws s).inner = s.inner ∧
    (clearQueue ans ws s).chosen = s.chosen ∧ (clearQueue ans ws s).args = s.args ∧
    (clearQueue ans ws s).res = s.res ∧ (clearQueue ans ws s).eventEnable = s.eventEnable ∧
    (clearQueue ans ws s).nowLatch = s.nowLatch ∧ (clearQueue ans ws s).spiData = s.spiData ∧
    (clearQueue ans ws s).pools = s.pools ∧ (clearQueue ans ws s).pending = s.pending := by
  unfold clearQueue
  induction ws generalizing s with
  | nil => simp
  | cons w rest ih => simp [ih]

/-- What the withdrawal from one record changes. -/
@[simp] theorem withdrawRecord_keeps (p : Port) (n : Nat) (s : State) :
    (withdrawRecord p s n).now = s.now ∧ (withdrawRecord p s n).tickPeriod = s.tickPeriod ∧
    (withdrawRecord p s n).tickPos = s.tickPos ∧ (withdrawRecord p s n).domains = s.domains ∧
    (withdrawRecord p s n).outer = s.outer ∧ (withdrawRecord p s n).inner = s.inner ∧
    (withdrawRecord p s n).chosen = s.chosen ∧ (withdrawRecord p s n).args = s.args ∧
    (withdrawRecord p s n).res = s.res ∧ (withdrawRecord p s n).eventEnable = s.eventEnable ∧
    (withdrawRecord p s n).nowLatch = s.nowLatch ∧ (withdrawRecord p s n).spiData = s.spiData ∧
    (withdrawRecord p s n).pools = s.pools ∧ (withdrawRecord p s n).pending = s.pending := by
  cases hr : tableGet s.records n with
  | none => simp [withdrawRecord, hr]
  | some r =>
    rw [withdrawRecord_eq hr, requestsRemoved]
    repeat' split
    all_goals simp

/-- What the withdrawal from the records changes. -/
@[simp] theorem foldl_withdrawRecord_keeps (p : Port) (l : List Nat) (s : State) :
    (l.foldl (withdrawRecord p) s).now = s.now ∧ (l.foldl (withdrawRecord p) s).tickPeriod = s.tickPeriod ∧
    (l.foldl (withdrawRecord p) s).tickPos = s.tickPos ∧ (l.foldl (withdrawRecord p) s).domains = s.domains ∧
    (l.foldl (withdrawRecord p) s).outer = s.outer ∧ (l.foldl (withdrawRecord p) s).inner = s.inner ∧
    (l.foldl (withdrawRecord p) s).chosen = s.chosen ∧ (l.foldl (withdrawRecord p) s).args = s.args ∧
    (l.foldl (withdrawRecord p) s).res = s.res ∧ (l.foldl (withdrawRecord p) s).eventEnable = s.eventEnable ∧
    (l.foldl (withdrawRecord p) s).nowLatch = s.nowLatch ∧ (l.foldl (withdrawRecord p) s).spiData = s.spiData ∧
    (l.foldl (withdrawRecord p) s).pools = s.pools ∧ (l.foldl (withdrawRecord p) s).pending = s.pending := by
  induction l generalizing s with
  | nil => simp
  | cons n rest ih => simp [ih]

/-! ### The last acts of a withdrawal -/

/-- A port whose withdrawal has been made (10, R167). -/
def PortState.cleared (q : PortState) : PortState := { q with heldDown := false, withdrawPending := false }

/-- The port's tags free and its hold clear (06, R116; 10, R167). -/
def holdCleared (p : Port) (u : State) : State := updPort p PortState.cleared ((agentsOf p).foldl freeTags u)

/-- And its training, if it is ready for it (10, R161). -/
def withdrawEnded (p : Port) (u : State) : State := tryTrain p (holdCleared p u)

/-- A DOWN port, its hold apart, is ready to train (10, R161). -/
def PortState.mayTrain (q : PortState) : Bool := decide (q.link = .down) && q.enable && q.signal

theorem withdrawPort_eq (p : Port) (s : State) :
    withdrawPort p s = withdrawEnded p ((s.records.map fun e => e.1).foldl (withdrawRecord p) s) := rfl

/-- Only the agent bank. -/
@[simp] theorem foldl_freeTags_keeps (l : List Agent) (s : State) :
    (l.foldl freeTags s).now = s.now ∧ (l.foldl freeTags s).tickPeriod = s.tickPeriod ∧
    (l.foldl freeTags s).tickPos = s.tickPos ∧ (l.foldl freeTags s).marks = s.marks ∧
    (l.foldl freeTags s).offered = s.offered ∧ (l.foldl freeTags s).records = s.records ∧
    (l.foldl freeTags s).leases = s.leases ∧ (l.foldl freeTags s).gens = s.gens ∧
    (l.foldl freeTags s).waits = s.waits ∧ (l.foldl freeTags s).domains = s.domains ∧
    (l.foldl freeTags s).token = s.token ∧ (l.foldl freeTags s).seeded = s.seeded ∧
    (l.foldl freeTags s).part = s.part ∧ (l.foldl freeTags s).sweep = s.sweep ∧ (l.foldl freeTags s).outer = s.outer ∧
    (l.foldl freeTags s).inner = s.inner ∧ (l.foldl freeTags s).chosen = s.chosen ∧
    (l.foldl freeTags s).pools = s.pools ∧ (l.foldl freeTags s).ports = s.ports ∧ (l.foldl freeTags s).mbox = s.mbox ∧
    (l.foldl freeTags s).args = s.args ∧ (l.foldl freeTags s).res = s.res ∧ (l.foldl freeTags s).events = s.events ∧
    (l.foldl freeTags s).eventEnable = s.eventEnable ∧ (l.foldl freeTags s).nowLatch = s.nowLatch ∧
    (l.foldl freeTags s).spiData = s.spiData ∧ (l.foldl freeTags s).handed = s.handed ∧
    (l.foldl freeTags s).freeDraws = s.freeDraws ∧ (l.foldl freeTags s).pending = s.pending := by
  induction l generalizing s with
  | nil => simp
  | cons a rest ih => simp [ih, freeTags]

/-- The tags of the agents listed are free, and nothing else of any agent changes (06, R116). -/
theorem foldl_freeTags_agent (l : List Agent) (s : State) (a : Agent) : (l.foldl freeTags s).agent a
    = if a ∈ l then { s.agent a with tags := Vector.replicate 16 .free } else s.agent a := by
  induction l generalizing s with
  | nil => simp
  | cons b rest ih =>
    rw [List.foldl_cons, ih, freeTags, updAgent_agent]
    by_cases hb : a = b
    · subst hb; simp
    · simp [hb]

theorem mem_agentsOf (p : Port) (a : Agent) : a ∈ agentsOf p ↔ portOf a = p := by
  revert p a; decide

section
variable (p : Port) (u : State)

/-- The last acts of a withdrawal change the agents, the port and EVENTS alone. -/
@[simp] theorem withdrawEnded_keeps :
    (withdrawEnded p u).now = u.now ∧ (withdrawEnded p u).tickPeriod = u.tickPeriod ∧
    (withdrawEnded p u).tickPos = u.tickPos ∧ (withdrawEnded p u).marks = u.marks ∧
    (withdrawEnded p u).offered = u.offered ∧ (withdrawEnded p u).records = u.records ∧
    (withdrawEnded p u).leases = u.leases ∧ (withdrawEnded p u).gens = u.gens ∧ (withdrawEnded p u).waits = u.waits ∧
    (withdrawEnded p u).domains = u.domains ∧ (withdrawEnded p u).token = u.token ∧
    (withdrawEnded p u).seeded = u.seeded ∧ (withdrawEnded p u).part = u.part ∧ (withdrawEnded p u).sweep = u.sweep ∧
    (withdrawEnded p u).outer = u.outer ∧ (withdrawEnded p u).inner = u.inner ∧
    (withdrawEnded p u).chosen = u.chosen ∧ (withdrawEnded p u).pools = u.pools ∧ (withdrawEnded p u).mbox = u.mbox ∧
    (withdrawEnded p u).args = u.args ∧ (withdrawEnded p u).res = u.res ∧
    (withdrawEnded p u).eventEnable = u.eventEnable ∧ (withdrawEnded p u).nowLatch = u.nowLatch ∧
    (withdrawEnded p u).spiData = u.spiData ∧ (withdrawEnded p u).handed = u.handed ∧
    (withdrawEnded p u).freeDraws = u.freeDraws ∧ (withdrawEnded p u).pending = u.pending := by
  simp [withdrawEnded, holdCleared]

/-- The port's agents have every tag free, and nothing else of any agent changes (06, R116). -/
theorem withdrawEnded_agent (a : Agent) : (withdrawEnded p u).agent a
    = if portOf a = p then { u.agent a with tags := Vector.replicate 16 .free } else u.agent a := by
  have hagents : (withdrawEnded p u).agents = ((agentsOf p).foldl freeTags u).agents := by
    simp [withdrawEnded, holdCleared]
  rw [agent_congr hagents, foldl_freeTags_agent]
  simp only [mem_agentsOf]

theorem withdrawEnded_leases (a : Agent) : ((withdrawEnded p u).agent a).leases = (u.agent a).leases := by
  rw [withdrawEnded_agent]; split <;> rfl

/-- The view with every tag of the port's agents free. -/
def View.freePort (p : Port) (v : View) : View :=
  { v with agent := fun a => if portOf a = p then { v.agent a with tags := Vector.replicate 16 .free } else v.agent a }

theorem view_withdrawEnded : view (withdrawEnded p u) = (view u).freePort p := by
  have hagent : (fun a => (withdrawEnded p u).agents.get a) = ((view u).freePort p).agent :=
    funext (withdrawEnded_agent p u)
  rw [view, hagent]
  simp [View.freePort, view]

/-- The last acts of a withdrawal compare no entry. -/
theorem withdrawEnded_compares : Compares u (withdrawEnded p u) [] := by
  refine ⟨by simp, by simp, fun e _ => ?_⟩
  rw [view_withdrawEnded]
  refine ⟨Iff.rfl, ?_⟩
  cases e with
  | upgrade n | wait w => rfl
  | lease k =>
    have hkeep : ∀ a, (((view u).freePort p).agent a).keepalive = ((view u).agent a).keepalive := fun a => by
      simp only [View.freePort]; split <;> rfl
    simp only [View.deadline, hkeep]; rfl

/-- An event is no port's state. -/
theorem postEvent_port (e : Event) (s : State) (q : Port) : (postEvent e s).port q = s.port q := rfl

theorem holdCleared_port (q : Port) : (holdCleared p u).port q
    = if q = p then (u.port q).cleared else u.port q := by
  have hfreed : ∀ x, ((agentsOf p).foldl freeTags u).port x = u.port x := port_congr (by simp)
  rw [holdCleared, updPort_port]
  split
  · rename_i hq; rw [hfreed, hq]
  · exact hfreed q

theorem withdrawEnded_eq : withdrawEnded p u
    = if (u.port p).mayTrain then enterTraining p (holdCleared p u) else holdCleared p u := by
  rw [withdrawEnded, tryTrain, holdCleared_port, if_pos rfl]
  simp [PortState.cleared, PortState.mayTrain, and_assoc]

/-- The ports after the last acts: the port itself trains if it is ready to, and no other has a part (10, R161, R167). -/
theorem withdrawEnded_port (q : Port) : (withdrawEnded p u).port q = if q = p then
      if (u.port q).mayTrain then { (u.port q).cleared with link := .training, tx := some .train }
      else (u.port q).cleared
    else u.port q := by
  have htraining : ∀ v : State, (enterTraining p v).port q
      = if q = p then { v.port p with link := .training, tx := some .train } else v.port q := fun v => by
    rw [enterTraining, postEvent_port, updPort_port]
  by_cases hq : q = p
  · subst hq
    rw [withdrawEnded_eq]
    split <;> simp [htraining, holdCleared_port]
  · rw [withdrawEnded_eq]
    split <;> simp [htraining, holdCleared_port, hq]

/-- The port's training posts LINK_CHANGE, and the last acts post nothing else (10, R161). -/
theorem withdrawEnded_events (i : Nat) : (withdrawEnded p u).events.getLsbD i
    = (u.events.getLsbD i || (u.port p).mayTrain && decide (i = 8 + p.val)) := by
  have hevents : (holdCleared p u).events = u.events := by simp [holdCleared]
  have hbit : eventBit (.linkChange p) = 8 + p.val := rfl
  rw [withdrawEnded_eq]
  split
  · rename_i ht
    rw [enterTraining, postEvent_events, hbit]
    simp [hevents, ht]
  · rename_i ht; simp [hevents, ht]

/-- The last acts of a withdrawal leave every reply queue. -/
theorem withdrawEnded_replyQ (q : Port) : ((withdrawEnded p u).port q).replyQ = (u.port q).replyQ := by
  rw [withdrawEnded_port]
  repeat' split
  all_goals rfl

end

end Sys2Proof.Machine
end

section
/-! WITHDRAW (03, R63; 06, R116; 10, R161, R167). -/

namespace Sys2Proof.Machine

/-! ### Any withdrawal of a DOWN port -/

/-- The lease entry numbers that waits have reserved. -/
def reservedBy (s : State) (k : Nat) : Prop := ∃ w e, tableGet s.waits w = some e ∧ e.reserved = k

/-- The part after the withdrawal from every record. -/
def recordsWithdrawn (p : Port) (s : State) : State :=
  (s.records.map fun e => e.1).foldl (withdrawRecord p) (startWithdraw p s)

theorem recordsWithdrawn_withdrawing (p : Port) (s : State) :
    Withdrawing p (reservedBy s) (startWithdraw p s) (recordsWithdrawn p s) :=
  foldl_withdrawRecord_withdrawing (fun w e hw => ⟨w, e, by simpa using hw, rfl⟩) _

/-- The part after the item of a withdrawal. -/
def withdrawn (p : Port) (s : State) : State := endItem s (quiesceHalt s (withdrawEnded p (recordsWithdrawn p s)))

/-- The quiesce halt posts PART_STATE alone (11, R187). -/
theorem quiesceHalt_events (b s : State) {i : Nat} (h3 : i ≠ 3) :
    (quiesceHalt b s).events.getLsbD i = s.events.getLsbD i := by
  unfold quiesceHalt
  split
  · rw [enterHalted, postEvent_events]; simp [eventBit, h3]
  · rfl

section
variable (p : Port) (s : State)

/-- A withdrawal gives its port's agents no lease and frees their tags; another agent may gain leases (06, R116). -/
theorem recordsWithdrawn_agent (a : Agent) : ∃ gained tags,
    (withdrawEnded p (recordsWithdrawn p s)).agent a
        = { s.agent a with leases := (s.agent a).leases ++ gained, tags := tags }
      ∧ (portOf a = p → gained = [] ∧ tags = Vector.replicate 16 .free) := by
  obtain ⟨gained, tags, ha, hg⟩ := (recordsWithdrawn_withdrawing p s).agent a
  rw [(startWithdraw_taken p s).agent] at ha
  rw [withdrawEnded_agent, ha]
  split
  · rename_i hp; exact ⟨gained, _, rfl, fun _ => ⟨hg hp, rfl⟩⟩
  · rename_i hp; exact ⟨gained, tags, rfl, fun h => absurd h hp⟩

theorem withdrawn_agent (a : Agent) :
    (withdrawn p s).agent a = (withdrawEnded p (recordsWithdrawn p s)).agent a :=
  agent_congr (by simp [withdrawn, endItem_tables]) a

/-- A withdrawal empties no lease list, and so ends no fence job (06, R121). -/
theorem exec_withdraw_eq {p : Port} {s : State} (h : takenWithdrawal s = some p) :
    exec .withdraw s = .next (withdrawn p s) := by
  have hwork : withdrawPort p (startWithdraw p s) = withdrawEnded p (recordsWithdrawn p s) := by
    rw [withdrawPort_eq, recordsWithdrawn]; simp
  rw [exec_withdraw h, hwork, finishItem_of_no_fence (endFenceJobs_quiet fun a ha => ?_), withdrawn]
  obtain ⟨gained, tags, hagent, -⟩ := recordsWithdrawn_agent p s a
  rw [hagent]
  simp [ha]

/-- A lease that no wait has reserved stays, but for an upgrade's grant, and as it is if its agent is of the port. -/
theorem withdrawn_lease {k : Nat} {l : Lease} (hl : leaseAt s k = some l) (hk : ¬ reservedBy s k) :
    ∃ m x, leaseAt (withdrawn p s) k = some { l with mode := m, token := x } ∧ genOf (withdrawn p s) k = genOf s k
      ∧ (portOf l.agent = p → m = l.mode ∧ x = l.token) := by
  have hv := startWithdraw_taken p s
  have W := recordsWithdrawn_withdrawing p s
  obtain ⟨m, x, hm, hp⟩ := W.lease k l hk ((hv.leaseAt k).trans hl)
  refine ⟨m, x, ?_, ?_, hp⟩
  · rw [leaseAt_congr (s := recordsWithdrawn p s) (by simp [withdrawn, endItem_tables]), hm]
  · rw [genOf_congr (s := recordsWithdrawn p s) (by simp [withdrawn, endItem_tables]), W.gen k hk, hv.genOf]

/-- A port that is DOWN takes no reply (10, R173). -/
theorem recordsWithdrawn_down {q : Port} (hd : (s.port q).link = .down) :
    (recordsWithdrawn p s).port q = (startWithdraw p s).port q := by
  obtain ⟨l, hl⟩ := (recordsWithdrawn_withdrawing p s).replies
  have hq := (hl q).2
  rwa [if_pos (by rw [startWithdraw_port]; split <;> exact hd)] at hq

theorem withdrawn_port (q : Port) :
    (withdrawn p s).port q = (withdrawEnded p (recordsWithdrawn p s)).port q := port_congr (by simp [withdrawn]) q

/-- Another port takes replies alone (10, R173). -/
theorem withdrawn_other_port {q : Port} (hq : q ≠ p) :
    if (s.port q).link = .down then (withdrawn p s).port q = s.port q
    else ∃ gained, RepliesTaken false (s.port q) gained ((withdrawn p s).port q) := by
  have hstart : (startWithdraw p s).port q = s.port q := by rw [startWithdraw_port, if_neg hq]
  rw [withdrawn_port, withdrawEnded_port, if_neg hq]
  split
  · rename_i hd; rw [recordsWithdrawn_down p s hd, hstart]
  · rename_i hd
    obtain ⟨l, hl⟩ := (recordsWithdrawn_withdrawing p s).replies
    have htaken := (hl q).2
    rw [hstart, if_neg hd] at htaken
    exact ⟨_, by simpa using htaken⟩

section
variable (hd : (s.port p).link = .down)
include hd

/-- The port is ready to train if it is enabled and sees a signal (10, R161). -/
theorem recordsWithdrawn_mayTrain : ((recordsWithdrawn p s).port p).mayTrain
    = decide ((s.port p).enable = true ∧ (s.port p).signal = true) := by
  rw [recordsWithdrawn_down p s hd, startWithdraw_port, if_pos rfl]
  simp [PortState.mayTrain, hd]

/-- The port's hold is clear, and it trains at once if it is ready to (10, R161, R167). -/
theorem withdrawn_own_port : (withdrawn p s).port p
    = if (s.port p).enable = true ∧ (s.port p).signal = true then
        { s.port p with heldDown := false, withdrawPending := false, link := .training, tx := some .train }
      else { s.port p with heldDown := false, withdrawPending := false } := by
  have hcleared : ((recordsWithdrawn p s).port p).cleared
      = { s.port p with heldDown := false, withdrawPending := false } := by
    rw [recordsWithdrawn_down p s hd, startWithdraw_port, if_pos rfl]; rfl
  rw [withdrawn_port, withdrawEnded_port, if_pos rfl, recordsWithdrawn_mayTrain p s hd, hcleared]
  simp only [decide_eq_true_eq]

/-- LINK_CHANGE is posted if the port trains; and else only the events of a token end and of a halt. -/
theorem withdrawn_events {i : Nat} (h2 : i ≠ 2) (h3 : i ≠ 3) (h5 : i ≠ 5) : (withdrawn p s).events.getLsbD i
    = (s.events.getLsbD i
      || decide ((s.port p).enable = true ∧ (s.port p).signal = true) && decide (i = 8 + p.val)) := by
  have hend : (withdrawn p s).events = (quiesceHalt s (withdrawEnded p (recordsWithdrawn p s))).events := by
    simp [withdrawn]
  have hstart : (startWithdraw p s).events = s.events := by simp
  rw [hend, quiesceHalt_events _ _ h3, withdrawEnded_events, recordsWithdrawn_mayTrain p s hd,
    (recordsWithdrawn_withdrawing p s).events i h2 h3 h5, hstart]

end

/-- Unless a grant reaches the token end, SEEDED, the jobs and the mailbox stay, and the part if it is not QUIESCING. -/
theorem withdrawn_calm (h : s.token = (withdrawn p s).token ∨ (withdrawn p s).token ≠ Config.tokenEnd) :
    (withdrawn p s).seeded = s.seeded ∧ (withdrawn p s).sweep = s.sweep ∧ (withdrawn p s).mbox = s.mbox
      ∧ (s.part ≠ .quiescing → (withdrawn p s).part = s.part) := by
  have htoken : (withdrawn p s).token = (recordsWithdrawn p s).token := by simp [withdrawn, endItem_tables]
  obtain ⟨hseed, hsweep, hmbox, hpart⟩ := (recordsWithdrawn_withdrawing p s).calm (by simpa [htoken] using h)
  simp only [startWithdraw_keeps] at hseed hsweep hmbox hpart
  refine ⟨by simp [withdrawn, hseed], by simp [withdrawn, hsweep], by simp [withdrawn, hmbox], fun hne => ?_⟩
  rw [withdrawn, quiesceHalt_running (by simp [hpart, hne])]
  simp [hpart]

/-- What a withdrawal leaves alone. -/
theorem withdrawn_keeps : withdrawn p s = { beginWithdraw p s with
    agents := (withdrawn p s).agents, ports := (withdrawn p s).ports, records := (withdrawn p s).records,
    leases := (withdrawn p s).leases, gens := (withdrawn p s).gens, waits := (withdrawn p s).waits,
    token := (withdrawn p s).token, seeded := (withdrawn p s).seeded, marks := (withdrawn p s).marks,
    pools := (withdrawn p s).pools, part := (withdrawn p s).part, sweep := (withdrawn p s).sweep,
    mbox := (withdrawn p s).mbox, events := (withdrawn p s).events, offered := (withdrawn p s).offered,
    freeDraws := (withdrawn p s).freeDraws } := by
  apply State.ext <;> simp [withdrawn, recordsWithdrawn]

end

/-! ### The only record, with one waiter or an upgrade -/

/-- A wait entry of a listed record is removed without an answer (03, R56, R63). -/
theorem view_removeWait_silent {w : Nat} {e : WaitEntry} {r : LockRecord} {s : State}
    (hw : tableGet s.waits w = some e) (hr : tableGet s.records e.record = some r) :
    view (removeWait w none s) = ((((((view s).setWait w none).setRecord e.record
        (some { r with queue := r.queue.erase w })).setMark (.wait w) False).setLease e.reserved none).bumpGen
        e.reserved).setTag e.agent e.tag .free := by
  simp only [removeWait, hw, view_setTag, view_freeLeaseEntry, view_dequeueWait w hr]

/-- An upgrade of a lease in use leaves its slot without an answer (01, R22; 03, R63). -/
theorem view_dropUpgrade_silent {n : Nat} {r : LockRecord} {u : Upgrade} {l : Lease} {s : State}
    (hr : tableGet s.records n = some r) (hu : r.slot = some u) (hl : leaseAt s u.lease.num = some l) :
    view (dropUpgrade n none s) = (((view s).setRecord n (some { r with slot := none })).setMark
        (.upgrade n) False).setTag l.agent u.tag .free := by
  simp only [dropUpgrade, hr, Option.bind_some, hu, upgradeAgent, hl, Option.map_some, view_setTag, view_unmark,
    view_updRecord (s := s) (r := r) hr]

theorem dropUpgrade_silent_compares {n : Nat} {r : LockRecord} {u : Upgrade} {l : Lease} {s : State}
    (hr : tableGet s.records n = some r) (hu : r.slot = some u) (hl : leaseAt s u.lease.num = some l) :
    Compares s (dropUpgrade n none s) [.upgrade n] := by
  have hv := view_dropUpgrade_silent hr hu hl
  refine ⟨by simp, fun e he => ?_, fun e he => ?_⟩
  · obtain rfl := List.mem_singleton.1 he
    rw [hv]; simp [View.Due, View.deadline]
  · have hk : e ≠ .upgrade n := fun h => he (by simp [h])
    rw [hv, View.deadline_setTag, View.deadline_setMark, View.deadline_setRecord _ (.inr hk)]
    simp [hk]

/-- A removal without an answer hands over nothing (03, R63). -/
theorem removeWait_silent_ports (w : Nat) (s : State) : (removeWait w none s).ports = s.ports := by
  unfold removeWait; split <;> simp

theorem dropUpgrade_silent_ports (n : Nat) (s : State) : (dropUpgrade n none s).ports = s.ports := by
  unfold dropUpgrade
  split
  · rfl
  · dsimp only; cases upgradeAgent s _ <;> simp

/-- The only waiter of a record with holders, of an agent of the port, is removed, and no one granted (03, R63). -/
theorem withdrawRecord_waiter {p : Port} {v : State} {w : Nat} {e : WaitEntry} {rec : LockRecord}
    (hw : tableGet v.waits w = some e) (hr : tableGet v.records e.record = some rec) (hq : rec.queue = [w])
    (hs : rec.slot = none) (hh : rec.holders ≠ []) (hp : portOf e.agent = p) :
    withdrawRecord p v e.record = removeWait w none v := by
  have hup : upgradeOfPort p v rec = false := by rw [upgradeOfPort, hs]
  have hwaits : waitsOfPort p v rec = [w] := by simp [waitsOfPort, hq, hw, hp]
  rw [withdrawRecord_eq hr, if_neg (by simp [hwaits]), requestsRemoved, hup, hwaits]
  exact evaluate_removeWait hw hr hq hs hh none

/-- The upgrade of an agent of the port leaves its slot, on a record with holders and no one queued (03, R63). -/
theorem withdrawRecord_upgrade {p : Port} {v : State} {n : Nat} {rec : LockRecord} {u : Upgrade} {l : Lease}
    (hr : tableGet v.records n = some rec) (hq : rec.queue = []) (hs : rec.slot = some u) (hh : rec.holders ≠ [])
    (hl : leaseAt v u.lease.num = some l) (hp : portOf l.agent = p) :
    withdrawRecord p v n = dropUpgrade n none v := by
  have hup : upgradeOfPort p v rec = true := by simp [upgradeOfPort, hs, upgradeAgent, hl, hp]
  have hwaits : waitsOfPort p v rec = [] := by simp [waitsOfPort, hq]
  have hrecord : tableGet (dropUpgrade n none v).records n = some { rec with slot := none } := by
    rw [dropUpgrade_record, hr]; rfl
  rw [withdrawRecord_eq hr, if_neg (by simp [hup]), requestsRemoved, hup, hwaits]
  exact evaluate_idle hrecord rfl hq hh

/-- A change of the only record. -/
theorem updRecord_single {v : State} {n : Nat} {rec : LockRecord} (h : v.records = [(n, rec)])
    (f : LockRecord → LockRecord) : (updRecord n f v).records = [(n, f rec)] := by
  simp [updRecord, h, tableGet, tableSet]

/-- A withdrawal in a RUNNING part from the only record, when what it does there is known. -/
theorem withdrawn_single {p : Port} {s u : State} {n : Nat} {rec : LockRecord} (hrecords : s.records = [(n, rec)])
    (hu : withdrawRecord p (startWithdraw p s) n = u) (hpart : u.part = .running) :
    withdrawn p s = endItem s (withdrawEnded p u) := by
  have hall : recordsWithdrawn p s = u := by rw [recordsWithdrawn, hrecords]; exact hu
  rw [withdrawn, hall, quiesceHalt_running (by simp [hpart])]

/-- The last acts of a withdrawal leave every other port and every reply queue. -/
theorem endItem_withdrawEnded_ports {p : Port} {s u : State} (hu : u.ports = (startWithdraw p s).ports) :
    (∀ q, ((endItem s (withdrawEnded p u)).port q).replyQ = (s.port q).replyQ)
      ∧ ∀ q, q ≠ p → (endItem s (withdrawEnded p u)).port q = s.port q := by
  have hend : ∀ q, (endItem s (withdrawEnded p u)).port q = (withdrawEnded p u).port q := port_congr (by simp)
  refine ⟨fun q => ?_, fun q hq => ?_⟩
  · rw [hend, withdrawEnded_replyQ, port_congr hu, startWithdraw_port]; split <;> rfl
  · rw [hend, withdrawEnded_port, if_neg hq, port_congr hu, startWithdraw_port, if_neg hq]

/-- A tag of the port's agents is free at the end of a withdrawal (06, R116). -/
theorem freePort_tag {p : Port} {t : State} {v : View} (h : view t = v.freePort p) {a : Agent} (ha : portOf a = p)
    (g : Tag) : t.tag a g = .free := by
  rw [State.tag, agent_of_view h]
  simp [View.freePort, ha, Vector.get_eq_getElem]

/-- Settles O43: what every withdrawal spares; and the removal of a wait or an upgrade from the only record, where no one
is granted. -/
theorem withdrawFreesTagsAndWaits : Obligations.WithdrawFreesTagsAndWaits := by
  refine ⟨?_, ?_, ?_⟩
  · intro s p htaken hd
    dsimp only
    have hown : ∀ sl, (withdrawn p s).agent (agentOf p sl)
        = { s.agent (agentOf p sl) with tags := Vector.replicate 16 .free } := fun sl => by
      obtain ⟨gained, tags, ha, hp⟩ := recordsWithdrawn_agent p s (agentOf p sl)
      obtain ⟨rfl, rfl⟩ := hp (portOf_agentOf p sl)
      rw [withdrawn_agent, ha, List.append_nil]
    refine ⟨_, exec_withdraw_eq htaken, withdrawn_keeps p s, hown, fun sl g => ?_, fun a => ?_,
      fun _ k l hl hk => ?_, withdrawn_own_port p s hd, fun q hq => withdrawn_other_port p s hq, ?_,
      fun i h2 h3 h5 hi => ?_, withdrawn_calm p s⟩
    · rw [State.tag, hown]; simp [Vector.get_eq_getElem]
    · obtain ⟨gained, tags, ha, -⟩ := recordsWithdrawn_agent p s a
      rw [withdrawn_agent, ha]
      exact ⟨rfl, gained, rfl⟩
    · exact withdrawn_lease p s hl fun ⟨w, e, hw, he⟩ => hk w e hw he
    · rw [withdrawn_events p s hd (by omega) (by omega) (by omega)]; simp
    · rw [withdrawn_events p s hd h2 h3 h5]; simp [hi]
  · intro s p n w rec e hok htaken hpart hrecords hq hs hh hw hn hp
    subst hn
    have hv := startWithdraw_taken p s
    have hw' : tableGet (startWithdraw p s).waits w = some e := by rw [hv.waits, hw]
    have hr' : tableGet (startWithdraw p s).records e.record = some rec := by
      rw [hv.records, hrecords]; simp [tableGet]
    have hwithdrawn := withdrawn_single hrecords (withdrawRecord_waiter hw' hr' hq hs hh hp) (by simpa using hpart)
    have hV := (view_withdrawEnded p _).trans (congrArg (View.freePort p) (view_removeWait_silent hw' hr'))
    rw [hv.view] at hV
    have hT := (view_endItem s _).trans hV
    have reads := reads_of_view hT
    obtain ⟨hreplies, hports⟩ := endItem_withdrawEnded_ports (removeWait_silent_ports w (startWithdraw p s))
    refine ⟨_, hwithdrawn ▸ exec_withdraw_eq htaken, ?_, ?_, fun j hj => ?_, ?_, fun j hj => ?_, ?_, fun j hj => ?_,
      ?_, by simp, by simp, by simp, ?_, endItem_countsPublished (by simp), hreplies, hports,
      freePort_tag hT hp _⟩
    · simp [endItem_tables, removeWait_records_eq hw', updRecord_single (hv.records.trans hrecords), hq]
    · simp [reads, View.freePort]
    · simp [reads, View.freePort, hj]
    · simp [reads, View.freePort]
    · simp [reads, View.freePort, hj]
    · simp [reads, View.freePort]
    · simp [reads, View.freePort, hj]
    · simp [reads, View.freePort]
    · rw [marks_of_view hT]; simp [View.freePort]
  · intro s p n rec u l hok htaken hpart hrecords hq hs hh hl hp
    have hv := startWithdraw_taken p s
    have hr' : tableGet (startWithdraw p s).records n = some rec := by rw [hv.records, hrecords]; simp [tableGet]
    have hl' : leaseAt (startWithdraw p s) u.lease.num = some l := (hv.leaseAt _).trans hl
    have hwithdrawn := withdrawn_single hrecords (withdrawRecord_upgrade hr' hq hs hh hl' hp) (by simpa using hpart)
    have hV := (view_withdrawEnded p _).trans (congrArg (View.freePort p) (view_dropUpgrade_silent hr' hs hl'))
    have hT := (view_endItem s _).trans hV
    have hM := ((Compares.none hv.view hv.now).trans (dropUpgrade_silent_compares hr' hs hl')).trans
      (withdrawEnded_compares p _)
    obtain ⟨hreplies, hports⟩ := endItem_withdrawEnded_ports (dropUpgrade_silent_ports n (startWithdraw p s))
    have hcount : ∀ k, poolCount (withdrawEnded p (dropUpgrade n none (startWithdraw p s))) k = poolCount s k :=
      poolCounts_of_lengths (by simpa using
        dropUpgrade_records_length (v := startWithdraw p s) (by simpa using (tables_rising hok).1) n none)
        (by simp) (by simp)
    refine ⟨_, hwithdrawn ▸ exec_withdraw_eq htaken, ?_, by simp [endItem_tables], by simp [endItem_tables],
      by simp [endItem_tables], by simp [endItem_tables], by simp, by simp, by simp,
      hM.marksCompared (view_endItem s _) (by simp), endItem_pools (by simp) hcount, hreplies, hports,
      freePort_tag hT hp _⟩
    simp [endItem_tables, dropUpgrade_records_eq hr' hs, updRecord_single (hv.records.trans hrecords)]

end Sys2Proof.Machine
end

section
/-! The values of the registers, and no offer in HALTED, which every step keeps (04, R73; 07, R130, R140; 08, R144;
11, R198, R199). -/

namespace Sys2Proof.Machine

/-- Changes that leave EVENTS, EVENT_ENABLE and the tick period, each agent's quota, each pool's marks in order and no
new offer in HALTED keep the register law. -/
theorem RegisterLaw.of_kept {s t : State} (h : RegisterLaw s) (hevents : t.events = s.events)
    (henable : t.eventEnable = s.eventEnable) (hperiod : t.tickPeriod = s.tickPeriod)
    (hquota : ∀ a, (t.agent a).quota = (s.agent a).quota) (hpool : ∀ k, poolOk k (t.pool k) = poolOk k (s.pool k))
    (hoffer : t.part = .halted → t.offered = none ∨ (s.part = .halted ∧ t.offered = s.offered)) : RegisterLaw t := by
  obtain ⟨he, hn, hp, hq, hk, ho⟩ := h
  refine ⟨by rwa [hevents], by rwa [henable], by rwa [hperiod], fun a => by rw [hquota]; exact hq a,
    fun k => by rw [hpool]; exact hk k, fun ht => ?_⟩
  rcases hoffer ht with hnone | ⟨hs, hsame⟩
  · exact hnone
  · rw [hsame, ho hs]

/-- Changes that leave the pools, the part state and the offer too. -/
theorem RegisterLaw.of_same {s t : State} (h : RegisterLaw s) (hevents : t.events = s.events)
    (henable : t.eventEnable = s.eventEnable) (hperiod : t.tickPeriod = s.tickPeriod)
    (hquota : ∀ a, (t.agent a).quota = (s.agent a).quota) (hpools : t.pools = s.pools) (hpart : t.part = s.part)
    (hoffer : t.offered = s.offered) : RegisterLaw t :=
  h.of_kept hevents henable hperiod hquota (fun k => by cases k <;> simp [State.pool, hpools])
    fun ht => .inr ⟨hpart ▸ ht, hoffer⟩

/-- Every event has its flag at a position of EVENTS that holds one (11, Table 11-4). -/
theorem eventBit_writable (e : Event) : atBit (eventBit e) 1 &&& ~~~Config.eventMask = 0#32 := by
  cases e with
  | linkChange p | linkFault p => revert p; decide
  | pressure k => cases k <;> decide
  | cmdDone | cmdOverrun | cmdSuperseded | partState | autoFence | tokenEnd => decide

/-- A lease granted is listed by its agent, whose quota stays (04, R73). -/
theorem grantLease_quota (n k : Nat) (a : Agent) (m : Mode) (ticks : Nat) (s : State) (b : Agent) :
    ((grantLease n k a m ticks s).agent b).quota = (s.agent b).quota := by
  unfold grantLease
  split
  · rfl
  · simp only [State.agent, recompare_keeps, listLease, updAgent, vector_get_set]
    split
    · rename_i hb; rw [hb]
    · rfl

/-- Every move keeps the registers within their values: a write of EVENTS, EVENT_ENABLE, the tick period, a quota or a
pool's marks carries a value in range, and no other move touches them. -/
theorem Move.registerLaw {s t : State} (m : Move s t) (h : RegisterLaw s) : RegisterLaw t := by
  cases m with
  | quiet q =>
    obtain ⟨-, -, -, -, -, -, hevents, henable, hperiod, hquota, hpool, hoffer⟩ := q
    exact h.of_kept hevents henable hperiod hquota hpool hoffer
  | event e s =>
    obtain ⟨he, hrest⟩ := h
    refine ⟨?_, hrest⟩
    rw [postEvent, BitVec.and_or_distrib_right, he, eventBit_writable]; rfl
  | flags v s =>
    obtain ⟨he, hrest⟩ := h
    refine ⟨?_, hrest⟩
    rw [BitVec.and_assoc, BitVec.and_comm v, ← BitVec.and_assoc, he, BitVec.zero_and]
  | enables v s =>
    obtain ⟨he, -, hrest⟩ := h
    exact ⟨he, by rw [BitVec.and_assoc]; simp, hrest⟩
  | period v s hv =>
    obtain ⟨he, hn, -, hrest⟩ := h
    exact ⟨he, hn, hv, hrest⟩
  | quota a q s hq =>
    obtain ⟨he, hn, hp, hquota, hrest⟩ := h
    refine ⟨he, hn, hp, fun b => ?_, hrest⟩
    rw [updAgent_agent]
    split
    · exact hq
    · exact hquota b
  | pool k p s hk =>
    obtain ⟨he, hn, hp, hquota, hpool, hoffer⟩ := h
    refine ⟨by simpa using he, by simpa using hn, by simpa using hp, fun a => ?_, fun l => ?_, by simpa using hoffer⟩
    · rw [agent_congr (s := s) (by simp)]; exact hquota a
    · rw [updPool_pool]
      split
      · rename_i hl; subst hl; exact hk (hpool l)
      · exact hpool l
  | grant n k a m ticks s ht hk hc =>
    exact h.of_same (by simp) (by simp) (by simp) (grantLease_quota n k a m ticks s) (by simp) (by simp) (by simp)
  | raise | port | record | create | retire | upgrade | lease | reserve | free | wait | unwait =>
    exact h.of_same (by simp [newRecord]) (by simp [newRecord]) (by simp [newRecord])
      (fun a => by rw [agent_congr (s := s) (by simp [newRecord])]) (by simp [newRecord]) (by simp [newRecord])
      (by simp [newRecord])

/-- Settles O9: a step idles, resets every register, or is a chain of moves, and every move keeps the registers. -/
theorem everyStepKeepsTheRegisters : Obligations.EveryStepKeepsTheRegisters := by
  intro s t hlock hreg h
  rcases step_cases h with rfl | ⟨rest, -, h⟩ | ⟨c, rest, -, hc, h⟩
  · exact hreg
  · obtain rfl := next_inj h
    obtain ⟨-, -, -, hreset⟩ := resetMeetsTheLaws
    exact hreset.of_same rfl rfl rfl (fun _ => rfl) rfl rfl rfl
  · exact exec_keeps (fun _ _ _ m => m.registerLaw) hc h hlock.1 hreg

end Sys2Proof.Machine
end

section
/-! The domain lookup and the admission stages 1 to 7 (04, R69, R75 to R81; 10, R171, R173). -/

namespace Sys2Proof.Machine

/-! ### The domain lookup -/

/-- An entry is hit by a key: it is valid, and its masked base equals the masked key (04, R69). -/
theorem domainMatches_iff (d : Domain) (key : Key) :
    domainMatches d key = true ↔ d.valid = true ∧ key &&& d.mask = d.base &&& d.mask := by
  simp [domainMatches]

/-- The lookup is a search through the indices in increasing order (04, R69). -/
theorem lookupDomain_eq_find (s : State) (key : Key) :
    lookupDomain s key = Fin.find? fun i => domainMatches (s.domain i) key := by
  have hall : allDomains = List.finRange 16 := by decide
  rw [lookupDomain, hall, Fin.find?_eq_find?_finRange]

theorem lookupDomain_eq_some {s : State} {key : Key} {i : Fin 16} : lookupDomain s key = some i ↔
    domainMatches (s.domain i) key = true ∧ ∀ j, j < i → domainMatches (s.domain j) key = false := by
  rw [lookupDomain_eq_find, Fin.find?_eq_some_iff]

theorem lookupDomain_eq_none {s : State} {key : Key} :
    lookupDomain s key = none ↔ ∀ i, domainMatches (s.domain i) key = false := by
  rw [lookupDomain_eq_find, Fin.find?_eq_none_iff]

/-- Without an entry for the key stage 6 answers NO_DOMAIN (04, R71). -/
theorem stage67_noDomain {s : State} {key : Key} (h : lookupDomain s key = none) (a : Agent) (m : Option Mode) :
    stage67 s a key m = some .noDomain := by rw [stage67, h]

/-- Settles O14: the lookup is the first hit of a search by index, and stage 6 answers where there is none. -/
theorem domainLookupIsFirstMatch : Obligations.DomainLookupIsFirstMatch := by
  intro s key
  have miss : ∀ i, domainMatches (s.domain i) key = false ↔ ¬ ((s.domain i).valid = true
      ∧ key &&& (s.domain i).mask = (s.domain i).base &&& (s.domain i).mask) := fun i => by
    rw [← domainMatches_iff, Bool.not_eq_true]
  refine ⟨fun i => ?_, ?_, fun hnone => stage67_noDomain (lookupDomain_eq_none.2 fun i => (miss i).2 (hnone i))⟩
  · simp only [lookupDomain_eq_some, domainMatches_iff, miss]
  · simp only [lookupDomain_eq_none, miss]

/-! ### Stages 3 to 7 -/

/-- A FREE tag is not busy (04, R77). -/
theorem tagIsBusy_iff (s : State) (p : Port) (r : Request) :
    tagIsBusy s p r = true ↔ s.tag (senderOf p r) r.tag ≠ .free := by simp [tagIsBusy]

section
variable {s : State} {a : Agent} {k : Kind} {r : Request}

/-- Stage 3: only an ACTIVE agent is admitted (04, R78). -/
theorem stageFailure_notAdmitted (h : (s.agent a).state = .disabled) : stageFailure s a k r = some .notAdmitted := by
  simp [stageFailure, h]

theorem stageFailure_fenced (h : (s.agent a).state = .fencing ∨ (s.agent a).state = .fenced) :
    stageFailure s a k r = some .fenced := by
  rcases h with h | h <;> simp [stageFailure, h]

/-- Stage 4: the epoch of every kind but JOIN (04, R79). -/
theorem stageFailure_staleEpoch (h : (s.agent a).state = .active) (hk : k ≠ .join)
    (he : r.epoch ≠ (s.agent a).epoch) : stageFailure s a k r = some .staleEpoch := by
  simp [stageFailure, h, hk, he]

/-- A request of an ACTIVE agent that passes stage 4 is held to the part state and its key's stages (04, R80, R81). -/
theorem stageFailure_entered (h : (s.agent a).state = .active ∧ (k = .join ∨ r.epoch = (s.agent a).epoch)) :
    stageFailure s a k r = (stage5 s.part k).or (keyStages s a k r) := by
  obtain ⟨hactive, hepoch⟩ := h
  have hpass : ¬ (k ≠ .join ∧ r.epoch ≠ (s.agent a).epoch) := by tauto
  rw [stageFailure, hactive]
  simp only [hpass, if_false]
  cases stage5 s.part k <;> rfl

/-- Stage 5: HALTED and ABORTING refuse every kind but JOIN (04, R80). -/
theorem stage5_halted {x : PartState} (hk : k ≠ .join) (h : x = .halted ∨ x = .aborting) :
    stage5 x k = some .halted := by
  rcases h with rfl | rfl <;> cases k <;> simp_all [stage5]

/-- Stage 5: QUIESCING refuses ACQUIRE and UPGRADE (04, R80). -/
theorem stage5_quiesced (h : k = .acquire ∨ k = .upgrade) : stage5 .quiescing k = some .quiesced := by
  rcases h with rfl | rfl <;> rfl

/-- Stages 6 and 7 apply to an ACQUIRE in RUNNING and to a QUERY while the part serves (04, R80, R81). -/
theorem keyStages_reached
    (h : k = .acquire ∧ s.part = .running ∨ k = .query ∧ (s.part = .running ∨ s.part = .quiescing)) :
    stage5 s.part k = none
      ∧ keyStages s a k r = stage67 s a r.key (if k = .acquire then modeOfByte r.mode else none) := by
  rcases h with ⟨rfl, hp⟩ | ⟨rfl, hp | hp⟩ <;> rw [hp] <;> exact ⟨rfl, rfl⟩

/-- Stage 7: an agent outside the domain's set (04, R71). -/
theorem stage67_agentDenied {d : Fin 16} {key : Key} (h : lookupDomain s key = some d)
    (ha : (s.domain d).agents.getLsbD a.val = false) (m : Option Mode) : stage67 s a key m = some .denied := by
  rw [stage67, h]
  exact if_pos ha

/-- Stage 7: SHARED in a domain of exclusive use alone (04, R72). -/
theorem stage67_modeDenied {d : Fin 16} {key : Key} (h : lookupDomain s key = some d) (hx : (s.domain d).modes = 1#2) :
    stage67 s a key (some .shared) = some .denied := by
  simp [stage67, h, xOnly, hx]

end

/-- Settles O15: the first stage that fails gives the status, and its reply is all that the request does. -/
theorem admissionStagesRefuseInOrder : Obligations.AdmissionStagesRefuseInOrder := by
  intro s p r k st htaken hstage1 htag a g entered looks hfails
  have hfree : tagIsBusy s p r = false := by simpa [tagIsBusy] using htag
  have at_key : looks → ∀ st, stage67 s a r.key (if k = .acquire then modeOfByte r.mode else none) = some st →
      stageFailure s a k r = some st := fun hl st h67 => by
    obtain ⟨h5, hkey⟩ := keyStages_reached (a := a) (r := r) hl.2
    rw [stageFailure_entered hl.1, h5, hkey, h67]; rfl
  have hfailure : stageFailure s a k r = some st := by
    rcases hfails with ⟨h, rfl⟩ | ⟨h, rfl⟩ | ⟨h, hk, he, rfl⟩ | ⟨h, hk, hp, rfl⟩ | ⟨h, hk, hp, rfl⟩ | ⟨h, hd, rfl⟩
      | ⟨h, ⟨d, hd, ha⟩, rfl⟩ | ⟨h, rfl, hm, ⟨d, hd, hx⟩, rfl⟩
    · exact stageFailure_notAdmitted h
    · exact stageFailure_fenced h
    · exact stageFailure_staleEpoch h hk he
    · rw [stageFailure_entered h, stage5_halted hk hp]; rfl
    · rw [stageFailure_entered h, hp, stage5_quiesced hk]; rfl
    · exact at_key h _ (stage67_noDomain hd a _)
    · exact at_key h _ (stage67_agentDenied hd ha _)
    · exact at_key h _ (by simpa [hm, modeOfByte] using stage67_modeDenied hd hx)
  exact ⟨_, exec_refused_at_a_stage htaken hstage1 hfree hfailure, answeredOnly_of_reply s p r st {}⟩

/-! ### Stages 1 and 2 -/

/-- A request of an unknown kind, taken, runs on the state its take leaves (04, R76). -/
theorem exec_malformed {s : State} {p : Port} {r : Request} (h : takenRequest s = some (p, r))
    (hk : kindOf r.kind = none) :
    exec .malformed s = .next (runItem (beginRequest p r) (requestWork p r fun _ _ s => s) s) := by
  have harm : exec .malformed s = execMalformed s := rfl
  rw [harm, execMalformed, takeRequest, h]
  simp [hk]

theorem stage1_unknown {r : Request} (h : kindOf r.kind = none) : stage1 r = none := by rw [stage1, h]

theorem stage1_known {r : Request} {k : Kind} (h : kindOf r.kind = some k) :
    stage1 r = if fieldsInRange r k then some k else none := by rw [stage1, h]

/-- A request that fails stage 1 on a FREE tag is answered MALFORMED, and changes nothing else (04, R76). -/
theorem runItem_malformed {s : State} {p : Port} {r : Request} (behave : Agent → Request → State → State)
    (h1 : stage1 r = none) (hfree : s.tag (senderOf p r) r.tag = .free) :
    AnsweredOnly s p r .malformed {} (runItem (beginRequest p r) (requestWork p r behave) s) := by
  have hbusy : tagIsBusy (withHanded [] (beginRequest p r s)) p r = false := by
    rw [tagIsBusy_congr (s := s) (by simp)]; simpa [tagIsBusy] using hfree
  have hwork : requestWork p r behave (withHanded [] (beginRequest p r s))
      = reply (senderOf p r) r .malformed {} (startRequest p r s) := by
    simp [requestWork, h1, hbusy, startRequest]
  rw [runItem, hwork]
  exact answeredOnly_of_reply s p r .malformed {}

/-- The first entry that an item hands a port, a reply that belongs to no tag, is queued at the port as it stands, and
no free value is drawn (09, R157; 10, R173). -/
theorem answerNoTag_first {a : Agent} {v : State} (hv : portOf a ∉ v.handed) (t : Tag) (kind : Byte) (st : Status) :
    RepliesQueued v (answerNoTag a t kind st v) (portOf a) [⟨.credit, slotOf a, t, st, kind, {}⟩]
      ∧ (answerNoTag a t kind st v).freeDraws = v.freeDraws := by
  have hport := handPort_first hv .reply fun q =>
    { q with replyQ := q.replyQ ++ [⟨.credit, slotOf a, t, st, kind, {}⟩] }
  refine ⟨⟨(hport _).trans ?_, fun q hq => (hport q).trans (by simp [hq])⟩, ?_⟩
  · by_cases hd : (v.port (portOf a)).link = .down <;> simp [hd]
  · unfold answerNoTag placeReply handPort
    split
    · rfl
    · simp [portGoesOn_quiet hv, noteHanded]

/-- The ports alone say what replies they have queued. -/
theorem RepliesQueued.of_ports {s t s' t' : State} {p : Port} {l : List Reply} (h : RepliesQueued s t p l)
    (hs : s'.ports = s.ports) (ht : t'.ports = t.ports) : RepliesQueued s' t' p l := by
  obtain ⟨hp, hq⟩ := h
  exact ⟨by rwa [port_congr hs, port_congr ht], fun q hne => by rw [port_congr hs, port_congr ht, hq q hne]⟩

/-- A reply that belongs to no tag, as the first entry of an item, is all that the item does (10, R171, R173). -/
theorem rejectedWithoutTag_of_reply (s : State) (p : Port) (r : Request) (st : Status) :
    RejectedWithoutTag s p r st (withHanded s.handed
      (finishItem s (answerNoTag (senderOf p r) r.tag r.kind st (withHanded [] (beginRequest p r s))))) := by
  have hhanded : portOf (senderOf p r) ∉ (withHanded [] (beginRequest p r s)).handed := by simp [withHanded]
  obtain ⟨hqueued, hdraws⟩ := answerNoTag_first hhanded r.tag r.kind st
  simp only [senderOf, portOf_agentOf, slotOf_agentOf] at hqueued
  have hcount : ∀ k, poolCount (answerNoTag (senderOf p r) r.tag r.kind st (withHanded [] (beginRequest p r s))) k
      = poolCount s k := fun k => by cases k <;> simp [poolCount]
  rw [finishItem_steady (fun a => by rw [agent_congr (s := s) (by simp)]) (by simp) (by simp) hcount]
  have hpools := endItem_pools (by simp) hcount
  refine ⟨?_, endItem_offerStands (by simp), hqueued.of_ports (by simp) (by simp [senderOf])⟩
  apply State.ext <;> simp [endItem_tables, hpools, hdraws]

/-- A request on a tag that is not FREE is answered by stage 1 or 2 without the tag (04, R76, R77). -/
theorem runItem_rejected {s : State} {p : Port} {r : Request} (behave : Agent → Request → State → State)
    (hbusy : s.tag (senderOf p r) r.tag ≠ .free) :
    RejectedWithoutTag s p r (if (stage1 r).isSome then .tagBusy else .malformed)
      (runItem (beginRequest p r) (requestWork p r behave) s) := by
  have hbusy' : tagIsBusy (withHanded [] (beginRequest p r s)) p r = true := by
    rw [tagIsBusy_congr (s := s) (by simp), tagIsBusy_iff]; exact hbusy
  have hwork : requestWork p r behave (withHanded [] (beginRequest p r s))
      = answerNoTag (senderOf p r) r.tag r.kind (if (stage1 r).isSome then .tagBusy else .malformed)
          (withHanded [] (beginRequest p r s)) := by
    cases h1 : stage1 r <;> simp [requestWork, h1, hbusy']
  rw [runItem, hwork]
  exact rejectedWithoutTag_of_reply ..

/-- Settles O16: stages 1 and 2, on a FREE tag and on one that is not. -/
theorem malformedAndBusyRequests : Obligations.MalformedAndBusyRequests := by
  refine ⟨fun s p r htaken hkind => ⟨_, exec_malformed htaken hkind, fun hfree => ?_, fun hbusy => ?_⟩,
    fun s p r k htaken hkind => ⟨fun hfields hfree => ⟨_, exec_rowOf htaken hkind, ?_⟩,
      fun hbusy => ⟨_, exec_rowOf htaken hkind, ?_⟩⟩⟩
  · exact runItem_malformed _ (stage1_unknown hkind) hfree
  · simpa [stage1_unknown hkind] using runItem_rejected (fun _ _ s => s) hbusy
  · exact runItem_malformed _ (by rw [stage1_known hkind, hfields]; rfl) hfree
  · have hstage1 : (stage1 r).isSome = fieldsInRange r k := by
      rw [stage1_known hkind]; cases fieldsInRange r k <;> rfl
    simpa only [hstage1] using runItem_rejected (behaviourOf k) hbusy

end Sys2Proof.Machine
end

section
/-! Management words bit by bit: a field placed in a word, and two fields that fill one (11, Table 11-5). -/

namespace Sys2Proof.Machine

/-- The bits of a field placed in a management word. -/
theorem atBit_getLsbD {n : Nat} (lo : Nat) (x : BitVec n) (i : Nat) :
    (atBit lo x.toNat).getLsbD i = (decide (i < 32) && decide (lo ≤ i) && x.getLsbD (i - lo)) := by
  rw [atBit, BitVec.ofNat_toNat, BitVec.getLsbD_shiftLeft, BitVec.getLsbD_setWidth]
  grind

/-- A flag is a field of one bit. -/
theorem flagAt_eq (lo : Nat) (b : Bool) : flagAt lo b = atBit lo (BitVec.ofBool b).toNat := by
  cases b <;> simp [flagAt, atBit]

/-- Two fields of 16 bits fill a word. -/
theorem atBit_or_atBit (high low : BitVec 16) : atBit 0 low.toNat ||| atBit 16 high.toNat = high ++ low := by
  refine BitVec.eq_of_getLsbD_eq fun i hi => ?_
  rw [BitVec.getLsbD_or, atBit_getLsbD, atBit_getLsbD, BitVec.getLsbD_append]
  by_cases h : i < 16
  · simp [h, hi]
  · simp [h, hi, Nat.not_lt.1 h]

/-- Two words joined give each back. -/
theorem highWord_joinWords (high low : Word) : highWord (joinWords high low) = high :=
  BitVec.extractLsb'_append_eq_left

theorem lowWord_joinWords (high low : Word) : lowWord (joinWords high low) = low :=
  BitVec.extractLsb'_append_eq_right

/-- The index, the flags and the codes of a domain entry fill ARG0 but for its unused bits (11, Table 11-5). -/
theorem domainHeader_eq (w : Word) :
    atBit 0 (bitField w 0 8) ||| flagAt 8 (w.getLsbD 8) ||| flagAt 9 (w.getLsbD 9)
      ||| atBit 12 (w.extractLsb' 12 2).toNat ||| atBit 14 (w.extractLsb' 14 2).toNat = w &&& 0x0000F3FF#32 := by
  refine BitVec.eq_of_getLsbD_eq fun i hi => ?_
  simp only [bitField, flagAt_eq, BitVec.getLsbD_or, atBit_getLsbD, BitVec.getLsbD_extractLsb', BitVec.getLsbD_and]
  interval_cases i <;> simp

/-- The wait cap and the queue limit fill ARG7 but for its unused bits (11, Table 11-5). -/
theorem domainLimits_eq (w : Word) :
    atBit 16 (w.extractLsb' 16 16).toNat ||| atBit 0 (w.extractLsb' 0 8).toNat = w &&& 0xFFFF00FF#32 := by
  refine BitVec.eq_of_getLsbD_eq fun i hi => ?_
  simp only [BitVec.getLsbD_or, atBit_getLsbD, BitVec.getLsbD_extractLsb', BitVec.getLsbD_and]
  interval_cases i <;> simp

end Sys2Proof.Machine
end

section
/-! A command that writes the domain table, the agents or the marks, and completes in its take (11, R191). -/

namespace Sys2Proof.Machine

/-- From `v` to `u` the domain table, the agent bank and the marks alone are written, and no lease list. -/
structure BanksWritten (v u : State) : Prop where
  rest : u = { v with domains := u.domains, agents := u.agents, marks := u.marks }
  leases : ∀ a, (u.agent a).leases = (v.agent a).leases

theorem BanksWritten.refl (v : State) : BanksWritten v v := ⟨rfl, fun _ => rfl⟩

theorem BanksWritten.keeps {v u : State} (h : BanksWritten v u) :
    u.now = v.now ∧ u.tickPeriod = v.tickPeriod ∧ u.tickPos = v.tickPos ∧ u.offered = v.offered ∧
    u.records = v.records ∧ u.leases = v.leases ∧ u.gens = v.gens ∧ u.waits = v.waits ∧ u.token = v.token ∧
    u.seeded = v.seeded ∧ u.part = v.part ∧ u.sweep = v.sweep ∧ u.outer = v.outer ∧ u.inner = v.inner ∧
    u.chosen = v.chosen ∧ u.pools = v.pools ∧ u.ports = v.ports ∧ u.mbox = v.mbox ∧ u.args = v.args ∧
    u.res = v.res ∧ u.events = v.events ∧ u.eventEnable = v.eventEnable ∧ u.nowLatch = v.nowLatch ∧
    u.spiData = v.spiData ∧ u.handed = v.handed ∧ u.freeDraws = v.freeDraws ∧ u.pending = v.pending := by
  rw [h.rest]; simp

/-- What the end of a command that wrote these banks leaves: they are as written, and the command has completed. -/
structure CommandDone (s u t : State) (res : CmdResult) (words : List Word) : Prop where
  rest : t = { beginCommand s with domains := t.domains, agents := t.agents, marks := t.marks, mbox := t.mbox,
                                   res := t.res, events := t.events, offered := t.offered }
  domains : t.domains = u.domains
  agents : t.agents = u.agents
  marks : t.marks = u.marks
  now : t.now = u.now
  view : view t = view u
  offer : OfferStands (beginCommand s) t
  completes : Completes s t res words

/-- A command taken whose work writes these banks and completes: what is left is the take and the clock's offer. -/
theorem commandDone {s u : State} {c : Byte} (h : takenCommand s = some c) (hu : BanksWritten (startCommand s) u)
    (res : CmdResult) (words : List Word) (hw : res ≠ .ok → words = []) :
    CommandDone s u (withHanded s.handed (finishItem s (completeTaken c res words u))) res words := by
  have hkeeps := hu.keeps
  have hlists : ∀ a, ((completeCmd res words u).agent a).leases = (s.agent a).leases := fun a => by
    rw [agent_congr (s := u) (by simp), hu.leases, (startCommand_taken s).agent]
  have hcount : ∀ k, poolCount (completeCmd res words u) k = poolCount s k := fun k => by
    cases k <;> simp [poolCount, hkeeps]
  rw [completeTaken_pending res words (by simpa [hkeeps] using mbox_of_takenCommand h),
    finishItem_steady hlists (by simp [hkeeps]) (by simp [hkeeps]) hcount]
  have hpools := endItem_pools (by simp [hkeeps]) hcount
  refine ⟨?_, by simp, by simp [endItem_tables], by simp [endItem_tables], by simp, by simp,
    endItem_offerStands (by simp [hkeeps]), completes_of_completeCmd hw (u := u) (by simp [hkeeps])
      (by simp [hkeeps]) (by simp) (by simp) (by simp)⟩
  apply State.ext <;> simp [endItem_tables, hpools, hkeeps]

end Sys2Proof.Machine
end

section
/-! SET_DOMAIN and GET_DOMAIN (04, R67, R68). -/

namespace Sys2Proof.Machine

/-- SET_DOMAIN taken runs on the state its take leaves (04, R68). -/
theorem exec_setDomain {s : State} (h : takenCommand s = some 1#8) : exec .setDomain s
    = .next (withHanded s.handed (finishItem s (setDomainWork 1#8 (startCommand s)))) := by
  have harm : exec .setDomain s = execSetDomain s := rfl
  rw [harm, execSetDomain, takeCommand_taken h rfl]; rfl

/-- GET_DOMAIN taken runs on the state its take leaves (04, R67). -/
theorem exec_getDomain {s : State} (h : takenCommand s = some 2#8) : exec .getDomain s
    = .next (withHanded s.handed (finishItem s (getDomainWork 2#8 (startCommand s)))) := by
  have harm : exec .getDomain s = execGetDomain s := rfl
  rw [harm, execGetDomain, takeCommand_taken h rfl]; rfl

/-- The arguments of a command taken are those latched in the mailbox (11, R191). -/
theorem argWord_startCommand (s : State) (i : Fin 8) : argWord (startCommand s) i = argWord s i := by simp [argWord]

theorem argDomain_startCommand (s : State) : argDomain (startCommand s) = argDomain s := by
  simp [argDomain, argPair, argWord_startCommand]

/-- The index that an argument field names (04, R67). -/
theorem domainOfNat_index {n : Nat} {i : Fin 16} (h : n = i.val) : domainOfNat n = some i := by
  subst h; exact dif_pos i.isLt

theorem domainOfNat_none {n : Nat} (h : 16 ≤ n) : domainOfNat n = none := dif_neg (by omega)

/-- The values that a valid entry may hold, as the rule lists them (04, R68). -/
theorem domainValuesOk_iff (d : Domain) : domainValuesOk d = true ↔
    1 ≤ d.leaseDefault.toNat ∧ d.leaseDefault.toNat ≤ d.leaseMax.toNat ∧ 1 ≤ d.waitCap.toNat
      ∧ 1 ≤ d.queueLimit.toNat ∧ d.queueLimit.toNat ≤ 64 ∧ (d.modes = 1#2 ∨ d.modes = 2#2)
      ∧ (d.policy = 1#2 ∨ d.policy = 2#2) := by
  simp only [domainValuesOk, Bool.and_eq_true, decide_eq_true_iff]
  constructor
  · rintro ⟨⟨⟨⟨⟨⟨h1, -⟩, h2⟩, h3⟩, h4, h5⟩, h6⟩, h7⟩
    exact ⟨h1, h2, h3, h4, h5, h6, h7⟩
  · rintro ⟨h1, h2, h3, h4, h5, h6, h7⟩
    exact ⟨⟨⟨⟨⟨⟨h1, h1.trans h2⟩, h2⟩, h3⟩, h4, h5⟩, h6⟩, h7⟩

/-! ### SET_DOMAIN's work -/

section
variable {c : Byte} {v : State}

theorem setDomainWork_notHalted (h : v.part ≠ .halted) :
    setDomainWork c v = completeTaken c .notHalted [] v := if_pos h

theorem setDomainWork_badIndex (h : v.part = .halted) (hi : 16 ≤ bitField (argWord v 0) 0 8) :
    setDomainWork c v = completeTaken c .invalid [] v := by
  simp [setDomainWork, h, domainOfNat_none hi]

variable {i : Fin 16} (h : v.part = .halted) (hi : bitField (argWord v 0) 0 8 = i.val)
include h hi

theorem setDomainWork_badValues (hd : (argDomain v).valid = true) (hbad : domainValuesOk (argDomain v) = false) :
    setDomainWork c v = completeTaken c .invalid [] v := by
  simp [setDomainWork, h, domainOfNat_index hi, hd, hbad]

theorem setDomainWork_stored (hd : (argDomain v).valid = true → domainValuesOk (argDomain v) = true) :
    setDomainWork c v
      = completeTaken c .ok [] { v with domains := v.domains.set i.val (argDomain v) i.isLt } := by
  have hgood : ¬ ((argDomain v).valid = true ∧ domainValuesOk (argDomain v) = false) := fun hx => by
    simp [hd hx.1] at hx
  simp only [setDomainWork, h, domainOfNat_index hi, hgood]
  simp

end

/-- All that SET_DOMAIN's work can do: complete with no word, with some domain table (04, R68). -/
theorem setDomainWork_cases (c : Byte) (v : State) :
    ∃ res domains, setDomainWork c v = completeTaken c res [] { v with domains := domains } := by
  unfold setDomainWork
  split
  · exact ⟨_, v.domains, rfl⟩
  · split
    · exact ⟨_, v.domains, rfl⟩
    · dsimp only
      split
      · exact ⟨_, v.domains, rfl⟩
      · exact ⟨_, _, rfl⟩

theorem banksWritten_domains (v : State) (domains : Vector Domain 16) :
    BanksWritten v { v with domains := domains } := ⟨rfl, fun _ => rfl⟩

/-- A command that has written the domain table at most. -/
theorem CommandDone.rest_domains {s t : State} {domains : Vector Domain 16} {res : CmdResult} {words : List Word}
    (h : CommandDone s { startCommand s with domains := domains } t res words) :
    t = { beginCommand s with domains := t.domains, mbox := t.mbox, res := t.res, events := t.events,
                              offered := t.offered } := by
  have hrest := h.rest
  have hagents : t.agents = (beginCommand s).agents := h.agents
  have hmarks : t.marks = (beginCommand s).marks := h.marks
  rwa [hagents, hmarks] at hrest

/-- The state that SET_DOMAIN's item leaves. -/
def domainItem (s : State) : State := withHanded s.handed (finishItem s (setDomainWork 1#8 (startCommand s)))

section
variable {s : State} (h : takenCommand s = some 1#8) {res : CmdResult}
include h

theorem domainItem_done {domains : Vector Domain 16}
    (hwork : setDomainWork 1#8 (startCommand s) = completeTaken 1#8 res [] { startCommand s with domains := domains }) :
    CommandDone s { startCommand s with domains := domains } (domainItem s) res [] := by
  rw [domainItem, hwork]
  exact commandDone h (banksWritten_domains _ _) res [] fun _ => rfl

theorem domainItem_refused
    (hwork : setDomainWork 1#8 (startCommand s) = completeTaken 1#8 res [] (startCommand s)) :
    (domainItem s).domains = s.domains ∧ Completes s (domainItem s) res [] :=
  have hdone := domainItem_done h (domains := (startCommand s).domains) hwork
  ⟨hdone.domains.trans (by simp), hdone.completes⟩

theorem domainItem_frame : domainItem s = { beginCommand s with
      domains := (domainItem s).domains, mbox := (domainItem s).mbox, res := (domainItem s).res,
      events := (domainItem s).events, offered := (domainItem s).offered }
    ∧ OfferStands (beginCommand s) (domainItem s) := by
  obtain ⟨res, domains, hwork⟩ := setDomainWork_cases 1#8 (startCommand s)
  have hdone := domainItem_done h hwork
  exact ⟨hdone.rest_domains, hdone.offer⟩

end

/-! ### GET_DOMAIN's work -/

theorem getDomainWork_badIndex {c : Byte} {v : State} (h : 16 ≤ bitField (argWord v 0) 0 8) :
    getDomainWork c v = completeTaken c .invalid [] v := by
  rw [getDomainWork, domainOfNat_none h]

theorem getDomainWork_reported {c : Byte} {v : State} {i : Fin 16} (h : bitField (argWord v 0) 0 8 = i.val) :
    getDomainWork c v = completeTaken c .ok (domainWords i (v.domain i)) v := by
  rw [getDomainWork, domainOfNat_index h]

/-! ### The statement -/

/-- What SET_DOMAIN's arguments spell is reported in the words of those arguments (11, Table 11-5). -/
theorem domainWords_argDomain {s : State} {i : Fin 16} (h : bitField (argWord s 0) 0 8 = i.val) :
    domainWords i (argDomain s) = [argWord s 0 &&& 0x0000F3FF#32, argWord s 1, argWord s 2, argWord s 3, argWord s 4,
      argWord s 5, argWord s 6, argWord s 7 &&& 0xFFFF00FF#32] := by
  simp only [domainWords, argDomain, argPair, highWord_joinWords, lowWord_joinWords, ← h, domainHeader_eq,
    domainLimits_eq, List.cons.injEq, true_and, and_true]
  exact BitVec.extractLsb'_append_extractLsb'

/-- Settles O46: SET_DOMAIN's refusals and its write, GET_DOMAIN's report, and the layout that they share. -/
theorem domainsAreSetAndReported : Obligations.DomainsAreSetAndReported := by
  refine ⟨fun s i htaken => ?_, fun s htaken => ?_, fun s i h => domainWords_argDomain h⟩
  · intro b d inRange
    have hgood : domainValuesOk d = true ↔ inRange := domainValuesOk_iff d
    have hd : argDomain (startCommand s) = d := argDomain_startCommand s
    have hpart : (startCommand s).part = s.part := by simp
    have hargs := argWord_startCommand s 0
    obtain ⟨hrest, hoffer⟩ := domainItem_frame htaken
    refine ⟨domainItem s, exec_setDomain htaken, hrest, hoffer, fun hp => ?_, fun hp hi => ?_, fun hp hi hv hbad => ?_,
      fun hp hi hv => ?_⟩
    · exact domainItem_refused htaken (setDomainWork_notHalted (by rwa [hpart]))
    · exact domainItem_refused htaken (setDomainWork_badIndex (by rwa [hpart]) (by rwa [hargs]))
    · exact domainItem_refused htaken (setDomainWork_badValues (by rwa [hpart]) (by rwa [hargs]) (by rwa [hd])
        (by rw [hd, ← Bool.not_eq_true, hgood]; exact hbad))
    · have hdone := domainItem_done htaken
        (setDomainWork_stored (by rwa [hpart]) (by rwa [hargs]) (by rwa [hd, hgood]))
      have hread : ∀ j, (domainItem s).domain j = if j = i then d else s.domain j := fun j => by
        rw [State.domain, hdone.domains, hd]
        simp only [startCommand_keeps]
        exact vector_get_set ..
      exact ⟨by rw [hread, if_pos rfl], fun j hj => by rw [hread, if_neg hj], hdone.completes⟩
  · intro b
    have hargs := argWord_startCommand s 0
    have hexec := exec_getDomain htaken
    by_cases hbig : 16 ≤ bitField (argWord s 0) 0 8
    · rw [getDomainWork_badIndex (by rwa [hargs])] at hexec
      obtain ⟨hrest, hoffer, hdone⟩ := command_reports htaken .invalid [] fun _ => rfl
      exact ⟨_, hexec, hrest, hoffer, fun _ => hdone, fun i hi => by omega⟩
    · obtain ⟨i, hi⟩ : ∃ i : Fin 16, bitField (argWord s 0) 0 8 = i.val := ⟨⟨_, Nat.not_le.1 hbig⟩, rfl⟩
      rw [getDomainWork_reported (by rw [hargs, hi]), (startCommand_taken s).domain] at hexec
      obtain ⟨hrest, hoffer, hdone⟩ :=
        command_reports htaken .ok (domainWords i (s.domain i)) fun hok => absurd rfl hok
      refine ⟨_, hexec, hrest, hoffer, fun h => absurd h hbig, fun j hj => ?_⟩
      obtain rfl : i = j := Fin.ext (hi.symm.trans hj)
      exact hdone

end Sys2Proof.Machine
end

section
/-! SET_AGENT (06, R109 to R112, Table 6-4). -/

namespace Sys2Proof.Machine

/-- SET_AGENT taken runs on the state its take leaves (06, R110). -/
theorem exec_setAgent {s : State} (h : takenCommand s = some 3#8) : exec .setAgent s
    = .next (withHanded s.handed (finishItem s (setAgentWork 3#8 (startCommand s)))) := by
  have harm : exec .setAgent s = execSetAgent s := rfl
  rw [harm, execSetAgent, takeCommand_taken h rfl]; rfl

/-! ### What its work writes -/

/-- From `v` to `u` one agent's record is written, but for its lease list, and the marks (06, R110, R111). -/
structure AgentWritten (a : Agent) (v u : State) : Prop where
  rest : u = { v with agents := u.agents, marks := u.marks }
  others : ∀ y, y ≠ a → u.agent y = v.agent y
  leases : (u.agent a).leases = (v.agent a).leases

theorem AgentWritten.refl (a : Agent) (v : State) : AgentWritten a v v := ⟨rfl, fun _ _ => rfl, rfl⟩

theorem AgentWritten.trans {a : Agent} {v u w : State} (h : AgentWritten a v u) (h' : AgentWritten a u w) :
    AgentWritten a v w :=
  ⟨by rw [h'.rest, h.rest], fun y hy => (h'.others y hy).trans (h.others y hy), h'.leases.trans h.leases⟩

theorem AgentWritten.domains {a : Agent} {v u : State} (h : AgentWritten a v u) : u.domains = v.domains := by
  rw [h.rest]

theorem AgentWritten.banks {a : Agent} {v u : State} (h : AgentWritten a v u) : BanksWritten v u := by
  refine ⟨?_, fun y => ?_⟩
  · rw [h.domains]; exact h.rest
  · by_cases hy : y = a
    · subst hy; exact h.leases
    · rw [h.others y hy]

/-- An agent's record changed, but for its lease list. -/
theorem updAgent_written (a : Agent) {f : AgentRec → AgentRec} (hf : ∀ g, (f g).leases = g.leases) (v : State) :
    AgentWritten a v (updAgent a f v) :=
  ⟨rfl, fun y hy => by rw [updAgent_agent, if_neg hy], by rw [updAgent_agent, if_pos rfl, hf]⟩

theorem setQuota_written (a : Agent) (q : Nat) (v : State) : AgentWritten a v (setQuota a q v) :=
  updAgent_written a (f := fun g => { g with quota := q }) (fun _ => rfl) v

theorem setQuota_agent (a : Agent) (q : Nat) (v : State) :
    (setQuota a q v).agent a = { v.agent a with quota := q } := by
  rw [setQuota, updAgent_agent, if_pos rfl]

theorem setAgentState_written (a : Agent) (x : AgentState) (v : State) : AgentWritten a v (setAgentState a x v) :=
  updAgent_written a (f := fun g => { g with state := x }) (fun _ => rfl) v

theorem setAgentState_agent (a : Agent) (x : AgentState) (v : State) :
    (setAgentState a x v).agent a = { v.agent a with state := x } := by
  rw [setAgentState, updAgent_agent, if_pos rfl]

/-- The record of an agent that comes into service at a time (06, R109, R111). -/
def activeRecord (now : Nat) (g : AgentRec) : AgentRec :=
  { g with state := .active, epoch := nextEpoch g.epoch, keepalive := now }

theorem activate_eq (a : Agent) (v : State) :
    activate a v = recompareLeases a (updAgent a (activeRecord v.now) v) := rfl

theorem activate_agent (a y : Agent) (v : State) :
    (activate a v).agent y = (updAgent a (activeRecord v.now) v).agent y := agent_congr (by simp [activate_eq]) y

theorem activate_agent_self (a : Agent) (v : State) : (activate a v).agent a = activeRecord v.now (v.agent a) := by
  rw [activate_agent, updAgent_agent, if_pos rfl]

theorem activate_written (a : Agent) (v : State) : AgentWritten a v (activate a v) := by
  have h := updAgent_written a (f := activeRecord v.now) (fun _ => rfl) v
  refine ⟨?_, fun y hy => by rw [activate_agent, h.others y hy], by rw [activate_agent, h.leases]⟩
  apply State.ext <;> simp [activate_eq]

/-- One comparison (07, R131). -/
theorem recompare_compares (e : TimedEntry) (s : State) : Compares s (recompare e s) [e] := by
  refine ⟨by simp, fun x hx => ?_, fun x hx => ?_⟩
  · obtain rfl := List.mem_singleton.1 hx
    rw [view_recompare]
    simp only [View.Due, View.deadline_setMark]
    simp
  · have hne : x ≠ e := fun h => hx (by simp [h])
    rw [view_recompare, View.deadline_setMark]; simp [hne]

/-- The comparison of every lease in an agent's lease list (02, R36). -/
theorem recompareLeases_compares (a : Agent) (s : State) :
    Compares s (recompareLeases a s) ((s.agent a).leases.map fun h => .lease h.num) := by
  have fold : ∀ (l : List Handle) (u : State),
      Compares u (l.foldl (fun u h => recompare (.lease h.num) u) u) (l.map fun h => .lease h.num) := fun l => by
    induction l with
    | nil => exact fun u => .none rfl rfl
    | cons h rest ih => exact fun u => (recompare_compares _ u).trans (ih _)
  exact fold _ s

/-- An agent that comes into service has the leases in its list compared at its new keepalive tick (02, R35, R36). -/
theorem activate_marksCompared {a : Agent} {v t : State} (hview : view t = view (activate a v)) (hnow : t.now = v.now) :
    MarksCompared v t ((v.agent a).leases.map fun h => .lease h.num) := by
  have h := (recompareLeases_compares a (updAgent a (activeRecord v.now) v)).marksCompared hview (by simp [hnow])
  rw [updAgent_agent, if_pos rfl] at h
  exact h

/-- The marks alone say which entries were marked before. -/
theorem MarksCompared.of_marks {s v t : State} {l : List TimedEntry} (h : MarksCompared v t l)
    (hm : v.marks = s.marks) : MarksCompared s t l := by rwa [MarksCompared, ← hm]

/-! ### Its work, row by row (06, Table 6-4) -/

section
variable {c : Byte} {a : Agent} {q : Nat} {v : State}

theorem argAgent_none (h : 32 ≤ bitField (argWord v 0) 0 8) : argAgent v = none := dif_neg (by omega)

theorem argAgent_some (h : bitField (argWord v 0) 0 8 = a.val) : argAgent v = some a := by
  rw [argAgent, h]; exact dif_pos a.isLt

theorem setAgentWork_noAgent (h : argAgent v = none) : setAgentWork c v = completeTaken c .invalid [] v := by
  simp only [setAgentWork, h]

section
variable (ha : argAgent v = some a)
include ha

theorem setAgentWork_badAction (h : bitField (argWord v 0) 8 2 = 3) :
    setAgentWork c v = completeTaken c .invalid [] v := by
  simp [setAgentWork, ha, h]

theorem setAgentWork_halted (h : bitField (argWord v 0) 8 2 ≠ 3) (hp : v.part = .halted) :
    setAgentWork c v = setAgentHalted c a (bitField (argWord v 0) 8 2) (bitField (argWord v 1) 0 16) v := by
  simp [setAgentWork, ha, h, hp]

theorem setAgentWork_enable (hp : v.part ≠ .halted)
    (h : bitField (argWord v 0) 8 2 = 1 ∧ (v.agent a).state = .disabled) :
    setAgentWork c v = agentDone c a (activate a v) := by
  simp [setAgentWork, ha, hp, h]

theorem setAgentWork_notHalted (hp : v.part ≠ .halted) (h3 : bitField (argWord v 0) 8 2 ≠ 3)
    (h : ¬ (bitField (argWord v 0) 8 2 = 1 ∧ (v.agent a).state = .disabled)) :
    setAgentWork c v = completeTaken c .notHalted [] v := by
  simp only [setAgentWork, ha, hp, h3, h, if_false]

end

/-- A quota that an agent may have (04, R73). -/
def quotaOk (q : Nat) : Prop := 1 ≤ q ∧ q ≤ 1024

theorem setAgentHalted_badQuota (h : ¬ quotaOk q) (action : Nat) :
    setAgentHalted c a action q v = completeTaken c .invalid [] v := by
  refine if_pos ?_
  unfold quotaOk at h
  simp only [Config.maxQuota]
  omega

section
variable (hq : quotaOk q)
include hq

/-- With a quota in range the action decides (06, Table 6-4). -/
theorem setAgentHalted_eq (action : Nat) : setAgentHalted c a action q v
    = if action = 0 then agentDone c a (setQuota a q v)
      else if action = 1 then
        (if (v.agent a).state = .disabled then agentDone c a (activate a (setQuota a q v))
          else if (v.agent a).state = .active then completeTaken c .already [] v
          else completeTaken c .invalid [] v)
      else if (v.agent a).state = .disabled then completeTaken c .already [] v
      else agentDone c a (setAgentState a .disabled (setQuota a q v)) := by
  have hrange : ¬ (q = 0 ∨ Config.maxQuota < q) := by
    unfold quotaOk at hq; simp only [Config.maxQuota]; omega
  rw [setAgentHalted, if_neg hrange]
  cases (v.agent a).state <;> simp

end

end

/-- All that SET_AGENT's work can do: refuse, or write one agent and complete with its record (06, R110). -/
theorem setAgentWork_cases (c : Byte) (v : State) : (∃ res, setAgentWork c v = completeTaken c res [] v)
    ∨ ∃ a u, setAgentWork c v = agentDone c a u ∧ AgentWritten a v u := by
  cases ha : argAgent v with
  | none => exact .inl ⟨_, setAgentWork_noAgent ha⟩
  | some a =>
    by_cases h3 : bitField (argWord v 0) 8 2 = 3
    · exact .inl ⟨_, setAgentWork_badAction ha h3⟩
    by_cases hp : v.part = .halted
    · rw [setAgentWork_halted ha h3 hp]
      generalize bitField (argWord v 1) 0 16 = q
      have hquota := setQuota_written a q v
      by_cases hq : quotaOk q
      · rw [setAgentHalted_eq hq]
        split
        · exact .inr ⟨a, _, rfl, hquota⟩
        split
        · split
          · exact .inr ⟨a, _, rfl, hquota.trans (activate_written a _)⟩
          split
          · exact .inl ⟨_, rfl⟩
          · exact .inl ⟨_, rfl⟩
        split
        · exact .inl ⟨_, rfl⟩
        · exact .inr ⟨a, _, rfl, hquota.trans (setAgentState_written a .disabled _)⟩
      · exact .inl ⟨_, setAgentHalted_badQuota hq _⟩
    · by_cases h1 : bitField (argWord v 0) 8 2 = 1 ∧ (v.agent a).state = .disabled
      · exact .inr ⟨a, _, setAgentWork_enable ha hp h1, activate_written a v⟩
      · exact .inl ⟨_, setAgentWork_notHalted ha hp h3 h1⟩

/-! ### Its item -/

/-- The code of an agent's state, as Table 11-5 lists it. -/
theorem agentStateCode_eq (x : AgentState) : BitVec.ofNat 16 (agentStateCode x) =
    if x = .disabled then 0#16 else if x = .active then 1#16 else if x = .fencing then 2#16 else 3#16 := by
  cases x <;> rfl

/-- The words that report an agent's record: epoch and state code in one, the quota in the other (11, Table 11-5). -/
theorem agentWords_eq (g : AgentRec) :
    agentWords g = [g.epoch ++ BitVec.ofNat 16 (agentStateCode g.state), BitVec.ofNat 32 g.quota] := by
  have hcode : (BitVec.ofNat 16 (agentStateCode g.state)).toNat = agentStateCode g.state := by
    cases g.state <;> rfl
  rw [agentWords, ← atBit_or_atBit, hcode]

/-- The state that SET_AGENT's item leaves. -/
def agentItem (s : State) : State := withHanded s.handed (finishItem s (setAgentWork 3#8 (startCommand s)))

/-- From `s` to `t` an agent's record becomes the one given, no other agent's changes, and the command completes with
that record's report (06, R110). -/
def AgentBecomes (s t : State) (a : Agent) (x : AgentRec) : Prop :=
  t.agent a = x ∧ (∀ y, y ≠ a → t.agent y = s.agent y) ∧ Completes s t .ok (agentWords x)

/-- A command that has written the agents and the marks at most. -/
theorem CommandDone.rest_agents {s u t : State} {res : CmdResult} {words : List Word} (h : CommandDone s u t res words)
    (hd : u.domains = s.domains) :
    t = { beginCommand s with agents := t.agents, marks := t.marks, mbox := t.mbox, res := t.res, events := t.events,
                              offered := t.offered } := by
  have hrest := h.rest
  have hdomains : t.domains = (beginCommand s).domains := by rw [h.domains, hd]; simp
  rwa [hdomains] at hrest

section
variable {s : State} (h : takenCommand s = some 3#8)
include h

theorem agentItem_commandDone_refused {res : CmdResult}
    (hwork : setAgentWork 3#8 (startCommand s) = completeTaken 3#8 res [] (startCommand s)) :
    CommandDone s (startCommand s) (agentItem s) res [] := by
  rw [agentItem, hwork]
  exact commandDone h (.refl _) res [] fun _ => rfl

theorem agentItem_refused {res : CmdResult}
    (hwork : setAgentWork 3#8 (startCommand s) = completeTaken 3#8 res [] (startCommand s)) :
    (agentItem s).agents = s.agents ∧ (agentItem s).marks = s.marks ∧ Completes s (agentItem s) res [] :=
  have hdone := agentItem_commandDone_refused h hwork
  ⟨hdone.agents.trans (by simp), hdone.marks.trans (by simp), hdone.completes⟩

section
variable {a : Agent} {u : State}

theorem agentItem_commandDone (hwork : setAgentWork 3#8 (startCommand s) = agentDone 3#8 a u)
    (hu : AgentWritten a (startCommand s) u) : CommandDone s u (agentItem s) .ok (agentWords (u.agent a)) := by
  rw [agentItem, hwork]
  exact commandDone h hu.banks .ok _ fun hok => absurd rfl hok

theorem agentItem_becomes (hwork : setAgentWork 3#8 (startCommand s) = agentDone 3#8 a u)
    (hu : AgentWritten a (startCommand s) u) : AgentBecomes s (agentItem s) a (u.agent a) := by
  have hdone := agentItem_commandDone h hwork hu
  refine ⟨agent_congr hdone.agents a, fun y hy => ?_, hdone.completes⟩
  rw [agent_congr hdone.agents, hu.others y hy, (startCommand_taken s).agent]

/-- A row that compares no lease. -/
theorem agentItem_written (hwork : setAgentWork 3#8 (startCommand s) = agentDone 3#8 a u)
    (hu : AgentWritten a (startCommand s) u) (hmarks : u.marks = s.marks) :
    AgentBecomes s (agentItem s) a (u.agent a) ∧ (agentItem s).marks = s.marks :=
  ⟨agentItem_becomes h hwork hu, (agentItem_commandDone h hwork hu).marks.trans hmarks⟩

/-- A row that enables the agent, whose quota may have been written before. -/
theorem agentItem_enabled (hwork : setAgentWork 3#8 (startCommand s) = agentDone 3#8 a (activate a u))
    (hu : AgentWritten a (startCommand s) u) (hmarks : u.marks = s.marks) :
    AgentBecomes s (agentItem s) a (activeRecord s.now (u.agent a))
      ∧ MarksCompared s (agentItem s) ((s.agent a).leases.map fun h => .lease h.num) := by
  have hwritten := hu.trans (activate_written a u)
  have hdone := agentItem_commandDone h hwork hwritten
  have hnow : u.now = s.now := by rw [hu.rest]; simp
  have hbecomes := agentItem_becomes h hwork hwritten
  have hmoved := activate_marksCompared hdone.view (hdone.now.trans (by simp [activate_eq]))
  rw [activate_agent_self, hnow] at hbecomes
  rw [hu.leases, (startCommand_taken s).agent] at hmoved
  exact ⟨hbecomes, hmoved.of_marks hmarks⟩

end

theorem agentItem_frame : agentItem s = { beginCommand s with
      agents := (agentItem s).agents, marks := (agentItem s).marks, mbox := (agentItem s).mbox,
      res := (agentItem s).res, events := (agentItem s).events, offered := (agentItem s).offered }
    ∧ OfferStands (beginCommand s) (agentItem s) := by
  rcases setAgentWork_cases 3#8 (startCommand s) with ⟨res, hwork⟩ | ⟨a, u, hwork, hu⟩
  · have hdone := agentItem_commandDone_refused h hwork
    exact ⟨hdone.rest_agents (by simp), hdone.offer⟩
  · have hdone := agentItem_commandDone h hwork hu
    exact ⟨hdone.rest_agents (by rw [hu.domains]; simp), hdone.offer⟩

end

/-- Settles O47: the rows of Table 6-4, each from its row of SET_AGENT's work. -/
theorem setAgentEnablesAndDisables : Obligations.SetAgentEnablesAndDisables := by
  intro s htaken b action quota ok code
  obtain ⟨hrest, hoffer⟩ := agentItem_frame htaken
  refine ⟨agentItem s, exec_setAgent htaken, hrest, hoffer, fun hbig => ?_, fun a ha => ?_⟩
  · exact agentItem_refused htaken (setAgentWork_noAgent (argAgent_none (by rwa [argWord_startCommand])))
  intro g epoch refused becomes
  have harg : argAgent (startCommand s) = some a := argAgent_some (by rwa [argWord_startCommand])
  have haction : bitField (argWord (startCommand s) 0) 8 2 = action := by rw [argWord_startCommand]
  have hquota : bitField (argWord (startCommand s) 1) 0 16 = quota := by rw [argWord_startCommand]
  have hpart : (startCommand s).part = s.part := by simp
  have hmarks : (startCommand s).marks = s.marks := by simp
  have hagent : (startCommand s).agent a = g := (startCommand_taken s).agent a
  have hset := setQuota_written a quota (startCommand s)
  have hg : (setQuota a quota (startCommand s)).agent a = { g with quota := quota } := by rw [setQuota_agent, hagent]
  have toBecomes : ∀ x, AgentBecomes s (agentItem s) a x → becomes x := fun x hx => by
    rwa [AgentBecomes, agentWords_eq, agentStateCode_eq] at hx
  have halted : s.part = .halted → action ≠ 3 →
      setAgentWork 3#8 (startCommand s) = setAgentHalted 3#8 a action quota (startCommand s) := fun hp h3 => by
    rw [setAgentWork_halted harg (by rwa [haction]) (by rwa [hpart]), haction, hquota]
  have row : s.part = .halted → ∀ n, action = n → n ≠ 3 → ∀ w,
      setAgentHalted 3#8 a n quota (startCommand s) = w → setAgentWork 3#8 (startCommand s) = w :=
    fun hp n hn h3 w hw => by rw [halted hp (by rwa [hn]), hn, hw]
  have badAction : action = 3 → refused .invalid := fun h3 =>
    agentItem_refused htaken (setAgentWork_badAction harg (haction.trans h3))
  refine ⟨badAction, fun hp hbad => ?_, fun hp hok hn => ?_, fun hp hok hn hst => ?_, fun hp hok hn hst => ?_,
    fun hp hok hn hst => ?_, fun hp hok hn hst => ?_, fun hp hok hn hst => ?_, fun hp hn hst => ?_,
    fun hp h3 hrow => ?_⟩
  · by_cases h3 : action = 3
    · exact badAction h3
    · exact agentItem_refused htaken ((halted hp h3).trans (setAgentHalted_badQuota hbad _))
  · obtain ⟨hbecomes, hkept⟩ :=
      agentItem_written htaken (row hp 0 hn (by decide) _ (setAgentHalted_eq hok 0)) hset hmarks
    rw [hg] at hbecomes
    exact ⟨toBecomes _ hbecomes, hkept⟩
  · obtain ⟨hbecomes, hmoved⟩ := agentItem_enabled htaken
      (row hp 1 hn (by decide) _ (by simp [setAgentHalted_eq hok, hagent, hst])) hset hmarks
    rw [hg] at hbecomes
    exact ⟨toBecomes _ hbecomes, hmoved⟩
  · exact agentItem_refused htaken (row hp 1 hn (by decide) _ (by simp [setAgentHalted_eq hok, hagent, hst]))
  · refine agentItem_refused htaken (row hp 1 hn (by decide) _ ?_)
    rcases hst with hst | hst <;> simp [setAgentHalted_eq hok, hagent, hst]
  · obtain ⟨hbecomes, hkept⟩ := agentItem_written htaken
      (row hp 2 hn (by decide) _ (by simp [setAgentHalted_eq hok, hagent, hst]))
      (hset.trans (setAgentState_written a .disabled _)) hmarks
    rw [setAgentState_agent, hg] at hbecomes
    exact ⟨toBecomes _ hbecomes, hkept⟩
  · exact agentItem_refused htaken (row hp 2 hn (by decide) _ (by simp [setAgentHalted_eq hok, hagent, hst]))
  · obtain ⟨hbecomes, hmoved⟩ := agentItem_enabled htaken
      (setAgentWork_enable harg (by rwa [hpart]) ⟨haction.trans hn, by rwa [hagent]⟩)
      (.refl _ _) hmarks
    rw [hagent] at hbecomes
    exact ⟨toBecomes _ hbecomes, hmoved⟩
  · exact agentItem_refused htaken
      (setAgentWork_notHalted harg (by rwa [hpart]) (by rwa [haction]) (by rwa [haction, hagent]))

end Sys2Proof.Machine
end

section
/-! JOIN, QUERY, KEEPALIVE, and the handle test of the kinds that name a lease (02, R35, R36; 05, R89, R92,
R95, R100). -/

namespace Sys2Proof.Machine

/-! ### JOIN and QUERY -/

theorem Taken.recordOfKey {s v : State} (h : Taken s v) (key : Key) : recordOfKey v key = recordOfKey s key :=
  h.read (Machine.recordOfKey · key) fun _ _ _ _ _ => rfl

/-- The answer to a QUERY reads nothing that the take of a request changes (05, R100). -/
theorem Taken.queryContent {s v : State} (h : Taken s v) (key : Key) : queryContent v key = queryContent s key :=
  h.read (Machine.queryContent · key) fun _ _ _ _ _ => rfl

/-- A key without a record is reported in zeros (05, R100). -/
theorem queryContent_of_no_record {s : State} {key : Key} (h : recordOfKey s key = none) :
    queryContent s key = { info := .query 0 0 0 0 } := by simp only [queryContent, h]

/-- The code of a record's mode (05, R85). -/
theorem modeCode_ofNat (m : Mode) : BitVec.ofNat 8 (modeCode m) = if m = .shared then 1#8 else 2#8 := by
  cases m <;> rfl

/-- A key with a record is reported by the record (05, R100). -/
theorem queryContent_of_record {s : State} {key : Key} {n : Nat} {rec : LockRecord}
    (h : recordOfKey s key = some (n, rec)) :
    queryContent s key = { token := rec.lastToken,
                           info := .query (if rec.mode = .shared then 1#8 else 2#8) (BitVec.ofNat 8 rec.holders.length)
                             (BitVec.ofNat 8 rec.queue.length) (if rec.slot = none then 0#8 else 1#8) } := by
  have hflag : (if rec.slot.isSome then 1#8 else 0#8) = if rec.slot = none then 0#8 else 1#8 := by
    cases rec.slot <;> rfl
  simp only [queryContent, h, modeCode_ofNat, hflag]

/-- An admitted JOIN is answered by its agent's record (05, R89). -/
theorem exec_join {s : State} {p : Port} {r : Request} (h : Admitted s p r .join) :
    ∃ t, exec .join s = .next t ∧ AnsweredOnly s p r .done
      { info := .join (s.agent (senderOf p r)).epoch (BitVec.ofNat 16 (s.agent (senderOf p r)).quota)
          (BitVec.ofNat 16 (s.agent (senderOf p r)).leases.length) } t :=
  exec_answeredOnly h (by rw [behaviourOf, joinBehaviour, (startRequest_taken p r s).agent])

/-- An admitted QUERY is answered by the record of its key (05, R100). -/
theorem exec_query {s : State} {p : Port} {r : Request} (h : Admitted s p r .query) :
    ∃ t, exec .query s = .next t ∧ AnsweredOnly s p r .done (queryContent s r.key) t :=
  exec_answeredOnly h (by rw [behaviourOf, queryBehaviour, (startRequest_taken p r s).queryContent])

/-- Settles O17: both are answered at once, JOIN by the agent's record and QUERY by the key's. -/
theorem joinAndQueryReport : Obligations.JoinAndQueryReport := by
  refine ⟨fun s p r h => exec_join h, fun s p r h => ⟨fun hnone => ?_, fun n rec hrec => ?_⟩⟩
  · rw [← queryContent_of_no_record hnone]; exact exec_query h
  · rw [← queryContent_of_record hrec]; exact exec_query h

/-! ### The handle test -/

section
variable {s : State} {p : Port} {r : Request} (behave : Agent → Request → Lease → State → State)

/-- A handle that names no live lease fails the handle test (05, R92). -/
theorem withLease_noLease (hl : liveLease s r.leaseNum.toNat r.gen = none) :
    withLease behave (senderOf p r) r (startRequest p r s)
      = reply (senderOf p r) r .noLease {} (startRequest p r s) := by
  simp only [withLease, namedLease, (startRequest_taken p r s).liveLease, hl]

/-- A live lease of another agent fails the handle test (05, R92). -/
theorem withLease_notHolder {l : Lease} (hl : liveLease s r.leaseNum.toNat r.gen = some l)
    (ha : l.agent ≠ senderOf p r) :
    withLease behave (senderOf p r) r (startRequest p r s)
      = reply (senderOf p r) r .notHolder {} (startRequest p r s) := by
  simp only [withLease, namedLease, (startRequest_taken p r s).liveLease, hl, if_neg ha]

end

/-- The kinds that name a lease begin with the handle test (05, R92). -/
theorem behaviourOf_withLease {k : Kind} (hk : k ∈ ([.release, .renew, .upgrade, .downgrade] : List Kind)) :
    ∃ behave, behaviourOf k = withLease behave := by
  simp only [List.mem_cons, List.not_mem_nil, or_false] at hk
  rcases hk with rfl | rfl | rfl | rfl
  exacts [⟨releaseLease, rfl⟩, ⟨renewLease, rfl⟩, ⟨upgradeLive, rfl⟩, ⟨downgradeLease, rfl⟩]

/-- Settles O20: the four kinds share the handle test, and each of its failures is answered at once. -/
theorem handleTestRefusesOtherLeases : Obligations.HandleTestRefusesOtherLeases := by
  intro s p r k hk h
  obtain ⟨behave, hbehave⟩ := behaviourOf_withLease hk
  refine ⟨fun hl => exec_answeredOnly h ?_, fun l hl ha => exec_answeredOnly h ?_⟩
  · rw [hbehave, withLease_noLease behave hl]
  · rw [hbehave, withLease_notHolder behave hl ha]

/-! ### KEEPALIVE -/

/-- What a KEEPALIVE's acts leave alone. -/
@[simp] theorem keepaliveBehaviour_keeps (a : Agent) (r : Request) (v : State) :
    (keepaliveBehaviour a r v).now = v.now ∧ (keepaliveBehaviour a r v).tickPeriod = v.tickPeriod ∧
    (keepaliveBehaviour a r v).tickPos = v.tickPos ∧ (keepaliveBehaviour a r v).offered = v.offered ∧
    (keepaliveBehaviour a r v).records = v.records ∧ (keepaliveBehaviour a r v).leases = v.leases ∧
    (keepaliveBehaviour a r v).gens = v.gens ∧ (keepaliveBehaviour a r v).waits = v.waits ∧
    (keepaliveBehaviour a r v).domains = v.domains ∧ (keepaliveBehaviour a r v).token = v.token ∧
    (keepaliveBehaviour a r v).seeded = v.seeded ∧ (keepaliveBehaviour a r v).part = v.part ∧
    (keepaliveBehaviour a r v).sweep = v.sweep ∧ (keepaliveBehaviour a r v).outer = v.outer ∧
    (keepaliveBehaviour a r v).inner = v.inner ∧ (keepaliveBehaviour a r v).chosen = v.chosen ∧
    (keepaliveBehaviour a r v).pools = v.pools ∧ (keepaliveBehaviour a r v).mbox = v.mbox ∧
    (keepaliveBehaviour a r v).args = v.args ∧ (keepaliveBehaviour a r v).res = v.res ∧
    (keepaliveBehaviour a r v).events = v.events ∧ (keepaliveBehaviour a r v).eventEnable = v.eventEnable ∧
    (keepaliveBehaviour a r v).nowLatch = v.nowLatch ∧ (keepaliveBehaviour a r v).spiData = v.spiData ∧
    (keepaliveBehaviour a r v).pending = v.pending := by
  simp [keepaliveBehaviour]

/-- A KEEPALIVE writes its agent's keepalive tick and answered tag, and nothing else of any agent (02, R35). -/
theorem keepaliveBehaviour_agent (a b : Agent) (r : Request) (v : State) : (keepaliveBehaviour a r v).agent b
    = if b = a then { v.agent a with keepalive := v.now, tags := (v.agent a).tags.set r.tag.val .replying r.tag.isLt }
      else v.agent b := by
  have hmoves : TagMoves (updAgent a (fun g => { g with keepalive := v.now }) v) (keepaliveBehaviour a r v) a r.tag
      .replying :=
    tagMoves_of_view (view_reply ..) (funext fun c => agent_congr (by simp) c)
  obtain ⟨hself, hothers⟩ := hmoves
  by_cases hb : b = a
  · subst hb; rw [hself, updAgent_agent]; simp
  · rw [hothers b hb, updAgent_agent]; simp [hb]

/-- A KEEPALIVE leaves every agent its lease list. -/
theorem keepaliveBehaviour_leases (a b : Agent) (r : Request) (v : State) :
    ((keepaliveBehaviour a r v).agent b).leases = (v.agent b).leases := by
  rw [keepaliveBehaviour_agent]; split
  · next hb => rw [hb]
  · rfl

/-- A KEEPALIVE has each lease in its agent's lease list compared (02, R36). -/
theorem keepaliveBehaviour_marksCompared {a : Agent} {r : Request} {v t : State}
    (hview : view t = view (keepaliveBehaviour a r v)) (hnow : t.now = v.now) :
    MarksCompared v t ((v.agent a).leases.map fun h => .lease h.num) := by
  have h := ((recompareLeases_compares a (updAgent a (fun g => { g with keepalive := v.now }) v)).trans
    (reply_compares a r .done _ _)).marksCompared hview (by simp [hnow])
  rw [updAgent_agent, if_pos rfl, List.append_nil] at h
  exact h.of_marks rfl

/-- A KEEPALIVE hands over its one reply, DONE with the lease count (05, R95). -/
theorem keepaliveBehaviour_answers (a : Agent) (r : Request) (v : State) :
    Answers v (keepaliveBehaviour a r v)
      [(a, replyTo a r .done { info := .keepalive (BitVec.ofNat 16 (v.agent a).leases.length) })] :=
  (reply_answers a r .done _ _).after (by simp) (by simp)

/-- Settles O18: KEEPALIVE's acts, in an item that changes no count and no lease list. -/
theorem keepaliveMovesTheKeepaliveTick : Obligations.KeepaliveMovesTheKeepaliveTick := by
  intro s p r h a b
  have hv := startRequest_taken p r s
  have hcount : ∀ k, poolCount (keepaliveBehaviour a r (startRequest p r s)) k = poolCount s k :=
    poolCounts_of_lengths (by simp) (by simp) (by simp)
  have hpools := endItem_pools (by simp) hcount
  have hexec : exec .keepalive s = .next (endItem s (keepaliveBehaviour a r (startRequest p r s))) :=
    exec_request_steady h rfl (by simp) (by simp) hcount fun x hx => by
      rwa [keepaliveBehaviour_leases, hv.agent]
  have hagent : ∀ x, (endItem s (keepaliveBehaviour a r (startRequest p r s))).agent x
      = if x = a then { s.agent a with keepalive := s.now, tags := (s.agent a).tags.set r.tag.val .replying r.tag.isLt }
        else s.agent x := fun x => by
    rw [agent_of_view (view_endItem ..), view_agent, keepaliveBehaviour_agent, hv.agent, hv.agent, hv.now]
  have hmarks := keepaliveBehaviour_marksCompared (a := a) (r := r) (view_endItem s _)
    (by simp : _ = (startRequest p r s).now)
  have hanswers := keepaliveBehaviour_answers a r (startRequest p r s)
  rw [hv.agent] at hmarks hanswers
  refine ⟨_, hexec, ?_, endItem_offerStands (by simp [b]), (hagent a).trans (if_pos rfl),
    fun x hx => (hagent x).trans (if_neg hx), hmarks.of_marks (by simp), repliesHanded_endItem hanswers⟩
  apply State.ext <;> simp [b, endItem_tables, hpools]

end Sys2Proof.Machine
end

section
/-! TAG_COMPLETE (06, R115; 10, R178). -/

namespace Sys2Proof.Machine

/-- TAG_COMPLETE at a port that holds a report (06, R115). -/
theorem exec_tagComplete {s : State} {p : Port} {a : Agent} {g : Tag} {rest : List (Agent × Tag)}
    (h : (s.port p).reports = (a, g) :: rest) :
    let u := updPort p (fun q => { q with reports := rest }) s
    exec (.tagComplete p) s = .next (if s.tag a g = .replying then setTag a g .free u else u) := by
  have harm : exec (.tagComplete p) s = execTagComplete p s := rfl
  rw [harm, execTagComplete, h]

/-- A tag set to a state leaves every port. -/
theorem setTag_port (a : Agent) (g : Tag) (x : TagState) (u : State) (q : Port) :
    (setTag a g x u).port q = u.port q := port_congr (by simp) q

/-- Settles O44: the report leaves its port, and a REPLYING tag goes to FREE. -/
theorem tagCompleteFreesTheTag : Obligations.TagCompleteFreesTheTag := by
  intro s p a g rest h
  refine ⟨_, exec_tagComplete h, ?_⟩
  have hself : (updPort p (fun q => { q with reports := rest }) s).port p = { s.port p with reports := rest } := by
    rw [updPort_port, if_pos rfl]
  have hothers : ∀ q, q ≠ p → (updPort p (fun q => { q with reports := rest }) s).port q = s.port q := fun q hq => by
    rw [updPort_port, if_neg hq]
  by_cases hg : s.tag a g = .replying
  · rw [if_pos hg]
    exact ⟨rfl, by rw [setTag_port, hself], fun q hq => by rw [setTag_port, hothers q hq],
      fun _ => tagMoves_of_view (view_setTag ..) rfl, fun hne => absurd hg hne⟩
  · rw [if_neg hg]
    exact ⟨rfl, hself, hothers, fun hy => absurd hy hg, fun _ => rfl⟩

end Sys2Proof.Machine
end

section
/-! ADMIT (06, R109, R123). -/

namespace Sys2Proof.Machine

/-- A command taken whose work writes the domain table, the agents or the marks at most, and completes (11, R191). -/
theorem exec_commandDone {i : Instr} {isCode : Byte → Bool} {work : Byte → State → State} {s u : State} {c : Byte}
    {res : CmdResult} {words : List Word} (harm : exec i s = takeCommand isCode work s)
    (h : takenCommand s = some c) (hc : isCode c = true)
    (hwork : work c (startCommand s) = completeTaken c res words u) (hu : BanksWritten (startCommand s) u)
    (hw : res ≠ .ok → words = []) : ∃ t, exec i s = .next t ∧ CommandDone s u t res words := by
  refine ⟨_, ?_, commandDone h hu res words hw⟩
  rw [harm, takeCommand_taken h hc, ← hwork]; rfl

/-! ### Its work -/

section
variable {c : Byte} {a : Agent} {v : State}

theorem admitWork_noAgent (h : argAgent v = none) : admitWork c v = completeTaken c .invalid [] v := by
  simp only [admitWork, h]

/-- An agent that is not FENCED is not admitted (06, R123). -/
theorem admitWork_refused (ha : argAgent v = some a) (hst : (v.agent a).state ≠ .fenced) :
    ∃ res, admitWork c v = completeTaken c res [] v ∧ ((v.agent a).state = .fencing → res = .busy)
      ∧ ((v.agent a).state = .active → res = .already) ∧ ((v.agent a).state = .disabled → res = .notAdmitted) := by
  cases h : (v.agent a).state with
  | fenced => exact absurd h hst
  | fencing => exact ⟨.busy, by simp only [admitWork, ha, h], by simp⟩
  | active => exact ⟨.already, by simp only [admitWork, ha, h], by simp⟩
  | disabled => exact ⟨.notAdmitted, by simp only [admitWork, ha, h], by simp⟩

/-- A FENCED agent comes into service, and its new epoch is reported (06, R109, R123). -/
theorem admitWork_fenced (ha : argAgent v = some a) (hst : (v.agent a).state = .fenced) :
    admitWork c v = completeTaken c .ok [BitVec.setWidth 32 (nextEpoch (v.agent a).epoch)] (activate a v) := by
  have hword : epochWord (activate a v) a = [BitVec.setWidth 32 (nextEpoch (v.agent a).epoch)] := by
    simp [epochWord, activate_agent_self, activeRecord, atBit, BitVec.ofNat_toNat]
  simp only [admitWork, ha, hst, hword]

/-- An agent that comes into service without a lease has no entry compared (02, R36). -/
theorem activate_marks_of_no_lease (h : (v.agent a).leases = []) : (activate a v).marks = v.marks := by
  have hlist : ((updAgent a (activeRecord v.now) v).agent a).leases = [] := by rw [updAgent_agent, if_pos rfl]; exact h
  rw [activate_eq, recompareLeases, hlist]; rfl

end

/-- Settles O52: a FENCED agent comes into service; every other agent state is a refusal. -/
theorem admitReturnsAFencedAgent : Obligations.AdmitReturnsAFencedAgent := by
  intro s htaken b
  have hargs := argWord_startCommand s 0
  have refusal : ∀ {res : CmdResult}, admitWork 0x0A#8 (startCommand s) = completeTaken 0x0A#8 res [] (startCommand s) →
      ∃ t, exec .admitAgent s = .next t ∧ CommandDone s (startCommand s) t res [] ∧ t.agents = s.agents
        ∧ t.marks = s.marks := fun hwork => by
    obtain ⟨t, hexec, hdone⟩ := exec_commandDone (i := .admitAgent) rfl htaken rfl hwork (.refl _) fun _ => rfl
    exact ⟨t, hexec, hdone, hdone.agents.trans (by simp), hdone.marks.trans (by simp)⟩
  by_cases hbig : 32 ≤ bitField (argWord s 0) 0 8
  · obtain ⟨t, hexec, hdone, hagents, hmarks⟩ := refusal (admitWork_noAgent (argAgent_none (by rwa [hargs])))
    exact ⟨t, hexec, hdone.rest_agents (by simp), hdone.offer, fun _ => ⟨hagents, hmarks, hdone.completes⟩,
      fun a ha => absurd a.isLt (by omega)⟩
  obtain ⟨a, ha⟩ : ∃ a : Agent, bitField (argWord s 0) 0 8 = a.val := ⟨⟨_, Nat.not_le.1 hbig⟩, rfl⟩
  have harg : argAgent (startCommand s) = some a := argAgent_some (by rwa [hargs])
  have hagent : (startCommand s).agent a = s.agent a := (startCommand_taken s).agent a
  by_cases hst : (s.agent a).state = .fenced
  · obtain ⟨t, hexec, hdone⟩ := exec_commandDone (i := .admitAgent) rfl htaken rfl
      (admitWork_fenced harg (by rwa [hagent])) (activate_written a _).banks fun hok => absurd rfl hok
    refine ⟨t, hexec, hdone.rest_agents (by simp [activate_eq]), hdone.offer, fun h => absurd h hbig, fun x hx => ?_⟩
    obtain rfl : a = x := Fin.ext (ha.symm.trans hx)
    refine ⟨fun _ hl => ⟨?_, ?_, fun y hy => ?_, by rw [← hagent]; exact hdone.completes⟩, fun h => absurd hst h,
      fun h => ?_, fun h => ?_, fun h => ?_⟩
    · rw [agent_congr hdone.agents, activate_agent_self, hagent, (startCommand_taken s).now]; rfl
    · rw [hdone.marks, activate_marks_of_no_lease (by rwa [hagent])]; simp
    · rw [agent_congr hdone.agents, (activate_written a _).others y hy, (startCommand_taken s).agent]
    all_goals exact absurd (hst.symm.trans h) (by decide)
  · obtain ⟨res, hwork, hbusy, halready, hnot⟩ := admitWork_refused (c := 0x0A#8) harg (by rwa [hagent])
    rw [hagent] at hbusy halready hnot
    obtain ⟨t, hexec, hdone, hagents, hmarks⟩ := refusal hwork
    refine ⟨t, hexec, hdone.rest_agents (by simp), hdone.offer, fun h => absurd h hbig, fun x hx => ?_⟩
    obtain rfl : a = x := Fin.ext (ha.symm.trans hx)
    exact ⟨fun h => absurd h hst, fun _ => ⟨hagents, hmarks⟩, fun h => hbusy h ▸ hdone.completes,
      fun h => halready h ▸ hdone.completes, fun h => hnot h ▸ hdone.completes⟩

end Sys2Proof.Machine
end

section
/-! QUIESCE and ABORT (11, R185, R187, R188). -/

namespace Sys2Proof.Machine

/-- QUIESCE taken runs on the state its take leaves (11, R185). -/
theorem exec_quiesce {s : State} (h : takenCommand s = some 7#8) : exec .quiesce s
    = .next (withHanded s.handed (finishItem s (quiesceWork 7#8 (startCommand s)))) := by
  have harm : exec .quiesce s = execQuiesce s := rfl
  rw [harm, execQuiesce, takeCommand_taken h rfl]; rfl

/-- ABORT taken runs on the state its take leaves (11, R188). -/
theorem exec_abort {s : State} (h : takenCommand s = some 8#8) : exec .abort s
    = .next (withHanded s.handed (finishItem s (abortWork 8#8 (startCommand s)))) := by
  have harm : exec .abort s = execAbort s := rfl
  rw [harm, execAbort, takeCommand_taken h rfl]; rfl

/-! ### A command that attaches to a job -/

/-- The part is in a state, and PART_STATE is set (11, R183). -/
def partEntered (x : PartState) (v : State) : State := postEvent .partState { v with part := x }

/-- What an item leaves whose command has attached to a job of the list given, with the part state and the events
given (11, R191). -/
structure AttachedTo (jobs : List Job) (part : PartState) (events : Word) (s t : State) : Prop where
  rest : t = { beginCommand s with part := part, sweep := jobs, mbox := { s.mbox with state := .running },
                                   events := events, offered := t.offered }
  offer : OfferStands (beginCommand s) t

/-- From `v` to `u` the part state and EVENTS alone are written. -/
def PartWritten (v u : State) : Prop := u = { v with part := u.part, events := u.events }

theorem PartWritten.keeps {v u : State} (h : PartWritten v u) :
    u.now = v.now ∧ u.tickPeriod = v.tickPeriod ∧ u.tickPos = v.tickPos ∧ u.marks = v.marks ∧ u.offered = v.offered ∧
    u.records = v.records ∧ u.leases = v.leases ∧ u.gens = v.gens ∧ u.waits = v.waits ∧ u.domains = v.domains ∧
    u.agents = v.agents ∧ u.token = v.token ∧ u.seeded = v.seeded ∧ u.sweep = v.sweep ∧ u.outer = v.outer ∧
    u.inner = v.inner ∧ u.chosen = v.chosen ∧ u.pools = v.pools ∧ u.ports = v.ports ∧ u.mbox = v.mbox ∧
    u.args = v.args ∧ u.res = v.res ∧ u.eventEnable = v.eventEnable ∧ u.nowLatch = v.nowLatch ∧
    u.spiData = v.spiData ∧ u.handed = v.handed ∧ u.freeDraws = v.freeDraws ∧ u.pending = v.pending := by
  rw [h]; simp

theorem PartWritten.refl (v : State) : PartWritten v v := rfl

theorem partEntered_events (x : PartState) (v : State) : (partEntered x v).events = v.events ||| 8#32 := by
  simp [partEntered, postEvent, atBit, eventBit]

theorem partEntered_written (x : PartState) (v : State) : PartWritten v (partEntered x v) := rfl

/-- A command taken that writes the part state and attaches to a job: the clock's offer is all that is left, for no
quiesce is over while its job is listed (06, R121; 11, R187). -/
theorem command_attaches {s u : State} {jobs : List Job} (hu : PartWritten (startCommand s) u)
    (hq : u.part = .quiescing → jobs.any isQuiesceJob = true) :
    AttachedTo jobs u.part u.events s (withHanded s.handed (finishItem s (runningWith jobs u))) := by
  have hkeeps := hu.keeps
  have hcount : ∀ k, poolCount (runningWith jobs u) k = poolCount s k := fun k => by
    cases k <;> simp [poolCount, hkeeps]
  rw [finishItem_of_no_fence (endFenceJobs_quiet fun a ha => by rwa [agent_congr (s := s) (by simp [hkeeps])]),
    quiesceHalt_quiet fun hover => ?_]
  · have hpools := endItem_pools (by simp [hkeeps]) hcount
    refine ⟨?_, endItem_offerStands (by simp [hkeeps])⟩
    apply State.ext <;> simp [endItem_tables, hpools, hkeeps]
  · simp only [quiesceOver, runningWith_keeps, Bool.and_eq_true, decide_eq_true_eq] at hover
    obtain ⟨⟨hpart, hjobs⟩, -⟩ := hover
    simp [hq hpart] at hjobs

/-- In an ABORTING part no offer is made (07, R133). -/
theorem AttachedTo.rest_of_aborting {jobs : List Job} {part : PartState} {events : Word} {s t : State}
    (h : AttachedTo jobs part events s t) (hp : part = .aborting) :
    t = { beginCommand s with part := part, sweep := jobs, mbox := { s.mbox with state := .running },
                              events := events } := by
  have hserve : serving t = false := by rw [h.rest, hp]; simp [serving]
  have hrest := h.rest
  rwa [h.offer.2 hserve] at hrest

/-! ### Their work -/

section
variable {c : Byte} {v : State}

/-- QUIESCE of a RUNNING part with leases (11, R185). -/
theorem quiesceWork_attached (hp : v.part = .running) (hl : v.leases ≠ []) :
    quiesceWork c v = runningWith (v.sweep ++ [.quiesce 0 true]) (partEntered .quiescing v) := by
  have hcount : poolCount v .leasePool ≠ 0 := by simpa [poolCount] using hl
  simp only [quiesceWork, hp, if_neg hcount]; rfl

/-- QUIESCE of a RUNNING part without a lease completes at once (11, R185). -/
theorem quiesceWork_at_once (hp : v.part = .running) (hl : v.leases = []) :
    quiesceWork c v = completeTaken c .ok [0#32, 0#32] (partEntered .quiescing v) := by
  have hcount : poolCount v .leasePool = 0 := by simp [poolCount, hl]
  simp only [quiesceWork, hp, if_pos hcount]; rfl

/-- QUIESCE of a part that is not RUNNING changes nothing (11, R185). -/
theorem quiesceWork_already (hp : v.part ≠ .running) : quiesceWork c v = completeTaken c .already [] v := by
  cases h : v.part with
  | running => exact absurd h hp
  | halted | quiescing | aborting => simp only [quiesceWork, h]

/-- ABORT of a part that serves: an abort job in place of every job (11, R188). -/
theorem abortWork_serving (hp : v.part = .running ∨ v.part = .quiescing) :
    abortWork c v = runningWith [.abort 0 true] (partEntered .aborting v) := by
  rcases hp with hp | hp <;> simp only [abortWork, hp] <;> rfl

/-- ABORT of an ABORTING part attaches to the abort job (11, R188; log entry 17). -/
theorem abortWork_aborting (hp : v.part = .aborting) :
    abortWork c v = runningWith (v.sweep.map attachAbort) v := by
  simp only [abortWork, hp, runningWith]

/-- ABORT of a HALTED part tells whether an abort has ended since the command was placed (11, R188, R190). -/
theorem abortWork_halted (hp : v.part = .halted) : abortWork c v
    = if v.mbox.abortEnded = true then completeTaken c .ok [0#32] v else completeTaken c .already [] v := by
  simp only [abortWork, hp]; rfl

end

/-- An ABORT taken in HALTED completes, and nothing is offered (07, R133; 11, R188). -/
theorem abort_reports {s : State} {res : CmdResult} {words : List Word} (htaken : takenCommand s = some 8#8)
    (hp : s.part = .halted) (hw : res ≠ .ok → words = [])
    (hwork : abortWork 8#8 (startCommand s) = completeTaken 8#8 res words (startCommand s)) :
    let t := withHanded s.handed (finishItem s (abortWork 8#8 (startCommand s)))
    t = { beginCommand s with mbox := t.mbox, res := t.res, events := t.events } ∧ Completes s t res words := by
  rw [hwork]
  obtain ⟨hrest, hoffer, hdone⟩ := command_reports htaken res words hw
  have hserve : serving (withHanded s.handed (finishItem s (completeTaken 8#8 res words (startCommand s)))) = false := by
    rw [hrest]; simp [serving, hp]
  rw [hoffer.2 hserve] at hrest
  exact ⟨hrest, hdone⟩

/-! ### A quiesce that is over at once -/

/-- A RUNNING part without a lease that quiesces is HALTED at the end of the item (11, R187). -/
theorem quiesceHalt_at_once {s u : State} (hp : s.part = .running) (hu : u.part = .quiescing)
    (hj : u.sweep.any isQuiesceJob = false) (hl : u.leases = []) : quiesceHalt s u = enterHalted u := by
  simp [quiesceHalt, quiesceOver, poolCount, hp, hu, hj, hl]

/-- QUIESCE without a lease: it completes, and the part is HALTED with nothing offered (11, R185, R187). -/
theorem quiesce_at_once {s : State} (htaken : takenCommand s = some 7#8) (hj : s.sweep.any isQuiesceJob = false)
    (hp : s.part = .running) (hl : s.leases = []) :
    let t := withHanded s.handed (finishItem s (quiesceWork 7#8 (startCommand s)))
    t = { beginCommand s with part := .halted, offered := none, mbox := t.mbox, res := t.res, events := t.events }
      ∧ Completes { s with events := s.events ||| 8#32 } t .ok [0#32, 0#32] := by
  have hkeeps := (partEntered_written .quiescing (startCommand s)).keeps
  have hpart : (partEntered .quiescing (startCommand s)).part = .quiescing := rfl
  have hevents := partEntered_events .quiescing (startCommand s)
  rw [quiesceWork_at_once (by simpa using hp) (by simpa using hl),
    completeTaken_pending _ _ (by simpa [hkeeps] using mbox_of_takenCommand htaken)]
  generalize partEntered .quiescing (startCommand s) = u at hkeeps hpart hevents
  have hcount : ∀ k, poolCount (enterHalted (completeCmd .ok [0#32, 0#32] u)) k = poolCount s k := fun k => by
    cases k <;> simp [poolCount, hkeeps]
  rw [finishItem_of_no_fence (endFenceJobs_quiet fun a ha => by rwa [agent_congr (s := s) (by simp [hkeeps])]),
    quiesceHalt_at_once hp (by simp [hpart]) (by simpa [hkeeps] using hj) (by simpa [hkeeps] using hl)]
  have hpools := endItem_pools (by simp [hkeeps]) hcount
  have hhalted : (enterHalted (completeCmd .ok [0#32, 0#32] u)).part = .halted := rfl
  have hoffered : (endItem s (enterHalted (completeCmd .ok [0#32, 0#32] u))).offered = none := by
    simp [endItem, offerTimer, serving, enterHalted, postEvent]
  refine ⟨?_, ?_, ?_, ?_⟩
  · apply State.ext <;> simp [endItem_tables, hpools, hkeeps, hhalted, hoffered]
  · simp [completeCmd, postEvent, hkeeps]
  · simp [completeCmd, postEvent]
  · have hflags : s.events ||| 8#32 ||| 1#32 ||| 8#32 = s.events ||| 8#32 ||| 1#32 := by
      rw [BitVec.or_assoc, BitVec.or_comm 1#32, ← BitVec.or_assoc, BitVec.or_assoc s.events, BitVec.or_self]
    simpa [enterHalted, completeCmd, postEvent, atBit, eventBit, hevents] using hflags

/-- Settles O50: each part state's row of QUIESCE and of ABORT. -/
theorem quiesceAndAbort : Obligations.QuiesceAndAbort := by
  have hpart : ∀ s : State, (startCommand s).part = s.part := fun s => by simp
  have hevents : ∀ (s : State) (x : PartState), (partEntered x (startCommand s)).events = s.events ||| 8#32 :=
    fun s x => (partEntered_events x _).trans (by simp)
  have hsweep : ∀ s : State, (startCommand s).sweep = s.sweep := fun s => by simp
  constructor
  · intro s htaken hj b
    refine ⟨_, exec_quiesce htaken, fun hp hl => ?_, fun hp hl => ?_, fun hp => ?_⟩
    · have hdone := command_attaches (jobs := (startCommand s).sweep ++ [.quiesce 0 true])
        (partEntered_written .quiescing (startCommand s)) fun _ => by simp [isQuiesceJob]
      rw [← quiesceWork_attached (c := 7#8) (by rwa [hpart]) (by simpa using hl), hevents, hsweep] at hdone
      exact ⟨hdone.rest, hdone.offer⟩
    · exact quiesce_at_once htaken hj hp hl
    · rw [quiesceWork_already (by rw [hpart]; rcases hp with hp | hp | hp <;> simp [hp])]
      exact command_reports htaken .already [] fun _ => rfl
  · intro s htaken b
    refine ⟨_, exec_abort htaken, fun hp => ?_, fun hp => ?_, fun hp => ?_⟩
    · have hdone := command_attaches (jobs := [.abort 0 true]) (partEntered_written .aborting (startCommand s))
        fun h => by cases h
      rw [← abortWork_serving (c := 8#8) (by rwa [hpart]), hevents] at hdone
      exact hdone.rest_of_aborting rfl
    · have hdone := command_attaches (jobs := (startCommand s).sweep.map attachAbort)
        (PartWritten.refl (startCommand s)) fun h => by simp [hp] at h
      rw [← abortWork_aborting (c := 8#8) (by rwa [hpart]), hsweep] at hdone
      exact hdone.rest_of_aborting (by rwa [hpart])
    · by_cases he : s.mbox.abortEnded = true
      · obtain ⟨hrest, hdone⟩ := abort_reports htaken hp (fun hok => absurd rfl hok)
          ((abortWork_halted (by rwa [hpart])).trans (if_pos (by simpa using he)))
        exact ⟨hrest, fun _ => hdone, fun hn => absurd he (by simp [hn])⟩
      · obtain ⟨hrest, hdone⟩ := abort_reports htaken hp (fun _ => rfl)
          ((abortWork_halted (by rwa [hpart])).trans (if_neg (by simpa using he)))
        exact ⟨hrest, fun hy => absurd hy he, fun _ => hdone⟩

end Sys2Proof.Machine
end

section
/-! The words of the reports, field by field (06, R127; 11, R196, R197, Table 11-5). -/

namespace Sys2Proof.Machine

/-! ### Fields and sets in a word -/

/-- One bit placed in a management word. -/
theorem atBit_one_getLsbD {lo : Nat} (h : lo < 32) (i : Nat) : (atBit lo 1).getLsbD i = decide (i = lo) := by
  have hpow : atBit lo 1 = BitVec.twoPow 32 lo := rfl
  rw [hpow, BitVec.getLsbD_twoPow]
  simp [h, eq_comm]

/-- The bits of a flag placed in a management word. -/
theorem flagAt_getLsbD {lo : Nat} (h : lo < 32) (b : Bool) (i : Nat) :
    (flagAt lo b).getLsbD i = (decide (i = lo) && b) := by
  cases b <;> simp [flagAt, atBit_one_getLsbD h]

/-- A bit of words joined one after another is set in the first or in one of those joined. -/
theorem foldl_or_getLsbD {α : Type} (f : α → Word) (l : List α) (w : Word) (i : Nat) :
    (l.foldl (fun w x => w ||| f x) w).getLsbD i = (w.getLsbD i || l.any fun x => (f x).getLsbD i) := by
  induction l generalizing w with
  | nil => simp
  | cons x rest ih => rw [List.foldl_cons, ih, BitVec.getLsbD_or, List.any_cons, Bool.or_assoc]

/-- A number that fits its field is the field's value. -/
theorem toNat_ofNat_of_lt {n x : Nat} (h : x < 2 ^ n) : (BitVec.ofNat n x).toNat = x := by
  rw [BitVec.toNat_ofNat, Nat.mod_eq_of_lt h]

/-! ### GET_AGENT's words -/

/-- Bits 47..32 and 31..0 of a tick fill two words (11, Table 11-5). -/
theorem tickWords_eq (n : Nat) : highWord (BitVec.ofNat 64 n) &&& 0xFFFF#32 = BitVec.ofNat 32 (n / 4294967296 % 65536)
    ∧ lowWord (BitVec.ofNat 64 n) = BitVec.ofNat 32 n := by
  constructor
  · apply BitVec.eq_of_toNat_eq
    have hmask : (0xFFFF#32).toNat = 2 ^ 16 - 1 := rfl
    rw [BitVec.toNat_and, hmask, Nat.and_two_pow_sub_one_eq_mod]
    simp only [highWord, BitVec.extractLsb'_toNat, BitVec.toNat_ofNat, Nat.shiftRight_eq_div_pow]
    omega
  · apply BitVec.eq_of_toNat_eq
    simp only [lowWord, BitVec.extractLsb'_toNat, BitVec.toNat_ofNat, Nat.shiftRight_eq_div_pow]
    omega

/-- Two counts that fit 16 bits fill a word (11, Table 11-5). -/
theorem countWords_eq {low high : Nat} (hlow : low < 65536) (hhigh : high < 65536) :
    atBit 0 low ||| atBit 16 high = BitVec.ofNat 16 high ++ BitVec.ofNat 16 low := by
  rw [← atBit_or_atBit, toNat_ofNat_of_lt hlow, toNat_ofNat_of_lt hhigh]

/-- A bit of the set of an agent's tags that are not FREE (06, R127). -/
theorem busyTags_getLsbD (s : State) (a : Agent) (i : Nat) :
    (busyTags s a).getLsbD i = allTags.any fun x => decide (i = x.val) && decide (s.tag a x ≠ .free) := by
  rw [busyTags, foldl_or_getLsbD, BitVec.getLsbD_zero, Bool.false_or]
  congr 1
  funext x
  exact flagAt_getLsbD (by omega) _ _

theorem busyTags_tag (s : State) (a : Agent) (x : Tag) :
    (busyTags s a).getLsbD x.val = decide (s.tag a x ≠ .free) := by
  have hall : x ∈ allTags := by
    have hlist : allTags = List.finRange 16 := by decide
    rw [hlist]; exact List.mem_finRange x
  rw [busyTags_getLsbD, Bool.eq_iff_iff, List.any_eq_true]
  constructor
  · rintro ⟨y, -, hy⟩
    obtain ⟨hxy, hbusy⟩ := by simpa only [Bool.and_eq_true, decide_eq_true_eq] using hy
    rw [Fin.ext hxy]; exact decide_eq_true hbusy
  · exact fun h => ⟨x, hall, by rw [h]; simp⟩

theorem busyTags_above (s : State) (a : Agent) {i : Nat} (h : 16 ≤ i) : (busyTags s a).getLsbD i = false := by
  rw [busyTags_getLsbD, List.any_eq_false]
  intro x _
  have hne : i ≠ x.val := by omega
  simp [hne]

/-- An agent's fence job is in the list, attached or not (06, R127). -/
theorem fenceJobPresent_iff (s : State) (a : Agent) :
    fenceJobPresent s a = true ↔ Job.fence a true ∈ s.sweep ∨ Job.fence a false ∈ s.sweep := by
  rw [fenceJobPresent, List.any_eq_true]
  constructor
  · rintro ⟨j, hj, hof⟩
    cases j with
    | fence b att =>
      obtain rfl : b = a := of_decide_eq_true hof
      cases att
      · exact .inr hj
      · exact .inl hj
    | quiesce | abort => cases hof
  · rintro (h | h) <;> exact ⟨_, h, decide_eq_true rfl⟩

/-- The word of the tags and of the fence job (11, Table 11-5). -/
def tagsWord (s : State) (a : Agent) : Word := busyTags s a ||| flagAt 16 (fenceJobPresent s a)

theorem tagsWord_getLsbD (s : State) (a : Agent) (i : Nat) : (tagsWord s a).getLsbD i
    = ((busyTags s a).getLsbD i || (decide (i = 16) && fenceJobPresent s a)) := by
  rw [tagsWord, BitVec.getLsbD_or, flagAt_getLsbD (by omega)]

theorem tagsWord_tag (s : State) (a : Agent) (x : Tag) :
    (tagsWord s a).getLsbD x.val = decide (s.tag a x ≠ .free) := by
  have hne : x.val ≠ 16 := by omega
  rw [tagsWord_getLsbD, busyTags_tag]; simp [hne]

theorem tagsWord_job (s : State) (a : Agent) :
    (tagsWord s a).getLsbD 16 = decide (Job.fence a true ∈ s.sweep ∨ Job.fence a false ∈ s.sweep) := by
  rw [tagsWord_getLsbD, busyTags_above s a (Nat.le_refl 16), Bool.false_or, decide_eq_true rfl, Bool.true_and,
    Bool.eq_iff_iff, decide_eq_true_iff]
  exact fenceJobPresent_iff s a

theorem tagsWord_above (s : State) (a : Agent) {i : Nat} (h : 17 ≤ i) : (tagsWord s a).getLsbD i = false := by
  have hne : i ≠ 16 := by omega
  rw [tagsWord_getLsbD, busyTags_above s a (by omega)]; simp [hne]

/-! ### INSPECT_LOCK's words -/

/-- The bit of the agent that owns a holder (11, R196). -/
def holderBit (s : State) (h : Handle) : Word := ((leaseAt s h.num).map fun l => atBit l.agent.val 1).getD 0#32

theorem holderAgents_eq (s : State) (r : LockRecord) :
    holderAgents s r = r.holders.foldl (fun w h => w ||| holderBit s h) 0#32 := by
  rw [holderAgents]
  congr 1
  funext w h
  unfold holderBit
  cases leaseAt s h.num <;> simp

theorem holderBit_getLsbD (s : State) (h : Handle) (a : Agent) :
    (holderBit s h).getLsbD a.val = true ↔ ∃ l, leaseAt s h.num = some l ∧ l.agent = a := by
  unfold holderBit
  cases leaseAt s h.num with
  | none => simp
  | some l =>
    simp only [Option.map_some, Option.getD_some, atBit_one_getLsbD l.agent.isLt, decide_eq_true_eq, Option.some.injEq,
      exists_eq_left', Fin.ext_iff]
    exact eq_comm

/-- A bit of the set of the agents that own a record's holders (11, R196). -/
theorem holderAgents_getLsbD (s : State) (r : LockRecord) (a : Agent) : (holderAgents s r).getLsbD a.val = true
    ↔ ∃ h ∈ r.holders, ∃ l, leaseAt s h.num = some l ∧ l.agent = a := by
  rw [holderAgents_eq, foldl_or_getLsbD, BitVec.getLsbD_zero, Bool.false_or, List.any_eq_true]
  simp only [holderBit_getLsbD]

/-- Three fields of a byte each (11, Table 11-5). -/
theorem threeBytes_eq (low mid high : Byte) :
    atBit 0 low.toNat ||| atBit 8 mid.toNat ||| atBit 16 high.toNat = 0#8 ++ high ++ mid ++ low := by
  refine BitVec.eq_of_getLsbD_eq fun i hi => ?_
  simp only [BitVec.getLsbD_or, atBit_getLsbD, BitVec.getLsbD_append]
  interval_cases i <;> simp

/-- A record's number and its domain index (11, Table 11-5). -/
theorem recordWord_eq (d : BitVec 4) (n : BitVec 12) :
    atBit 0 n.toNat ||| atBit 16 d.toNat = 0#12 ++ d ++ 0#4 ++ n := by
  refine BitVec.eq_of_getLsbD_eq fun i hi => ?_
  simp only [BitVec.getLsbD_or, atBit_getLsbD, BitVec.getLsbD_append]
  interval_cases i <;> simp

/-- An upgrade's flag, tag and handle (11, Table 11-5). -/
theorem upgradeBits_eq (tag : BitVec 4) (gen : Byte) (num : BitVec 13) :
    atBit 31 1 ||| atBit 24 tag.toNat ||| atBit 16 gen.toNat ||| atBit 0 num.toNat
      = 1#1 ++ 0#3 ++ tag ++ gen ++ 0#3 ++ num := by
  have hone : atBit 31 1 = atBit 31 (1#1).toNat := rfl
  refine BitVec.eq_of_getLsbD_eq fun i hi => ?_
  simp only [hone, BitVec.getLsbD_or, atBit_getLsbD, BitVec.getLsbD_append]
  interval_cases i <;> simp

theorem upgradeWord_none {r : LockRecord} (h : r.slot = none) : upgradeWord r = 0#32 := by rw [upgradeWord, h]

theorem upgradeWord_some {r : LockRecord} {u : Upgrade} (h : r.slot = some u) (hn : u.lease.num < 8192) :
    upgradeWord r
      = 1#1 ++ 0#3 ++ BitVec.ofNat 4 u.tag.val ++ u.lease.gen ++ 0#3 ++ BitVec.ofNat 13 u.lease.num := by
  rw [← upgradeBits_eq, toNat_ofNat_of_lt u.tag.isLt, toNat_ofNat_of_lt hn, upgradeWord, h]

/-- The words of a record whose numbers fit their fields (11, R196, Table 11-5). -/
theorem lockWords_eq (s : State) {n : Nat} {r : LockRecord} (hn : n < 4096) (hh : r.holders.length < 256)
    (hq : r.queue.length < 256) : lockWords s n r
    = [0#8 ++ BitVec.ofNat 8 r.queue.length ++ BitVec.ofNat 8 r.holders.length
         ++ (if r.mode = .shared then 1#8 else 2#8), holderAgents s r, upgradeWord r,
       r.lastToken.extractLsb' 32 32, r.lastToken.extractLsb' 0 32,
       0#12 ++ BitVec.ofNat 4 r.domain.val ++ 0#4 ++ BitVec.ofNat 12 n] := by
  have hmode : modeCode r.mode < 2 ^ 8 := by cases r.mode <;> decide
  rw [← modeCode_ofNat, ← threeBytes_eq, ← recordWord_eq, toNat_ofNat_of_lt hmode, toNat_ofNat_of_lt hh,
    toNat_ofNat_of_lt hq, toNat_ofNat_of_lt hn, toNat_ofNat_of_lt r.domain.isLt]
  rfl

/-! ### INSPECT_LEASE's words -/

/-- State, generation, agent and mode of a lease entry (11, R197, Table 11-5). -/
theorem leaseBits_eq (state gen : Byte) (agent : BitVec 5) (mode : BitVec 2) :
    atBit 0 state.toNat ||| atBit 8 gen.toNat ||| atBit 16 agent.toNat ||| atBit 24 mode.toNat
      = 0#6 ++ mode ++ 0#3 ++ agent ++ gen ++ state := by
  refine BitVec.eq_of_getLsbD_eq fun i hi => ?_
  simp only [BitVec.getLsbD_or, atBit_getLsbD, BitVec.getLsbD_append]
  interval_cases i <;> simp

section
variable {s : State} {k : Nat}

theorem leaseWords_free (h : tableGet s.leases k = none) : leaseWords s k = [0#16 ++ genOf s k ++ 0#8] := by
  have hbits : _ = 0#16 ++ genOf s k ++ 0#8 := leaseBits_eq 0#8 (genOf s k) 0#5 0#2
  rw [← hbits]
  simp [leaseWords, h, atBit]

theorem leaseWords_reserved {a : Agent} {w : Nat} (h : tableGet s.leases k = some (.reserved a w)) :
    leaseWords s k = [0#11 ++ BitVec.ofNat 5 a.val ++ genOf s k ++ 1#8] := by
  have hbits : _ = 0#11 ++ BitVec.ofNat 5 a.val ++ genOf s k ++ 1#8 :=
    leaseBits_eq 1#8 (genOf s k) (BitVec.ofNat 5 a.val) 0#2
  rw [← hbits, toNat_ofNat_of_lt (n := 5) a.isLt]
  simp [leaseWords, h, atBit]

/-- The words of a lease in use on its record (02, R34; 11, R197, Table 11-5). -/
theorem leaseWords_inUse {l : Lease} {r : LockRecord} (h : tableGet s.leases k = some (.inUse l))
    (hr : tableGet s.records l.record = some r) : leaseWords s k
    = [0#6 ++ (if l.mode = .shared then 1#2 else 2#2) ++ 0#3 ++ BitVec.ofNat 5 l.agent.val ++ genOf s k ++ 2#8,
       r.key.extractLsb' 32 32, r.key.extractLsb' 0 32, l.token.extractLsb' 32 32, l.token.extractLsb' 0 32,
       BitVec.ofNat 32 (effectiveDeadline s l / 4294967296 % 65536), BitVec.ofNat 32 (effectiveDeadline s l),
       BitVec.ofNat 32 l.duration] := by
  obtain ⟨hhigh, hlow⟩ := tickWords_eq (effectiveDeadline s l)
  have hmode : modeCode l.mode = (if l.mode = .shared then 1#2 else 2#2).toNat := by cases l.mode <;> rfl
  rw [← leaseBits_eq, toNat_ofNat_of_lt (n := 5) l.agent.isLt, ← hmode, ← hhigh, ← hlow]
  simp only [leaseWords, h, hr]
  rfl

end

end Sys2Proof.Machine
end

section
/-! GET_AGENT, INSPECT_LOCK, INSPECT_LEASE and an unknown code (06, R127; 11, R192, R196, R197). -/

namespace Sys2Proof.Machine

/-- A command taken has completed and changed nothing else but the clock's offer (11, R191). -/
structure Reported (s t : State) (res : CmdResult) (words : List Word) : Prop where
  rest : t = { beginCommand s with mbox := t.mbox, res := t.res, events := t.events, offered := t.offered }
  offer : OfferStands (beginCommand s) t
  completes : Completes s t res words

/-- The words reported are those that they spell. -/
theorem Reported.completes_eq {s t : State} {res : CmdResult} {words spelt : List Word} (h : Reported s t res words)
    (hw : words = spelt) : Completes s t res spelt := hw ▸ h.completes

/-- A command taken whose work completes it and does nothing else. -/
theorem exec_reported {i : Instr} {isCode : Byte → Bool} {work : Byte → State → State} {s : State} {c : Byte}
    {res : CmdResult} {words : List Word} (harm : exec i s = takeCommand isCode work s)
    (h : takenCommand s = some c) (hc : isCode c = true)
    (hwork : work c (startCommand s) = completeTaken c res words (startCommand s))
    (hw : res ≠ .ok → words = []) : ∃ t, exec i s = .next t ∧ Reported s t res words := by
  obtain ⟨hrest, hoffer, hdone⟩ := command_reports h res words hw
  refine ⟨_, ?_, ⟨hrest, hoffer, hdone⟩⟩
  rw [harm, takeCommand_taken h hc, ← hwork]; rfl

/-- A result word of a command that reports up to eight (11, R191). -/
theorem Reported.word {s t : State} {res : CmdResult} {words : List Word} (h : Reported s t res words) (i : Fin 8) :
    t.res.get i = words.getD i.val 0#32 := by
  obtain ⟨-, hres, -⟩ := h.completes
  rw [hres, eightWords, Vector.get_eq_getElem, Vector.getElem_ofFn]

/-! ### What the take leaves of the tables that are reported -/

section
variable {s v : State} (h : Taken s v)
include h

theorem Taken.tagsWord (a : Agent) : tagsWord v a = tagsWord s a :=
  h.read (Machine.tagsWord · a) fun _ _ _ _ _ => rfl

theorem Taken.waitCount (a : Agent) : waitCount v a = waitCount s a :=
  h.read (Machine.waitCount · a) fun _ _ _ _ _ => rfl

theorem Taken.lockWords (n : Nat) (r : LockRecord) : lockWords v n r = lockWords s n r :=
  h.read (Machine.lockWords · n r) fun _ _ _ _ _ => rfl

theorem Taken.leaseWords (k : Nat) : leaseWords v k = leaseWords s k :=
  h.read (Machine.leaseWords · k) fun _ _ _ _ _ => rfl

end

/-! ### GET_AGENT -/

/-- The words that report an agent (06, R127, Table 11-5). -/
def reportedAgent (s : State) (a : Agent) : List Word :=
  agentWords (s.agent a) ++
    [BitVec.ofNat 32 ((s.agent a).keepalive / 4294967296 % 65536), BitVec.ofNat 32 (s.agent a).keepalive,
     atBit 0 (s.agent a).leases.length ||| atBit 16 (waitCount s a), tagsWord s a]

/-- The words of an agent whose counts fit their fields (06, R127, Table 11-5). -/
theorem reportedAgent_eq {s : State} {a : Agent} (hleases : (s.agent a).leases.length < 65536)
    (hwaits : waitCount s a < 65536) :
    let g := s.agent a
    reportedAgent s a = [g.epoch ++ (if g.state = .disabled then 0#16 else if g.state = .active then 1#16
      else if g.state = .fencing then 2#16 else 3#16), BitVec.ofNat 32 g.quota,
      BitVec.ofNat 32 (g.keepalive / 4294967296 % 65536), BitVec.ofNat 32 g.keepalive,
      BitVec.ofNat 16 (waitCount s a) ++ BitVec.ofNat 16 g.leases.length, tagsWord s a] := by
  rw [reportedAgent, agentWords_eq, agentStateCode_eq, countWords_eq hleases hwaits]; rfl

theorem getAgentWork_noAgent {c : Byte} {v : State} (h : argAgent v = none) :
    getAgentWork c v = completeTaken c .invalid [] v := by
  simp only [getAgentWork, h]

theorem getAgentWork_reported {c : Byte} {v : State} {a : Agent} (h : argAgent v = some a) :
    getAgentWork c v = completeTaken c .ok (reportedAgent v a) v := by
  obtain ⟨hhigh, hlow⟩ := tickWords_eq (v.agent a).keepalive
  simp only [getAgentWork, h, hhigh, hlow]; rfl

theorem exec_getAgent_none {s : State} (htaken : takenCommand s = some 4#8)
    (h : 32 ≤ bitField (argWord s 0) 0 8) : ∃ t, exec .getAgent s = .next t ∧ Reported s t .invalid [] :=
  exec_reported rfl htaken rfl (getAgentWork_noAgent (argAgent_none (by rwa [argWord_startCommand]))) fun _ => rfl

theorem exec_getAgent_some {s : State} {a : Agent} (htaken : takenCommand s = some 4#8)
    (h : bitField (argWord s 0) 0 8 = a.val) :
    ∃ t, exec .getAgent s = .next t ∧ Reported s t .ok (reportedAgent s a) := by
  have hv := startCommand_taken s
  have hwords : reportedAgent (startCommand s) a = reportedAgent s a := by
    simp only [reportedAgent, hv.agent, hv.waitCount, hv.tagsWord]
  rw [← hwords]
  exact exec_reported rfl htaken rfl (getAgentWork_reported (argAgent_some (by rwa [argWord_startCommand])))
    fun hok => absurd rfl hok

/-! ### INSPECT_LOCK -/

/-- The key that INSPECT_LOCK's arguments spell names the record it named before the take. -/
theorem recordOfArgs_startCommand (s : State) :
    recordOfKey (startCommand s) (argPair (startCommand s) 0 1) = recordOfKey s (argPair s 0 1) :=
  (startCommand_taken s).read (fun s => recordOfKey s (argPair s 0 1)) fun _ _ _ _ _ => rfl

theorem exec_inspectLock_none {s : State} (htaken : takenCommand s = some 0x0C#8)
    (h : recordOfKey s (argPair s 0 1) = none) : ∃ t, exec .inspectLock s = .next t ∧ Reported s t .notFound [] :=
  exec_reported rfl htaken rfl (by simp only [inspectLockWork, recordOfArgs_startCommand, h]) fun _ => rfl

theorem exec_inspectLock_some {s : State} {n : Nat} {r : LockRecord} (htaken : takenCommand s = some 0x0C#8)
    (h : recordOfKey s (argPair s 0 1) = some (n, r)) :
    ∃ t, exec .inspectLock s = .next t ∧ Reported s t .ok (lockWords s n r) :=
  exec_reported rfl htaken rfl
    (by simp only [inspectLockWork, recordOfArgs_startCommand, h, (startCommand_taken s).lockWords])
    fun hok => absurd rfl hok

/-! ### INSPECT_LEASE -/

theorem exec_inspectLease_invalid {s : State} (htaken : takenCommand s = some 0x0D#8)
    (h : 8192 ≤ bitField (argWord s 0) 0 16) : ∃ t, exec .inspectLease s = .next t ∧ Reported s t .invalid [] :=
  exec_reported rfl htaken rfl (if_neg (by rw [argWord_startCommand]; exact Nat.not_lt.2 h)) fun _ => rfl

theorem exec_inspectLease_reported {s : State} (htaken : takenCommand s = some 0x0D#8)
    (h : bitField (argWord s 0) 0 16 < 8192) :
    ∃ t, exec .inspectLease s = .next t ∧ Reported s t .ok (leaseWords s (bitField (argWord s 0) 0 16)) :=
  exec_reported rfl htaken rfl
    (by rw [← argWord_startCommand, ← (startCommand_taken s).leaseWords]
        exact if_pos (by rw [argWord_startCommand]; exact h))
    fun hok => absurd rfl hok

/-! ### An unknown code -/

theorem exec_unknownCommand {s : State} {c : Byte} (htaken : takenCommand s = some c) (h : codeNamed c = false) :
    ∃ t, exec .unknownCommand s = .next t ∧ Reported s t .invalid [] :=
  exec_reported rfl htaken (by rw [h]; rfl) rfl fun _ => rfl

/-! ### The statement -/

/-- Settles O48: each command completes with its report, and nothing else changes. -/
theorem reportsChangeNothing : Obligations.ReportsChangeNothing := by
  unfold Obligations.ReportsChangeNothing
  intro unchanged
  refine ⟨fun s htaken => ?_, fun s htaken => ?_, fun s htaken => ?_, fun s c htaken hc => ?_⟩
  · by_cases hbig : 32 ≤ bitField (argWord s 0) 0 8
    · obtain ⟨t, hexec, hdone⟩ := exec_getAgent_none htaken hbig
      exact ⟨t, hexec, ⟨hdone.rest, hdone.offer⟩, fun _ => hdone.completes, fun a ha => absurd a.isLt (by omega)⟩
    · obtain ⟨a, ha⟩ : ∃ a : Agent, bitField (argWord s 0) 0 8 = a.val := ⟨⟨_, Nat.not_le.1 hbig⟩, rfl⟩
      obtain ⟨t, hexec, hdone⟩ := exec_getAgent_some htaken ha
      refine ⟨t, hexec, ⟨hdone.rest, hdone.offer⟩, fun h => absurd h hbig, fun x hx => ?_⟩
      obtain rfl : a = x := Fin.ext (ha.symm.trans hx)
      intro g waits code tags hleases hwaits
      have htags : tags = tagsWord s a := hdone.word 5
      rw [htags]
      exact ⟨hdone.completes_eq (reportedAgent_eq hleases hwaits), tagsWord_tag s a, tagsWord_job s a,
        fun i => tagsWord_above s a⟩
  · cases hkey : recordOfKey s (argPair s 0 1) with
    | none =>
      obtain ⟨t, hexec, hdone⟩ := exec_inspectLock_none htaken hkey
      exact ⟨t, hexec, ⟨hdone.rest, hdone.offer⟩, fun _ => hdone.completes, (by simp)⟩
    | some e =>
      obtain ⟨n, rec⟩ := e
      obtain ⟨t, hexec, hdone⟩ := exec_inspectLock_some htaken hkey
      refine ⟨t, hexec, ⟨hdone.rest, hdone.offer⟩, (by simp), fun n' rec' h => ?_⟩
      cases h
      intro mode upgrade agents hn hholders hqueue
      have hagents : agents = holderAgents s rec := hdone.word 1
      have hupgrade : t.res.get 2 = upgradeWord rec := hdone.word 2
      rw [hagents, hupgrade]
      exact ⟨hdone.completes_eq (lockWords_eq s hn hholders hqueue),
        ⟨upgradeWord_none, fun u hu hnum => upgradeWord_some hu hnum⟩, holderAgents_getLsbD s rec⟩
  · by_cases hbig : 8192 ≤ bitField (argWord s 0) 0 16
    · obtain ⟨t, hexec, hdone⟩ := exec_inspectLease_invalid htaken hbig
      have hnot := Nat.not_lt.2 hbig
      exact ⟨t, hexec, ⟨hdone.rest, hdone.offer⟩, fun _ => hdone.completes, fun h => absurd h hnot,
        fun h => absurd h hnot, fun h => absurd h hnot⟩
    · obtain ⟨t, hexec, hdone⟩ := exec_inspectLease_reported htaken (Nat.not_le.1 hbig)
      exact ⟨t, hexec, ⟨hdone.rest, hdone.offer⟩, fun h => absurd h hbig,
        fun _ hfree => hdone.completes_eq (leaseWords_free hfree),
        fun _ a w hres => hdone.completes_eq (leaseWords_reserved hres),
        fun _ l rec hl hr => hdone.completes_eq (leaseWords_inUse hl hr)⟩
  · have hnamed : codeNamed c = false := by
      rcases hc with rfl | hc
      · rfl
      · simp [codeNamed]; omega
    obtain ⟨t, hexec, hdone⟩ := exec_unknownCommand htaken hnamed
    exact ⟨t, hexec, ⟨hdone.rest, hdone.offer⟩, hdone.completes⟩

end Sys2Proof.Machine
end

section
/-! Due order, and what the clock offers (07, R131 to R133; O10). -/

namespace Sys2Proof.Machine

/-! ### Due order -/

/-- Due order is strict: no entry comes before itself (07, R132). -/
theorem dueBefore_irrefl (s : State) (e : TimedEntry) : dueBefore s e e = false := by
  simp [dueBefore]

theorem dueBefore_asymm {s : State} {a b : TimedEntry} (h : dueBefore s a b = true) : dueBefore s b a = false := by
  simp only [dueBefore, decide_eq_true_eq, decide_eq_false_iff_not] at h ⊢
  omega

/-- An entry that does not come before `b` does not come before anything that `b` does not come before. -/
theorem dueBefore_false_trans {s : State} {a b c : TimedEntry} (hab : dueBefore s a b = false)
    (hbc : dueBefore s b c = false) : dueBefore s a c = false := by
  simp only [dueBefore, decide_eq_false_iff_not] at hab hbc ⊢
  omega

/-- The deadlines alone decide the order of two entries. -/
theorem dueBefore_congr {s t : State} (h : ∀ e, deadlineOf t e = deadlineOf s e) (a b : TimedEntry) :
    dueBefore t a b = dueBefore s a b := by
  simp only [dueBefore, h]

/-- The deadlines alone decide the head of a list. -/
theorem dueHead_congr {s t : State} (h : ∀ e, deadlineOf t e = deadlineOf s e) (l : List TimedEntry) :
    dueHead t l = dueHead s l := by
  induction l with
  | nil => rfl
  | cons e rest ih => simp only [dueHead, ih, dueBefore_congr h]

theorem dueHead_eq_none_iff {s : State} {l : List TimedEntry} : dueHead s l = none ↔ l = [] := by
  cases l with
  | nil => simp [dueHead]
  | cons e rest =>
    simp only [dueHead, reduceCtorEq, iff_false]
    split
    · simp
    · split <;> simp

/-- The head of a list is of the list, and nothing of the list comes before it (07, R132). -/
theorem dueHead_earliest {s : State} {l : List TimedEntry} {x : TimedEntry} (h : dueHead s l = some x) :
    x ∈ l ∧ ∀ m ∈ l, dueBefore s m x = false := by
  induction l generalizing x with
  | nil => cases h
  | cons e rest ih =>
    cases hrest : dueHead s rest with
    | none =>
      obtain rfl := dueHead_eq_none_iff.1 hrest
      obtain rfl : e = x := by simpa [dueHead] using h
      simp [dueBefore_irrefl]
    | some y =>
      obtain ⟨hy, hfirst⟩ := ih hrest
      simp only [dueHead, hrest] at h
      by_cases hye : dueBefore s y e = true
      · obtain rfl : y = x := by simpa [hye] using h
        exact ⟨List.mem_cons_of_mem _ hy, List.forall_mem_cons.2 ⟨dueBefore_asymm hye, hfirst⟩⟩
      · obtain rfl : e = x := by simpa [hye] using h
        have hlater : ∀ m ∈ rest, dueBefore s m e = false := fun m hm =>
          dueBefore_false_trans (hfirst m hm) (Bool.eq_false_of_not_eq_true hye)
        exact ⟨List.mem_cons_self, List.forall_mem_cons.2 ⟨dueBefore_irrefl s e, hlater⟩⟩

/-! ### Marks and offers -/

/-- The comparison at a tick marks what is due and unmarks nothing (07, R131). -/
theorem mem_markAllDue (s : State) (e : TimedEntry) :
    e ∈ (markAllDue s).marks ↔ e ∈ s.marks ∨ (e ∈ timedEntries s ∧ isDue s e = true) := by
  simp only [markAllDue, List.mem_append, List.mem_filter, Bool.and_eq_true, Bool.not_eq_true', decide_eq_false_iff_not]
  tauto

/-- The clock makes no offer over one that stands, and none while the part does not serve (07, R133). -/
theorem offerTimer_stands {s : State} (h : s.offered ≠ none ∨ serving s = false) :
    (offerTimer s).offered = s.offered := by
  rw [offerTimer, if_neg]
  rintro ⟨hnone, hserving⟩
  rcases h with h | h
  · exact h hnone
  · simp [hserving] at h

/-- With nothing offered, the clock of a part that serves offers the head of the due set (07, R133). -/
theorem offerTimer_offers {s : State} (hnone : s.offered = none) (hserving : serving s = true) :
    (offerTimer s).offered = dueHead s s.marks := by
  rw [offerTimer, if_pos ⟨hnone, hserving⟩]

/-- MARK_DUE changes the marks and the offer alone. -/
theorem markDue_rest (s : State) : offerTimer (markAllDue s)
    = { s with marks := (offerTimer (markAllDue s)).marks, offered := (offerTimer (markAllDue s)).offered } := by
  apply State.ext <;> simp

/-- Settles O10: TICK is its one write; MARK_DUE is the comparison, and then the offer of the due set's head. -/
theorem ticksMarkAndOfferTheEarliest : Obligations.TicksMarkAndOfferTheEarliest := by
  intro s
  refine ⟨⟨_, rfl, rfl, rfl⟩, offerTimer (markAllDue s), rfl, markDue_rest s, ?_, ?_, fun hnone hserving => ?_⟩
  · intro e
    rw [← mem_markAllDue]
    simp
  · intro h
    have hmarked : (markAllDue s).offered ≠ none ∨ serving (markAllDue s) = false := h
    exact offerTimer_stands hmarked
  · have hhead : (offerTimer (markAllDue s)).offered = dueHead s (offerTimer (markAllDue s)).marks := by
      have hmarks : (offerTimer (markAllDue s)).marks = (markAllDue s).marks := by simp
      rw [hmarks, offerTimer_offers (s := markAllDue s) hnone hserving]
      exact dueHead_congr (fun e => by cases e <;> rfl) _
    rw [hhead]
    exact ⟨dueHead_eq_none_iff, fun e => dueHead_earliest⟩

end Sys2Proof.Machine
end

section
/-! What a take changes, and the next choice (09, R154 to R156; 10, R171; O13). -/

namespace Sys2Proof.Machine

/-! ### The choice that stands at a take -/

theorem withChoice_of_chosen {s : State} (h : s.chosen ≠ none) : withChoice s = s := if_neg h

/-- Making the choice that stands changes the arbiter alone. -/
theorem withChoice_taken (s : State) : Taken s (withChoice s) := by
  unfold Taken; apply State.ext <;> simp

theorem Taken.deadlineOf {s v : State} (h : Taken s v) (e : TimedEntry) : deadlineOf v e = deadlineOf s e :=
  h.read (Machine.deadlineOf · e) fun _ _ _ _ _ => by cases e <;> rfl

/-- The request taken is the head of its FIFO (09, R152). -/
theorem fifo_of_takenRequest {s : State} {p : Port} {r : Request} (h : takenRequest s = some (p, r)) :
    (s.port p).fifo.head? = some r := by
  unfold takenRequest at h
  split at h
  · obtain ⟨r', hhead, heq⟩ := Option.map_eq_some_iff.1 h
    cases heq
    exact hhead
  · cases h

/-! ### The takes -/

/-- The take of an item that leaves one port: the next choice is made from the part with that port written, and only
the port and the arbiter change (09, R155, R156). -/
theorem beginTake_updPort (p : Port) (f : PortState → PortState) (s : State) :
    let b := beginTake (updPort p f) s
    let u := { withChoice s with ports := b.ports }
    b = choose (eligible u) u
      ∧ b = { s with ports := b.ports, chosen := b.chosen, outer := b.outer, inner := b.inner }
      ∧ b.port p = f (s.port p) ∧ ∀ q, q ≠ p → b.port q = s.port q := by
  intro b u
  have hports : b.ports = (updPort p f (withChoice s)).ports := by simp [b, beginTake_eq]
  have hu : u = updPort p f (withChoice s) := by simp only [u, hports]; rfl
  have hchoice : ∀ q, (withChoice s).port q = s.port q := port_congr (by simp)
  have hread : ∀ q, b.port q = if q = p then f (s.port p) else s.port q := fun q => by
    rw [port_congr hports, updPort_port, hchoice, hchoice]
  refine ⟨by rw [hu]; rfl, ?_, by rw [hread, if_pos rfl], fun q hq => by rw [hread, if_neg hq]⟩
  apply State.ext <;> simp [b, beginTake_eq]

/-- At the take of a TIMER item the clock offers the head of what else is marked (07, R133; log entry 8). -/
theorem beginTimer_offered (e : TimedEntry) (s : State) :
    (beginTake (takeOffer e) s).offered = dueHead s (s.marks.filter fun m => m ≠ e) := by
  have htake : (beginTake (takeOffer e) s).offered = (takeOffer e (withChoice s)).offered := by simp [beginTake_eq]
  rw [htake, ← dueHead_congr (withChoice_taken s).deadlineOf]
  simp [takeOffer]

/-- The next choice at the take of a TIMER item is made from the part with the new offer (09, R155). -/
theorem beginTimer_choice (e : TimedEntry) (s : State) :
    let u := { withChoice s with offered := (beginTake (takeOffer e) s).offered }
    beginTake (takeOffer e) s = choose (eligible u) u := by
  intro u
  have htake : (beginTake (takeOffer e) s).offered = (takeOffer e (withChoice s)).offered := by simp [beginTake_eq]
  have hu : u = takeOffer e (withChoice s) := by simp only [u, htake]; rfl
  rw [hu]; rfl

/-- The offer made at the take of a TIMER item: the earliest marked entry other than the one taken (07, R132, R133). -/
theorem beginTimer_offer (e : TimedEntry) (s : State) :
    let o := (beginTake (takeOffer e) s).offered
    (o = none ↔ ∀ m ∈ s.marks, m = e)
      ∧ ∀ x, o = some x → x ∈ s.marks ∧ x ≠ e ∧ ∀ m ∈ s.marks, m ≠ e → dueBefore s m x = false := by
  intro o
  have ho : o = dueHead s (s.marks.filter fun m => m ≠ e) := beginTimer_offered e s
  refine ⟨by simp [ho, dueHead_eq_none_iff], fun x hx => ?_⟩
  obtain ⟨hmem, hfirst⟩ := dueHead_earliest (ho.symm.trans hx)
  simp only [List.mem_filter, decide_eq_true_eq] at hmem hfirst
  exact ⟨hmem.1, hmem.2, fun m hm hne => hfirst m ⟨hm, hne⟩⟩

/-- The turn of a chosen member with nothing to offer is used by the next choice (09, R156). -/
theorem exec_emptyTake {s : State} {m : Member} (hm : s.chosen = some m) (he : eligible s m = false) :
    exec .emptyTake s = .next (choose (eligible s) s) := by
  have harm : exec .emptyTake s = execEmptyTake s := rfl
  have htake : beginTake id s = choose (eligible s) s := by
    rw [beginTake_eq, withChoice_of_chosen (by simp [hm])]; rfl
  simp [harm, execEmptyTake, hm, he, htake]

/-- Settles O13: a take is the choice that stands, the item's removal from its member, and the next choice. -/
theorem takesUseTheTurn : Obligations.TakesUseTheTurn := by
  refine ⟨fun s => ?_, fun s m hm he => ?_⟩
  · intro w
    refine ⟨withChoice_of_chosen, fun h => if_pos h, fun p r htaken => ?_, ?_, ?_, fun e => ?_, fun p => ?_⟩
    · obtain ⟨hchoice, hrest, hport, hothers⟩ := beginTake_updPort p _ s
      refine ⟨hchoice, hrest, fifo_of_takenRequest htaken, hport.trans ?_, hothers⟩
      by_cases hfree : s.tag (senderOf p r) r.tag = .free <;> simp [tagIsBusy, hfree]
    · refine ⟨rfl, ?_⟩
      apply State.ext <;> simp
    · refine ⟨rfl, ?_⟩
      apply State.ext <;> simp
    · refine ⟨beginTimer_choice e s, ?_, beginTimer_offer e s⟩
      apply State.ext <;> simp
    · exact beginTake_updPort p _ s
  · refine ⟨_, exec_emptyTake hm he, ?_, rfl⟩
    apply State.ext <;> simp

end Sys2Proof.Machine
end

section
/-! A TIMER item whose entry is not due (07, R134; O39). -/

namespace Sys2Proof.Machine

/-! ### The item does nothing -/

section
variable {v : State}

theorem leaseItem_not_due {k : Nat} (h : isDue v (.lease k) = false) : leaseItem k v = v := by
  unfold leaseItem
  cases hl : leaseAt v k with
  | none => rfl
  | some l =>
    have hd : ¬ effectiveDeadline v l ≤ v.now := by simpa [isDue, deadlineOf, hl] using h
    simp [hd]

theorem deadlineReached_deadlineOf (s : State) (e : TimedEntry) : deadlineReached s (deadlineOf s e) = isDue s e := rfl

theorem waitItem_not_due {w : Nat} (h : isDue v (.wait w) = false) : waitItem w v = v := by
  unfold waitItem
  cases hw : tableGet v.waits w with
  | none => rfl
  | some e =>
    have hd : deadlineReached v e.deadline = false := by
      rw [← h, ← deadlineReached_deadlineOf, deadlineOf, hw]; rfl
    simp [hd]

theorem upgradeItem_not_due {n : Nat} (h : isDue v (.upgrade n) = false) : upgradeItem n v = v := by
  simp [upgradeItem, deadlineReached_deadlineOf, h]

end

/-- The take of a TIMER item moves no deadline. -/
theorem isDue_startTimer (e x : TimedEntry) (s : State) : isDue (startTimer e s) x = isDue s x := by
  have hview : view (startTimer e s) = view s := (startTimer_taken e s).view.trans rfl
  rw [Bool.eq_iff_iff, isDue_iff_view, isDue_iff_view, hview]
  simp

/-! ### The item's end -/

/-- An item that does nothing ends with the clock's offer alone (07, R133). -/
theorem finishItem_startTimer (e : TimedEntry) (s : State) :
    withHanded s.handed (finishItem s (startTimer e s)) = endItem s (startTimer e s) := by
  have hcount : ∀ k, poolCount (startTimer e s) k = poolCount s k := (startTimer_taken e s).poolCount
  rw [finishItem_quiet (fun a => (startTimer_taken e s).agent a ▸ rfl) (by simp) (by simp) hcount, endItem,
    publishCounts_quiet fun k => by simp [hcount]]

/-- A TIMER item that does nothing uses its turn and clears the offer, and that is all. -/
theorem timerItem_dropped (e : TimedEntry) (s : State) :
    let b := beginTake (takeOffer e) s
    let t := endItem s (startTimer e s)
    t = { b with offered := t.offered } ∧ b.ports = s.ports ∧ b.marks = s.marks ∧ OfferStands b t := by
  intro b t
  have hpools : t.pools = s.pools := endItem_pools (by simp) (startTimer_taken e s).poolCount
  refine ⟨?_, by simp [b], by simp [b], endItem_offerStands (by simp [b])⟩
  apply State.ext <;> simp [hpools, t, b, endItem_tables]

/-- Settles O39: the item of each kind of entry does nothing, so that the take and the item's end are all. -/
theorem movedDeadlinesAreDropped : Obligations.MovedDeadlinesAreDropped := by
  intro s e htaken hdue b
  have hnot : isDue (startTimer e s) e = false := (isDue_startTimer e e s).trans hdue
  refine ⟨endItem s (startTimer e s), ?_, timerItem_dropped e s⟩
  rw [← finishItem_startTimer]
  cases e with
  | upgrade n => rw [exec_upgradeTimeout htaken, upgradeItem_not_due hnot]
  | wait w => rw [exec_waitTimeout htaken, waitItem_not_due hnot]
  | lease k => rw [exec_leaseExpiry htaken, leaseItem_not_due hnot]

end Sys2Proof.Machine
end

section
/-! Writes to the register window, and the interrupt (11, R198 to R200; 07, R130; 10, R170; O55). -/

namespace Sys2Proof.Machine

/-! ### TICK_PERIOD and LINK_STATUS -/

theorem writeTickPeriod_accepted {v : Word} {s : State} (hp : s.part = .halted) (hv : 100 ≤ bitField v 0 16) :
    writeTickPeriod v s = { s with tickPeriod := v.extractLsb' 0 16, tickPos := 0 } := if_pos ⟨hp, hv⟩

theorem writeTickPeriod_ignored {v : Word} {s : State} (h : s.part ≠ .halted ∨ bitField v 0 16 < 100) :
    writeTickPeriod v s = s := by
  refine if_neg fun hc => ?_
  obtain ⟨hp, hv⟩ := hc
  rcases h with h | h
  · exact h hp
  · exact absurd hv (Nat.not_le.2 h)

/-- A port's FRAME_ERROR flag after a write of its position. -/
def frameErrorCleared (v : Word) (p : Port) (q : PortState) : PortState :=
  { q with frameError := q.frameError && !v.getLsbD (8 * p.val + 3) }

theorem clearFrameError_eq (v : Word) (s : State) (p : Port) :
    clearFrameError v s p = { s with ports := (clearFrameError v s p).ports } := by
  unfold clearFrameError
  split <;> rfl

theorem clearFrameError_port (v : Word) (s : State) (p q : Port) :
    (clearFrameError v s p).port q = if q = p then frameErrorCleared v p (s.port p) else s.port q := by
  unfold clearFrameError
  cases hv : v.getLsbD (8 * p.val + 3) with
  | true => simp [frameErrorCleared, hv]
  | false => by_cases hq : q = p <;> simp [frameErrorCleared, hv, hq]

theorem foldl_clearFrameError_eq (v : Word) (l : List Port) (s : State) :
    l.foldl (clearFrameError v) s = { s with ports := (l.foldl (clearFrameError v) s).ports } := by
  induction l generalizing s with
  | nil => rfl
  | cons p rest ih => rw [List.foldl_cons, ih, clearFrameError_eq]

/-- Each port listed once has its flag written once, and no other port changes. -/
theorem foldl_clearFrameError_port (v : Word) (q : Port) {l : List Port} (hl : l.Nodup) (s : State) :
    (l.foldl (clearFrameError v) s).port q = if q ∈ l then frameErrorCleared v q (s.port q) else s.port q := by
  induction l generalizing s with
  | nil => rfl
  | cons p rest ih =>
    obtain ⟨hp, hrest⟩ := List.nodup_cons.1 hl
    rw [List.foldl_cons, ih hrest, clearFrameError_port]
    by_cases hq : q = p
    · subst hq; simp [hp]
    · simp [hq]

theorem writeLinkStatus_port (v : Word) (s : State) (p : Port) :
    (writeLinkStatus v s).port p = frameErrorCleared v p (s.port p) := by
  have hall : p ∈ allPorts := by fin_cases p <;> simp [allPorts]
  rw [writeLinkStatus, foldl_clearFrameError_port v p (by decide), if_pos hall]

/-! ### The plain registers -/

/-- No address of REGISTER_WRITE's row has a behaviour of its own (11, Table 11-4). -/
theorem exec_registerWrite {addr : BitVec 7} (h : addr ∉ ownWriteAddresses) (v : Word) (s : State) :
    exec (.registerWrite addr v) s = .next (writePlain addr v s) := by
  have harm : exec (.registerWrite addr v) s = .next (writeRegister addr v s) := rfl
  simp only [ownWriteAddresses, List.mem_cons, List.not_mem_nil, or_false, not_or] at h
  obtain ⟨hcmd, hevents, hperiod, hlink, hstatus⟩ := h
  simp only [harm, writeRegister, hcmd, hevents, hperiod, hlink, hstatus, if_false]

/-- The address of an ARG register (11, Table 11-4). -/
def argAddr (i : Fin 8) : BitVec 7 := BitVec.ofNat 7 (8 + i.val)

theorem argAddr_plain : ∀ i, argAddr i ∉ ownWriteAddresses := by decide

theorem argIndex_argAddr : ∀ i, argIndex (argAddr i) = some i := by decide

theorem argIndex_none {addr : BitVec 7} (h : ¬ (8 ≤ addr.toNat ∧ addr.toNat < 16)) : argIndex addr = none := dif_neg h

theorem writePlain_arg (i : Fin 8) (v : Word) (s : State) :
    writePlain (argAddr i) v s = { s with args := s.args.set i.val v i.isLt } := by
  rw [writePlain, argIndex_argAddr]

theorem writePlain_other {addr : BitVec 7} (h : ¬ (8 ≤ addr.toNat ∧ addr.toNat < 16)) (v : Word) (s : State) :
    writePlain addr v s = if addr = 0x19#7 then { s with eventEnable := v &&& Config.eventMask } else s := by
  rw [writePlain, argIndex_none h]

theorem readRegister_arg (s : State) (i : Fin 8) : readRegister s (argAddr i) = s.args.get i := by
  fin_cases i <;> rfl

/-! ### The interrupt -/

/-- MGMT_IRQ_N is low exactly while an enabled flag is set (11, R199). -/
theorem irqLow_iff (s : State) :
    irqLow s = true ↔ ∃ i : Fin 32, s.events.getLsbD i = true ∧ s.eventEnable.getLsbD i = true := by
  rw [irqLow, decide_eq_true_eq, ne_eq, ← not_iff_not, not_not, not_exists]
  simp only [← Bool.and_eq_true, ← BitVec.getLsbD_and, Bool.not_eq_true]
  exact ⟨fun h i => by rw [h, BitVec.getLsbD_zero],
    fun h => BitVec.eq_of_getLsbD_eq fun i hi => by rw [h ⟨i, hi⟩, BitVec.getLsbD_zero]⟩

/-- Settles O55: each row's write, and the interrupt. -/
theorem registerWritesTakeEffect : Obligations.RegisterWritesTakeEffect := by
  refine ⟨fun s v => ?_, fun s v => ?_, fun s v => ?_, fun s i v => ?_, fun s v => ?_, irqLow_iff,
    fun s addr v hwf hne harg => ?_⟩
  · exact ⟨writeTickPeriod v s, rfl, writeTickPeriod_accepted, writeTickPeriod_ignored⟩
  · refine ⟨writeEvents v s, rfl, rfl, fun i => ?_⟩
    rcases Nat.lt_or_ge i 32 with hi | hi
    · simp [writeEvents, hi]
    · simp [writeEvents, BitVec.getLsbD_of_ge s.events i hi]
  · exact ⟨writeLinkStatus v s, rfl, foldl_clearFrameError_eq v allPorts s, writeLinkStatus_port v s⟩
  · have hget : ∀ j, (s.args.set i.val v i.isLt).get j = if j = i then v else s.args.get j := fun j => vector_get_set ..
    refine ⟨_, (exec_registerWrite (argAddr_plain i) v s).trans (congrArg _ (writePlain_arg i v s)), rfl, ?_, ?_, ?_⟩
    · exact (readRegister_arg _ i).trans (by simp [hget])
    · simp [hget]
    · intro j hj
      simp [hget, hj]
  · rw [exec_registerWrite (by decide), writePlain_other (by decide), if_pos rfl]
    rfl
  · have hplain : addr ∉ ownWriteAddresses := by simpa [Instr.wellFormed] using hwf
    rw [exec_registerWrite hplain, writePlain_other harg, if_neg hne]

end Sys2Proof.Machine
end

section
/-! The pressure monitor: an arriving count, and SET_PRESSURE (08, R143, R146, R147, R149; O54). -/

namespace Sys2Proof.Machine

/-! ### The level of a pool (08, Tables 8-3 and 8-4) -/

section
variable {p : PoolState} {n : Nat}

theorem levelOnArrival_low (h : n ≤ p.low) : levelOnArrival p n = .normal := if_pos h

theorem levelOnArrival_shed (hlow : p.low < n) (h : p.shed ≤ n) : levelOnArrival p n = .shed := by
  rw [levelOnArrival, if_neg (Nat.not_le.2 hlow), if_pos h]

/-- Above the low mark and below the shed mark a NORMAL pool rises at the high mark, and no other level changes. -/
theorem levelOnArrival_middle (hlow : p.low < n) (hshed : n < p.shed) :
    levelOnArrival p n = if p.high ≤ n ∧ p.level = .normal then .high else p.level := by
  rw [levelOnArrival, if_neg (Nat.not_le.2 hlow), if_neg (Nat.not_le.2 hshed)]
  cases p.level <;> simp

end

/-! ### A pool written with its event -/

theorem setPool_pool (k j : Pool) (p : PoolState) (s : State) :
    (setPool k p s).pool j = if j = k then p else s.pool j := by
  have hevent : ∀ t : State, (postEvent (.pressure k) t).pool j = t.pool j := fun t => by cases j <;> rfl
  unfold setPool
  dsimp only
  split
  · exact updPool_pool ..
  · exact (hevent _).trans (updPool_pool ..)

/-- The pool's event is posted exactly if its level changes (08, R147). -/
theorem setPool_events (k : Pool) (p : PoolState) (s : State) : (setPool k p s).events
    = if p.level = (s.pool k).level then s.events else s.events ||| atBit (eventBit (.pressure k)) 1 := by
  unfold setPool
  dsimp only
  split <;> simp [postEvent]

/-- From `v` to `u` the monitor's pools and EVENTS alone are written. -/
def PoolsWritten (v u : State) : Prop := u = { v with pools := u.pools, events := u.events }

theorem PoolsWritten.refl (v : State) : PoolsWritten v v := rfl

theorem PoolsWritten.keeps {v u : State} (h : PoolsWritten v u) :
    u.now = v.now ∧ u.tickPeriod = v.tickPeriod ∧ u.tickPos = v.tickPos ∧ u.marks = v.marks ∧ u.offered = v.offered ∧
    u.records = v.records ∧ u.leases = v.leases ∧ u.gens = v.gens ∧ u.waits = v.waits ∧ u.domains = v.domains ∧
    u.agents = v.agents ∧ u.token = v.token ∧ u.seeded = v.seeded ∧ u.part = v.part ∧ u.sweep = v.sweep ∧
    u.outer = v.outer ∧ u.inner = v.inner ∧ u.chosen = v.chosen ∧ u.ports = v.ports ∧ u.mbox = v.mbox ∧
    u.args = v.args ∧ u.res = v.res ∧ u.eventEnable = v.eventEnable ∧ u.nowLatch = v.nowLatch ∧
    u.spiData = v.spiData ∧ u.handed = v.handed ∧ u.freeDraws = v.freeDraws ∧ u.pending = v.pending := by
  rw [h]; simp

theorem setPool_written (k : Pool) (p : PoolState) (s : State) : PoolsWritten s (setPool k p s) := by
  unfold setPool PoolsWritten
  dsimp only
  split <;> cases k <;> rfl

theorem pool_congr {s t : State} (h : t.pools = s.pools) (k : Pool) : t.pool k = s.pool k := by
  cases k <;> simp [State.pool, h]

/-! ### SET_PRESSURE -/

theorem Taken.pool {s v : State} (h : Taken s v) (k : Pool) : v.pool k = s.pool k :=
  h.read (State.pool · k) fun _ _ _ _ _ => by cases k <;> rfl

/-- What the end of SET_PRESSURE's item leaves, whose work has left `u`: the pools and EVENTS are as written, and the
command has completed (11, R191). -/
structure PressureSet (s u t : State) (res : CmdResult) (words : List Word) : Prop where
  rest : t = { beginCommand s with pools := t.pools, mbox := t.mbox, res := t.res, events := t.events,
                                   offered := t.offered }
  pool : ∀ k, t.pool k = u.pool k
  offer : OfferStands (beginCommand s) t
  completes : Completes { s with events := u.events } t res words

/-- SET_PRESSURE taken, whose work writes the pools at most and completes: it changes no count, so its item publishes
none (08, R143). -/
theorem exec_pressureSet {s u : State} {res : CmdResult} {words : List Word} (htaken : takenCommand s = some 0x0E#8)
    (hwork : setPressureWork 0x0E#8 (startCommand s) = completeTaken 0x0E#8 res words u)
    (hu : PoolsWritten (startCommand s) u) (hw : res ≠ .ok → words = []) :
    ∃ t, exec .setPressure s = .next t ∧ PressureSet s u t res words := by
  have harm : exec .setPressure s = execSetPressure s := rfl
  have hexec : exec .setPressure s
      = .next (withHanded s.handed (finishItem s (setPressureWork 0x0E#8 (startCommand s)))) := by
    rw [harm, execSetPressure, takeCommand_taken htaken rfl]; rfl
  have hkeeps := hu.keeps
  have hcount : ∀ k, poolCount (completeCmd res words u) k = poolCount s k := fun k => by
    cases k <;> simp [poolCount, hkeeps]
  have hpublish : ∀ k, poolCount (offerTimer (completeCmd res words u)) k = poolCount s k := fun k => by
    rw [offerTimer_poolCount, hcount]
  have hpools : (endItem s (completeCmd res words u)).pools = u.pools := by
    simp [endItem, publishCounts_quiet hpublish]
  rw [hexec, hwork, completeTaken_pending res words (by simpa [hkeeps] using mbox_of_takenCommand htaken),
    finishItem_steady (fun a => by rw [agent_congr (s := s) (by simp [hkeeps])]) (by simp [hkeeps]) (by simp [hkeeps])
      hcount]
  refine ⟨_, rfl, ?_, pool_congr hpools, endItem_offerStands (by simp [hkeeps]),
    completes_of_completeCmd hw (u := u) (by simp [hkeeps]) rfl (by simp) (by simp) (by simp)⟩
  apply State.ext <;> simp [endItem_tables, hkeeps]

/-- A pool that SET_PRESSURE has written with the marks latched (08, R149). -/
def markedPool (s : State) (k : Pool) : PoolState :=
  withMarks (bitField (argWord s 1) 0 16) (bitField (argWord s 2) 0 16) (bitField (argWord s 3) 0 16) (poolCount s k)
    (s.pool k)

theorem markedPool_startCommand (s : State) (k : Pool) : markedPool (startCommand s) k = markedPool s k := by
  simp only [markedPool, argWord_startCommand, (startCommand_taken s).poolCount, (startCommand_taken s).pool]

/-- Whether the marks latched satisfy the conditions for a pool (08, Table 8-2). -/
def latchedMarksOk (s : State) (k : Pool) : Bool :=
  marksOk k (bitField (argWord s 1) 0 16) (bitField (argWord s 2) 0 16) (bitField (argWord s 3) 0 16)

theorem latchedMarksOk_startCommand (s : State) (k : Pool) :
    latchedMarksOk (startCommand s) k = latchedMarksOk s k := by
  simp only [latchedMarksOk, argWord_startCommand]

section
variable {c : Byte} {k : Pool} {v : State}

theorem setPressureWork_noPool (h : poolOfCode (bitField (argWord v 0) 0 8) = none) :
    setPressureWork c v = completeTaken c .invalid [] v := by
  simp only [setPressureWork, h]

variable (hk : poolOfCode (bitField (argWord v 0) 0 8) = some k)
include hk

theorem setPressureWork_badMarks (h : latchedMarksOk v k = false) :
    setPressureWork c v = completeTaken c .invalid [] v := by
  rw [latchedMarksOk] at h
  simp [setPressureWork, hk, h]

theorem setPressureWork_marked (h : latchedMarksOk v k = true) : setPressureWork c v
    = completeTaken c .ok [BitVec.ofNat 32 (levelCode (markedPool v k).level), BitVec.ofNat 32 (poolCount v k)]
        (setPool k (markedPool v k) v) := by
  rw [latchedMarksOk] at h
  simp only [setPressureWork, hk, h, setPool_pool, if_true]
  rfl

end

/-- No pool has a code from 3 on (08, Table 8-1). -/
theorem poolOfCode_none {n : Nat} (h : 3 ≤ n) : poolOfCode n = none := by
  obtain ⟨m, rfl⟩ := Nat.exists_eq_add_of_le' h
  rfl

section
variable {s : State} {k : Pool} (htaken : takenCommand s = some 0x0E#8)
include htaken

/-- Marks in order: the pool is written with them, and its level and the count are reported (08, R149). -/
theorem exec_setPressure_marked (hk : poolOfCode (bitField (argWord s 0) 0 8) = some k)
    (h : latchedMarksOk s k = true) :
    ∃ t, exec .setPressure s = .next t ∧ PressureSet s (setPool k (markedPool s k) (startCommand s)) t .ok
      [BitVec.ofNat 32 (levelCode (markedPool s k).level), BitVec.ofNat 32 (poolCount s k)] := by
  have hwork := setPressureWork_marked (c := 0x0E#8) (v := startCommand s) (by rwa [argWord_startCommand])
    (by rwa [latchedMarksOk_startCommand])
  rw [markedPool_startCommand, (startCommand_taken s).poolCount] at hwork
  exact exec_pressureSet htaken hwork (setPool_written ..) fun hok => absurd rfl hok

theorem exec_setPressure_badMarks (hk : poolOfCode (bitField (argWord s 0) 0 8) = some k)
    (h : latchedMarksOk s k = false) :
    ∃ t, exec .setPressure s = .next t ∧ PressureSet s (startCommand s) t .invalid [] :=
  exec_pressureSet htaken (setPressureWork_badMarks (by rwa [argWord_startCommand])
    (by rwa [latchedMarksOk_startCommand])) (.refl _) fun _ => rfl

theorem exec_setPressure_noPool (h : 3 ≤ bitField (argWord s 0) 0 8) :
    ∃ t, exec .setPressure s = .next t ∧ Reported s t .invalid [] :=
  exec_reported rfl htaken rfl (setPressureWork_noPool (by rw [argWord_startCommand]; exact poolOfCode_none h))
    fun _ => rfl

end

/-! ### COUNT_ARRIVAL -/

/-- An evaluated count, whatever free values have been drawn: the pool's record and its event, and no other pool
(08, R146, R147). -/
theorem evaluated_written (k : Pool) (n : Nat) (later : List Nat) (draws : Nat) (s : State) :
    let t := setPool k (evaluateCount n later (s.pool k)) { s with freeDraws := draws }
    t = { s with pools := t.pools, events := t.events, freeDraws := t.freeDraws }
      ∧ (∀ j, t.pool j = if j = k then evaluateCount n later (s.pool k) else s.pool j)
      ∧ t.events = if levelOnArrival (s.pool k) n = (s.pool k).level then s.events
          else s.events ||| atBit (eventBit (.pressure k)) 1 := by
  have hpool : ∀ j, State.pool { s with freeDraws := draws } j = s.pool j := fun j => by cases j <;> rfl
  have hkeeps := (setPool_written k (evaluateCount n later (s.pool k)) { s with freeDraws := draws }).keeps
  refine ⟨?_, fun j => ?_, ?_⟩
  · apply State.ext <;> simp [hkeeps]
  · rw [setPool_pool, hpool]
  · rw [setPool_events, hpool]; rfl

/-! ### The statement -/

/-- Settles O54: an arriving count by the cases of COUNT_ARRIVAL, and SET_PRESSURE with and without marks in order. -/
theorem pressureLevelsFollowTheCounts : Obligations.PressureLevelsFollowTheCounts := by
  have harm : ∀ (s : State) (k : Pool), exec (.countArrival k) s = execCountArrival k s := fun _ _ => rfl
  refine ⟨fun s k hsome => ?_, fun s k hnone => ?_, fun s k htaken hk => ?_, fun s htaken hcode => ?_⟩
  · intro x
    rcases execCountArrival_cases k s with ⟨hnone, -⟩ | ⟨older, n, later, draws, hpublished, -, hexec⟩
    · exact absurd hnone hsome
    obtain ⟨hrest, hpool, hevents⟩ := evaluated_written k n later draws s
    have hself := (hpool k).trans (if_pos rfl)
    have hlevel := congrArg PoolState.level hself
    refine ⟨_, (harm s k).trans hexec, hrest, fun j hj => by rw [hpool, if_neg hj], by rw [hlevel]; exact hevents,
      older, n, later, hpublished, by rw [hself]; rfl, ?_⟩
    rw [hlevel]
    refine ⟨levelOnArrival_low, fun hlow hhigh hshed => ?_, fun hlow hhigh hshed => ?_, levelOnArrival_shed⟩
    · exact (levelOnArrival_middle hlow hshed).trans (if_neg fun h => Nat.not_le.2 hhigh h.1)
    · exact (levelOnArrival_middle hlow hshed).trans (by simp only [hhigh, true_and])
  · rcases execCountArrival_cases k s with ⟨-, hexec⟩ | ⟨older, n, later, -, hpublished, -⟩
    · exact (harm s k).trans hexec
    · simp [hnone] at hpublished
  · intro b x low high shed n inOrder level
    have hiff : latchedMarksOk s k = true ↔ inOrder := decide_eq_true_iff
    have hv := startCommand_taken s
    have hbefore : (startCommand s).events = s.events := by simp
    by_cases horder : inOrder
    · obtain ⟨t, hexec, hdone⟩ := exec_setPressure_marked htaken hk (hiff.2 horder)
      have hpool := fun j => (hdone.pool j).trans (setPool_pool ..)
      have hcompletes := hdone.completes
      rw [setPool_events, hv.pool, hbefore] at hcompletes
      refine ⟨t, hexec, hdone.rest, hdone.offer, fun j hj => by rw [hpool, if_neg hj, hv.pool], fun _ => ⟨?_, ?_⟩,
        fun h => absurd horder h⟩
      · rw [hpool, if_pos rfl]; rfl
      · exact hcompletes
    · obtain ⟨t, hexec, hdone⟩ := exec_setPressure_badMarks htaken hk (Bool.eq_false_iff.2 fun h => horder (hiff.1 h))
      have hpool := fun j => (hdone.pool j).trans (hv.pool j)
      refine ⟨t, hexec, hdone.rest, hdone.offer, fun j _ => hpool j, fun h => absurd h horder, fun _ => ⟨hpool k, ?_⟩⟩
      simpa using hdone.completes
  · obtain ⟨t, hexec, hdone⟩ := exec_setPressure_noPool htaken hcode
    exact ⟨t, hexec, hdone.rest, hdone.offer, hdone.completes⟩

end Sys2Proof.Machine
end

section
/-! Every command leaves the queue of commands to the step (09, R157; O2): operation by operation, and then row by
row. -/

namespace Sys2Proof.Machine

/-- A command's answer is a next state, with the queue of commands as it was. -/
def KeepsQueue (s : State) (o : Host.Outcome State Fault Refusal) : Prop := ∃ t, o = .next t ∧ t.pending = s.pending

theorem keepsQueue_next {s t : State} (h : t.pending = s.pending) : KeepsQueue s (.next t) := ⟨t, rfl, h⟩

/-- A fold of operations that each leave the queue leaves it. -/
theorem foldl_keeps_pending {α : Type} {f : State → α → State} (h : ∀ s x, (f s x).pending = s.pending) (l : List α)
    (s : State) : (l.foldl f s).pending = s.pending :=
  List.foldlRecOn l f (motive := fun t => t.pending = s.pending) rfl fun t ht x _ => (h t x).trans ht

/-! ### Items -/

theorem beginTake_keeps_pending {remove : State → State} (h : ∀ s, (remove s).pending = s.pending) (s : State) :
    (beginTake remove s).pending = s.pending := by
  simp [beginTake_eq, h]

/-- An item whose take and whose work leave the queue leaves it (09, R157). -/
theorem runItem_keepsQueue {start work : State → State} (hstart : ∀ s, (start s).pending = s.pending)
    (hwork : ∀ s, (work s).pending = s.pending) (s : State) : KeepsQueue s (.next (runItem start work s)) :=
  keepsQueue_next (by simp [runItem, hstart, hwork])

theorem requestWork_keeps_pending {behave : Agent → Request → State → State}
    (h : ∀ a r s, (behave a r s).pending = s.pending) (p : Port) (r : Request) (s : State) :
    (requestWork p r behave s).pending = s.pending := by
  unfold requestWork
  cases stage1 r with
  | none => dsimp only; split <;> simp
  | some k =>
    dsimp only
    split
    · simp
    · cases stageFailure s (senderOf p r) k r <;> simp [h]

theorem takeRequest_keepsQueue {isKind : Byte → Bool} {behave : Agent → Request → State → State}
    (h : ∀ a r s, (behave a r s).pending = s.pending) (s : State) : KeepsQueue s (takeRequest isKind behave s) := by
  unfold takeRequest
  cases takenRequest s with
  | none => exact keepsQueue_next rfl
  | some taken =>
    dsimp only
    split
    · exact runItem_keepsQueue (by simp) (requestWork_keeps_pending h _ _) s
    · exact keepsQueue_next rfl

theorem takeCommand_keepsQueue {isCode : Byte → Bool} {work : Byte → State → State}
    (h : ∀ c s, (work c s).pending = s.pending) (s : State) : KeepsQueue s (takeCommand isCode work s) := by
  unfold takeCommand
  cases takenCommand s with
  | none => exact keepsQueue_next rfl
  | some c =>
    dsimp only
    split
    · exact runItem_keepsQueue (by simp) (h c) s
    · exact keepsQueue_next rfl

/-- A TIMER item is a take of the offer and the entry's own work (09, R152). -/
theorem timerItem_keepsQueue {work : State → State} (h : ∀ s, (work s).pending = s.pending) (e : TimedEntry)
    (s : State) : KeepsQueue s (.next (runItem (beginTake (takeOffer e)) work s)) :=
  runItem_keepsQueue (beginTake_keeps_pending (by simp)) h s

/-- A SWEEP item takes nothing from the list (09, R156). -/
theorem sweepItem_keepsQueue {work : State → State} (h : ∀ s, (work s).pending = s.pending) (s : State) :
    KeepsQueue s (.next (runItem (beginTake id) work s)) :=
  runItem_keepsQueue (beginTake_keeps_pending fun _ => rfl) h s

/-! ### Requests at stage 8 -/

/-- A grant made at once leaves the queue if the grant does: the token end raises events and starts the abort sweep
(02, R48). -/
theorem grantNow_keeps_pending {f : State → State} (h : ∀ s, (f s).pending = s.pending) (a : Agent) (r : Request)
    (s : State) : (grantNow a r f s).pending = s.pending := by
  unfold grantNow withTokenEnd
  dsimp only
  split
  · simp
  · split <;> simp [h]

theorem grantCreating_keeps_pending (a : Agent) (r : Request) (m : Mode) (s : State) :
    (grantCreating a r m s).pending = s.pending := by
  unfold grantCreating
  split
  · exact grantNow_keeps_pending (by simp [newRecord, grantRequest]) a r s
  · simp

theorem grantJoining_keeps_pending (a : Agent) (r : Request) (m : Mode) (n : Nat) (s : State) :
    (grantJoining a r m n s).pending = s.pending := by
  unfold grantJoining
  split
  · exact grantNow_keeps_pending (by simp [grantRequest]) a r s
  · simp

theorem enqueue_keeps_pending (a : Agent) (r : Request) (m : Mode) (n : Nat) (s : State) :
    (enqueue a r m n s).pending = s.pending := by
  unfold enqueue
  split <;> simp

theorem carryOut_keeps_pending (a : Agent) (r : Request) (m : Mode) (d : Decision) (s : State) :
    (carryOut a r m d s).pending = s.pending := by
  cases d with
  | create => exact grantCreating_keeps_pending a r m s
  | joinHolders n => exact grantJoining_keeps_pending a r m n s
  | enqueue n => exact enqueue_keeps_pending a r m n s
  | alreadyHeld k => cases h : leaseAt s k <;> simp [carryOut, h]
  | alreadyWaiting | conflict | queueLimit => simp [carryOut]

theorem acquireBehaviour_keeps_pending (a : Agent) (r : Request) (s : State) :
    (acquireBehaviour a r s).pending = s.pending := by
  unfold acquireBehaviour
  cases modeOfByte r.mode with
  | none => simp
  | some m =>
    dsimp only
    split
    · split
      · simp
      · exact carryOut_keeps_pending ..
    · exact carryOut_keeps_pending ..

theorem withLease_keeps_pending {behave : Agent → Request → Lease → State → State}
    (h : ∀ a r l s, (behave a r l s).pending = s.pending) (a : Agent) (r : Request) (s : State) :
    (withLease behave a r s).pending = s.pending := by
  unfold withLease
  split
  · simp
  · split <;> simp [h]

theorem releaseLease_keeps_pending (a : Agent) (r : Request) (l : Lease) (s : State) :
    (releaseLease a r l s).pending = s.pending := by
  unfold releaseLease
  dsimp only
  split <;> simp

theorem renewLease_keeps_pending (a : Agent) (r : Request) (l : Lease) (s : State) :
    (renewLease a r l s).pending = s.pending := by
  unfold renewLease
  dsimp only
  split <;> simp

theorem upgradeOnRecord_keeps_pending (a : Agent) (r : Request) (l : Lease) (rec : LockRecord) (s : State) :
    (upgradeOnRecord a r l rec s).pending = s.pending := by
  unfold upgradeOnRecord
  dsimp only
  split
  · split <;> simp
  · split
    · exact grantNow_keeps_pending (by simp) a r s
    · split <;> simp

theorem upgradeLive_keeps_pending (a : Agent) (r : Request) (l : Lease) (s : State) :
    (upgradeLive a r l s).pending = s.pending := by
  unfold upgradeLive
  split
  · simp
  · split
    · simp
    · split <;> simp [upgradeOnRecord_keeps_pending]

theorem downgradeLease_keeps_pending (a : Agent) (r : Request) (l : Lease) (s : State) :
    (downgradeLease a r l s).pending = s.pending := by
  unfold downgradeLease
  dsimp only
  split
  · simp
  · split
    · simp
    · split <;> simp

theorem cancelBehaviour_keeps_pending (a : Agent) (r : Request) (s : State) :
    (cancelBehaviour a r s).pending = s.pending := by
  unfold cancelBehaviour
  cases s.tag a (targetTag r) with
  | waiting => cases waitOfTag s a (targetTag r) <;> simp
  | upgrading => cases upgradeOfTag s a (targetTag r) <;> simp
  | replying | free => simp

/-- What a kind does at stage 8 leaves the queue (05, section 5.5 on). -/
theorem behaviourOf_keeps_pending (k : Kind) (a : Agent) (r : Request) (s : State) :
    (behaviourOf k a r s).pending = s.pending := by
  cases k with
  | join | query => simp [behaviourOf, joinBehaviour, queryBehaviour]
  | keepalive => simp [behaviourOf]
  | acquire => exact acquireBehaviour_keeps_pending a r s
  | release => exact withLease_keeps_pending releaseLease_keeps_pending a r s
  | renew => exact withLease_keeps_pending renewLease_keeps_pending a r s
  | upgrade => exact withLease_keeps_pending upgradeLive_keeps_pending a r s
  | downgrade => exact withLease_keeps_pending downgradeLease_keeps_pending a r s
  | cancel => exact cancelBehaviour_keeps_pending a r s

/-! ### Withdrawal, TIMER and SWEEP items -/

theorem withdrawPort_keeps_pending (p : Port) (s : State) : (withdrawPort p s).pending = s.pending := by
  rw [withdrawPort_eq]
  simp

theorem leaseItem_keeps_pending (k : Nat) (s : State) : (leaseItem k s).pending = s.pending := by
  have hexpire : ∀ l, (expireLease k l s).pending = s.pending := fun l => by
    unfold expireLease autoFence
    dsimp only
    split <;> split <;> simp
  unfold leaseItem
  split
  · split <;> simp [hexpire]
  · rfl

theorem waitItem_keeps_pending (w : Nat) (s : State) : (waitItem w s).pending = s.pending := by
  unfold waitItem
  split
  · split <;> simp
  · rfl

theorem upgradeItem_keeps_pending (n : Nat) (s : State) : (upgradeItem n s).pending = s.pending := by
  unfold upgradeItem
  split <;> simp

theorem fenceStep_keeps_pending (a : Agent) (s : State) : (fenceStep a s).pending = s.pending := by
  unfold fenceStep
  split
  · rfl
  · split <;> simp

theorem endQuiesceJob_keeps_pending (attached : Bool) (s : State) :
    (endQuiesceJob attached s).pending = s.pending := by
  cases attached <;> simp [endQuiesceJob]

theorem quiesceStep_keeps_pending (next : Nat) (attached : Bool) (s : State) :
    (quiesceStep next attached s).pending = s.pending := by
  have hadvance : ∀ n u, (quiesceAdvance n attached u).pending = u.pending := fun n u => by
    unfold quiesceAdvance
    repeat' split
    · rfl
    · rfl
    · exact endQuiesceJob_keeps_pending attached u
  unfold quiesceStep
  split
  · simp [hadvance, quiesceVisit]
  · exact endQuiesceJob_keeps_pending attached s

theorem loseHolders_keeps_pending (reason : LossReason) (holders : List Handle) (s : State) :
    (holders.foldl (fun s h => loseLease h.num reason s) s).pending = s.pending :=
  foldl_keeps_pending (fun u h => by simp) holders s

theorem abortDrop_keeps_pending (n : Nat) (r : LockRecord) (s : State) : (abortDrop n r s).pending = s.pending := by
  simp [abortDrop, loseHolders_keeps_pending]

theorem abortStep_keeps_pending (next : Nat) (attached : Bool) (s : State) :
    (abortStep next attached s).pending = s.pending := by
  unfold abortStep
  split
  · dsimp only
    split <;> simp [abortDrop_keeps_pending]
  · simp

/-! ### Management commands -/

theorem setDomainWork_keeps_pending (c : Byte) (s : State) : (setDomainWork c s).pending = s.pending := by
  unfold setDomainWork
  dsimp only
  repeat' split
  all_goals simp

theorem getDomainWork_keeps_pending (c : Byte) (s : State) : (getDomainWork c s).pending = s.pending := by
  unfold getDomainWork
  split <;> simp

theorem setAgentWork_keeps_pending (c : Byte) (s : State) : (setAgentWork c s).pending = s.pending := by
  have hhalted : ∀ a action quota, (setAgentHalted c a action quota s).pending = s.pending := fun a action quota => by
    unfold setAgentHalted agentDone setQuota activate
    repeat' split
    all_goals simp
  unfold setAgentWork agentDone activate
  dsimp only
  repeat' split
  all_goals simp [hhalted]

theorem getAgentWork_keeps_pending (c : Byte) (s : State) : (getAgentWork c s).pending = s.pending := by
  unfold getAgentWork
  split <;> simp

theorem seedWork_keeps_pending (c : Byte) (s : State) : (seedWork c s).pending = s.pending := by
  unfold seedWork
  dsimp only
  repeat' split
  all_goals simp

theorem startWork_keeps_pending (c : Byte) (s : State) : (startWork c s).pending = s.pending := by
  unfold startWork
  cases s.part with
  | halted => dsimp only; split <;> simp
  | running | quiescing | aborting => simp

theorem quiesceWork_keeps_pending (c : Byte) (s : State) : (quiesceWork c s).pending = s.pending := by
  unfold quiesceWork
  cases s.part with
  | running => dsimp only; split <;> simp
  | quiescing | halted | aborting => simp

theorem abortWork_keeps_pending (c : Byte) (s : State) : (abortWork c s).pending = s.pending := by
  unfold abortWork
  cases s.part with
  | running | quiescing | aborting => simp
  | halted => dsimp only; split <;> simp

theorem fenceWork_keeps_pending (c : Byte) (s : State) : (fenceWork c s).pending = s.pending := by
  have hattach : ∀ a u, (attachToFenceJob c a u).pending = u.pending := fun a u => by
    unfold attachToFenceJob
    split <;> simp
  unfold fenceWork
  dsimp only
  repeat' split
  all_goals simp [hattach]

theorem admitWork_keeps_pending (c : Byte) (s : State) : (admitWork c s).pending = s.pending := by
  unfold admitWork activate
  dsimp only
  repeat' split
  all_goals simp

theorem forceReleaseWork_keeps_pending (c : Byte) (s : State) : (forceReleaseWork c s).pending = s.pending := by
  unfold forceReleaseWork forceLoss
  split
  · simp
  · simp [loseHolders_keeps_pending]

theorem inspectLockWork_keeps_pending (c : Byte) (s : State) : (inspectLockWork c s).pending = s.pending := by
  unfold inspectLockWork
  split <;> simp

theorem inspectLeaseWork_keeps_pending (c : Byte) (s : State) : (inspectLeaseWork c s).pending = s.pending := by
  unfold inspectLeaseWork
  dsimp only
  split <;> simp

theorem setPool_keeps_pending (k : Pool) (p : PoolState) (s : State) : (setPool k p s).pending = s.pending := by
  rw [setPool_written k p s]

theorem setPressureWork_keeps_pending (c : Byte) (s : State) : (setPressureWork c s).pending = s.pending := by
  unfold setPressureWork
  dsimp only
  repeat' split
  all_goals simp [setPool_keeps_pending]

/-! ### The register window -/

theorem writeCmd_keeps_pending (v : Word) (s : State) : (writeCmd v s).pending = s.pending := by
  unfold writeCmd placeCommand
  dsimp only
  repeat' split
  all_goals simp

theorem writeTickPeriod_keeps_pending (v : Word) (s : State) : (writeTickPeriod v s).pending = s.pending := by
  unfold writeTickPeriod
  split <;> rfl

theorem writeLinkCtrl_keeps_pending (v : Word) (s : State) : (writeLinkCtrl v s).pending = s.pending :=
  foldl_keeps_pending (fun u p => by unfold writeEnable; dsimp only; split <;> simp) allPorts s

theorem writeLinkStatus_keeps_pending (v : Word) (s : State) : (writeLinkStatus v s).pending = s.pending :=
  foldl_keeps_pending (fun u p => by unfold clearFrameError; split <;> simp) allPorts s

theorem writePlain_keeps_pending (addr : BitVec 7) (v : Word) (s : State) :
    (writePlain addr v s).pending = s.pending := by
  unfold writePlain
  repeat' split
  all_goals rfl

theorem writeRegister_keeps_pending (addr : BitVec 7) (v : Word) (s : State) :
    (writeRegister addr v s).pending = s.pending := by
  unfold writeRegister
  repeat' split
  · exact writeCmd_keeps_pending v s
  · rfl
  · exact writeTickPeriod_keeps_pending v s
  · exact writeLinkCtrl_keeps_pending v s
  · exact writeLinkStatus_keeps_pending v s
  · exact writePlain_keeps_pending addr v s

/-! ### All commands -/

theorem exec_rowOf_keepsQueue (k : Kind) (s : State) : KeepsQueue s (exec (rowOf k) s) := by
  have harm : exec (rowOf k) s = takeRequest (fun b => b = kindCode k) (behaviourOf k) s := by cases k <;> rfl
  rw [harm]
  exact takeRequest_keepsQueue (behaviourOf_keeps_pending k) s

theorem execMalformed_keepsQueue (s : State) : KeepsQueue s (execMalformed s) := by
  unfold execMalformed
  exact takeRequest_keepsQueue (fun _ _ _ => rfl) s

theorem execWithdraw_keepsQueue (s : State) : KeepsQueue s (execWithdraw s) := by
  unfold execWithdraw
  split
  · exact runItem_keepsQueue (beginTake_keeps_pending (by simp)) (withdrawPort_keeps_pending _) s
  · exact keepsQueue_next rfl

theorem execLeaseExpiry_keepsQueue (s : State) : KeepsQueue s (execLeaseExpiry s) := by
  unfold execLeaseExpiry
  split
  · exact timerItem_keepsQueue (leaseItem_keeps_pending _) _ s
  all_goals exact keepsQueue_next rfl

theorem execWaitTimeout_keepsQueue (s : State) : KeepsQueue s (execWaitTimeout s) := by
  unfold execWaitTimeout
  split
  · exact timerItem_keepsQueue (waitItem_keeps_pending _) _ s
  all_goals exact keepsQueue_next rfl

theorem execUpgradeTimeout_keepsQueue (s : State) : KeepsQueue s (execUpgradeTimeout s) := by
  unfold execUpgradeTimeout
  split
  · exact timerItem_keepsQueue (upgradeItem_keeps_pending _) _ s
  all_goals exact keepsQueue_next rfl

theorem execFenceStep_keepsQueue (s : State) : KeepsQueue s (execFenceStep s) := by
  unfold execFenceStep
  split
  · exact sweepItem_keepsQueue (fenceStep_keeps_pending _) s
  all_goals exact keepsQueue_next rfl

theorem execQuiesceStep_keepsQueue (s : State) : KeepsQueue s (execQuiesceStep s) := by
  unfold execQuiesceStep
  split
  · exact sweepItem_keepsQueue (quiesceStep_keeps_pending _ _) s
  all_goals exact keepsQueue_next rfl

theorem execAbortStep_keepsQueue (s : State) : KeepsQueue s (execAbortStep s) := by
  unfold execAbortStep
  split
  · exact sweepItem_keepsQueue (abortStep_keeps_pending _ _) s
  all_goals exact keepsQueue_next rfl

theorem execSendTrain_keepsQueue (p : Port) (s : State) : KeepsQueue s (execSendTrain p s) := by
  unfold execSendTrain
  split
  · exact keepsQueue_next (by simp)
  · exact keepsQueue_next rfl

/-- COUNT_ARRIVAL writes the monitor and EVENTS, and may draw a free value (08, R143; log entry 27). -/
theorem execCountArrival_keepsQueue (k : Pool) (s : State) : KeepsQueue s (execCountArrival k s) := by
  rcases execCountArrival_cases k s with ⟨-, hidle⟩ | ⟨_, count, later, draws, -, -, harrival⟩
  · rw [hidle]
    exact keepsQueue_next rfl
  · rw [harrival]
    exact keepsQueue_next (setPool_keeps_pending ..)

theorem execEmptyTake_keepsQueue (s : State) : KeepsQueue s (execEmptyTake s) := by
  unfold execEmptyTake
  repeat' split
  · exact keepsQueue_next rfl
  · exact keepsQueue_next (beginTake_keeps_pending (fun _ => rfl) s)
  · exact keepsQueue_next rfl

theorem execTagComplete_keepsQueue (p : Port) (s : State) : KeepsQueue s (execTagComplete p s) := by
  unfold execTagComplete
  dsimp only
  split
  · exact keepsQueue_next rfl
  · refine keepsQueue_next ?_
    split <;> simp

/-- Settles O2: row by row, each command's answer is a next state with the queue as it was. -/
theorem everyCommandCompletes : Obligations.EveryCommandCompletes := by
  intro c s
  change KeepsQueue s (exec c s)
  cases c with
  | deviceReset => exact keepsQueue_next rfl
  | tick => exact keepsQueue_next rfl
  | markDue => exact keepsQueue_next (by simp)
  | join => exact exec_rowOf_keepsQueue .join s
  | acquire => exact exec_rowOf_keepsQueue .acquire s
  | release => exact exec_rowOf_keepsQueue .release s
  | renew => exact exec_rowOf_keepsQueue .renew s
  | keepalive => exact exec_rowOf_keepsQueue .keepalive s
  | upgrade => exact exec_rowOf_keepsQueue .upgrade s
  | downgrade => exact exec_rowOf_keepsQueue .downgrade s
  | cancel => exact exec_rowOf_keepsQueue .cancel s
  | query => exact exec_rowOf_keepsQueue .query s
  | malformed => exact execMalformed_keepsQueue s
  | withdraw => exact execWithdraw_keepsQueue s
  | leaseExpiry => exact execLeaseExpiry_keepsQueue s
  | waitTimeout => exact execWaitTimeout_keepsQueue s
  | upgradeTimeout => exact execUpgradeTimeout_keepsQueue s
  | fenceStep => exact execFenceStep_keepsQueue s
  | quiesceStep => exact execQuiesceStep_keepsQueue s
  | abortStep => exact execAbortStep_keepsQueue s
  | emptyTake => exact execEmptyTake_keepsQueue s
  | tagComplete p => exact execTagComplete_keepsQueue p s
  | commandPlaced v => exact keepsQueue_next (writeCmd_keeps_pending v s)
  | setDomain => exact takeCommand_keepsQueue setDomainWork_keeps_pending s
  | getDomain => exact takeCommand_keepsQueue getDomainWork_keeps_pending s
  | setAgent => exact takeCommand_keepsQueue setAgentWork_keeps_pending s
  | getAgent => exact takeCommand_keepsQueue getAgentWork_keeps_pending s
  | seed => exact takeCommand_keepsQueue seedWork_keeps_pending s
  | start => exact takeCommand_keepsQueue startWork_keeps_pending s
  | quiesce => exact takeCommand_keepsQueue quiesceWork_keeps_pending s
  | abort => exact takeCommand_keepsQueue abortWork_keeps_pending s
  | fence => exact takeCommand_keepsQueue fenceWork_keeps_pending s
  | admitAgent => exact takeCommand_keepsQueue admitWork_keeps_pending s
  | forceRelease => exact takeCommand_keepsQueue forceReleaseWork_keeps_pending s
  | inspectLock => exact takeCommand_keepsQueue inspectLockWork_keeps_pending s
  | inspectLease => exact takeCommand_keepsQueue inspectLeaseWork_keeps_pending s
  | setPressure => exact takeCommand_keepsQueue setPressureWork_keeps_pending s
  | unknownCommand => exact takeCommand_keepsQueue (by simp) s
  | countArrival k => exact execCountArrival_keepsQueue k s
  | tickPeriodWrite v => exact keepsQueue_next (writeTickPeriod_keeps_pending v s)
  | linkCtrlWrite v => exact keepsQueue_next (writeLinkCtrl_keeps_pending v s)
  | eventsClear v => exact keepsQueue_next rfl
  | frameErrorClear v => exact keepsQueue_next (writeLinkStatus_keeps_pending v s)
  | nowLoRead => exact keepsQueue_next rfl
  | poolMarkRead k => exact keepsQueue_next (by simp)
  | registerWrite addr v => exact keepsQueue_next (writeRegister_keeps_pending addr v s)
  | signalArrives p => exact keepsQueue_next (by simp)
  | signalLost p => exact keepsQueue_next (by simp)
  | sendTrain p => exact execSendTrain_keepsQueue p s
  | trainReceived p f | trainAckReceived p f | creditReceived p f | messageReceived p f | frameCheckFailed p f
  | unknownKindFrameReceived p f => exact keepsQueue_next (by simp)
  | transmitFrame p | transmissionComplete p => exact keepsQueue_next (by simp)

end Sys2Proof.Machine
end

section
/-! The front of the queue, device reset, and the two-level rotation (09, R153 to R158; 10, R160; O1, O4, O11, O12). -/

namespace Sys2Proof.Machine

/-! ### A step, and device reset -/

/-- Settles O1: the two cases of a step, by the queue it finds. -/
theorem stepRunsTheFrontCommand : Obligations.StepRunsTheFrontCommand :=
  ⟨fun s c rest hqueue => by rw [step, hqueue], fun s hempty => by rw [step, hempty]⟩

/-- A port of the reset state (10, R160). -/
theorem reset_port (p : Port) : State.reset.port p = resetPort false := by
  simp [State.port, State.reset, Vector.get_eq_getElem]

/-- Settles O4: the reset is written out field by field, and each port's is the reset port with its own signal. -/
theorem deviceResetRestoresReset : Obligations.DeviceResetRestoresReset := by
  refine fun s => ⟨_, rfl, rfl, fun p => ?_⟩
  rw [reset_port, State.port, Vector.get_eq_getElem, Vector.getElem_map]
  rfl

/-! ### A search in cyclic order -/

/-- The first position at or after `o`, in cyclic order, at which `e` holds. -/
def FirstFrom {n : Nat} (e : Fin n → Bool) (o j : Fin n) : Prop :=
  e j = true ∧ ∀ k : Fin n, (k - o).val < (j - o).val → e k = false

/-- The positions in cyclic order from `o` on. -/
def cyclicFrom {n : Nat} (o : Fin (n + 1)) : List (Fin (n + 1)) := (List.finRange (n + 1)).map (o + ·)

theorem cyclicFrom_find?_none {n : Nat} {e : Fin (n + 1) → Bool} {o : Fin (n + 1)} :
    (cyclicFrom o).find? e = none ↔ ∀ k, e k = false := by
  simp only [cyclicFrom, List.find?_eq_none, List.mem_map, List.mem_finRange, true_and, Bool.not_eq_true]
  exact ⟨fun h k => h k ⟨k - o, by abel⟩, fun h k _ => h k⟩

/-- The search stops at the first position: position `k` stands at index `k - o` of the order. -/
theorem firstFrom_of_find? {n : Nat} {e : Fin (n + 1) → Bool} {o j : Fin (n + 1)}
    (h : (cyclicFrom o).find? e = some j) : FirstFrom e o j := by
  obtain ⟨hj, i, hi, hat, hbefore⟩ := List.find?_eq_some_iff_getElem.1 h
  refine ⟨hj, fun k hk => ?_⟩
  have hindex : (j - o).val = i := by simp [← hat, cyclicFrom]
  have hmiss := hbefore (k - o).val (by omega)
  simpa [cyclicFrom] using hmiss

/-- An eligible position is nearer to the pointer that has moved past the position found before it (09, R154). -/
theorem FirstFrom.nearer {n : Nat} {e : Fin (n + 1) → Bool} {o j k : Fin (n + 1)} (h : FirstFrom e o j)
    (hk : e k = true) (hne : k ≠ j) : (k - (j + 1)).val < (k - o).val := by
  obtain ⟨-, hbefore⟩ := h
  have hnot : ¬ (k - o).val < (j - o).val := fun hlt => by simp [hbefore k hlt] at hk
  have hneq : (k - o).val ≠ (j - o).val := fun heq => hne (sub_left_injective (Fin.ext heq))
  have hlt : j - o < k - o := Fin.lt_def.2 (by omega)
  have hnext : (j - o + 1).val = (j - o).val + 1 := Fin.val_add_one_of_lt (hlt.trans_le (Fin.le_last _))
  have hsplit : k - (j + 1) = (k - o) - (j - o + 1) := by abel
  rw [hsplit, Fin.sub_val_of_le (Fin.le_def.2 (by omega)), hnext]
  omega

/-- An eligible position is nearer to the pointer that has moved past the port found before it. -/
theorem FirstFrom.nearer_past_port {e : Fin 5 → Bool} {o k : Fin 5} {q : Port} (h : FirstFrom e o q.castSucc)
    (hk : e k = true) (hne : k ≠ q.castSucc) : (k - q.succ).val < (k - o).val := by
  rw [← Fin.coeSucc_eq_succ]
  exact h.nearer hk hne

theorem outerSearch_eq (ok : Member → Bool) (o : Fin 5) :
    outerSearch ok o = (cyclicFrom o).find? (outerEligible ok) := by
  simp [outerSearch, cyclicFrom, List.finRange_succ]

theorem innerSearch_eq (ok : Member → Bool) (i : Fin 4) :
    innerSearch ok i = (cyclicFrom i).find? fun j => ok (innerMember j) := by
  simp [innerSearch, cyclicFrom, List.finRange_succ]

/-! ### A choice -/

/-- A port's outer position is not INTERNAL's (09, R153). -/
theorem castSucc_ne_internal : ∀ p : Port, p.castSucc ≠ 4 := by decide

/-- An outer position that is not eligible: a port that is not, or INTERNAL with no member eligible (09, R153). -/
theorem outerEligible_eq_false_iff {ok : Member → Bool} {j : Fin 5} : outerEligible ok j = false ↔
    (∀ p : Port, j.val = p.val → ok (.port p) = false) ∧ (j = 4 → ∀ i : Fin 4, ok (innerMember i) = false) := by
  cases j using Fin.lastCases with
  | last =>
    have hports : ∀ p : Port, 4 ≠ p.val := fun p => by omega
    simp [outerEligible, Fin.forall_fin_succ, innerMember, hports, and_assoc]
  | cast p =>
    simp [outerEligible, castSucc_ne_internal, ← Fin.ext_iff]

theorem outerEligible_port (ok : Member → Bool) (p : Port) : outerEligible ok p.castSucc = ok (.port p) := by
  simp [outerEligible]

theorem outerEligible_internal {ok : Member → Bool} :
    outerEligible ok 4 = true ↔ ∃ i : Fin 4, ok (innerMember i) = true := by
  have hports : ∀ p : Port, 4 ≠ p.val := fun p => by omega
  rw [← Bool.not_eq_false, outerEligible_eq_false_iff]
  simp [hports]

/-- Every member is a port or has an inner position (09, Table 9-1). -/
theorem member_cases (m : Member) : (∃ p, m = .port p) ∨ ∃ i, m = innerMember i := by
  cases m with
  | port p => exact .inl ⟨p, rfl⟩
  | withdraw => exact .inr ⟨0, rfl⟩
  | timer => exact .inr ⟨1, rfl⟩
  | mgmt => exact .inr ⟨2, rfl⟩
  | sweep => exact .inr ⟨3, rfl⟩

theorem innerMember_ne_port : ∀ (i : Fin 4) (p : Port), innerMember i ≠ .port p := by decide

theorem innerMember_inj : ∀ i j : Fin 4, innerMember i = innerMember j → i = j := by decide

/-- The three ways a choice can come out (09, R154). -/
inductive ChoiceMade (ok : Member → Bool) (s : State) : State → Prop
  | nothing (hnone : ∀ m, ok m = false) : ChoiceMade ok s { s with chosen := none }
  | port (p : Port) (hfirst : FirstFrom (outerEligible ok) s.outer p.castSucc) :
      ChoiceMade ok s { s with chosen := some (.port p), outer := p.succ }
  | internal (i : Fin 4) (hfirst : FirstFrom (outerEligible ok) s.outer 4)
      (hinner : FirstFrom (fun j => ok (innerMember j)) s.inner i) :
      ChoiceMade ok s { s with chosen := some (innerMember i), outer := 0, inner := i + 1 }

theorem choose_cases (ok : Member → Bool) (s : State) : ChoiceMade ok s (choose ok s) := by
  unfold choose
  rw [outerSearch_eq, innerSearch_eq]
  split
  next hnone =>
    rw [cyclicFrom_find?_none] at hnone
    refine .nothing fun m => ?_
    rcases member_cases m with ⟨p, rfl⟩ | ⟨i, rfl⟩
    · rw [← outerEligible_port ok p, hnone]
    · exact (outerEligible_eq_false_iff.1 (hnone 4)).2 rfl i
  next j hfound =>
    have hfirst := firstFrom_of_find? hfound
    cases j using Fin.lastCases with
    | cast p => simpa using ChoiceMade.port p hfirst
    | last =>
      obtain ⟨i, hi⟩ := outerEligible_internal.1 hfirst.1
      cases hsearch : (cyclicFrom s.inner).find? fun j => ok (innerMember j) with
      | none => simp [cyclicFrom_find?_none.1 hsearch i] at hi
      | some k => simpa using ChoiceMade.internal k hfirst (firstFrom_of_find? hsearch)

/-- Settles O11: the pointers and the member of each way a choice can come out. -/
theorem choiceMovesThePointers : Obligations.ChoiceMovesThePointers := by
  intro ok s t skips
  have hskips : ∀ {pos : Fin 5}, FirstFrom (outerEligible ok) s.outer pos → skips pos :=
    fun h j hj => outerEligible_eq_false_iff.1 (h.2 j hj)
  have hmade : ChoiceMade ok s t := choose_cases ok s
  clear_value t
  cases hmade with
  | nothing hnone =>
    exact ⟨rfl, by simpa using hnone, fun _ => ⟨rfl, rfl⟩, nofun, nofun⟩
  | port p hfirst =>
    have hp : ok (.port p) = true := by rw [← outerEligible_port ok p, hfirst.1]
    refine ⟨rfl, by simpa using ⟨_, hp⟩, nofun, fun q hq => ?_, fun i hi => ?_⟩
    · obtain rfl : p = q := by simpa using hq
      exact ⟨hp, hskips hfirst, rfl, rfl⟩
    · exact absurd (Option.some.inj hi).symm (innerMember_ne_port i p)
  | internal i hfirst hinner =>
    refine ⟨rfl, by simpa using ⟨_, hinner.1⟩, nofun, fun q hq => ?_, fun j hj => ?_⟩
    · exact absurd (Option.some.inj hq) (innerMember_ne_port i q)
    · obtain rfl := innerMember_inj _ _ (Option.some.inj hj)
      exact ⟨hinner.1, hskips hfirst, rfl, hinner.2, rfl⟩

/-! ### The bounds on a wait -/

/-- Where every choice makes a good one or lowers a measure, a good one is among as many choices as the measure is
below. -/
theorem good_among_choices {E : (Member → Bool) → Prop} {good : Option Member → Prop} {μ : State → Nat}
    (hstep : ∀ ok s, E ok → good (choose ok s).chosen ∨ μ (choose ok s) < μ s) (oks : List (Member → Bool)) (s : State)
    (hall : ∀ ok ∈ oks, E ok) (hlt : μ s < oks.length) : ∃ c ∈ choicesMade oks s, good c := by
  induction oks generalizing s with
  | nil => simp at hlt
  | cons ok rest ih =>
    rw [choicesMade]
    rcases hstep ok s (hall ok (by simp)) with hgood | hless
    · exact ⟨_, List.mem_cons_self, hgood⟩
    · rw [List.length_cons] at hlt
      obtain ⟨c, hc, hgood⟩ := ih (choose ok s) (fun f hf => hall f (by simp [hf])) (by omega)
      exact ⟨c, List.mem_cons_of_mem _ hc, hgood⟩

/-- How many outer positions come before one (09, R154). -/
def outerWait (pos : Fin 5) (s : State) : Nat := (pos - s.outer).val

/-- A bound on the choices before an inner position's: five for each inner position before it, and the outer positions
before INTERNAL (09, R158). -/
def innerWait (i : Fin 4) (s : State) : Nat := 5 * (i - s.inner).val + outerWait 4 s

theorem outerWait_lt (pos : Fin 5) (s : State) : outerWait pos s < 5 := (pos - s.outer).isLt

theorem innerWait_lt (i : Fin 4) (s : State) : innerWait i s < 20 := by
  have hinner := (i - s.inner).isLt
  have houter := outerWait_lt 4 s
  unfold innerWait
  omega

/-- A step of the inner pointer counts for more than any move of the outer one. -/
theorem innerWait_lt_of_nearer {i : Fin 4} {s t : State} (h : (i - t.inner).val < (i - s.inner).val) :
    innerWait i t < innerWait i s := by
  have houter := outerWait_lt 4 t
  unfold innerWait
  generalize (i - t.inner).val = n at *
  omega

/-- A choice serves an eligible port or brings the pointer nearer to it. -/
theorem choose_serves_port (p : Port) (ok : Member → Bool) (s : State) (hp : ok (.port p) = true) :
    (choose ok s).chosen = some (.port p) ∨ outerWait p.castSucc (choose ok s) < outerWait p.castSucc s := by
  have hpos : outerEligible ok p.castSucc = true := by rw [outerEligible_port, hp]
  have hmade := choose_cases ok s
  generalize choose ok s = t at hmade ⊢
  cases hmade with
  | nothing hnone => simp [hnone] at hp
  | port q hfirst =>
    by_cases hpq : p = q
    · exact .inl (by rw [hpq])
    · exact .inr (hfirst.nearer_past_port hpos (by simpa using hpq))
  | internal i hfirst hinner => exact .inr (hfirst.nearer hpos (castSucc_ne_internal p))

/-- A choice serves INTERNAL, where a member of it is eligible, or brings the outer pointer nearer to it. -/
theorem choose_serves_internal (ok : Member → Bool) (s : State) (hok : ∃ i : Fin 4, ok (innerMember i) = true) :
    (∃ i : Fin 4, (choose ok s).chosen = some (innerMember i)) ∨ outerWait 4 (choose ok s) < outerWait 4 s := by
  have hpos : outerEligible ok 4 = true := outerEligible_internal.2 hok
  have hmade := choose_cases ok s
  generalize choose ok s = t at hmade ⊢
  cases hmade with
  | nothing hnone => simp [hnone] at hok
  | port q hfirst => exact .inr (hfirst.nearer_past_port hpos (castSucc_ne_internal q).symm)
  | internal i hfirst hinner => exact .inl ⟨i, rfl⟩

/-- A choice serves an eligible inner member or brings its turn nearer: a port's choice moves the outer pointer, another
inner member's the inner pointer. -/
theorem choose_serves_inner (i : Fin 4) (ok : Member → Bool) (s : State) (hi : ok (innerMember i) = true) :
    (choose ok s).chosen = some (innerMember i) ∨ innerWait i (choose ok s) < innerWait i s := by
  have hpos : outerEligible ok 4 = true := outerEligible_internal.2 ⟨i, hi⟩
  have hmade := choose_cases ok s
  generalize choose ok s = t at hmade ⊢
  cases hmade with
  | nothing hnone => simp [hnone] at hi
  | port q hfirst =>
    exact .inr (Nat.add_lt_add_left (hfirst.nearer_past_port hpos (castSucc_ne_internal q).symm) _)
  | internal j hfirst hinner =>
    by_cases hij : i = j
    · exact .inl (by rw [hij])
    · exact .inr (innerWait_lt_of_nearer (hinner.nearer hi hij))

/-- Settles O12: each choice serves the member or brings its turn nearer, and no turn is farther than the bound. -/
theorem rotationBoundsEveryWait : Obligations.RotationBoundsEveryWait := by
  intro s oks
  refine ⟨fun p hlen hok => ?_, fun hlen hok => ?_, fun i hlen hok => ?_⟩
  · obtain ⟨_, hmem, rfl⟩ := good_among_choices (good := (· = some (.port p))) (choose_serves_port p) oks s hok
      (by simpa [hlen] using outerWait_lt p.castSucc s)
    exact hmem
  · obtain ⟨_, hmem, i, rfl⟩ := good_among_choices (good := (∃ i, · = some (innerMember i))) choose_serves_internal oks
      s hok (by simpa [hlen] using outerWait_lt 4 s)
    exact ⟨i, hmem⟩
  · obtain ⟨_, hmem, rfl⟩ := good_among_choices (good := (· = some (innerMember i))) (choose_serves_inner i) oks s hok
      (by simpa [hlen] using innerWait_lt i s)
    exact hmem

end Sys2Proof.Machine
end

section
/-! What takes a port to TRAINING and to DOWN (10, R161, R164 to R166; 11, R200; log entry 12; O57). -/

namespace Sys2Proof.Machine

/-! ### Changes of one port -/

/-- From one state to another, one port and EVENTS change at most, and they become these. -/
structure PortBecomes (p : Port) (x : PortState) (ev : Word) (s t : State) : Prop where
  frame : t = { s with ports := t.ports, events := t.events }
  port : t.port p = x
  others : ∀ y, y ≠ p → t.port y = s.port y
  events : t.events = ev

theorem PortBecomes.refl (p : Port) (s : State) : PortBecomes p (s.port p) s.events s s :=
  ⟨rfl, rfl, fun _ _ => rfl, rfl⟩

section
variable {p : Port} {q : PortState} {ev : Word} {s t : State}

theorem PortBecomes.updPort (h : PortBecomes p q ev s t) (f : PortState → PortState) :
    PortBecomes p (f q) ev s (updPort p f t) where
  frame := by rw [Machine.updPort, h.frame]
  port := by rw [updPort_port, if_pos rfl, h.port]
  others y hy := by rw [updPort_port, if_neg hy, h.others y hy]
  events := h.events

theorem PortBecomes.postEvent (h : PortBecomes p q ev s t) (e : Event) :
    PortBecomes p q (ev ||| atBit (eventBit e) 1) s (postEvent e t) where
  frame := by rw [Machine.postEvent, h.frame]
  port := h.port
  others := h.others
  events := by rw [← h.events, Machine.postEvent]

/-- A change that leaves EVENTS is one of the ports alone. -/
theorem PortBecomes.ports_only (h : PortBecomes p q s.events s t) : t = { s with ports := t.ports } := by
  have hframe := h.frame
  rwa [h.events] at hframe

/-- A change to what the port and EVENTS were already is none. -/
theorem PortBecomes.eq_self (h : PortBecomes p (s.port p) s.events s t) : t = s := by
  have hports : t.ports = s.ports := vector_ext_get fun y => by
    by_cases hy : y = p
    · rw [hy]; exact h.port
    · exact h.others y hy
  rw [h.ports_only, hports]

/-! ### Going DOWN and training -/

/-- EVENTS once a port's link state has gone from one to another: LINK_CHANGE is posted where the two differ
(11, R198). -/
def linkNoted (p : Port) (old new : LinkState) (ev : Word) : Word :=
  if old = new then ev else ev ||| atBit (8 + p.val) 1

theorem linkNoted_getLsbD (p y : Port) (old new : LinkState) (ev : Word) :
    (linkNoted p old new ev).getLsbD (8 + y.val) = (ev.getLsbD (8 + y.val) || decide (y = p ∧ new ≠ old)) := by
  have hbit : (atBit (8 + p.val) 1).getLsbD (8 + y.val) = decide (y = p) := by revert p y; decide
  unfold linkNoted
  split
  · rename_i hsame; simp [hsame]
  · rename_i hchanged; rw [BitVec.getLsbD_or, hbit]; simp [Ne.symm hchanged]

/-- A port that loses its link: DOWN from UP, DOWN from TRAINING, or DOWN as it was (10, R165, R166). -/
def wentDown (q : PortState) : PortState :=
  match q.link with
  | .up => downFromUp q
  | .training => downFromTraining q
  | .down => q

theorem wentDown_link (q : PortState) : (wentDown q).link = .down := by
  unfold wentDown
  split
  · rfl
  · rfl
  · assumption

theorem PortBecomes.goDown (h : PortBecomes p q ev s t) :
    PortBecomes p (wentDown q) (linkNoted p q.link .down ev) s (goDown p t) := by
  unfold Machine.goDown wentDown linkNoted
  rw [h.port]
  cases q.link with
  | up => exact (h.updPort downFromUp).postEvent (.linkChange p)
  | training => exact (h.updPort downFromTraining).postEvent (.linkChange p)
  | down => exact h

/-- A port that has entered TRAINING, its TRAIN begun (10, R161; log entry 12). -/
def inTraining (q : PortState) : PortState := { q with link := .training, tx := some .train }

/-- A port trains where it is DOWN and ready, and is as it was elsewhere (10, R161). -/
def trainedIfReady (q : PortState) : PortState :=
  if q.link = .down ∧ q.enable = true ∧ q.signal = true ∧ q.heldDown = false then inTraining q else q

theorem PortBecomes.tryTrain (h : PortBecomes p q ev s t) :
    PortBecomes p (trainedIfReady q) (linkNoted p q.link (trainedIfReady q).link ev) s (tryTrain p t) := by
  unfold Machine.tryTrain trainedIfReady
  simp only [h.port]
  split
  · rename_i hready
    rw [linkNoted, if_neg (by simp [inTraining, hready.1])]
    exact (h.updPort inTraining).postEvent (.linkChange p)
  · rw [linkNoted, if_pos rfl]
    exact h

end

/-! ### The signal -/

theorem exec_signalArrives_becomes (p : Port) (s : State) :
    ∃ t, exec (.signalArrives p) s = .next t
      ∧ PortBecomes p (trainedIfReady { s.port p with signal := true })
          (linkNoted p (s.port p).link (trainedIfReady { s.port p with signal := true }).link s.events) s t :=
  ⟨_, rfl, ((PortBecomes.refl p s).updPort fun q => { q with signal := true }).tryTrain⟩

theorem exec_signalLost_becomes (p : Port) (s : State) :
    ∃ t, exec (.signalLost p) s = .next t
      ∧ PortBecomes p (wentDown { s.port p with signal := false }) (linkNoted p (s.port p).link .down s.events) s t :=
  ⟨_, rfl, ((PortBecomes.refl p s).updPort fun q => { q with signal := false }).goDown⟩

/-! ### LINK_CTRL -/

/-- A port once its bit of LINK_CTRL is written (10, R161, R164, R166; 11, R200). -/
def enableWritten (v : Word) (p : Port) (q : PortState) : PortState :=
  if v.getLsbD p.val then trainedIfReady { q with enable := v.getLsbD p.val }
  else wentDown { q with enable := v.getLsbD p.val }

theorem writeEnable_becomes (v : Word) (p : Port) (s : State) :
    PortBecomes p (enableWritten v p (s.port p))
      (linkNoted p (s.port p).link (enableWritten v p (s.port p)).link s.events) s (writeEnable v s p) := by
  have hset := (PortBecomes.refl p s).updPort fun q => { q with enable := v.getLsbD p.val }
  unfold writeEnable enableWritten
  dsimp only
  split
  · exact hset.tryTrain
  · rw [wentDown_link]
    exact hset.goDown

theorem foldl_writeEnable_frame (v : Word) (l : List Port) (s : State) :
    l.foldl (writeEnable v) s
      = { s with ports := (l.foldl (writeEnable v) s).ports, events := (l.foldl (writeEnable v) s).events } := by
  induction l generalizing s with
  | nil => rfl
  | cons p rest ih => rw [List.foldl_cons, ih, (writeEnable_becomes v p s).frame]

/-- Each port listed once has its enable written once, and its LINK_CHANGE is posted by that write alone. -/
theorem foldl_writeEnable_port (v : Word) (y : Port) {l : List Port} (hl : l.Nodup) (s : State) :
    (l.foldl (writeEnable v) s).port y = (if y ∈ l then enableWritten v y (s.port y) else s.port y)
      ∧ (l.foldl (writeEnable v) s).events.getLsbD (8 + y.val) = (s.events.getLsbD (8 + y.val)
          || decide (((l.foldl (writeEnable v) s).port y).link ≠ (s.port y).link)) := by
  induction l generalizing s with
  | nil => simp
  | cons p rest ih =>
    obtain ⟨hp, hrest⟩ := List.nodup_cons.1 hl
    obtain ⟨hport, hevents⟩ := ih hrest (writeEnable v s p)
    have hwrite := writeEnable_becomes v p s
    rw [List.foldl_cons, hevents, hport, hwrite.events, linkNoted_getLsbD]
    by_cases hy : y = p
    · subst hy; simp [hp, hwrite.port]
    · simp [hy, hwrite.others y hy]

theorem writeLinkCtrl_port (v : Word) (s : State) (p : Port) :
    (writeLinkCtrl v s).port p = enableWritten v p (s.port p) := by
  have hall : p ∈ allPorts := by fin_cases p <;> simp [allPorts]
  rw [writeLinkCtrl, (foldl_writeEnable_port v p (by decide) s).1, if_pos hall]

theorem writeLinkCtrl_events (v : Word) (s : State) (p : Port) :
    (writeLinkCtrl v s).events.getLsbD (8 + p.val)
      = (s.events.getLsbD (8 + p.val) || decide (((writeLinkCtrl v s).port p).link ≠ (s.port p).link)) :=
  (foldl_writeEnable_port v p (by decide) s).2

/-! ### SEND_TRAIN -/

/-- A TRAINING port whose interval comes round sends its TRAIN, or has it due (10, R161, R176; log entry 12). -/
def intervalMet (q : PortState) : PortState :=
  if q.tx = none ∧ q.ackOwed = false then { q with tx := some .train, trainDue := false }
  else { q with trainDue := true }

theorem exec_sendTrain {p : Port} {s : State} (hlink : (s.port p).link = .training) :
    exec (.sendTrain p) s = .next (updPort p intervalMet s) := if_pos hlink

/-! ### The statement -/

/-- Settles O57: one port's change for the signals and SEND_TRAIN, and one of each port for LINK_CTRL. -/
theorem linksTrainAndGoDown : Obligations.LinksTrainAndGoDown := by
  refine ⟨fun s p => ?_, fun s p => ?_, fun s v => ?_, fun s p hlink => ?_⟩
  · obtain ⟨t, hexec, h⟩ := exec_signalArrives_becomes p s
    refine ⟨t, hexec, h.frame, fun htrains => ?_, fun hnot => ?_, h.others⟩
    · obtain ⟨hdown, henable, hheld⟩ := htrains
      have hready : trainedIfReady { s.port p with signal := true } = inTraining { s.port p with signal := true } :=
        if_pos ⟨hdown, henable, rfl, hheld⟩
      have hlink : (s.port p).link = .down := hdown
      exact ⟨h.port.trans hready, by rw [h.events, hready, hlink]; rfl⟩
    · have hstays : trainedIfReady { s.port p with signal := true } = { s.port p with signal := true } :=
        if_neg (by simpa using hnot)
      exact ⟨h.port.trans hstays, by rw [h.events, hstays]; exact if_pos rfl⟩
  · obtain ⟨t, hexec, h⟩ := exec_signalLost_becomes p s
    exact ⟨t, hexec, h.frame, h.port, h.others, h.events⟩
  · refine ⟨writeLinkCtrl v s, rfl, foldl_writeEnable_frame v allPorts s, fun p => ⟨fun hv => ?_, fun hv => ?_, ?_⟩⟩
    · rw [writeLinkCtrl_port, enableWritten, if_neg (by simp [hv])]
      rfl
    · rw [writeLinkCtrl_port, enableWritten, if_pos hv]
      simp [trainedIfReady, inTraining, hv]
    · exact writeLinkCtrl_events v s p
  · have hsent := (PortBecomes.refl p s).updPort intervalMet
    exact ⟨_, exec_sendTrain hlink, hsent.ports_only, hsent.others, hsent.port⟩

end Sys2Proof.Machine
end

section
/-! What each received frame does (10, R162 to R164, R168 to R170, R175; log entries 18, 19 and 26; O58). -/

namespace Sys2Proof.Machine

/-! ### What a violation and a far end's restart do to an UP port -/

section
variable {p : Port} {s : State}

theorem goDown_of_up (hup : (s.port p).link = .up) :
    PortBecomes p (downFromUp (s.port p)) (s.events ||| atBit (8 + p.val) 1) s (goDown p s) := by
  have hdown := (PortBecomes.refl p s).goDown
  rwa [wentDown, linkNoted, hup] at hdown

theorem linkFault_of_up (hup : (s.port p).link = .up) :
    PortBecomes p (downFromUp (s.port p)) (s.events ||| atBit (8 + p.val) 1 ||| atBit (12 + p.val) 1) s
      (linkFault p s) :=
  (goDown_of_up hup).postEvent (.linkFault p)

/-! ### The receiver by kind code -/

variable {f : List Byte}

/-- A frame that passes its check is handled by its kind code; in DOWN each handler ignores it, as the receiver does
(10, R161, R168). -/
theorem receiveFrame_of_ok (p : Port) (s : State) (hok : frameOk f = true) : receiveFrame p f s =
    if frameKind f = 1#8 then onTrain p f s
    else if frameKind f = 2#8 then onTrainAck p f s
    else if frameKind f = 3#8 then onCredit p f s
    else if frameKind f = 4#8 then onMessage p f s
    else onUnknownKind p s := by
  unfold receiveFrame
  split
  · rename_i hdown
    simp [onTrain, onTrainAck, onCredit, onMessage, onUnknownKind, hdown]
  · simp [hok]

theorem receiveFrame_of_kind (p : Port) (s : State) {kind : Byte} (h : frameOfKind kind f = true) :
    receiveFrame p f s =
      if kind = 1#8 then onTrain p f s
      else if kind = 2#8 then onTrainAck p f s
      else if kind = 3#8 then onCredit p f s
      else if kind = 4#8 then onMessage p f s
      else onUnknownKind p s := by
  obtain ⟨hok, rfl⟩ : frameOk f = true ∧ frameKind f = kind := by simpa [frameOfKind] using h
  exact receiveFrame_of_ok p s hok

theorem exec_trainReceived (hwf : (Instr.trainReceived p f).wellFormed = true) :
    exec (.trainReceived p f) s = .next (onTrain p f s) :=
  congrArg Host.Outcome.next (receiveFrame_of_kind (kind := 1#8) p s hwf)

theorem exec_trainAckReceived (hwf : (Instr.trainAckReceived p f).wellFormed = true) :
    exec (.trainAckReceived p f) s = .next (onTrainAck p f s) :=
  congrArg Host.Outcome.next (receiveFrame_of_kind (kind := 2#8) p s hwf)

theorem exec_creditReceived (hwf : (Instr.creditReceived p f).wellFormed = true) :
    exec (.creditReceived p f) s = .next (onCredit p f s) :=
  congrArg Host.Outcome.next (receiveFrame_of_kind (kind := 3#8) p s hwf)

theorem exec_messageReceived (hwf : (Instr.messageReceived p f).wellFormed = true) :
    exec (.messageReceived p f) s = .next (onMessage p f s) :=
  congrArg Host.Outcome.next (receiveFrame_of_kind (kind := 4#8) p s hwf)

theorem exec_unknownKindFrameReceived (hwf : (Instr.unknownKindFrameReceived p f).wellFormed = true) :
    exec (.unknownKindFrameReceived p f) s = .next (onUnknownKind p s) := by
  obtain ⟨hok, h1, h2, h3, h4⟩ : frameOk f = true ∧ frameKind f ≠ 1#8 ∧ frameKind f ≠ 2#8 ∧ frameKind f ≠ 3#8
      ∧ frameKind f ≠ 4#8 := by simpa [Instr.wellFormed, frameOfUnknownKind] using hwf
  refine congrArg Host.Outcome.next ((receiveFrame_of_ok p s hok).trans ?_)
  rw [if_neg h1, if_neg h2, if_neg h3, if_neg h4]

/-- A frame that fails its check has no kind: it is discarded unless the port is DOWN (10, R168, R170). -/
theorem exec_frameCheckFailed (hwf : (Instr.frameCheckFailed p f).wellFormed = true) :
    exec (.frameCheckFailed p f) s = .next (if (s.port p).link = .down then s else onCheckFailed p f s) := by
  have hbad : frameOk f = false := by simpa [Instr.wellFormed] using hwf
  refine congrArg Host.Outcome.next (?_ : receiveFrame p f s = _)
  rw [receiveFrame, if_pos hbad]

/-! ### Each frame by link state -/

theorem onTrain_down (hlink : (s.port p).link = .down) : onTrain p f s = s := by rw [onTrain, hlink]

theorem onTrain_training (hlink : (s.port p).link = .training) : onTrain p f s =
    if framePayload f = [] then updPort p (fun q => { q with ackOwed := true }) s else s := by rw [onTrain, hlink]

theorem onTrain_up (hlink : (s.port p).link = .up) : onTrain p f s =
    if framePayload f = [] then goDown p s else linkFault p s := by rw [onTrain, hlink]

theorem onTrainAck_down (hlink : (s.port p).link = .down) : onTrainAck p f s = s := by rw [onTrainAck, hlink]

theorem onTrainAck_training (hlink : (s.port p).link = .training) : onTrainAck p f s =
    if framePayload f = [] then goUp p s else s := by rw [onTrainAck, hlink]

theorem onTrainAck_up (hlink : (s.port p).link = .up) : onTrainAck p f s =
    if framePayload f = [] then s else linkFault p s := by rw [onTrainAck, hlink]

/-- CREDITs, MESSAGEs and frames of unknown kind are examined in UP only (10, R161, R162). -/
theorem onCredit_not_up (hlink : (s.port p).link ≠ .up) : onCredit p f s = s := by
  unfold onCredit
  split
  · rfl
  · rfl
  · exact absurd ‹_› hlink

theorem onMessage_not_up (hlink : (s.port p).link ≠ .up) : onMessage p f s = s := by
  unfold onMessage
  split
  · rfl
  · rfl
  · exact absurd ‹_› hlink

theorem onUnknownKind_not_up (hlink : (s.port p).link ≠ .up) : onUnknownKind p s = s := by
  unfold onUnknownKind
  split
  · rfl
  · rfl
  · exact absurd ‹_› hlink

/-- A CREDIT's payload is one byte, from 1 to 16, that leaves the egress credits at 255 at most (10, R168, R175). -/
theorem onCredit_accepted (hup : (s.port p).link = .up) {c : Byte} (hpay : framePayload f = [c]) (h1 : 1 ≤ c.toNat)
    (h16 : c.toNat ≤ 16) (hmax : (s.port p).egressCredits + c.toNat ≤ 255) :
    onCredit p f s = updPort p (fun q => { q with egressCredits := q.egressCredits + c.toNat }) s := by
  simp only [onCredit, hup, hpay]
  exact if_pos ⟨h1, h16, hmax⟩

theorem onCredit_violation (hup : (s.port p).link = .up)
    (hbad : ¬ ∃ c, framePayload f = [c] ∧ 1 ≤ c.toNat ∧ c.toNat ≤ 16 ∧ (s.port p).egressCredits + c.toNat ≤ 255) :
    onCredit p f s = linkFault p s := by
  simp only [onCredit, hup]
  split
  · rename_i c hpay
    exact if_neg fun hc => hbad ⟨c, hpay, hc⟩
  · rfl

theorem onMessage_up (hup : (s.port p).link = .up) : onMessage p f s =
    if (framePayload f).length = 24 ∧ 1 ≤ (s.port p).ingressCredits then
      updPort p (fun q => { q with ingressCredits := q.ingressCredits - 1,
                                   fifo := q.fifo ++ [requestOfBytes (framePayload f)] }) s
    else linkFault p s := by
  simp only [onMessage, hup]
  rfl

theorem onUnknownKind_up (hup : (s.port p).link = .up) : onUnknownKind p s = linkFault p s := by
  rw [onUnknownKind, hup]

/-- A port that has come UP: 16 credits to return, and the frame being sent goes on (10, R163; log entry 26). -/
def cameUp (q : PortState) : PortState :=
  { q with link := .up, ingressCredits := 16, unsentReturns := 16, trainDue := false }

theorem goUp_becomes (p : Port) (s : State) :
    PortBecomes p (cameUp (s.port p)) (s.events ||| atBit (8 + p.val) 1) s (goUp p s) :=
  ((PortBecomes.refl p s).updPort cameUp).postEvent (.linkChange p)

/-- A port that a frame reaches which fails its check: in UP a frame of request length returns the credit it is taken
to have used, while one is out (10, R170; log entry 19). -/
def checkFailed (f : List Byte) (q : PortState) : PortState :=
  { q with frameError := true, unsentReturns :=
      if q.link = .up ∧ f.length = requestFrameLength ∧ q.unsentReturns < q.ingressCredits then q.unsentReturns + 1
      else q.unsentReturns }

theorem onCheckFailed_eq (p : Port) (f : List Byte) (s : State) :
    onCheckFailed p f s = updPort p (checkFailed f) s := by
  refine congrArg (updPort p · s) (funext fun q => ?_)
  rw [checkFailed]
  split
  · rfl
  · rfl

end

/-! ### The statement -/

/-- A change of one port, in the words of the claims. -/
theorem PortBecomes.port_and_events {p : Port} {x : PortState} {ev : Word} {s t : State} (h : PortBecomes p x ev s t) :
    (t = { s with ports := t.ports, events := t.events } ∧ t.port p = x ∧ ∀ y, y ≠ p → t.port y = s.port y)
      ∧ t.events = ev :=
  ⟨⟨h.frame, h.port, h.others⟩, h.events⟩

/-- A port's fall, in the words of the claims. -/
theorem PortBecomes.fall {p : Port} {x : PortState} {ev : Word} {s t : State} (h : PortBecomes p x ev s t) :
    t = { s with ports := t.ports, events := ev } ∧ (∀ y, y ≠ p → t.port y = s.port y) ∧ t.port p = x := by
  have hframe := h.frame
  rw [h.events] at hframe
  exact ⟨hframe, h.others, h.port⟩

/-- Settles O58: each frame's clauses, one per link state and content. -/
theorem receivedFramesAct : Obligations.ReceivedFramesAct := by
  intro s p f
  have hself := PortBecomes.refl p s
  have hviolated := fun hup => (linkFault_of_up (p := p) (s := s) hup).fall
  refine ⟨fun hwf => ⟨onTrain p f s, exec_trainReceived hwf, onTrain_down, fun ht he => ?_, fun ht hne => ?_,
      fun hup he => ?_, fun hup hne => ?_⟩,
    fun hwf => ⟨onTrainAck p f s, exec_trainAckReceived hwf, fun h => ?_, fun ht he => ?_, fun ht hne => ?_,
      fun hup hne => ?_⟩,
    fun hwf => ⟨onCredit p f s, exec_creditReceived hwf, onCredit_not_up, fun hup c hpay h1 h16 hmax => ?_,
      fun hup hbad => ?_⟩,
    fun hwf => ⟨onMessage p f s, exec_messageReceived hwf, onMessage_not_up, fun hup hlen hcredit => ?_,
      fun hup hbad => ?_⟩,
    fun hwf => ⟨onUnknownKind p s, exec_unknownKindFrameReceived hwf, onUnknownKind_not_up, fun hup => ?_⟩,
    fun hwf => ⟨_, exec_frameCheckFailed hwf, fun hd => if_pos hd, fun hnd => ?_⟩⟩
  · rw [onTrain_training ht, if_pos he]
    exact (hself.updPort fun q => { q with ackOwed := true }).port_and_events
  · rw [onTrain_training ht, if_neg hne]
  · rw [onTrain_up hup, if_pos he]
    exact (goDown_of_up hup).fall
  · rw [onTrain_up hup, if_neg hne]
    exact hviolated hup
  · rcases h with hd | ⟨hup, he⟩
    · exact onTrainAck_down hd
    · rw [onTrainAck_up hup, if_pos he]
  · rw [onTrainAck_training ht, if_pos he]
    exact (goUp_becomes p s).port_and_events
  · rw [onTrainAck_training ht, if_neg hne]
  · rw [onTrainAck_up hup, if_neg hne]
    exact hviolated hup
  · rw [onCredit_accepted hup hpay h1 h16 hmax]
    exact (hself.updPort fun q => { q with egressCredits := q.egressCredits + c.toNat }).port_and_events
  · rw [onCredit_violation hup hbad]
    exact hviolated hup
  · rw [onMessage_up hup, if_pos ⟨hlen, hcredit⟩]
    exact (hself.updPort fun q => { q with
      ingressCredits := q.ingressCredits - 1, fifo := q.fifo ++ [requestOfBytes (framePayload f)] }).port_and_events
  · rw [onMessage_up hup, if_neg (by omega)]
    exact hviolated hup
  · rw [onUnknownKind_up hup]
    exact hviolated hup
  · rw [if_neg hnd, onCheckFailed_eq]
    exact (hself.updPort (checkFailed f)).port_and_events

end Sys2Proof.Machine
end

section
/-! The transmitter's order, and what a completed frame does (10, R171, R172, R176, R177; log entries 11 and 24;
O59). -/

namespace Sys2Proof.Machine

/-! ### The frame a free transmitter begins -/

section
variable {q : PortState}

theorem transmit_busy (h : q.tx ≠ none) : transmit q = q := if_neg h

theorem transmit_free (h : q.tx = none) : transmit q = beginFrame q := if_pos h

/-- In DOWN a transmitter sends nothing (10, R161). -/
theorem transmit_down (h : q.link = .down) : transmit q = q := by
  unfold transmit beginFrame
  rw [h]
  exact ite_self q

/-- First, in TRAINING and in UP, a TRAIN_ACK owed. -/
theorem transmit_ack (hfree : q.tx = none) (hlink : q.link ≠ .down) (hack : q.ackOwed = true) :
    transmit q = { q with tx := some .trainAck, ackOwed := false } := by
  rw [transmit_free hfree, beginFrame]
  cases hl : q.link with
  | down => exact absurd hl hlink
  | training => exact if_pos hack
  | up => exact if_pos hack

/-- Then, in TRAINING, a TRAIN due. -/
theorem transmit_train (hfree : q.tx = none) (hlink : q.link = .training) (hack : q.ackOwed = false)
    (hdue : q.trainDue = true) : transmit q = { q with tx := some .train, trainDue := false } := by
  simp only [transmit_free hfree, beginFrame, hlink, hack, hdue, Bool.false_eq_true, if_false, if_true]

/-- Then, in UP, a CREDIT of all unsent returns. -/
theorem transmit_credit (hfree : q.tx = none) (hlink : q.link = .up) (hack : q.ackOwed = false)
    (hunsent : 1 ≤ q.unsentReturns) :
    transmit q = { q with tx := some (.credit q.unsentReturns), unsentReturns := 0 } := by
  simp only [transmit_free hfree, beginFrame, hlink, hack, hunsent, Bool.false_eq_true, if_false, if_true]

/-- With neither owed, in UP, a message where there is an egress credit. -/
theorem transmit_message (hfree : q.tx = none) (hlink : q.link = .up)
    (hidle : q.ackOwed = false ∧ q.unsentReturns = 0) :
    transmit q = if 1 ≤ q.egressCredits then beginMessage q else q := by
  obtain ⟨hack, hunsent⟩ := hidle
  simp [transmit_free hfree, beginFrame, hlink, hack, hunsent]

/-! ### The queue a message is taken from -/

theorem beginMessage_empty (hreply : q.replyQ = []) (hnotice : q.noticeQ = []) : beginMessage q = q := by
  rw [beginMessage, egressSource, hreply, hnotice]

theorem egressSource_reply {r : Reply} {rest : List Reply} (hq : q.replyQ = r :: rest)
    (hturn : q.noticeQ = [] ∨ q.egressTurn = .reply) : egressSource q = some .reply := by
  unfold egressSource
  rw [hq]
  cases hn : q.noticeQ with
  | nil => rfl
  | cons n ns =>
    rcases hturn with hempty | hturn
    · exact absurd (hn.symm.trans hempty) (List.cons_ne_nil n ns)
    · exact congrArg some hturn

theorem egressSource_notice {n : Notice} {rest : List Notice} (hq : q.noticeQ = n :: rest)
    (hturn : q.replyQ = [] ∨ q.egressTurn = .notice) : egressSource q = some .notice := by
  unfold egressSource
  rw [hq]
  cases hr : q.replyQ with
  | nil => rfl
  | cons r rs =>
    rcases hturn with hempty | hturn
    · exact absurd (hr.symm.trans hempty) (List.cons_ne_nil r rs)
    · exact congrArg some hturn

theorem beginMessage_reply {r : Reply} {rest : List Reply} (hq : q.replyQ = r :: rest)
    (hturn : q.noticeQ = [] ∨ q.egressTurn = .reply) :
    beginMessage q = { q with tx := some (.reply r), replyQ := rest, egressCredits := q.egressCredits - 1,
                              egressTurn := .notice } := by
  rw [beginMessage, egressSource_reply hq hturn]
  simp only [hq]
  rfl

theorem beginMessage_notice {n : Notice} {rest : List Notice} (hq : q.noticeQ = n :: rest)
    (hturn : q.replyQ = [] ∨ q.egressTurn = .notice) :
    beginMessage q = { q with tx := some (.notice n), noticeQ := rest, egressCredits := q.egressCredits - 1,
                              egressTurn := .reply } := by
  rw [beginMessage, egressSource_notice hq hturn]
  simp only [hq]
  rfl

/-! ### A frame sent to its end -/

theorem completeFrame_tagged {r : Reply} {a : Agent} {g : Tag} (htx : q.tx = some (.reply r))
    (howner : r.owner = .tag a g) : completeFrame q = { q with tx := none, reports := q.reports ++ [(a, g)] } := by
  simp only [completeFrame, htx, howner]

theorem completeFrame_withheld {r : Reply} (htx : q.tx = some (.reply r)) (howner : r.owner = .credit) :
    completeFrame q = { q with tx := none, withheld := q.withheld - 1, ingressCredits := q.ingressCredits + 1,
                               unsentReturns := q.unsentReturns + 1 } := by
  simp only [completeFrame, htx, howner]

/-- Any other frame's end, and an end with nothing being sent, leave the transmitter free and no more. -/
theorem completeFrame_other (hother : ∀ r, q.tx ≠ some (.reply r)) : completeFrame q = { q with tx := none } := by
  unfold completeFrame
  split
  · rename_i r hr; exact absurd hr (hother r)
  · rfl
  · rfl
  · rfl
  · rfl
  · rename_i hnone; rw [← hnone]

end

/-! ### The statement -/

/-- Settles O59: the frame begun in each state of the port, and what each frame's end changes. -/
theorem transmitterOrderAndCompletion : Obligations.TransmitterOrderAndCompletion := by
  refine ⟨fun s p => ?_, fun s p => ?_⟩
  · have hsent := (PortBecomes.refl p s).updPort transmit
    have hport : ∀ {x}, transmit (s.port p) = x → (updPort p transmit s).port p = x := hsent.port.trans
    refine ⟨updPort p transmit s, rfl, hsent.ports_only, hsent.others, fun hquiet => ?_,
      fun hfree hlink hack => hport (transmit_ack hfree hlink hack),
      fun hfree hlink hack hdue => hport (transmit_train hfree hlink hack hdue),
      fun hfree hup hack hunsent => hport (transmit_credit hfree hup hack hunsent),
      fun hfree hup hidle hnone => hport ?_,
      fun r rest hfree hup hidle hcredit hq hturn =>
        hport ((transmit_message hfree hup hidle).trans ((if_pos hcredit).trans (beginMessage_reply hq hturn))),
      fun n rest hfree hup hidle hcredit hq hturn =>
        hport ((transmit_message hfree hup hidle).trans ((if_pos hcredit).trans (beginMessage_notice hq hturn)))⟩
    · have hsame : transmit (s.port p) = s.port p := hquiet.elim transmit_busy transmit_down
      rw [hsame] at hsent
      exact hsent.eq_self
    · rw [transmit_message hfree hup hidle]
      split
      · rename_i hcredit
        rcases hnone with hzero | ⟨hreply, hnotice⟩
        · omega
        · exact beginMessage_empty hreply hnotice
      · rfl
  · have hsent := (PortBecomes.refl p s).updPort completeFrame
    exact ⟨updPort p completeFrame s, rfl, hsent.ports_only, hsent.others,
      fun r a g htx howner => hsent.port.trans (completeFrame_tagged htx howner),
      fun r htx howner => hsent.port.trans (completeFrame_withheld htx howner),
      fun hother => hsent.port.trans (completeFrame_other hother)⟩

end Sys2Proof.Machine
end

section
/-! Requests, frames and SPI transactions read back (10, R168, R182, Table 10-5; 11, R202, R203; O60). -/

namespace Sys2Proof.Machine

/-! ### Fields of a message -/

/-- Two neighbouring fields of a word join to one: the library's rule, with the fields' places as arguments. -/
theorem extractLsb'_append_lower {n : Nat} (v : BitVec n) (lo a b : Nat) :
    v.extractLsb' (lo + b) a ++ v.extractLsb' lo b = v.extractLsb' lo (a + b) :=
  BitVec.extractLsb'_append_extractLsb'_eq_extractLsb' rfl

theorem field16_of_bytes {m : List Byte} {i : Nat} {v : BitVec 16} (hhigh : byteAt m i = v.extractLsb' 8 8)
    (hlow : byteAt m (i + 1) = v.extractLsb' 0 8) : field16 m i = v := by
  rw [field16, hhigh, hlow, extractLsb'_append_lower v 0 8 8, BitVec.extractLsb'_eq_self]

theorem field32_of_bytes {m : List Byte} {i : Nat} {v : BitVec 32} (h3 : byteAt m i = v.extractLsb' 24 8)
    (h2 : byteAt m (i + 1) = v.extractLsb' 16 8) (h1 : byteAt m (i + 2) = v.extractLsb' 8 8)
    (h0 : byteAt m (i + 3) = v.extractLsb' 0 8) : field32 m i = v := by
  rw [field32, field16, field16, h3, h2, h1, h0, extractLsb'_append_lower v 16 8 8, extractLsb'_append_lower v 0 8 8,
    extractLsb'_append_lower v 0 16 16, BitVec.extractLsb'_eq_self]

theorem field64_of_words {m : List Byte} {i : Nat} {v : BitVec 64} (hhigh : field32 m i = highWord v)
    (hlow : field32 m (i + 4) = lowWord v) : field64 m i = v := by
  rw [field64, hhigh, hlow, highWord, lowWord, extractLsb'_append_lower v 0 32 32, BitVec.extractLsb'_eq_self]

theorem slotTagByte_toNat (sl : Slot) (t : Tag) : (slotTagByte sl t).toNat = t.val * 16 + sl.val := by
  rw [slotTagByte, BitVec.toNat_ofNat]
  omega

theorem slotBits_slotTagByte (sl : Slot) (t : Tag) : slotBits (slotTagByte sl t) = sl :=
  Fin.ext (by simp only [slotBits, slotTagByte_toNat]; omega)

theorem tagBits_slotTagByte (sl : Slot) (t : Tag) : tagBits (slotTagByte sl t) = t :=
  Fin.ext (by simp only [tagBits, slotTagByte_toNat]; omega)

theorem requestBytes_length (r : Request) : (requestBytes r).length = 24 := rfl

/-- Every field is read where it was written (10, Table 10-5). -/
theorem requestOfBytes_requestBytes (r : Request) : requestOfBytes (requestBytes r) = r := by
  obtain ⟨kind, slot, tag, epoch, key, mode, target, waitTicks, leaseTicks, leaseNum, gen⟩ := r
  rw [requestOfBytes, Request.mk.injEq]
  exact ⟨rfl, slotBits_slotTagByte slot tag, tagBits_slotTagByte slot tag, field16_of_bytes rfl rfl,
    field64_of_words (field32_of_bytes rfl rfl rfl rfl) (field32_of_bytes rfl rfl rfl rfl), rfl, rfl,
    field16_of_bytes rfl rfl, field16_of_bytes rfl rfl, field16_of_bytes rfl rfl, rfl⟩

/-! ### Frames -/

theorem bytes32_length (v : BitVec 32) : (bytes32 v).length = 4 := rfl

theorem frameBytes_length_sub_check (kind : Byte) (payload : List Byte) :
    (frameBytes kind payload).length - 4 = (kind :: payload).length := by
  rw [frameBytes, List.length_append, bytes32_length, Nat.add_sub_cancel]

theorem frameBody_frameBytes (kind : Byte) (payload : List Byte) :
    frameBody (frameBytes kind payload) = kind :: payload := by
  rw [frameBody, frameBytes_length_sub_check, frameBytes, List.take_left]

theorem framePayload_frameBytes (kind : Byte) (payload : List Byte) :
    framePayload (frameBytes kind payload) = payload := by
  rw [framePayload, frameBody_frameBytes, List.drop_one, List.tail_cons]

theorem frameOk_frameBytes (kind : Byte) (payload : List Byte) : frameOk (frameBytes kind payload) = true := by
  have hlong : 5 ≤ (frameBytes kind payload).length := by
    simp only [frameBytes, List.length_append, List.length_cons, bytes32_length]; omega
  have hcheck : (frameBytes kind payload).drop (kind :: payload).length = bytes32 (frameCheck (kind :: payload)) := by
    rw [frameBytes, List.drop_left]
  rw [frameOk, frameBytes_length_sub_check, frameBody_frameBytes, hcheck, decide_eq_true hlong,
    decide_eq_true rfl, Bool.and_self]

/-! ### SPI transactions -/

/-- A word's bits, most significant first, as they are clocked in (11, R202). -/
def bitsOfWord {n : Nat} (v : BitVec n) : List Bool := List.ofFn fun i : Fin n => v.getMsbD i

theorem bitsOfWord_length {n : Nat} (v : BitVec n) : (bitsOfWord v).length = n := List.length_ofFn

/-- One more bit at the end doubles the number and adds the bit. -/
theorem bitsToNat_concat (l : List Bool) (b : Bool) : bitsToNat (l ++ [b]) = 2 * bitsToNat l + b.toNat := by
  simp [bitsToNat]

theorem bitsOfWord_concat {n : Nat} (v : BitVec n) (b : Bool) : bitsOfWord (v.concat b) = bitsOfWord v ++ [b] := by
  rw [bitsOfWord, List.ofFn_succ_last]
  simp [bitsOfWord, BitVec.getMsbD_concat]

theorem concat_of_upper_of_lowest {n : Nat} (v : BitVec (n + 1)) : (v.extractLsb' 1 n).concat (v.getLsbD 0) = v := by
  refine BitVec.eq_of_getLsbD_eq fun i hi => ?_
  cases i with
  | zero => simp
  | succ i => simp [Nat.lt_of_succ_lt_succ hi, Nat.add_comm 1 i]

/-- The bits of a word spell it. -/
theorem bitsToNat_bitsOfWord {n : Nat} (v : BitVec n) : bitsToNat (bitsOfWord v) = v.toNat := by
  induction n with
  | zero => rw [BitVec.eq_nil v]; rfl
  | succ n ih =>
    rw [← concat_of_upper_of_lowest v, bitsOfWord_concat, bitsToNat_concat, ih, BitVec.toNat_concat, Nat.mul_comm]

/-- A read is captured at the end of its command byte, whatever bits follow (11, R203). -/
theorem spiEvent_read (addr : BitVec 7) (more : List Bool) :
    spiEvent (false :: (bitsOfWord addr ++ more)) = .read addr := by
  have hlong : ¬ (bitsOfWord addr ++ more).length < 7 := by rw [List.length_append, bitsOfWord_length]; omega
  have haddr : (bitsOfWord addr ++ more).take 7 = bitsOfWord addr := List.take_left' (bitsOfWord_length addr)
  rw [spiEvent, if_neg hlong, haddr, bitsToNat_bitsOfWord, BitVec.ofNat_toNat, BitVec.setWidth_eq]
  rfl

/-- A write takes effect once its 32 data bits have come, whatever bits follow (11, R203). -/
theorem spiEvent_write (addr : BitVec 7) (v : Word) (more : List Bool) :
    spiEvent (true :: (bitsOfWord addr ++ (bitsOfWord v ++ more))) = .write addr v := by
  have hlong : 39 ≤ (bitsOfWord addr ++ (bitsOfWord v ++ more)).length := by
    simp only [List.length_append, bitsOfWord_length]; omega
  have haddr : (bitsOfWord addr ++ (bitsOfWord v ++ more)).take 7 = bitsOfWord addr :=
    List.take_left' (bitsOfWord_length addr)
  have hdata : ((bitsOfWord addr ++ (bitsOfWord v ++ more)).drop 7).take 32 = bitsOfWord v := by
    rw [List.drop_left' (bitsOfWord_length addr), List.take_left' (bitsOfWord_length v)]
  rw [spiEvent, if_neg (by omega), haddr, hdata, if_pos rfl, if_pos hlong]
  simp only [bitsToNat_bitsOfWord, BitVec.ofNat_toNat, BitVec.setWidth_eq]

/-- A write of fewer than 32 data bits is no event (11, R203). -/
theorem spiEvent_short_write (addr : BitVec 7) {data : List Bool} (h : data.length < 32) :
    spiEvent (true :: (bitsOfWord addr ++ data)) = .nothing := by
  have hlen : (bitsOfWord addr ++ data).length = 7 + data.length := by rw [List.length_append, bitsOfWord_length]
  rw [spiEvent, if_neg (by omega), if_pos rfl, if_neg (by omega)]

/-- Settles O60: the fields of a request, the parts of a frame, and the bits of a transaction. -/
theorem messagesFramesAndTransactions : Obligations.MessagesFramesAndTransactions := by
  refine ⟨fun r => ⟨requestOfBytes_requestBytes r, requestBytes_length r⟩, fun kind payload =>
    ⟨frameOk_frameBytes kind payload, rfl, framePayload_frameBytes kind payload⟩, fun addr v more => ⟨?_, ?_, ?_⟩⟩
  · rw [List.cons_append, List.cons_append, List.append_assoc]
    exact spiEvent_write addr v more
  · exact spiEvent_read addr more
  · exact fun n hn => spiEvent_short_write addr (by simpa using hn)

end Sys2Proof.Machine
end

section
/-! A write to CMD at the mailbox (11, R192, R193; O45). -/

namespace Sys2Proof.Machine

/-! ### The rows of R192's table -/

section
variable {v : Word} {s : State}

/-- Code 0 names no command and is ignored (11, R192). -/
theorem writeCmd_noCode (hcode : v.extractLsb' 0 8 = 0#8) : writeCmd v s = s := if_pos hcode

/-- An IDLE or DONE mailbox takes the command (11, R192). -/
theorem writeCmd_free (hcode : v.extractLsb' 0 8 ≠ 0#8)
    (hfree : ¬ (s.mbox.state = .pending ∨ s.mbox.state = .running)) :
    writeCmd v s = placeCommand (v.extractLsb' 0 8) s := by
  rw [writeCmd, if_neg hcode]
  cases hstate : s.mbox.state with
  | idle | done => rfl
  | pending => exact absurd (.inl hstate) hfree
  | running => exact absurd (.inr hstate) hfree

/-- With a command in flight a write supersedes it or is an overrun (11, R192). -/
theorem writeCmd_busy (hcode : v.extractLsb' 0 8 ≠ 0#8)
    (hbusy : s.mbox.state = .pending ∨ s.mbox.state = .running) : writeCmd v s
    = if s.mbox.code ≠ abortCode ∧ v.extractLsb' 0 8 = abortCode then supersede false s.args s
      else postEvent .cmdOverrun s := by
  rw [writeCmd, if_neg hcode]
  rcases hbusy with hstate | hstate <;> rw [hstate]

end

/-- Settles O45: R192's table, the code zero first, then by whether a command is in flight. -/
theorem commandPlacedAtTheMailbox : Obligations.CommandPlacedAtTheMailbox := by
  intro s v code busy
  refine ⟨writeCmd v s, rfl, writeCmd_noCode, fun hcode hfree => ?_, fun hbusy habort hother => ?_,
    fun hbusy hcode hoverrun => ?_⟩
  · rw [writeCmd_free hcode hfree]; rfl
  · have hcode : code ≠ 0#8 := by rw [habort]; decide
    rw [writeCmd_busy hcode hbusy, if_pos ⟨hother, habort⟩]; rfl
  · have hstands : ¬ (s.mbox.code ≠ abortCode ∧ code = abortCode) := fun ⟨hother, habort⟩ =>
      hoverrun.elim (· habort) hother
    rw [writeCmd_busy hcode hbusy, if_neg hstands]; rfl

end Sys2Proof.Machine
end

section
/-! SEED and START (11, R184, R194; O49). -/

namespace Sys2Proof.Machine

/-! ### A command that brings the part into service -/

/-- From `v` to `u` the token counter, SEEDED, the part state and EVENTS alone are written, and no quiesce begins. -/
structure StartupWritten (v u : State) : Prop where
  rest : u = { v with token := u.token, seeded := u.seeded, part := u.part, events := u.events }
  noQuiesce : u.part = .quiescing → v.part = .quiescing

theorem StartupWritten.refl (v : State) : StartupWritten v v := ⟨rfl, id⟩

theorem StartupWritten.keeps {v u : State} (h : StartupWritten v u) :
    u.now = v.now ∧ u.tickPeriod = v.tickPeriod ∧ u.tickPos = v.tickPos ∧ u.marks = v.marks ∧ u.offered = v.offered ∧
    u.records = v.records ∧ u.leases = v.leases ∧ u.gens = v.gens ∧ u.waits = v.waits ∧ u.domains = v.domains ∧
    u.agents = v.agents ∧ u.sweep = v.sweep ∧ u.outer = v.outer ∧ u.inner = v.inner ∧ u.chosen = v.chosen ∧
    u.pools = v.pools ∧ u.ports = v.ports ∧ u.mbox = v.mbox ∧ u.args = v.args ∧ u.res = v.res ∧
    u.eventEnable = v.eventEnable ∧ u.nowLatch = v.nowLatch ∧ u.spiData = v.spiData ∧ u.handed = v.handed ∧
    u.freeDraws = v.freeDraws ∧ u.pending = v.pending := by
  rw [h.rest]; simp

/-- What the end of SEED's or START's item leaves, whose work has left `u`: the counter, SEEDED, the part state and
EVENTS are as written, and the command has completed (11, R191). -/
structure StartupDone (s u t : State) (res : CmdResult) (words : List Word) : Prop where
  rest : t = { beginCommand s with token := t.token, seeded := t.seeded, part := t.part, mbox := t.mbox, res := t.res,
                                   events := t.events, offered := t.offered }
  token : t.token = u.token
  seeded : t.seeded = u.seeded
  part : t.part = u.part
  offer : OfferStands (beginCommand s) t
  completes : Completes { s with events := u.events } t res words

/-- SEED or START taken: no quiesce is over, so the clock's offer is all that the item's end adds (07, R133;
11, R187). -/
theorem exec_startupDone {i : Instr} {isCode : Byte → Bool} {work : Byte → State → State} {s u : State} {c : Byte}
    {res : CmdResult} {words : List Word} (harm : exec i s = takeCommand isCode work s)
    (h : takenCommand s = some c) (hc : isCode c = true)
    (hwork : work c (startCommand s) = completeTaken c res words u) (hu : StartupWritten (startCommand s) u)
    (hw : res ≠ .ok → words = []) : ∃ t, exec i s = .next t ∧ StartupDone s u t res words := by
  have hkeeps := hu.keeps
  have hexec : exec i s = .next (withHanded s.handed (finishItem s (work c (startCommand s)))) := by
    rw [harm, takeCommand_taken h hc]; rfl
  have hcount : ∀ k, poolCount (completeCmd res words u) k = poolCount s k := fun k => by
    cases k <;> simp [poolCount, hkeeps]
  have hquiesce : quiesceOver (completeCmd res words u) = true → quiesceOver s = true := fun hover => by
    simp only [quiesceOver, completeCmd_keeps, hkeeps, hcount, startCommand_keeps, Bool.and_eq_true,
      decide_eq_true_eq] at hover ⊢
    obtain ⟨⟨hpart, hjobs⟩, hempty⟩ := hover
    exact ⟨⟨by simpa using hu.noQuiesce hpart, hjobs⟩, hempty⟩
  have hpools := endItem_pools (by simp [hkeeps]) hcount
  rw [hexec, hwork, completeTaken_pending res words (by simpa [hkeeps] using mbox_of_takenCommand h),
    finishItem_of_no_fence (endFenceJobs_quiet fun a ha => by rwa [agent_congr (s := s) (by simp [hkeeps])]),
    quiesceHalt_quiet hquiesce]
  refine ⟨_, rfl, ?_, by simp [endItem_tables], by simp, by simp, endItem_offerStands (by simp [hkeeps]),
    completes_of_completeCmd hw (u := u) (by simp [hkeeps]) rfl (by simp) (by simp) (by simp)⟩
  apply State.ext <;> simp [endItem_tables, hpools, hkeeps]

section
variable {s u t : State} {res : CmdResult} {words : List Word}

/-- A command that has written the counter and SEEDED at most. -/
theorem StartupDone.rest_seed (h : StartupDone s u t res words) (hu : u.part = (startCommand s).part) :
    t = { beginCommand s with token := t.token, seeded := t.seeded, mbox := t.mbox, res := t.res, events := t.events,
                              offered := t.offered } := by
  have hpart : t.part = (beginCommand s).part := h.part.trans hu
  have hrest := h.rest
  rwa [hpart] at hrest

/-- A command that has written the part state at most. -/
theorem StartupDone.rest_start (h : StartupDone s u t res words) (htoken : u.token = (startCommand s).token)
    (hseeded : u.seeded = (startCommand s).seeded) :
    t = { beginCommand s with part := t.part, mbox := t.mbox, res := t.res, events := t.events,
                              offered := t.offered } := by
  have ht : t.token = (beginCommand s).token := h.token.trans htoken
  have hs : t.seeded = (beginCommand s).seeded := h.seeded.trans hseeded
  have hrest := h.rest
  rwa [ht, hs] at hrest

/-- The completion of a command that has set no flag of its own. -/
theorem StartupDone.completes_of_events (h : StartupDone s u t res words) (he : u.events = s.events) :
    Completes s t res words := by
  have hdone := h.completes
  rwa [he] at hdone

/-- A command that has written nothing leaves the counter, SEEDED and the part state. -/
theorem StartupDone.unwritten (h : StartupDone s (startCommand s) t res words) :
    t.token = s.token ∧ t.seeded = s.seeded ∧ t.part = s.part ∧ Completes s t res words :=
  ⟨h.token.trans (by simp), h.seeded.trans (by simp), h.part.trans (by simp), h.completes_of_events (by simp)⟩

end

/-! ### SEED -/

/-- The value latched can be the counter's: not below it, and not its end value (11, R194). -/
def seedFits (s : State) : Prop :=
  s.token.toNat ≤ (argPair s 0 1).toNat ∧ argPair s 0 1 ≠ 0xFFFFFFFFFFFFFFFF#64

theorem argPair_startCommand (s : State) (i j : Fin 8) : argPair (startCommand s) i j = argPair s i j := by
  simp only [argPair, argWord_startCommand]

theorem seedFits_startCommand (s : State) : seedFits (startCommand s) ↔ seedFits s := by
  simp [seedFits, argPair_startCommand]

/-- The counter set to the value latched, and SEEDED (11, R194). -/
def seededState (v : State) : State := { v with token := argPair v 0 1, seeded := true }

theorem seededState_written (v : State) : StartupWritten v (seededState v) := ⟨rfl, id⟩

section
variable {c : Byte} {v : State}

theorem seedWork_notHalted (hp : v.part ≠ .halted) : seedWork c v = completeTaken c .notHalted [] v := if_pos hp

variable (hp : v.part = .halted)
include hp

theorem seedWork_invalid (hfits : ¬ seedFits v) : seedWork c v = completeTaken c .invalid [] v := by
  have hbad : (argPair v 0 1).toNat < v.token.toNat ∨ argPair v 0 1 = Config.tokenEnd := by
    rwa [seedFits, not_and_or, Nat.not_le, not_not] at hfits
  rw [seedWork, if_neg (not_not.2 hp), if_pos hbad]

theorem seedWork_seeded (hfits : seedFits v) :
    seedWork c v = completeTaken c .ok [argWord v 0, argWord v 1] (seededState v) := by
  obtain ⟨hge, hend⟩ := hfits
  have hgood : ¬ ((argPair v 0 1).toNat < v.token.toNat ∨ argPair v 0 1 = Config.tokenEnd) :=
    not_or.2 ⟨Nat.not_lt.2 hge, hend⟩
  rw [seedWork, if_neg (not_not.2 hp), if_neg hgood, argPair, highWord_joinWords, lowWord_joinWords]
  rfl

end

/-- SEED taken in HALTED with a value that fits sets the counter (11, R194). -/
theorem exec_seed_seeded {s : State} (htaken : takenCommand s = some 5#8) (hp : s.part = .halted)
    (hfits : seedFits s) : ∃ t, exec .seed s = .next t
      ∧ StartupDone s (seededState (startCommand s)) t .ok [argWord s 0, argWord s 1] := by
  rw [← argWord_startCommand s 0, ← argWord_startCommand s 1]
  exact exec_startupDone rfl htaken rfl (seedWork_seeded (by simpa using hp) ((seedFits_startCommand s).2 hfits))
    (seededState_written _) fun hok => absurd rfl hok

/-- SEED taken and refused writes nothing. -/
theorem exec_seed_refused {s : State} {res : CmdResult} (htaken : takenCommand s = some 5#8)
    (hwork : seedWork 5#8 (startCommand s) = completeTaken 5#8 res [] (startCommand s)) :
    ∃ t, exec .seed s = .next t ∧ StartupDone s (startCommand s) t res [] :=
  exec_startupDone rfl htaken rfl hwork (.refl _) fun _ => rfl

/-! ### START -/

/-- The counter has been seeded and some domain entry is valid (11, R184). -/
def readyToStart (s : State) : Prop := s.seeded = true ∧ ∃ d : Fin 16, (s.domain d).valid = true

theorem readyToStart_startCommand (s : State) : readyToStart (startCommand s) ↔ readyToStart s := by
  simp only [readyToStart, (startCommand_taken s).domain, startCommand_keeps]

theorem anyDomainValid_iff (s : State) :
    s.domains.toList.any (fun d => d.valid) = true ↔ ∃ d : Fin 16, (s.domain d).valid = true := by
  simp [State.domain, Vector.get_eq_getElem, Vector.any_eq_true, Fin.exists_iff]

theorem partEntered_running_startup (v : State) : StartupWritten v (partEntered .running v) :=
  ⟨rfl, fun h => by cases h⟩

section
variable {c : Byte} {v : State}

theorem startWork_started (hp : v.part = .halted) (hready : readyToStart v) :
    startWork c v = completeTaken c .ok [1#32] (partEntered .running v) := by
  rw [readyToStart, ← anyDomainValid_iff] at hready
  simp only [startWork, hp, if_pos hready]; rfl

theorem startWork_notReady (hp : v.part = .halted) (hready : ¬ readyToStart v) :
    startWork c v = completeTaken c .notReady [] v := by
  rw [readyToStart, ← anyDomainValid_iff] at hready
  simp only [startWork, hp, if_neg hready]

theorem startWork_already (hp : v.part = .running) : startWork c v = completeTaken c .already [] v := by
  simp only [startWork, hp]

theorem startWork_notHalted (hp : v.part = .quiescing ∨ v.part = .aborting) :
    startWork c v = completeTaken c .notHalted [] v := by
  rcases hp with hp | hp <;> simp only [startWork, hp]

end

/-- START taken in HALTED makes a ready part RUNNING (11, R184). -/
theorem exec_start_started {s : State} (htaken : takenCommand s = some 6#8) (hp : s.part = .halted)
    (hready : readyToStart s) : ∃ t, exec .start s = .next t
      ∧ StartupDone s (partEntered .running (startCommand s)) t .ok [1#32] :=
  exec_startupDone rfl htaken rfl (startWork_started (by simpa using hp) ((readyToStart_startCommand s).2 hready))
    (partEntered_running_startup _) fun hok => absurd rfl hok

/-- START taken and refused writes nothing. -/
theorem exec_start_refused {s : State} {res : CmdResult} (htaken : takenCommand s = some 6#8)
    (hwork : startWork 6#8 (startCommand s) = completeTaken 6#8 res [] (startCommand s)) :
    ∃ t, exec .start s = .next t ∧ StartupDone s (startCommand s) t res [] :=
  exec_startupDone rfl htaken rfl hwork (.refl _) fun _ => rfl

/-! ### The statement -/

/-- Settles O49: SEED outside HALTED, with a value that fits and with one that does not; START in each part state. -/
theorem seedAndStart : Obligations.SeedAndStart := by
  have hpart : ∀ s : State, (startCommand s).part = s.part := fun s => by simp
  refine ⟨fun s htaken => ?_, fun s htaken => ?_⟩
  · intro b v fits
    by_cases hp : s.part = .halted
    · by_cases hfits : fits
      · obtain ⟨t, hexec, hdone⟩ := exec_seed_seeded htaken hp hfits
        have htoken : t.token = v := hdone.token.trans (argPair_startCommand s 0 1)
        exact ⟨t, hexec, hdone.rest_seed rfl, hdone.offer,
          fun _ _ => ⟨htoken, hdone.seeded, hdone.completes_of_events (by simp [seededState])⟩,
          fun _ h => absurd hfits h, fun h => absurd hp h⟩
      · obtain ⟨t, hexec, hdone⟩ := exec_seed_refused htaken
          (seedWork_invalid (by rwa [hpart]) fun h => hfits ((seedFits_startCommand s).1 h))
        obtain ⟨htoken, hseeded, -, hcompletes⟩ := hdone.unwritten
        exact ⟨t, hexec, hdone.rest_seed rfl, hdone.offer, fun _ h => absurd h hfits,
          fun _ _ => ⟨htoken, hseeded, hcompletes⟩, fun h => absurd hp h⟩
    · obtain ⟨t, hexec, hdone⟩ := exec_seed_refused htaken (seedWork_notHalted (by rwa [hpart]))
      obtain ⟨htoken, hseeded, -, hcompletes⟩ := hdone.unwritten
      exact ⟨t, hexec, hdone.rest_seed rfl, hdone.offer, fun h => absurd h hp, fun h => absurd h hp,
        fun _ => ⟨htoken, hseeded, hcompletes⟩⟩
  · intro b ready
    cases hp : s.part with
    | halted =>
      by_cases hready : ready
      · obtain ⟨t, hexec, hdone⟩ := exec_start_started htaken hp hready
        have hevents : (partEntered .running (startCommand s)).events = s.events ||| 8#32 :=
          (partEntered_events ..).trans (by simp)
        have hcompletes := hdone.completes
        rw [hevents] at hcompletes
        exact ⟨t, hexec, hdone.rest_start rfl rfl, hdone.offer, fun _ _ => ⟨hdone.part, hcompletes⟩,
          fun _ h => absurd hready h, nofun, nofun⟩
      · obtain ⟨t, hexec, hdone⟩ := exec_start_refused htaken
          (startWork_notReady (by rwa [hpart]) fun h => hready ((readyToStart_startCommand s).1 h))
        obtain ⟨-, -, hsame, hcompletes⟩ := hdone.unwritten
        exact ⟨t, hexec, hdone.rest_start rfl rfl, hdone.offer, fun _ h => absurd h hready,
          fun _ _ => ⟨hsame.trans hp, hcompletes⟩, nofun, nofun⟩
    | running =>
      obtain ⟨t, hexec, hdone⟩ := exec_start_refused htaken (startWork_already (by rwa [hpart]))
      obtain ⟨-, -, hsame, hcompletes⟩ := hdone.unwritten
      exact ⟨t, hexec, hdone.rest_start rfl rfl, hdone.offer, nofun, nofun,
        fun _ => ⟨hsame.trans hp, hcompletes⟩, nofun⟩
    | quiescing | aborting =>
      obtain ⟨t, hexec, hdone⟩ := exec_start_refused htaken (startWork_notHalted (by simp [hp]))
      obtain ⟨-, -, hsame, hcompletes⟩ := hdone.unwritten
      exact ⟨t, hexec, hdone.rest_start rfl rfl, hdone.offer, nofun, nofun, nofun,
        fun _ => ⟨hsame.trans hp, hcompletes⟩⟩

end Sys2Proof.Machine
end

section
/-! The reads that latch the word read after them (11, R201; O56). -/

namespace Sys2Proof.Machine

/-- A pool's first POOL_MARK word holds its low and high marks (11, R201, Table 11-4). -/
theorem readRegister_poolMark (s : State) (k : Pool) :
    readRegister s (poolMarkAddr k) = atBit 0 (s.pool k).low ||| atBit 16 (s.pool k).high := by
  cases k <;> rfl

/-- The word after it is the pool's latch (11, R201, Table 11-4). -/
theorem readRegister_shedLatch (s : State) (k : Pool) :
    readRegister s (poolMarkAddr k + 1#7) = BitVec.ofNat 32 (s.pool k).shedLatch := by
  cases k <;> rfl

/-- A pool's monitor once its shed mark is latched (11, R201). -/
def shedLatched (p : PoolState) : PoolState := { p with shedLatch := p.shed }

/-- The read of a pool's first POOL_MARK word writes the word captured and that pool's latch. -/
theorem exec_poolMarkRead (s : State) (k : Pool) : exec (.poolMarkRead k) s
    = .next (updPool k shedLatched { s with spiData := atBit 0 (s.pool k).low ||| atBit 16 (s.pool k).high }) := by
  rw [← readRegister_poolMark]; rfl

/-- Settles O56: the reads' captures, their latches as the next word reads them, and the latches at reset. -/
theorem latchingReads : Obligations.LatchingReads := by
  refine ⟨fun s => ⟨_, rfl, rfl, rfl⟩, ⟨rfl, fun k => by cases k <;> rfl⟩, fun s k => ⟨_, exec_poolMarkRead s k, ?_⟩⟩
  generalize atBit 0 (s.pool k).low ||| atBit 16 (s.pool k).high = w
  have hpool : ∀ j, State.pool { s with spiData := w } j = s.pool j := fun j => by cases j <;> rfl
  refine ⟨by cases k <;> rfl, by rw [updPool_pool, if_pos rfl, hpool]; rfl,
    fun j hj => by rw [updPool_pool, if_neg hj, hpool], ?_⟩
  rw [readRegister_shedLatch, updPool_pool, if_pos rfl, hpool]; rfl

end Sys2Proof.Machine
end
